-- ==== Sys2Proof/Word.lean ====
section
/-! DEFINITION. The words the spec names, with their widths (00_scope.md R11, R12), and the plainest arithmetic on
them. Nothing here decides a behaviour: bit fields, byte order and sign extension stand in Decode.lean and in
Machine/Operands.lean. -/

namespace Sys2Proof

/-- A byte of a frame buffer (20_memory.md R60). -/
abbrev Byte := BitVec 8

/-- An unsigned 8-bit integer (00_scope.md R11, R12). -/
abbrev U8 := BitVec 8

/-- An unsigned 32-bit integer (00_scope.md R11, R12). -/
abbrev U32 := BitVec 32

/-- An unsigned 64-bit integer; its arithmetic wraps modulo 2^64 (00_scope.md R11, R12). -/
abbrev U64 := BitVec 64

/-- A 32-bit two's-complement pattern; `BitVec.toInt` reads it as the signed number (00_scope.md R12). -/
abbrev S32 := BitVec 32

/-- A command's header word (30_encoding.md R80). -/
abbrev Header := BitVec 32

/-- A line level, 0 (`false`) or 1 (`true`) (10_state.md R33). -/
abbrev Level := Bool

/-- A bus endpoint's path (10_state.md R40). -/
abbrev BusPath := String

end Sys2Proof
end

