-- ==== Sys2Proof/Machine/Parameters.lean ====
section
/-! DEFINITION. The parameters of 00_scope.md R10 that are values or sizes, one field each, their defaults, and the
sizes of the buffers, which are read from them. The document's literals are "unaudited" (92_eei_decisions.md D41): a
correction of one changes `Machine.params` and nothing else. The open parameters are opaque constants of Config.lean. -/

namespace Sys2Proof

/-- The parameters of 00_scope.md R10. `FRAME_BYTES` is no field of its own: R10 gives it as a product. -/
structure Config.Params where
  /-- `NUM_CHANNELS`. -/
  numChannels : Nat
  /-- `BYTES_PER_SAMPLE`. -/
  bytesPerSample : Nat
  /-- `SAMPLE_BITS`. -/
  sampleBits : Nat
  /-- `BITS_PER_WORD`. -/
  bitsPerWord : U8
  /-- `DEFAULT_CLOCK_HZ`. -/
  defaultClockHz : U32
  /-- `DEFAULT_MODE`. -/
  defaultMode : U8
  /-- `DEFAULT_TIMEOUT_MS`. -/
  defaultTimeoutMs : U32
  /-- `SYNC_PULSE_US`. -/
  syncPulseUs : Nat
  /-- `OVERRUN_US`. -/
  overrunUs : Nat
  /-- `SIGN_FILL`. -/
  signFill : U32
  /-- `RECORD_BYTES`. -/
  recordBytes : Nat
deriving DecidableEq, Repr

/-- The defaults of 00_scope.md R10, the document's values (log 12); `RECORD_BYTES` is the sum of the record's fields,
the document's 44 being the losing value (90_conflicts.md C1). -/
def Machine.params : Config.Params :=
  { numChannels := 8, bytesPerSample := 3, sampleBits := 24, bitsPerWord := 8, defaultClockHz := 1000000,
    defaultMode := 0, defaultTimeoutMs := 2000, syncPulseUs := 10, overrunUs := 5000, signFill := 0xFF000000,
    recordBytes := 48 }

/-- The parameters whose value is a TYPE: the line identifiers, of which only equality is used (00_scope.md R10
`LineId`, 91_not_in_source.md N11), and the environment's causes, which are only passed on (60_exceptions.md R202
`Cause`). -/
structure Config.OpenTypes where
  /-- `LineId`. -/
  LineId : Type
  /-- `Cause`, the environment's part. -/
  EnvCause : Type

/-- The types taken for the open ones. DESIGN CHOICE, safe: the natural numbers, for the line identifiers (log 9) and for
the causes (log 10). -/
@[reducible] def Machine.openTypes : Config.OpenTypes := { LineId := Nat, EnvCause := Nat }

/-- `LineId`, the type of line identifiers (00_scope.md R10; log 9). -/
abbrev LineId : Type := Machine.openTypes.LineId

/-- The type of the causes that the environment's failures carry (10_state.md R44, 60_exceptions.md R202; log 10). -/
abbrev EnvCause : Type := Machine.openTypes.EnvCause

/-- `NUM_CHANNELS`, the channels of one frame (00_scope.md R10). -/
abbrev numChannels : Nat := Machine.params.numChannels

/-- `BYTES_PER_SAMPLE` (00_scope.md R10). -/
abbrev bytesPerSample : Nat := Machine.params.bytesPerSample

/-- `FRAME_BYTES` = `NUM_CHANNELS` × `BYTES_PER_SAMPLE` (00_scope.md R10). -/
abbrev frameBytes : Nat := numChannels * bytesPerSample

/-- `SAMPLE_BITS` (00_scope.md R10). -/
abbrev sampleBits : Nat := Machine.params.sampleBits

/-- `RECORD_BYTES` (00_scope.md R10). -/
abbrev recordBytes : Nat := Machine.params.recordBytes

/-- The bytes of one exchange or of the raw-frame shadow; byte 0 is the first (10_state.md R26, R36, R37). -/
abbrev FrameBuf := Vector Byte frameBytes

/-- The channel values of a Frame (10_state.md R38). -/
abbrev Channels := Vector S32 numChannels

/-- A frame buffer of 0x00 throughout. -/
def FrameBuf.zero : FrameBuf := Vector.replicate frameBytes 0x00#8

namespace Machine

/-- The SCLK periods of one exchange: `FRAME_BYTES` words of `BITS_PER_WORD` bits (42_spi_master.md R149). -/
def exchangePeriods : Nat := frameBytes * params.bitsPerWord.toNat

end Machine

end Sys2Proof
end

