-- ==== Sys2Proof/Syntax.lean ====
section
/-! DEFINITION. The commands of the block and their typed operands (30_encoding.md R80 to R84, R95): one constructor
of `Instr` for each row of spec/opcode_table.json, and the form in which the host hands a command over. -/

namespace Sys2Proof

/-- A line slot, the `S` field: 0 is `DRDY`, 1 is `SYNC` (00_scope.md R4, 30_encoding.md R80). -/
inductive Slot where
  | drdy
  | sync
deriving DecidableEq, Repr, Inhabited

/-- A line direction, the `D` field: 0 is `in`, 1 is `out` (30_encoding.md R80). -/
inductive Dir where
  | input
  | output
deriving DecidableEq, Repr, Inhabited

/-- The configuration record, payload of ACQ.OPEN (30_encoding.md R95, 00_scope.md R11). -/
structure DeviceConfig where
  /-- `bus_path`. -/
  busPath : Option BusPath
  /-- `clock_hz`. -/
  clockHz : U32
  /-- `mode`. -/
  mode : U8
  /-- `no_cs`. -/
  noCs : Bool
  /-- `drdy_line`. -/
  drdyLine : Option LineId
  /-- `sync_line`. -/
  syncLine : Option LineId
  /-- `sync_enable`. -/
  syncEnable : Bool
  /-- `settle_frames`. -/
  settleFrames : U32
  /-- `timeout_ms`. -/
  timeoutMs : U32
deriving DecidableEq, Repr, Inhabited

/-- The configuration with every field "zero or absent" (30_encoding.md R95, R100). -/
def DeviceConfig.blank : DeviceConfig :=
  { busPath := none, clockHz := 0, mode := 0, noCs := false, drdyLine := none, syncLine := none,
    syncEnable := false, settleFrames := 0, timeoutMs := 0 }

/-- The fourteen commands (30_encoding.md R83, R84). -/
inductive Instr where
  /-- LINE.ACQUIRE: slot `S`, direction `D`, the edge selector or initial level `V`, `line_id`. -/
  | lineAcquire (k : Slot) (d : Dir) (v : Bool) (l : LineId)
  /-- LINE.WAIT: slot `S`, `timeout_ms`. -/
  | lineWait (k : Slot) (ms : U32)
  /-- LINE.GET: slot `S`. -/
  | lineGet (k : Slot)
  /-- LINE.SET: slot `S`, level `V`. -/
  | lineSet (k : Slot) (v : Level)
  /-- LINE.RELEASE: slot `S`. -/
  | lineRelease (k : Slot)
  /-- SPI.OPEN: `path`, `clock_hz`, `mode`, `no_cs`. -/
  | spiOpen (path : BusPath) (hz : U32) (mode : U8) (noCs : Bool)
  /-- SPI.XFER: `len`. -/
  | spiXfer (len : U32)
  /-- SPI.CLOSE. -/
  | spiClose
  /-- ACQ.OPEN: the configuration when `P` = 1, `none` when `P` = 0. -/
  | acqOpen (cfg : Option DeviceConfig)
  /-- ACQ.START. -/
  | acqStart
  /-- ACQ.READ: `P`, whether the output slot is present. -/
  | acqRead (p : Bool)
  /-- ACQ.RAW: `P`, whether the output slot is present. -/
  | acqRaw (p : Bool)
  /-- ACQ.STOP. -/
  | acqStop
  /-- ACQ.CLOSE. -/
  | acqClose
deriving DecidableEq, Repr, Inhabited

/-- A command's typed payload (30_encoding.md R83). It is typed, not bit-packed, so no byte layout is given to it. -/
inductive Payload where
  /-- No payload. -/
  | empty
  /-- `line_id`. -/
  | line (l : LineId)
  /-- `timeout_ms`. -/
  | timeout (ms : U32)
  /-- `path`, `clock_hz`, `mode`, `no_cs`. -/
  | endpoint (path : BusPath) (hz : U32) (mode : U8) (noCs : Bool)
  /-- `len`. -/
  | length (len : U32)
  /-- `cfg`. -/
  | config (cfg : DeviceConfig)
deriving DecidableEq, Repr, Inhabited

/-- One command as the host hands it over: a header word followed by its payload (30_encoding.md R80, R89). -/
structure Command where
  header : Header
  payload : Payload
deriving DecidableEq, Repr, Inhabited

end Sys2Proof
end

