-- ==== Sys2Proof/Config.lean ====
section
/-! DEFINITION. What an implementation or its environment fixes (00_scope.md R10): the environment
oracle's vocabulary (10_state.md R44), the OPEN parameters and the FREE VALUES, opaque constants about which nothing can
be proved. The parameters with a value stand in Machine/Parameters.lean. -/

namespace Sys2Proof

/-- The cause an IO_FAILURE records (60_exceptions.md R202): the environment's own opaque cause, or one of the block's
three. DESIGN CHOICE, safe: the environment's causes are named by numbers (log 10). -/
inductive Cause where
  /-- The environment's cause `c`, of `Fail(c)` (10_state.md R44). -/
  | env (c : EnvCause)
  /-- `Rejected` (42_spi_master.md R141). -/
  | rejected
  /-- `NotOutput` (41_gpio_line.md R125). -/
  | notOutput
  /-- `ShortWrite` (41_gpio_line.md R125). -/
  | shortWrite
deriving DecidableEq, Repr, Inhabited

/-- The edge-detection mode of a line: falling is the only one (10_state.md R29, 41_gpio_line.md R114). -/
inductive EdgeMode where
  | falling
deriving DecidableEq, Repr, Inhabited

/-- What the environment keeps of one line: who reserved it is not visible, that somebody did is (10_state.md R32); its
level (R33); the direction and edge mode it was set to (70_reset_and_hazards.md R232). -/
structure LineEnv where
  reserved : Bool
  pin : Level
  dir : Option Dir
  edge : Option EdgeMode
deriving DecidableEq, Repr, Inhabited

/-- A step of the environment that may fall between two underlying calls (10_state.md R31, 20_memory.md R75). -/
inductive EnvEvent where
  /-- `PinFall(l)`. -/
  | pinFall (l : LineId)
  /-- `PinRise(l)`. -/
  | pinRise (l : LineId)
  /-- Another process reserves line `l`. -/
  | otherReserve (l : LineId)
  /-- Another process releases its reservation of line `l`. -/
  | otherRelease (l : LineId)
deriving DecidableEq, Repr, Inhabited

/-- The environment's verdict on one underlying call, before the constraints of 10_state.md R44 are applied: each call
of Machine/Environment.lean says which admitted answer a verdict is for it (log 3). -/
inductive Verdict where
  /-- The call is carried out. -/
  | ok
  /-- `Fail(c)`. -/
  | fail (c : EnvCause)
  /-- `Rejected`, an answer of spiSetMode only. -/
  | rejected
  /-- `Short`, an answer of writeValue only. -/
  | short
  /-- `Timeout`, an answer of waitEdge only. -/
  | timeout
  /-- The environment has not answered yet, of waitEdge only (41_gpio_line.md R119). -/
  | silent
deriving DecidableEq, Repr, Inhabited

/-- One turn of the environment, spent on one underlying call: the steps it takes before it answers, its verdict, and
what MISO and the clock show if the call is an exchange or a clock sample (log 1, 2). -/
structure Turn where
  events : List EnvEvent
  verdict : Verdict
  rx : FrameBuf
  time : U64
deriving DecidableEq, Repr, Inhabited

/-- FREE VALUE: the environment's turns beyond its script, one for each value of `State.env.free` (10_state.md R45:
a claim holds for every sequence of answers). DESIGN CHOICE, safe (log 1). -/
opaque Config.freeTurn : Nat → Turn

/-- FREE VALUE: the draws of a level or a latch (93_implementation_defined.md U10, U11, U13, U14), one for each value
of `State.env.free`. DESIGN CHOICE, safe (log 17 to 20). -/
opaque Config.freeBit : Nat → Bool

/-- FREE VALUE: the content of `s.cfg` after ACQ.CLOSE (93_implementation_defined.md U24). DESIGN CHOICE, safe
(log 13). -/
opaque Config.freeConfig : Nat → DeviceConfig

/-- FREE VALUE: what the environment holds of a line that nothing has touched since reset
(93_implementation_defined.md U25, 70_reset_and_hazards.md R232). DESIGN CHOICE, safe (log 16). -/
opaque Config.lineAtReset : LineId → LineEnv

/-- OPEN parameter `DEFAULT_BUS_PATH` (00_scope.md R10). DESIGN CHOICE, safe (log 11). -/
opaque Config.defaultBusPath : BusPath

/-- What the subsystem would make of a requested maximum clock rate; `Machine.sclkActual` bounds it
(00_scope.md R10 `SCLK_ACTUAL`). DESIGN CHOICE, safe (log 29). -/
opaque Config.sclkOffered : U32 → U32

end Sys2Proof
end

