-- ==== Sys2Proof/WellFormed.lean ====
section
/-! DEFINITION. Well-formed commands: those whose operands, by themselves, the spec gives a meaning. An ill-formed
command decodes all the same and its meaning refuses it (30_encoding.md R86, R88). The widths of the operands hold by
their types. -/

namespace Sys2Proof

/-- DRDY and SYNC are not both configured to one line while sync is enabled (30_encoding.md R88, 43_acquisition.md
R162). -/
def DeviceConfig.linesDiffer (c : DeviceConfig) : Bool :=
  !(c.syncEnable && c.syncLine.isSome && c.syncLine == c.drdyLine)

/-- `wellFormed i`: no reserved edge selector (30_encoding.md R86), a length of one frame, and distinct lines
(30_encoding.md R88). -/
def Instr.wellFormed : Instr → Bool
  | .lineAcquire _ d v _ => !(d == .input && v)
  | .lineWait _ _ => true
  | .lineGet _ => true
  | .lineSet _ _ => true
  | .lineRelease _ => true
  | .spiOpen _ _ _ _ => true
  | .spiXfer len => len == BitVec.ofNat 32 frameBytes
  | .spiClose => true
  | .acqOpen none => true
  | .acqOpen (some c) => c.linesDiffer
  | .acqStart => true
  | .acqRead _ => true
  | .acqRaw _ => true
  | .acqStop => true
  | .acqClose => true

end Sys2Proof
end

