-- ==== Sys2Proof/Decode.lean ====
section
/-! DEFINITION. The decoder (30_encoding.md R80 to R87) and, after it, the encoder. The decoder is total: a header word
that matches no row, or a payload that is not of the shape its opcode fixes, has no instruction. -/

namespace Sys2Proof

/-- A row of the opcode map, named by its command (30_encoding.md R84). -/
inductive Op where
  | lineAcquire | lineWait | lineGet | lineSet | lineRelease
  | spiOpen | spiXfer | spiClose
  | acqOpen | acqStart | acqRead | acqRaw | acqStop | acqClose
deriving DecidableEq, Repr, Inhabited

/-- One row of 30_encoding.md R85. -/
structure OpRow where
  op : Op
  mask : Header
  pattern : Header
deriving DecidableEq, Repr

/-- The rows of 30_encoding.md R85, in its order. -/
def opRows : List OpRow :=
  [ ⟨.lineAcquire, 0xFFFFF8FF, 0x00000010⟩,
    ⟨.lineWait, 0xFFFFFEFF, 0x00000011⟩,
    ⟨.lineGet, 0xFFFFFEFF, 0x00000012⟩,
    ⟨.lineSet, 0xFFFFFAFF, 0x00000013⟩,
    ⟨.lineRelease, 0xFFFFFEFF, 0x00000014⟩,
    ⟨.spiOpen, 0xFFFFFFFF, 0x00000020⟩,
    ⟨.spiXfer, 0xFFFFFFFF, 0x00000021⟩,
    ⟨.spiClose, 0xFFFFFFFF, 0x00000022⟩,
    ⟨.acqOpen, 0xFFFFF7FF, 0x00000030⟩,
    ⟨.acqStart, 0xFFFFFFFF, 0x00000031⟩,
    ⟨.acqRead, 0xFFFFF7FF, 0x00000032⟩,
    ⟨.acqRaw, 0xFFFFF7FF, 0x00000033⟩,
    ⟨.acqStop, 0xFFFFFFFF, 0x00000034⟩,
    ⟨.acqClose, 0xFFFFFFFF, 0x00000035⟩ ]

/-- `(word & mask) = match` (30_encoding.md R85). -/
def OpRow.hits (r : OpRow) (w : Header) : Bool := w &&& r.mask == r.pattern

/-- The row a header word matches, if one does (30_encoding.md R85, R87). -/
def rowOf (w : Header) : Option Op := (opRows.find? fun r => r.hits w).map OpRow.op

/-- The `S` field, bit 8 (30_encoding.md R80). -/
def slotField (w : Header) : Slot := if w.getLsbD 8 then .sync else .drdy

/-- The `D` field, bit 9 (30_encoding.md R80). -/
def dirField (w : Header) : Dir := if w.getLsbD 9 then .output else .input

/-- The `V` field, bit 10 (30_encoding.md R80, R82). -/
def valueField (w : Header) : Bool := w.getLsbD 10

/-- The `P` field, bit 11 (30_encoding.md R80). -/
def presenceField (w : Header) : Bool := w.getLsbD 11

/-- The instruction of a header word and its payload. `none`: the word is reserved (30_encoding.md R87), or the payload
is not of the shape the opcode fixes (30_encoding.md R83, log 7). -/
def decode (w : Header) (p : Payload) : Option Instr :=
  match rowOf w, p with
  | some .lineAcquire, .line l => some (.lineAcquire (slotField w) (dirField w) (valueField w) l)
  | some .lineWait, .timeout ms => some (.lineWait (slotField w) ms)
  | some .lineGet, .empty => some (.lineGet (slotField w))
  | some .lineSet, .empty => some (.lineSet (slotField w) (valueField w))
  | some .lineRelease, .empty => some (.lineRelease (slotField w))
  | some .spiOpen, .endpoint path hz mode noCs => some (.spiOpen path hz mode noCs)
  | some .spiXfer, .length len => some (.spiXfer len)
  | some .spiClose, .empty => some .spiClose
  | some .acqOpen, .config c => if presenceField w then some (.acqOpen (some c)) else none
  | some .acqOpen, .empty => if presenceField w then none else some (.acqOpen none)
  | some .acqStart, .empty => some .acqStart
  | some .acqRead, .empty => some (.acqRead (presenceField w))
  | some .acqRaw, .empty => some (.acqRaw (presenceField w))
  | some .acqStop, .empty => some .acqStop
  | some .acqClose, .empty => some .acqClose
  | _, _ => none

/-- The instruction of a command. -/
def Command.instr (c : Command) : Option Instr := decode c.header c.payload

/-- The payload "of zeros" in the shape a header word fixes (30_encoding.md R83): every number 0, every string empty,
every optional field absent. -/
def Payload.zeroFor (w : Header) : Payload :=
  match rowOf w with
  | some .lineAcquire => .line default
  | some .lineWait => .timeout 0
  | some .spiOpen => .endpoint "" 0 0 false
  | some .spiXfer => .length 0
  | some .acqOpen => if presenceField w then .config DeviceConfig.blank else .empty
  | _ => .empty

/-- The command whose header holds the `nbits` low bits of `w`, and whose payload is of zeros. -/
def Command.ofTableWord (nbits w : Nat) : Command :=
  let header : Header := BitVec.ofNat 32 (w % 2 ^ nbits)
  { header := header, payload := Payload.zeroFor header }

/-- The instruction the decoder reads from a table word; the payload, to which the table gives no bits, is of zeros. -/
def decodeTableWord (nbits w : Nat) : Option Instr := (Command.ofTableWord nbits w).instr

/-! ### The encoder -/

/-- Bit `n` set if `b` is. -/
def bitAt (n : Nat) (b : Bool) : Header := if b then 1#32 <<< n else 0#32

/-- `S` at bit 8. -/
def Slot.field (k : Slot) : Header := bitAt 8 (k == .sync)

/-- `D` at bit 9. -/
def Dir.field (d : Dir) : Header := bitAt 9 (d == .output)

/-- The header word of an instruction (30_encoding.md R80, R84, R85). -/
def encodeHeader : Instr → Header
  | .lineAcquire k d v _ => 0x10#32 ||| k.field ||| d.field ||| bitAt 10 v
  | .lineWait k _ => 0x11#32 ||| k.field
  | .lineGet k => 0x12#32 ||| k.field
  | .lineSet k v => 0x13#32 ||| k.field ||| bitAt 10 v
  | .lineRelease k => 0x14#32 ||| k.field
  | .spiOpen _ _ _ _ => 0x20#32
  | .spiXfer _ => 0x21#32
  | .spiClose => 0x22#32
  | .acqOpen cfg => 0x30#32 ||| bitAt 11 cfg.isSome
  | .acqStart => 0x31#32
  | .acqRead p => 0x32#32 ||| bitAt 11 p
  | .acqRaw p => 0x33#32 ||| bitAt 11 p
  | .acqStop => 0x34#32
  | .acqClose => 0x35#32

/-- The payload of an instruction (30_encoding.md R83). -/
def encodePayload : Instr → Payload
  | .lineAcquire _ _ _ l => .line l
  | .lineWait _ ms => .timeout ms
  | .lineGet _ => .empty
  | .lineSet _ _ => .empty
  | .lineRelease _ => .empty
  | .spiOpen path hz mode noCs => .endpoint path hz mode noCs
  | .spiXfer len => .length len
  | .spiClose => .empty
  | .acqOpen none => .empty
  | .acqOpen (some c) => .config c
  | .acqStart => .empty
  | .acqRead _ => .empty
  | .acqRaw _ => .empty
  | .acqStop => .empty
  | .acqClose => .empty

/-- The command of an instruction: its header word and its payload. -/
def encode (i : Instr) : Command := { header := encodeHeader i, payload := encodePayload i }

end Sys2Proof
end

