-- ==== Sys2Proof/Machine/State.lean ====
section
/-! DEFINITION. The state of the block, of the environment as the block depends on it, and of the host's port
(10_state.md; INVENTORY.md lists every field with its rule and its reset value). Plain data throughout. -/

namespace Sys2Proof.Machine

/-- The reasons for which the machine stops with a fault: there are none. The block "raises no trap" (60_exceptions.md
R200), a failing command returns a result code, a refused one sets `s.refused` (R203), and a wait without an answer is
a blocked state (00_scope.md R15), so no step of this model faults. Safe: nothing the spec describes is cut short. -/
inductive Fault where
deriving DecidableEq, Repr

/-- The reasons for which a step is refused. -/
inductive Refusal where
  /-- Raised by an arm of `exec` for an instruction that has no meaning yet; no arm raises it now. Safe: the machine
  stops. The spec's own refusals (00_scope.md R15) are next states with `refused` set, not this. -/
  | notModelled (mnemonic : String)
deriving DecidableEq, Repr

/-- A result code (30_encoding.md R90). `busy` is never a command's result. -/
inductive ResultCode where
  | ok
  | invalidArgument
  | alreadyOpen
  | notPermitted
  | timedOut
  | busy
  | ioFailure (c : Cause)
deriving DecidableEq, Repr, Inhabited

/-- A Frame, the output record of ACQ.READ (10_state.md R38). -/
structure Frame where
  seq : U64
  ts : U64
  ch : Channels
deriving DecidableEq, Repr

/-- An output record (30_encoding.md R91). -/
inductive Output where
  /-- No output. -/
  | nothing
  /-- The level of LINE.GET. -/
  | level (v : Level)
  /-- The 24 bytes of SPI.XFER and of ACQ.RAW. -/
  | bytes (b : FrameBuf)
  /-- The Frame of ACQ.READ. -/
  | frame (f : Frame)
deriving DecidableEq, Repr

/-- What a completed command returns to the host (30_encoding.md R90, R91). -/
structure Response where
  code : ResultCode
  output : Output
deriving DecidableEq, Repr

/-- The access of an open value handle (10_state.md R29, 41_gpio_line.md R116). -/
inductive Access where
  /-- `In`: read and wait. -/
  | input
  /-- `Out`: read and write. -/
  | output
deriving DecidableEq, Repr, Inhabited

/-- One line slot (10_state.md R29). -/
structure LineSlot where
  line : Option LineId
  exportedByUs : Bool
  handle : Option Access
  dir : Option Dir
  edge : Option EdgeMode
  level : Level
  latch : Bool
deriving DecidableEq, Repr, Inhabited

/-- The SPI master (10_state.md R27, R28). -/
structure SpiState where
  isOpen : Bool
  path : BusPath
  mode : U8
  noCs : Bool
  bitsPerWord : U8
  maxHz : U32
deriving DecidableEq, Repr, Inhabited

/-- An event of the diagnostic trace (10_state.md R42). -/
inductive DiagEvent where
  | overrunWarning (elapsedNs : U64)
deriving DecidableEq, Repr, Inhabited

/-- An underlying call with its arguments (10_state.md R44). -/
inductive Call where
  | reserve (l : LineId)
  | unreserve (l : LineId)
  | setDirection (l : LineId) (d : Dir)
  | setEdge (l : LineId) (e : EdgeMode)
  | setInitialLevel (l : LineId) (v : Level)
  | openValue (l : LineId) (acc : Access)
  | closeValue (l : LineId)
  | readValue (l : LineId)
  | writeValue (l : LineId) (v : Level)
  | waitEdge (k : Slot) (ms : U32)
  | spiOpen (path : BusPath)
  | spiSetMode (mode : U8) (noCs : Bool)
  | spiSetBits (bits : U8)
  | spiSetSpeed (hz : U32)
  | spiTransfer (tx : FrameBuf)
  | spiClose
  | clock
  | delay (us : Nat)
deriving DecidableEq, Repr

/-- The command that is blocked in `Env.waitEdge` (00_scope.md R15(d), 41_gpio_line.md R119; log 4). -/
inductive Inflight where
  /-- LINE.WAIT on a slot. -/
  | lineWait (k : Slot)
  /-- ACQ.READ, in its wait for DRDY. -/
  | acqRead
  /-- ACQ.START, in the DRDY wait of a settle read after which `remaining` more are due. -/
  | acqStart (remaining : Nat)
deriving DecidableEq, Repr, Inhabited

/-- The environment as the block depends on it (10_state.md R32 to R34, R44). -/
structure EnvState where
  /-- `env.reserved`, `env.pin` and the kept settings of every line touched since reset, line ids strictly rising;
  any other line reads as `Config.lineAtReset` (log 16). -/
  lines : List (LineId × LineEnv)
  /-- The greatest nonzero value an earlier `Env.clock()` returned, 0 if none did (10_state.md R34). -/
  clock : U64
  /-- MODEL'S OWN: the environment's coming turns (log 1). -/
  script : List Turn
  /-- MODEL'S OWN: how many free values have been used (log 1). -/
  free : Nat
deriving DecidableEq, Repr

/-- The whole machine. -/
structure State where
  /-- `s.open` (10_state.md R22). -/
  isOpen : Bool
  /-- `s.started` (10_state.md R22). -/
  started : Bool
  /-- `s.cfg` (10_state.md R24). -/
  cfg : DeviceConfig
  /-- `s.seq` (10_state.md R25). -/
  seq : U64
  /-- `s.raw` (10_state.md R26). -/
  raw : FrameBuf
  /-- `s.spi` (10_state.md R27, R28). -/
  spi : SpiState
  /-- `s.slot[DRDY]` (10_state.md R29). -/
  drdy : LineSlot
  /-- `s.slot[SYNC]` (10_state.md R29). -/
  sync : LineSlot
  /-- `s.diag` (10_state.md R42). -/
  diag : List DiagEvent
  /-- `s.refused` (10_state.md R43). -/
  refused : Bool
  /-- The environment (10_state.md R32 to R34, R44). -/
  env : EnvState
  /-- `cp`, the host command index (10_state.md R21). -/
  cp : Nat
  /-- The commands the host has yet to hand over (10_state.md R21; log 8). -/
  pending : List Command
  /-- The command that is blocked in a wait (00_scope.md R15(d); log 4). -/
  inflight : Option Inflight
  /-- What the last command returned; `none` before the first and after a refused one (30_encoding.md R87, R90). -/
  out : Option Response
  /-- MODEL'S OWN: every underlying call made so far, oldest first (10_state.md R44; log 31). -/
  calls : List Call
deriving DecidableEq, Repr

/-- An empty slot (10_state.md R50). `level` is unspecified there: DESIGN CHOICE, unsafe, 0 (log 15). -/
def LineSlot.atReset : LineSlot :=
  { line := none, exportedByUs := false, handle := none, dir := none, edge := none, level := false, latch := false }

/-- The SPI master at reset (10_state.md R50). All but `isOpen` is unspecified there: DESIGN CHOICE, unsafe, zero
(log 14). -/
def SpiState.atReset : SpiState :=
  { isOpen := false, path := "", mode := 0, noCs := false, bitsPerWord := 0, maxHz := 0 }

/-- The environment at reset: nothing is assumed of it (70_reset_and_hazards.md R232; log 16). -/
def EnvState.atReset : EnvState := { lines := [], clock := 0, script := [], free := 0 }

/-- The machine after power-on reset (10_state.md R50, 70_reset_and_hazards.md R230, R231). `cfg` is unspecified there:
DESIGN CHOICE, unsafe, blank (log 13). -/
def State.reset : State :=
  { isOpen := false, started := false, cfg := DeviceConfig.blank, seq := 0, raw := FrameBuf.zero,
    spi := SpiState.atReset, drdy := LineSlot.atReset, sync := LineSlot.atReset, diag := [], refused := false,
    env := EnvState.atReset, cp := 0, pending := [], inflight := none, out := none, calls := [] }

end Sys2Proof.Machine
end

