-- ==== Sys2Proof/Machine/Operands.lean ====
section
/-! DEFINITION. Operands: the sample decode and its lanes (43_acquisition.md R173, R174), the configuration's defaults and
line check (R161, R162), and the spec's readings of the wire and of the transfer mode, which no rule uses
(20_memory.md R64, 42_spi_master.md R140). -/

namespace Sys2Proof.Machine

/-- The field `b0 ++ b1 ++ b2` of one sample, `SAMPLE_BITS` wide, `b0` its most significant byte (20_memory.md R62). -/
def sampleField (b0 b1 b2 : Byte) : BitVec sampleBits := (b0 ++ b1 ++ b2).setWidth sampleBits

/-- `DECODE24` (43_acquisition.md R173): zero-extend, and OR in `SIGN_FILL` if the field's top bit is set. -/
def decode24 (b0 b1 b2 : Byte) : S32 :=
  let u : U32 := (sampleField b0 b1 b2).setWidth 32
  if u.getLsbD (sampleBits - 1) then u ||| params.signFill else u

/-- Byte `j` of sample `c` lies in the frame. -/
theorem sampleByte_lt (c : Fin numChannels) {j : Nat} (h : j < bytesPerSample) :
    bytesPerSample * c.val + j < frameBytes :=
  calc bytesPerSample * c.val + j < bytesPerSample * (c.val + 1) := by rw [Nat.mul_succ]; omega
    _ ≤ bytesPerSample * numChannels := Nat.mul_le_mul_left _ c.isLt
    _ = frameBytes := Nat.mul_comm _ _

/-- Lane `c` of the frame decode: `DECODE24` of bytes `3c`, `3c+1`, `3c+2` (43_acquisition.md R174, 20_memory.md R61). -/
def decodeLane (rx : FrameBuf) (c : Fin numChannels) : S32 :=
  decode24 (rx[bytesPerSample * c.val]'(sampleByte_lt c (j := 0) (by decide)))
    (rx[bytesPerSample * c.val + 1]'(sampleByte_lt c (by decide)))
    (rx[bytesPerSample * c.val + 2]'(sampleByte_lt c (by decide)))

/-- The frame decode: all eight lanes (43_acquisition.md R174). -/
def decodeFrame (rx : FrameBuf) : Channels := Vector.ofFn (decodeLane rx)

/-- `tx`, the transmit buffer of every exchange: all zero (10_state.md R36, 42_spi_master.md R148). -/
def txBuffer : FrameBuf := FrameBuf.zero

/-- `bus_path` with its default: absent or empty becomes `DEFAULT_BUS_PATH` (43_acquisition.md R161). -/
def defaultedPath (p : Option BusPath) : BusPath :=
  match p with
  | none => Config.defaultBusPath
  | some path => if path = "" then Config.defaultBusPath else path

/-- `APPLY_DEFAULTS` (43_acquisition.md R161): three substitutions and no other. -/
def applyDefaults (c : DeviceConfig) : DeviceConfig :=
  { c with
    busPath := some (defaultedPath c.busPath),
    clockHz := if c.clockHz = 0 then params.defaultClockHz else c.clockHz,
    timeoutMs := if c.timeoutMs = 0 then params.defaultTimeoutMs else c.timeoutMs }

/-- What `CHECK_LINES` finds (43_acquisition.md R162). -/
inductive LineCheck where
  /-- A required line id is absent: INVALID_ARGUMENT. -/
  | missing
  /-- DRDY and SYNC on one line: refused. -/
  | clash
  /-- The lines to acquire: DRDY, and SYNC if sync is enabled. -/
  | lines (drdy : LineId) (sync : Option LineId)
deriving DecidableEq, Repr

/-- `CHECK_LINES` (43_acquisition.md R162), its three checks in order. -/
def checkLines (c : DeviceConfig) : LineCheck :=
  match c.drdyLine with
  | none => .missing
  | some d =>
    if c.syncEnable then
      match c.syncLine with
      | none => .missing
      | some m => if m = d then .clash else .lines d (some m)
    else .lines d none

/-- The access of the value handle for a direction (41_gpio_line.md R116). -/
def accessOf (d : Dir) : Access :=
  match d with
  | .input => .input
  | .output => .output

/-- `SCLK_ACTUAL` for a configured maximum: never above it (00_scope.md R10, 42_spi_master.md R144). No rule depends on
it (log 29). -/
def sclkActual (maxHz : U32) : U32 :=
  if (Config.sclkOffered maxHz).toNat ≤ maxHz.toNat then Config.sclkOffered maxHz else maxHz

/-- Bit `n` of the bits sampled on MISO in one exchange, the first sampled being bit 0: bytes in index order, the most
significant bit of each first (20_memory.md R64). PRESUMED, safe: the spec marks it as general knowledge, and no rule
reads it (log 30). -/
def misoBit (rx : FrameBuf) (n : Fin (8 * frameBytes)) : Bool :=
  (rx[n.val / 8]'(Nat.div_lt_of_lt_mul n.isLt)).getLsbD (7 - n.val % 8)

/-- CPOL of a transfer mode, its bit 1 (42_spi_master.md R140). PRESUMED, safe: no rule reads it (log 30). -/
def cpol (mode : U8) : Bool := mode.getLsbD 1

/-- CPHA of a transfer mode, its bit 0 (42_spi_master.md R140). PRESUMED, safe: no rule reads it (log 30). -/
def cpha (mode : U8) : Bool := mode.getLsbD 0

end Sys2Proof.Machine
end

