-- ==== Sys2Proof/Machine/Flags.lean ====
section
/-! DEFINITION. Flags (10_state.md R35): the controller state as a function of two of them (R23), the edge latch
(R31), and the overrun condition (43_acquisition.md R172). No flag is a side effect of data. -/

namespace Sys2Proof.Machine

/-- DriverState (10_state.md R23). -/
inductive DriverState where
  | closed
  | opened
  | started
deriving DecidableEq, Repr

/-- DriverState of the two flags (10_state.md R23). The table has no row for `started` without `open`, which no run
reaches (R22): `closed` there (log 35). -/
def State.driverState (s : State) : DriverState :=
  if s.isOpen then (if s.started then .started else .opened) else .closed

/-- A slot is "acquired" (10_state.md R30). -/
def LineSlot.acquired (x : LineSlot) : Bool := x.handle.isSome

/-- A slot is "partially acquired" (10_state.md R30). -/
def LineSlot.partiallyAcquired (x : LineSlot) : Bool := x.line.isSome && x.handle.isNone

/-- The slot is configured as a falling-edge input (10_state.md R31, 41_gpio_line.md R118). -/
def LineSlot.detectsFalling (x : LineSlot) : Bool := x.dir == some .input && x.edge == some .falling

/-- A falling edge of line `l` is one this slot detects (10_state.md R31). -/
def LineSlot.watches (x : LineSlot) (l : LineId) : Bool := x.line == some l && x.detectsFalling

/-- The slot's latch after the pin of line `l` was driven, `fell` saying whether it went from 1 to 0 (10_state.md R31).
On a slot whose handle is not open the effect is unspecified: the free bit `b` (93_implementation_defined.md U11,
log 18). -/
def LineSlot.onDrive (x : LineSlot) (l : LineId) (fell b : Bool) : LineSlot :=
  { x with latch := x.latch || (x.watches l && (fell && (x.acquired || b))) }

/-- The overrun condition (43_acquisition.md R172): both samples valid, and strictly more than `OVERRUN_US` between them,
in nanoseconds. -/
def overran (t0 t1 : U64) : Bool :=
  t0 ≠ 0 && t1 ≠ 0 && t0.toNat ≤ t1.toNat && params.overrunUs * 1000 < (t1 - t0).toNat

end Sys2Proof.Machine
end

