-- ==== Sys2Proof/Machine/Ops.lean ====
section
/-! DEFINITION. The named operations over the slots, the raw shadow, the environment's lines and turns, and the ways a
command ends. The block has no trap and no return from one (60_exceptions.md R200, R212): `Ran.error` and `finish` are
what it has in their place, an error code returned to the host. -/

namespace Sys2Proof.Machine

/-! ### Slots and buffers -/

/-- `s.slot[k]` (10_state.md R29). -/
def State.slot (s : State) (k : Slot) : LineSlot :=
  match k with
  | .drdy => s.drdy
  | .sync => s.sync

/-- `s.slot[k] <- x`. -/
def State.setSlot (s : State) (k : Slot) (x : LineSlot) : State :=
  match k with
  | .drdy => { s with drdy := x }
  | .sync => { s with sync := x }

/-- The slot with every field LINE.RELEASE clears cleared (41_gpio_line.md R126). `level` keeps its value. -/
def LineSlot.emptied (x : LineSlot) : LineSlot :=
  { x with line := none, exportedByUs := false, handle := none, dir := none, edge := none, latch := false }

/-- `RawRead(i)` (00_scope.md R13, 20_memory.md R60). -/
def State.rawRead (s : State) (i : Fin frameBytes) : Byte := s.raw[i]

/-- `RawWrite(i, b)` (00_scope.md R13, 20_memory.md R60). -/
def State.rawWrite (s : State) (i : Fin frameBytes) (b : Byte) : State := { s with raw := s.raw.set i b }

/-- `for i in 0..23: RawWrite(i, 0x00)` (43_acquisition.md R179). -/
def State.zeroRaw (s : State) : State := (List.finRange frameBytes).foldl (fun t i => t.rawWrite i 0) s

/-! ### The environment's lines -/

/-- What the environment holds of line `l`; a line nothing has touched reads as `Config.lineAtReset` (log 16). -/
def LineTable.get : List (LineId × LineEnv) → LineId → LineEnv
  | [], l => Config.lineAtReset l
  | (l', e) :: rest, l => if l = l' then e else LineTable.get rest l

/-- The table with the entry of line `l`, at its place in the rising order. -/
def LineTable.set : List (LineId × LineEnv) → LineId → LineEnv → List (LineId × LineEnv)
  | [], l, e => [(l, e)]
  | (l', e') :: rest, l, e =>
    if l < l' then (l, e) :: (l', e') :: rest
    else if l = l' then (l, e) :: rest
    else (l', e') :: LineTable.set rest l e

/-- The table's canonical form: line ids strictly rising. -/
abbrev LineTable.wf (t : List (LineId × LineEnv)) : Prop := t.Pairwise fun a b => a.1 < b.1

/-- `env` of line `l` (10_state.md R32, R33). -/
def State.lineEnv (s : State) (l : LineId) : LineEnv := LineTable.get s.env.lines l

/-- `env` of line `l` replaced. -/
def State.setLineEnv (s : State) (l : LineId) (e : LineEnv) : State :=
  { s with env := { s.env with lines := LineTable.set s.env.lines l e } }

/-- `env.reserved(l) <- b` (10_state.md R32). -/
def State.setReserved (s : State) (l : LineId) (b : Bool) : State :=
  s.setLineEnv l { s.lineEnv l with reserved := b }

/-- The next free bit, and the state that has used it (log 17 to 20). -/
def State.drawBit (s : State) : Bool × State :=
  (Config.freeBit s.env.free, { s with env := { s.env with free := s.env.free + 1 } })

/-- `env.pin(l) <- v`, and the edge detector with it: a change from 1 to 0 sets the latch of every slot that watches
the line, whoever drives it (10_state.md R31, 41_gpio_line.md R114; log 21). Two free bits serve slots whose handle is
not open. -/
def State.drivePin (s : State) (l : LineId) (v : Level) : State :=
  let e := s.lineEnv l
  let fell := !v && e.pin
  let n := s.env.free
  { s with
    drdy := s.drdy.onDrive l fell (Config.freeBit n),
    sync := s.sync.onDrive l fell (Config.freeBit (n + 1)),
    env := { s.env with lines := LineTable.set s.env.lines l { e with pin := v }, free := n + 2 } }

/-- `env.pin(l)` becomes a draw in {0, 1} (93_implementation_defined.md U13, U14). -/
def State.drawPin (s : State) (l : LineId) : State :=
  let d := s.drawBit
  d.2.drivePin l d.1

/-- This block drives line `l`: a slot holds it as an output (10_state.md R33). -/
def State.drives (s : State) (l : LineId) : Bool :=
  (s.drdy.line == some l && s.drdy.dir == some .output) || (s.sync.line == some l && s.sync.dir == some .output)

/-- This block holds the reservation of line `l` (10_state.md R29, R32). -/
def State.owns (s : State) (l : LineId) : Bool :=
  (s.drdy.line == some l && s.drdy.exportedByUs) || (s.sync.line == some l && s.sync.exportedByUs)

/-- One step of the environment. A pin step changes nothing on a line this block drives (10_state.md R33) or when the
pin is at that level already (R31); another process cannot release this block's reservation (R32; log 22, 23). -/
def State.envStep (s : State) (e : EnvEvent) : State :=
  match e with
  | .pinFall l => if s.drives l then s else s.drivePin l false
  | .pinRise l => if s.drives l then s else s.drivePin l true
  | .otherReserve l => s.setReserved l true
  | .otherRelease l => if s.owns l then s else s.setReserved l false

/-- The environment's next turn, its steps already taken: the head of the script, or the next free turn when the script
is empty (log 1). -/
def State.nextTurn (s : State) : Turn × State :=
  match s.env.script with
  | t :: rest => (t, t.events.foldl State.envStep { s with env := { s.env with script := rest } })
  | [] =>
    let t := Config.freeTurn s.env.free
    (t, t.events.foldl State.envStep { s with env := { s.env with free := s.env.free + 1 } })

/-- The call is recorded (10_state.md R44; log 31). -/
def State.logCall (s : State) (c : Call) : State := { s with calls := s.calls ++ [c] }

/-- One underlying call: recorded, then given the environment's next turn (20_memory.md R74, R75). -/
def State.ask (s : State) (c : Call) : Turn × State := (s.logCall c).nextTurn

/-- The cause of a failing verdict. -/
def failureOf (v : Verdict) : Option Cause :=
  match v with
  | .fail c => some (.env c)
  | .ok => none
  | .rejected => none
  | .short => none
  | .timeout => none
  | .silent => none

/-! ### How a command ends -/

/-- The number of a result code (30_encoding.md R90). The cause of an IO_FAILURE is beside it, not in it. -/
def ResultCode.number (c : ResultCode) : Nat :=
  match c with
  | .ok => 0
  | .invalidArgument => 1
  | .alreadyOpen => 2
  | .notPermitted => 3
  | .timedOut => 4
  | .busy => 5
  | .ioFailure _ => 6

/-- What running a command's body comes to (00_scope.md R15). -/
inductive Ran where
  /-- (a) and (b): completed with a response. -/
  | done (r : Response) (s : State)
  /-- (c): refused. The state before the command stands. -/
  | refused
  /-- (d): blocked in `Env.waitEdge`. -/
  | blocked (w : Inflight) (s : State)
deriving DecidableEq, Repr

/-- `return (OK, out)`. -/
def Ran.okWith (o : Output) (s : State) : Ran := .done ⟨.ok, o⟩ s

/-- `return OK`. -/
def Ran.ok (s : State) : Ran := .done ⟨.ok, .nothing⟩ s

/-- `raise E`: a nonzero code and no output (00_scope.md R13, 30_encoding.md R91). -/
def Ran.error (c : ResultCode) (s : State) : Ran := .done ⟨c, .nothing⟩ s

/-- `return IO_FAILURE(c)`. -/
def Ran.ioFailure (c : Cause) (s : State) : Ran := Ran.error (.ioFailure c) s

/-- The next sub-operation, if this one returned OK; any other result is returned unchanged (60_exceptions.md R208,
R210). -/
def Ran.andThen (r : Ran) (f : State → Ran) : Ran :=
  match r with
  | .done ⟨.ok, _⟩ s => f s
  | .done ⟨c, o⟩ s => .done ⟨c, o⟩ s
  | .refused => .refused
  | .blocked w s => .blocked w s

/-- What follows an error code: the code stays and the state changes (60_exceptions.md R210). -/
def Ran.onError (r : Ran) (f : State → State) : Ran :=
  match r with
  | .done ⟨.ok, o⟩ s => .done ⟨.ok, o⟩ s
  | .done ⟨c, o⟩ s => .done ⟨c, o⟩ (f s)
  | .refused => .refused
  | .blocked w s => .blocked w s

/-- A wait that belongs to the command `w`. -/
def Ran.blockedAs (r : Ran) (w : Inflight) : Ran :=
  match r with
  | .done p s => .done p s
  | .refused => .refused
  | .blocked _ s => .blocked w s

/-- A refused command: the sticky mark, and no other block state; there is no result code (30_encoding.md R87,
60_exceptions.md R203). The host goes on to its next command (10_state.md R21; log 5). -/
def State.refuse (s : State) : State := { s with refused := true, out := none, inflight := none, cp := s.cp + 1 }

/-- A completed command: its response reaches the host and `cp` advances by 1 (10_state.md R21, 30_encoding.md R90). -/
def State.complete (s : State) (r : Response) : State := { s with out := some r, inflight := none, cp := s.cp + 1 }

/-- The machine's state after a command that began in `s`. -/
def finish (s : State) (r : Ran) : State :=
  match r with
  | .done p t => t.complete p
  | .refused => s.refuse
  | .blocked w t => { t with inflight := some w }

/-- A host command of the GPIO line unit or of the SPI master is refused while the controller is open
(41_gpio_line.md R110). Sub-operations do not pass this check (00_scope.md R14). -/
def hostOnly (s : State) (r : Ran) : Ran := if s.isOpen then .refused else r

end Sys2Proof.Machine
end

