-- ==== Sys2Proof/Machine/Environment.lean ====
section
/-! DEFINITION. The underlying calls (10_state.md R44): each gives the answer the environment's turn stands for, within
the constraints of R44, and the state after the call. A verdict that is no answer of a call counts as its `Ok`
(log 3), so every admitted answer arises and no other does. -/

namespace Sys2Proof.Machine

/-- The answers `Ok` and `Fail(c)`. -/
inductive Ack where
  | ok
  | fail (c : Cause)
deriving DecidableEq, Repr

/-- The answers of `Env.reserve`. -/
inductive ReserveAnswer where
  | ok
  | busy
  | fail (c : Cause)
deriving DecidableEq, Repr

/-- The answers of `Env.readValue`. -/
inductive ReadAnswer where
  | ok (v : Level)
  | fail (c : Cause)
deriving DecidableEq, Repr

/-- The answers of `Env.writeValue`. -/
inductive WriteAnswer where
  | ok
  | short
  | fail (c : Cause)
deriving DecidableEq, Repr

/-- The answers of `Env.waitEdge`, and none yet. -/
inductive WaitAnswer where
  | edge
  | timeout
  | fail (c : Cause)
  | silent
deriving DecidableEq, Repr

/-- The answers of `Env.spiSetMode`. -/
inductive ModeAnswer where
  | ok
  | rejected
  | fail (c : Cause)
deriving DecidableEq, Repr

/-- The answers of `Env.spiTransfer`: all 24 bytes or `Fail` (20_memory.md R68). -/
inductive TransferAnswer where
  | ok (rx : FrameBuf)
  | fail (c : Cause)
deriving DecidableEq, Repr

/-- The answer `Ok` or `Fail(c)` of a verdict. -/
def ackOf (v : Verdict) : Ack :=
  match failureOf v with
  | some c => .fail c
  | none => .ok

/-- `Env.reserve(l)`: `Ok` only if the line is free, and then it is reserved; `Busy` only if it is not. -/
def envReserve (s : State) (l : LineId) : ReserveAnswer × State :=
  let a := s.ask (.reserve l)
  match failureOf a.1.verdict with
  | some c => (.fail c, a.2)
  | none => if (a.2.lineEnv l).reserved then (.busy, a.2) else (.ok, a.2.setReserved l true)

/-- The line is unexported: no longer reserved, and its level, if the line is set to output, a draw
(43_acquisition.md R181; log 20). -/
def State.unexport (s : State) (l : LineId) : State :=
  let e := s.lineEnv l
  let d := (s.setReserved l false).drawBit
  d.2.drivePin l (if e.dir == some .output then d.1 else e.pin)

/-- `Env.unreserve(l)`: `Ok` clears `env.reserved(l)`. -/
def envUnreserve (s : State) (l : LineId) : Ack × State :=
  let a := s.ask (.unreserve l)
  match failureOf a.1.verdict with
  | some c => (.fail c, a.2)
  | none => (.ok, a.2.unexport l)

/-- `Env.setDirection(l, d)`. -/
def envSetDirection (s : State) (l : LineId) (d : Dir) : Ack × State :=
  let a := s.ask (.setDirection l d)
  match failureOf a.1.verdict with
  | some c => (.fail c, a.2)
  | none => (.ok, a.2.setLineEnv l { a.2.lineEnv l with dir := some d })

/-- `Env.setEdge(l, falling)`. -/
def envSetEdge (s : State) (l : LineId) (e : EdgeMode) : Ack × State :=
  let a := s.ask (.setEdge l e)
  match failureOf a.1.verdict with
  | some c => (.fail c, a.2)
  | none => (.ok, a.2.setLineEnv l { a.2.lineEnv l with edge := some e })

/-- `Env.setInitialLevel(l, v)`: `Ok` sets `env.pin(l) <- v`. -/
def envSetInitialLevel (s : State) (l : LineId) (v : Level) : Ack × State :=
  let a := s.ask (.setInitialLevel l v)
  match failureOf a.1.verdict with
  | some c => (.fail c, a.2)
  | none => (.ok, a.2.drivePin l v)

/-- `Env.openValue(l, acc)`. -/
def envOpenValue (s : State) (l : LineId) (acc : Access) : Ack × State :=
  let a := s.ask (.openValue l acc)
  (ackOf a.1.verdict, a.2)

/-- `Env.closeValue(l)`. -/
def envCloseValue (s : State) (l : LineId) : Ack × State :=
  let a := s.ask (.closeValue l)
  (ackOf a.1.verdict, a.2)

/-- `Env.readValue(l)`: `Ok(v)` has `v = env.pin(l)`. -/
def envReadValue (s : State) (l : LineId) : ReadAnswer × State :=
  let a := s.ask (.readValue l)
  match failureOf a.1.verdict with
  | some c => (.fail c, a.2)
  | none => (.ok (a.2.lineEnv l).pin, a.2)

/-- `Env.writeValue(l, v)`: `Ok` sets `env.pin(l) <- v`; after `Short` or `Fail`, `env.pin(l)` is a draw. -/
def envWriteValue (s : State) (l : LineId) (v : Level) : WriteAnswer × State :=
  let a := s.ask (.writeValue l v)
  match a.1.verdict with
  | .fail c => (.fail (.env c), a.2.drawPin l)
  | .short => (.short, a.2.drawPin l)
  | .ok => (.ok, a.2.drivePin l v)
  | .rejected => (.ok, a.2.drivePin l v)
  | .timeout => (.ok, a.2.drivePin l v)
  | .silent => (.ok, a.2.drivePin l v)

/-- The answer of `Env.waitEdge` for a verdict (41_gpio_line.md R119): `Fail` at any time; `Edge` while the latch is
set; `Timeout` only while it is not; otherwise none yet. -/
def waitAnswerOf (latch : Bool) (v : Verdict) : WaitAnswer :=
  match v with
  | .fail c => .fail (.env c)
  | .timeout => if latch then .edge else .timeout
  | .ok => if latch then .edge else .silent
  | .rejected => if latch then .edge else .silent
  | .short => if latch then .edge else .silent
  | .silent => if latch then .edge else .silent

/-- One turn of a pending `Env.waitEdge(k, ms)`. The call itself is recorded once, when it is made. -/
def envWaitTurn (s : State) (k : Slot) : WaitAnswer × State :=
  let a := s.nextTurn
  (waitAnswerOf (a.2.slot k).latch a.1.verdict, a.2)

/-- `Env.spiOpen(path)`. -/
def envSpiOpen (s : State) (path : BusPath) : Ack × State :=
  let a := s.ask (.spiOpen path)
  (ackOf a.1.verdict, a.2)

/-- `Env.spiSetMode(m, no_cs)`. -/
def envSpiSetMode (s : State) (mode : U8) (noCs : Bool) : ModeAnswer × State :=
  let a := s.ask (.spiSetMode mode noCs)
  match a.1.verdict with
  | .fail c => (.fail (.env c), a.2)
  | .rejected => (.rejected, a.2)
  | .ok => (.ok, a.2)
  | .short => (.ok, a.2)
  | .timeout => (.ok, a.2)
  | .silent => (.ok, a.2)

/-- `Env.spiSetBits(bits)`. -/
def envSpiSetBits (s : State) (bits : U8) : Ack × State :=
  let a := s.ask (.spiSetBits bits)
  (ackOf a.1.verdict, a.2)

/-- `Env.spiSetSpeed(hz)`. -/
def envSpiSetSpeed (s : State) (hz : U32) : Ack × State :=
  let a := s.ask (.spiSetSpeed hz)
  (ackOf a.1.verdict, a.2)

/-- `Env.spiTransfer(tx)`: any 24 bytes, or `Fail`. -/
def envSpiTransfer (s : State) (tx : FrameBuf) : TransferAnswer × State :=
  let a := s.ask (.spiTransfer tx)
  match failureOf a.1.verdict with
  | some c => (.fail c, a.2)
  | none => (.ok a.1.rx, a.2)

/-- `Env.spiClose()`. -/
def envSpiClose (s : State) : Ack × State :=
  let a := s.ask .spiClose
  (ackOf a.1.verdict, a.2)

/-- A clock sample within 10_state.md R34: 0 is invalid, any other is at least every nonzero earlier one (log 26). -/
def clockSample (least time : U64) : U64 :=
  if time = 0 then 0 else if time.toNat < least.toNat then least else time

/-- `Env.clock()` (10_state.md R34). -/
def envClock (s : State) : U64 × State :=
  let a := s.ask .clock
  let t := clockSample a.2.env.clock a.1.time
  (t, { a.2 with env := { a.2.env with clock := if t = 0 then a.2.env.clock else t } })

/-- `Env.delay(us)`: at least `us` microseconds elapse (43_acquisition.md R167). -/
def envDelay (s : State) (us : Nat) : State := (s.ask (.delay us)).2

end Sys2Proof.Machine
end

