-- ==== Sys2Proof/Machine/GpioLine.lean ====
section
/-! DEFINITION. The GPIO line unit's commands (41_gpio_line.md). Each body follows its pseudocode and is shared by the
host command, which passes the ownership check R110 first, and by the acquisition controller (00_scope.md R14). -/

namespace Sys2Proof.Machine

/-- Step 4 of LINE.ACQUIRE and its end: the value handle (41_gpio_line.md R111, R116). -/
def acquireHandle (k : Slot) (l : LineId) (d : Dir) (s : State) : Ran :=
  match envOpenValue s l (accessOf d) with
  | (.fail c, s1) => .ioFailure c s1
  | (.ok, s1) => .ok (s1.setSlot k { s1.slot k with handle := some (accessOf d), latch := false })

/-- Step 3 of LINE.ACQUIRE: the edge mode of an input (41_gpio_line.md R114), the initial level of an output (R115). -/
def acquireSetting (k : Slot) (l : LineId) (d : Dir) (v : Bool) (s : State) : Ran :=
  match d with
  | .input =>
    match envSetEdge s l .falling with
    | (.fail c, s1) => .ioFailure c s1
    | (.ok, s1) => acquireHandle k l d (s1.setSlot k { s1.slot k with edge := some .falling })
  | .output =>
    match envSetInitialLevel s l v with
    | (.fail c, s1) => .ioFailure c s1
    | (.ok, s1) => acquireHandle k l d (s1.setSlot k { s1.slot k with level := v })

/-- Step 2 of LINE.ACQUIRE: the direction (41_gpio_line.md R113). -/
def acquireDirection (k : Slot) (l : LineId) (d : Dir) (v : Bool) (s : State) : Ran :=
  match envSetDirection s l d with
  | (.fail c, s1) => .ioFailure c s1
  | (.ok, s1) => acquireSetting k l d v (s1.setSlot k { s1.slot k with dir := some d })

/-- Step 1 of LINE.ACQUIRE, the reservation (41_gpio_line.md R112), and the steps after it. -/
def acquireReserve (k : Slot) (l : LineId) (d : Dir) (v : Bool) (s : State) : Ran :=
  match envReserve s l with
  | (.fail c, s1) => .ioFailure c s1
  | (.ok, s1) => acquireDirection k l d v (s1.setSlot k { s1.slot k with exportedByUs := true })
  | (.busy, s1) => acquireDirection k l d v (s1.setSlot k { s1.slot k with exportedByUs := false })

/-- `LINE_ACQUIRE_BODY` (41_gpio_line.md R111): the two refusals, then the steps. -/
def lineAcquireBody (k : Slot) (l : LineId) (d : Dir) (v : Bool) (s : State) : Ran :=
  if d = .input ∧ v = true then .refused
  else if (s.slot k).line.isSome then .refused
  else acquireReserve k l d v (s.setSlot k { s.slot k with line := some l })

/-- The clear before and after a wait: a read of the line, and the latch cleared (41_gpio_line.md R118). -/
def clearLatch (k : Slot) (l : LineId) (s : State) : Ack × State :=
  match envReadValue s l with
  | (.fail c, s1) => (.fail c, s1)
  | (.ok _, s1) => (.ok, s1.setSlot k { s1.slot k with latch := false })

/-- One turn of the wait itself and, after an edge, the second clear (41_gpio_line.md R118, R119). -/
def waitPoll (k : Slot) (l : LineId) (s : State) : Ran :=
  match envWaitTurn s k with
  | (.silent, s1) => .blocked (.lineWait k) s1
  | (.timeout, s1) => .error .timedOut s1
  | (.fail c, s1) => .ioFailure c s1
  | (.edge, s1) =>
    match clearLatch k l s1 with
    | (.fail c, s2) => .ioFailure c s2
    | (.ok, s2) => .ok s2

/-- `LINE_WAIT_BODY` (41_gpio_line.md R118), up to the environment's first turn on the wait. A slot with a handle and no
line, which no run reaches, is refused (log 27). -/
def lineWaitBody (k : Slot) (ms : U32) (s : State) : Ran :=
  if (s.slot k).handle = none then .error .notPermitted s
  else if (s.slot k).detectsFalling then
    match (s.slot k).line with
    | none => .refused
    | some l =>
      match clearLatch k l s with
      | (.fail c, s1) => .ioFailure c s1
      | (.ok, s1) => waitPoll k l (s1.logCall (.waitEdge k ms))
  else .refused

/-- A further turn of a wait that is blocked (41_gpio_line.md R119). -/
def lineWaitResume (k : Slot) (s : State) : Ran :=
  match (s.slot k).line with
  | none => .refused
  | some l => waitPoll k l s

/-- `LINE_GET_BODY` (41_gpio_line.md R122). The latch becomes a draw of {unchanged, false} (R123, log 17). -/
def lineGetBody (k : Slot) (s : State) : Ran :=
  if (s.slot k).handle = none then .error .notPermitted s
  else
    match (s.slot k).line with
    | none => .refused
    | some l =>
      match envReadValue s l with
      | (.fail c, s1) => .ioFailure c s1
      | (.ok v, s1) =>
        let d := s1.drawBit
        .okWith (.level v) (d.2.setSlot k { d.2.slot k with latch := (d.2.slot k).latch && d.1 })

/-- `s.slot[k].level <- draw in {0, 1}` (41_gpio_line.md R124, log 19). -/
def drawLevel (k : Slot) (s : State) : State :=
  let d := s.drawBit
  d.2.setSlot k { d.2.slot k with level := d.1 }

/-- `LINE_SET_BODY` (41_gpio_line.md R124, R125). -/
def lineSetBody (k : Slot) (v : Level) (s : State) : Ran :=
  if (s.slot k).handle = none then .error .notPermitted s
  else if (s.slot k).handle = some .input then .ioFailure .notOutput s
  else
    match (s.slot k).line with
    | none => .refused
    | some l =>
      match envWriteValue s l v with
      | (.ok, s1) => .ok (s1.setSlot k { s1.slot k with level := v })
      | (.short, s1) => .ioFailure .shortWrite (drawLevel k s1)
      | (.fail c, s1) => .ioFailure c (drawLevel k s1)

/-- The calls of LINE.RELEASE: the handle closed if one is open, the reservation released if this block made it, both
answers ignored (41_gpio_line.md R126, R127). -/
def releaseCalls (x : LineSlot) (s : State) : State :=
  match x.line with
  | none => s
  | some l =>
    let s1 := if x.handle.isSome then (envCloseValue s l).2 else s
    if x.exportedByUs then (envUnreserve s1 l).2 else s1

/-- `LINE_RELEASE_BODY` (41_gpio_line.md R126). It never fails. -/
def lineReleaseBody (k : Slot) (s : State) : State :=
  let s1 := releaseCalls (s.slot k) s
  s1.setSlot k (s1.slot k).emptied

/-! ### The meanings -/

/-- LINE.ACQUIRE (41_gpio_line.md R111). -/
def execLineAcquire (k : Slot) (d : Dir) (v : Bool) (l : LineId) (s : State) : Host.Outcome State Fault Refusal :=
  .next (finish s (hostOnly s (lineAcquireBody k l d v s)))

/-- LINE.WAIT (41_gpio_line.md R118). -/
def execLineWait (k : Slot) (ms : U32) (s : State) : Host.Outcome State Fault Refusal :=
  .next (finish s (hostOnly s (lineWaitBody k ms s)))

/-- LINE.GET (41_gpio_line.md R122). -/
def execLineGet (k : Slot) (s : State) : Host.Outcome State Fault Refusal :=
  .next (finish s (hostOnly s (lineGetBody k s)))

/-- LINE.SET (41_gpio_line.md R124). -/
def execLineSet (k : Slot) (v : Level) (s : State) : Host.Outcome State Fault Refusal :=
  .next (finish s (hostOnly s (lineSetBody k v s)))

/-- LINE.RELEASE (41_gpio_line.md R126). -/
def execLineRelease (k : Slot) (s : State) : Host.Outcome State Fault Refusal :=
  .next (finish s (hostOnly s (.ok (lineReleaseBody k s))))

end Sys2Proof.Machine
end

