-- ==== Sys2Proof/Machine/SpiMaster.lean ====
section
/-! DEFINITION. The SPI master's commands (42_spi_master.md). As in Machine/GpioLine.lean, each body is shared by the
host command and by the acquisition controller. -/

namespace Sys2Proof.Machine

/-- The mode step (42_spi_master.md R141, R142): the answer that counts, and the no-chip-select variant in force. Only
`Rejected` with the variant requested is retried, once, without it. -/
def spiModeStep (mode : U8) (noCs : Bool) (s : State) : ModeAnswer × Bool × State :=
  match envSpiSetMode s mode noCs with
  | (.rejected, s1) =>
    if noCs then
      let r := envSpiSetMode s1 mode false
      (r.1, false, r.2)
    else (.rejected, noCs, s1)
  | (.ok, s1) => (.ok, noCs, s1)
  | (.fail c, s1) => (.fail c, noCs, s1)

/-- A configuration step failed: the endpoint is closed, its answer ignored, and the cause propagated
(42_spi_master.md R145). -/
def spiAbandon (c : Cause) (s : State) : Ran := .ioFailure c (envSpiClose s).2

/-- The word-size and clock steps and the commit (42_spi_master.md R141, R143, R144). -/
def spiConfigure (path : BusPath) (hz : U32) (mode : U8) (eff : Bool) (s : State) : Ran :=
  match envSpiSetBits s params.bitsPerWord with
  | (.fail c, s1) => spiAbandon c s1
  | (.ok, s1) =>
    match envSpiSetSpeed s1 hz with
    | (.fail c, s2) => spiAbandon c s2
    | (.ok, s2) =>
      .ok { s2 with spi := { isOpen := true, path := path, mode := mode, noCs := eff,
                             bitsPerWord := params.bitsPerWord, maxHz := hz } }

/-- `SPI_OPEN_BODY` (42_spi_master.md R141). -/
def spiOpenBody (path : BusPath) (hz : U32) (mode : U8) (noCs : Bool) (s : State) : Ran :=
  if s.spi.isOpen then .refused
  else
    match envSpiOpen s path with
    | (.fail c, s1) => .ioFailure c s1
    | (.ok, s1) =>
      match spiModeStep mode noCs s1 with
      | (.rejected, _, s2) => spiAbandon .rejected s2
      | (.fail c, _, s2) => spiAbandon c s2
      | (.ok, eff, s2) => spiConfigure path hz mode eff s2

/-- What one exchange comes to: a result code, or the 24 received bytes. -/
inductive Exchange where
  | failed (c : ResultCode)
  | received (rx : FrameBuf)
deriving DecidableEq, Repr

/-- `SPI_XFER_BODY(24)` (42_spi_master.md R147, R148): one exchange, all-zero `tx`, if the handle is open. -/
def spiExchange (s : State) : Exchange × State :=
  if s.spi.isOpen = false then (.failed .notPermitted, s)
  else
    match envSpiTransfer s txBuffer with
    | (.fail c, s1) => (.failed (.ioFailure c), s1)
    | (.ok rx, s1) => (.received rx, s1)

/-- `SPI_XFER_BODY(len)` (42_spi_master.md R147). -/
def spiXferBody (len : U32) (s : State) : Ran :=
  if len.toNat ≠ frameBytes then .refused
  else
    match spiExchange s with
    | (.failed c, s1) => .error c s1
    | (.received rx, s1) => .okWith (.bytes rx) s1

/-- `SPI_CLOSE_BODY` (42_spi_master.md R150). It never fails. -/
def spiCloseBody (s : State) : State :=
  if s.spi.isOpen then
    let s1 := (envSpiClose s).2
    { s1 with spi := { s1.spi with isOpen := false } }
  else s

/-! ### The meanings -/

/-- SPI.OPEN (42_spi_master.md R141). -/
def execSpiOpen (path : BusPath) (hz : U32) (mode : U8) (noCs : Bool) (s : State) :
    Host.Outcome State Fault Refusal :=
  .next (finish s (hostOnly s (spiOpenBody path hz mode noCs s)))

/-- SPI.XFER (42_spi_master.md R147). -/
def execSpiXfer (len : U32) (s : State) : Host.Outcome State Fault Refusal :=
  .next (finish s (hostOnly s (spiXferBody len s)))

/-- SPI.CLOSE (42_spi_master.md R150). -/
def execSpiClose (s : State) : Host.Outcome State Fault Refusal :=
  .next (finish s (hostOnly s (.ok (spiCloseBody s))))

end Sys2Proof.Machine
end

