-- ==== Sys2Proof/Machine/Acquisition.lean ====
section
/-! DEFINITION. The acquisition controller's commands (43_acquisition.md). They call the bodies of the other two units
as sub-operations (00_scope.md R14). -/

namespace Sys2Proof.Machine

/-! ### ACQ.CLOSE -/

/-- The slot's `level` after ACQ.CLOSE is unspecified (10_state.md R50) if the slot was in use: a free bit (log 15). -/
def forgetLevel (k : Slot) (before : State) (s : State) : State :=
  if (before.slot k).line.isSome then drawLevel k s else s

/-- `s.cfg` after ACQ.CLOSE is unspecified (10_state.md R24, R50) if the controller was open: a free value (log 13). -/
def forgetConfig (before : State) (s : State) : State :=
  if before.isOpen then
    { s with cfg := Config.freeConfig s.env.free, env := { s.env with free := s.env.free + 1 } }
  else s

/-- `ACQ_CLOSE_BODY` (43_acquisition.md R179, R180). It never fails. -/
def acqCloseBody (s : State) : State :=
  let s1 := lineReleaseBody .sync (lineReleaseBody .drdy (spiCloseBody s))
  let s2 := { s1.zeroRaw with seq := 0, started := false, isOpen := false }
  forgetConfig s (forgetLevel .sync s (forgetLevel .drdy s s2))

/-! ### ACQ.OPEN -/

/-- The SYNC acquisition of ACQ.OPEN: output, idle-high, if sync is enabled (43_acquisition.md R160). -/
def acquireSyncLine (m : Option LineId) (s : State) : Ran :=
  match m with
  | none => .ok s
  | some l => lineAcquireBody .sync l .output true s

/-- The resource steps of ACQ.OPEN: the SPI master, DRDY, then SYNC if it is enabled (43_acquisition.md R160). -/
def acquireAll (c : DeviceConfig) (d : LineId) (m : Option LineId) (s : State) : Ran :=
  ((spiOpenBody (defaultedPath c.busPath) c.clockHz c.mode c.noCs s).andThen fun s1 =>
    lineAcquireBody .drdy d .input false s1).andThen fun s2 => acquireSyncLine m s2

/-- The end of a successful ACQ.OPEN (43_acquisition.md R160). -/
def commitOpen (c : DeviceConfig) (s : State) : State := { s with seq := 0, cfg := c, isOpen := true, started := false }

/-- Something of the line unit or of the SPI master is left in use by host commands (43_acquisition.md R160). -/
def State.leftovers (s : State) : Bool := s.spi.isOpen || s.drdy.line.isSome || s.sync.line.isSome

/-- `ACQ_OPEN` (43_acquisition.md R160 to R164). On any failure of a resource step everything is torn down (R163). -/
def acqOpenBody (cfg : Option DeviceConfig) (s : State) : Ran :=
  match cfg with
  | none => .error .invalidArgument s
  | some c0 =>
    if s.isOpen then .error .alreadyOpen s
    else if s.leftovers then .refused
    else
      let c := applyDefaults c0
      match checkLines c with
      | .missing => .error .invalidArgument s
      | .clash => .refused
      | .lines d m => ((acquireAll c d m s).onError acqCloseBody).andThen fun s1 => .ok (commitOpen c s1)

/-! ### The read-frame sequence -/

/-- The overrun warning is emitted if it is due (43_acquisition.md R172, 10_state.md R42). -/
def warnOverrun (t0 t1 : U64) (s : State) : State :=
  if overran t0 t1 then { s with diag := s.diag ++ [.overrunWarning (t1 - t0)] } else s

/-- Steps 5 to 7 of `READ_BODY`: the decode and the one commit of raw shadow, Frame and counter
(43_acquisition.md R171, R175; 20_memory.md R69). -/
def commitFrame (t0 : U64) (rx : FrameBuf) (s : State) : Ran :=
  .okWith (.frame { seq := s.seq, ts := t0, ch := decodeFrame rx }) { s with raw := rx, seq := s.seq + 1 }

/-- Steps 2 to 7 of `READ_BODY`, after the edge (43_acquisition.md R171). -/
def readAfterEdge (s : State) : Ran :=
  let c0 := envClock s
  match spiExchange c0.2 with
  | (.failed c, s1) => .error c s1
  | (.received rx, s1) =>
    let c1 := envClock s1
    commitFrame c0.1 rx (warnOverrun c0.1 c1.1 c1.2)

/-- `READ_BODY` (43_acquisition.md R171), its wait belonging to the command `w`. -/
def readBody (w : Inflight) (s : State) : Ran :=
  ((lineWaitBody .drdy s.cfg.timeoutMs s).blockedAs w).andThen readAfterEdge

/-- `READ_BODY` taken up again in its wait. -/
def readResume (w : Inflight) (s : State) : Ran :=
  ((lineWaitResume .drdy s).blockedAs w).andThen readAfterEdge

/-! ### ACQ.START -/

/-- The sync pulse: SYNC low, at least `SYNC_PULSE_US`, SYNC high (43_acquisition.md R167). -/
def syncPulse (s : State) : Ran :=
  (lineSetBody .sync false s).andThen fun s1 => lineSetBody .sync true (envDelay s1 params.syncPulseUs)

/-- `n` settle reads, their Frames discarded (43_acquisition.md R168). -/
def settleReads : Nat → State → Ran
  | 0, s => .ok s
  | n + 1, s => (readBody (.acqStart n) s).andThen (settleReads n)

/-- `s.started <- false`, all that a failed start undoes (43_acquisition.md R169). -/
def revertStart (s : State) : State := { s with started := false }

/-- `ACQ_START` (43_acquisition.md R165, R166). -/
def acqStartBody (s : State) : Ran :=
  if s.isOpen = false then .error .notPermitted s
  else if s.started then .ok s
  else
    let s1 := { s with started := true }
    if s1.cfg.syncEnable = false then .ok s1
    else ((syncPulse s1).andThen (settleReads s1.cfg.settleFrames.toNat)).onError revertStart

/-- `ACQ_START` taken up again in the wait of a settle read after which `n` more are due. -/
def acqStartResume (n : Nat) (s : State) : Ran :=
  ((readResume (.acqStart n) s).andThen (settleReads n)).onError revertStart

/-! ### ACQ.READ, ACQ.RAW, ACQ.STOP -/

/-- `ACQ_READ` (43_acquisition.md R170). -/
def acqReadBody (p : Bool) (s : State) : Ran :=
  if p = false then .error .invalidArgument s
  else if s.started = false then .error .notPermitted s
  else readBody .acqRead s

/-- `ACQ_RAW` (43_acquisition.md R177). -/
def acqRawBody (p : Bool) (s : State) : Ran :=
  if p = false then .error .invalidArgument s
  else .okWith (.bytes (Vector.ofFn s.rawRead)) s

/-- `ACQ_STOP` (43_acquisition.md R178). -/
def acqStopBody (s : State) : Ran := .ok { s with started := false }

/-! ### The meanings -/

/-- ACQ.OPEN (43_acquisition.md R160). -/
def execAcqOpen (cfg : Option DeviceConfig) (s : State) : Host.Outcome State Fault Refusal :=
  .next (finish s (acqOpenBody cfg s))

/-- ACQ.START (43_acquisition.md R165). -/
def execAcqStart (s : State) : Host.Outcome State Fault Refusal := .next (finish s (acqStartBody s))

/-- ACQ.READ (43_acquisition.md R170). -/
def execAcqRead (p : Bool) (s : State) : Host.Outcome State Fault Refusal := .next (finish s (acqReadBody p s))

/-- ACQ.RAW (43_acquisition.md R177). -/
def execAcqRaw (p : Bool) (s : State) : Host.Outcome State Fault Refusal := .next (finish s (acqRawBody p s))

/-- ACQ.STOP (43_acquisition.md R178). -/
def execAcqStop (s : State) : Host.Outcome State Fault Refusal := .next (finish s (acqStopBody s))

/-- ACQ.CLOSE (43_acquisition.md R179). -/
def execAcqClose (s : State) : Host.Outcome State Fault Refusal := .next (finish s (.ok (acqCloseBody s)))

end Sys2Proof.Machine
end

