-- ==== Sys2Proof/Machine/Dispatch.lean ====
section
/-! DEFINITION. The dispatch of every instruction to its meaning. -/

namespace Sys2Proof.Machine

def exec (i : Instr) (s : State) : Host.Outcome State Fault Refusal :=
  match i with
  | .lineAcquire k d v l => Sys2Proof.Machine.execLineAcquire k d v l s
  | .lineWait k ms => Sys2Proof.Machine.execLineWait k ms s
  | .lineGet k => Sys2Proof.Machine.execLineGet k s
  | .lineSet k v => Sys2Proof.Machine.execLineSet k v s
  | .lineRelease k => Sys2Proof.Machine.execLineRelease k s
  | .spiOpen path hz mode noCs => Sys2Proof.Machine.execSpiOpen path hz mode noCs s
  | .spiXfer len => Sys2Proof.Machine.execSpiXfer len s
  | .spiClose => Sys2Proof.Machine.execSpiClose s
  | .acqOpen cfg => Sys2Proof.Machine.execAcqOpen cfg s
  | .acqStart => Sys2Proof.Machine.execAcqStart s
  | .acqRead p => Sys2Proof.Machine.execAcqRead p s
  | .acqRaw p => Sys2Proof.Machine.execAcqRaw p s
  | .acqStop => Sys2Proof.Machine.execAcqStop s
  | .acqClose => Sys2Proof.Machine.execAcqClose s

end Sys2Proof.Machine
end

