-- ==== Sys2Proof/Machine/HostPort.lean ====
section
/-! DEFINITION. The host's port: the next command, a blocked command taken up again, and a command placed where the next
step takes it. Step.lean calls these (10_state.md R21, 20_memory.md R78). -/

namespace Sys2Proof.Machine

/-- A further turn of the blocked command (00_scope.md R15(d)). -/
def resumeBody (w : Inflight) (s : State) : Ran :=
  match w with
  | .lineWait k => lineWaitResume k s
  | .acqRead => readResume .acqRead s
  | .acqStart n => acqStartResume n s

/-- The machine's state after a further turn of the blocked command. -/
def resume (w : Inflight) (s : State) : State := finish s (resumeBody w s)

/-- `s` without the command the host hands over next. -/
def State.popCommand (s : State) : State := { s with pending := s.pending.tail }

/-- `c` in the place of the command the host hands over next, and no command blocked before it. -/
def State.placeCommand (s : State) (c : Command) : State :=
  { s with pending := c :: s.pending.tail, inflight := none }

end Sys2Proof.Machine
end

