-- ==== Sys2Proof/Machine/Step.lean ====
section
/-! DEFINITION. One step of the machine: a blocked command has a further turn; otherwise the host's next command is
decoded and executed, and a command that does not decode is refused (30_encoding.md R87); with no command to take the
block waits (70_reset_and_hazards.md R231). -/

namespace Sys2Proof.Machine

/-- One step. -/
def step (s : State) : Host.Outcome State Fault Refusal :=
  match s.inflight, s.pending with
  | some w, _ => .next (resume w s)
  | none, [] => .next s
  | none, c :: _ =>
    match c.instr with
    | some i => exec i s.popCommand
    | none => .next s.popCommand.refuse

/-- `s` with the command of a table word, its payload of zeros, as the very next command (log 8). -/
def State.withFetchWord (s : State) (nbits w : Nat) : State := s.placeCommand (Command.ofTableWord nbits w)

end Sys2Proof.Machine
end

