-- ==== Sys2Proof/Machine/Record.lean ====
section
/-! DEFINITION. `RECORD` (43_acquisition.md R184): the serialisation of a Frame, informative. The record is made by a
collaborator outside the block and no step of the machine reads it (00_scope.md R9). -/

namespace Sys2Proof.Machine

/-- The `n` low bytes of a word, least significant first (20_memory.md R63). -/
def littleEndian {w : Nat} (x : BitVec w) (n : Nat) : List Byte :=
  (List.range n).map fun i => x.extractLsb' (8 * i) 8

/-- `RECORD(f)`: `seq`, `ts`, then the eight channels in order, `RECORD_BYTES` bytes in all (43_acquisition.md R184). -/
def Frame.record (f : Frame) : Vector Byte recordBytes :=
  ⟨(littleEndian f.seq 8 ++ littleEndian f.ts 8 ++ f.ch.toList.flatMap fun c => littleEndian c 4).toArray, by
    simp only [littleEndian, List.size_toArray, List.length_append, List.length_map, List.length_range,
      List.length_flatMap, List.map_const', List.sum_replicate_nat, Vector.length_toList]
    rfl⟩

end Sys2Proof.Machine
end

