-- ==== Sys2Proof/Safety.lean ====
section
/-! DEFINITION. What claims are stated in: what a run must not do (60_exceptions.md R203), the invariant of the block,
and the parts of the state an instruction leaves as they were. -/

namespace Sys2Proof.Machine

/-- No refused command was reached so far (60_exceptions.md R203): the premise of a claim about a run. -/
def State.unrefused (s : State) : Bool := !s.refused

/-- The slot that `k` is not. -/
def otherSlot (k : Slot) : Slot :=
  match k with
  | .drdy => .sync
  | .sync => .drdy

/-! ### Frames -/

/-- Slot `y` is slot `x` but for the latch, which the environment may set at any call (10_state.md R31), though only on
a slot that holds a line as a falling-edge input. -/
structure LineSlot.SameButLatch (x y : LineSlot) : Prop where
  line : y.line = x.line
  exportedByUs : y.exportedByUs = x.exportedByUs
  handle : y.handle = x.handle
  dir : y.dir = x.dir
  edge : y.edge = x.edge
  level : y.level = x.level
  latch : x.latch = false → y.latch = true → x.line ≠ none ∧ x.detectsFalling = true

/-- Slot `k` is as it was but for the latch. -/
def SameSlot (k : Slot) (s t : State) : Prop := (s.slot k).SameButLatch (t.slot k)

/-- The controller's registers, the raw shadow, the diagnostics, the refusal mark and the host's coming commands are as
they were. -/
structure SameController (s t : State) : Prop where
  isOpen : t.isOpen = s.isOpen
  started : t.started = s.started
  cfg : t.cfg = s.cfg
  seq : t.seq = s.seq
  raw : t.raw = s.raw
  diag : t.diag = s.diag
  refused : t.refused = s.refused
  pending : t.pending = s.pending

/-- The block's own state is as it was but for the latches. -/
structure SameBlock (s t : State) : Prop where
  controller : SameController s t
  spi : t.spi = s.spi
  drdy : SameSlot .drdy s t
  sync : SameSlot .sync s t

/-- The command completed with this response, and the host went on to its next command (10_state.md R21). -/
structure Completed (s t : State) (r : Response) : Prop where
  out : t.out = some r
  inflight : t.inflight = none
  cp : t.cp = s.cp + 1

/-- The slot is empty (10_state.md R50). -/
structure LineSlot.Empty (x : LineSlot) : Prop where
  line : x.line = none
  exportedByUs : x.exportedByUs = false
  handle : x.handle = none
  dir : x.dir = none
  edge : x.edge = none
  latch : x.latch = false

/-- The turns' verdicts are all `ok`: "every `Env.*` call answers `Ok`" (10_state.md R45). -/
abbrev AllGranted (ts : List Turn) : Prop := ∀ t ∈ ts, t.verdict = .ok

/-! ### What the environment is assumed to do -/

/-- A whole pulse of line `l`, a rise and a fall, lies among the turn's events: wherever the pin stood, there is a
falling edge (10_state.md R31). -/
def Pulses (t : Turn) (l : LineId) : Prop :=
  ∃ es es', t.events = es ++ .pinRise l :: .pinFall l :: es'

/-- Line `l` falls in turn `b`: by a whole pulse, or from a level that was 1 before turn `a` and that nothing moved
until then. -/
def FallsIn (s : State) (l : LineId) (a b : Turn) : Prop :=
  Pulses b l ∨ (a.events = [] ∧ (s.lineEnv l).pin = true ∧ ∃ es, b.events = .pinFall l :: es)

/-- The turns of the six underlying calls of one frame read, in their order (43_acquisition.md R171). -/
structure ReadTurns where
  clear : Turn
  wait : Turn
  again : Turn
  before : Turn
  exchange : Turn
  after : Turn

/-- The turns as they stand in the script. -/
def ReadTurns.list (r : ReadTurns) : List Turn := [r.clear, r.wait, r.again, r.before, r.exchange, r.after]

/-- The environment lets the read succeed: both clears and the exchange are granted, the wait does not fail, and the
data-ready line falls in it. -/
structure ReadTurns.Delivers (r : ReadTurns) (l : LineId) : Prop where
  clear : r.clear.verdict = .ok
  wait : ∀ c, r.wait.verdict ≠ .fail c
  falls : Pulses r.wait l
  again : r.again.verdict = .ok
  exchange : r.exchange.verdict = .ok

/-- The underlying calls of one frame read (43_acquisition.md R171). -/
def readCalls (l : LineId) (ms : U32) : List Call :=
  [.readValue l, .waitEdge .drdy ms, .readValue l, .clock, .spiTransfer FrameBuf.zero, .clock]

/-- The turns `ts` of a frame read of line `l` up to the underlying call that fails, and the code the read returns
(43_acquisition.md R171, R176, 41_gpio_line.md R118): an I/O failure with the environment's cause of a clear, of the
wait or of the exchange, or a wait that times out because the line does not fall in it. -/
inductive FailingRead (l : LineId) : List Turn → ResultCode → Prop where
  | clear (a : Turn) (c : EnvCause) (ha : a.verdict = .fail c) : FailingRead l [a] (.ioFailure (.env c))
  | wait (a b : Turn) (c : EnvCause) (ha : a.verdict = .ok) (hb : b.verdict = .fail c) :
      FailingRead l [a, b] (.ioFailure (.env c))
  | timeout (a b : Turn) (ha : a.verdict = .ok) (quiet : .pinFall l ∉ b.events) (hb : b.verdict = .timeout) :
      FailingRead l [a, b] .timedOut
  | again (a b x : Turn) (c : EnvCause) (ha : a.verdict = .ok) (hb : ∀ e, b.verdict ≠ .fail e) (falls : Pulses b l)
      (hx : x.verdict = .fail c) : FailingRead l [a, b, x] (.ioFailure (.env c))
  | exchange (a b x y z : Turn) (c : EnvCause) (ha : a.verdict = .ok) (hb : ∀ e, b.verdict ≠ .fail e) (falls : Pulses b l)
      (hx : x.verdict = .ok) (hz : z.verdict = .fail c) : FailingRead l [a, b, x, y, z] (.ioFailure (.env c))

/-- The turns of a frame read of line `l` that blocks: the first clear is granted, and in the wait's turn the line does
not fall and the environment does not answer (41_gpio_line.md R118, R119, 00_scope.md R15(d)). -/
structure UnansweredRead (l : LineId) (a b : Turn) : Prop where
  clear : a.verdict = .ok
  quiet : .pinFall l ∉ b.events
  silent : b.verdict = .silent

/-- The turn of a write that fails or falls short, and the code of the command (41_gpio_line.md R124, R125). -/
inductive FailingWrite (t : Turn) : ResultCode → Prop where
  | short (h : t.verdict = .short) : FailingWrite t (.ioFailure .shortWrite)
  | fail (c : EnvCause) (h : t.verdict = .fail c) : FailingWrite t (.ioFailure (.env c))

/-- The raw shadow after the reads that delivered, the last of them last (43_acquisition.md R175). -/
def shadowAfter (s : State) (reads : List ReadTurns) : FrameBuf :=
  match reads.getLast? with
  | none => s.raw
  | some r => r.exchange.rx

/-- What a frame read needs: DRDY an open falling-edge input on line `l` that this block does not drive, and the SPI
handle open. -/
structure State.ReadyToRead (s : State) (l : LineId) : Prop where
  line : s.drdy.line = some l
  handle : s.drdy.handle ≠ none
  falling : s.drdy.detectsFalling = true
  undriven : s.drives l = false
  spi : s.spi.isOpen = true

/-- The underlying calls of LINE.ACQUIRE, in their order (41_gpio_line.md R111). -/
def acquireCalls (l : LineId) (d : Dir) (v : Level) : List Call :=
  match d with
  | .input => [.reserve l, .setDirection l .input, .setEdge l .falling, .openValue l .input]
  | .output => [.reserve l, .setDirection l .output, .setInitialLevel l v, .openValue l .output]

/-- The underlying calls of LINE.RELEASE on a slot `x` (41_gpio_line.md R126). -/
def releaseCallList (x : LineSlot) : List Call :=
  match x.line with
  | none => []
  | some l => (if x.handle.isSome then [.closeValue l] else []) ++ (if x.exportedByUs then [.unreserve l] else [])

/-- The underlying calls of SPI.OPEN when the first mode step is granted (42_spi_master.md R141). -/
def spiOpenCalls (path : BusPath) (hz : U32) (mode : U8) (noCs : Bool) : List Call :=
  [.spiOpen path, .spiSetMode mode noCs, .spiSetBits 8, .spiSetSpeed hz]

/-- Nothing is left in use by host commands (43_acquisition.md R160). -/
structure State.Unused (s : State) : Prop where
  isOpen : s.isOpen = false
  spi : s.spi.isOpen = false
  drdy : s.drdy.line = none
  sync : s.sync.line = none

/-- A command that goes on is blocked as `w`: nothing was returned, and the host stays at it (00_scope.md R15(d)). -/
structure BlockedAs (w : Inflight) (s t : State) : Prop where
  inflight : t.inflight = some w
  cp : t.cp = s.cp
  out : t.out = s.out

/-- What an ACQ.START keeps, however it ends (43_acquisition.md R165, R169): the resources stay as they were but for latches
and SYNC's level. -/
structure StartKeeps (s t : State) : Prop where
  cfg : t.cfg = s.cfg
  spi : t.spi = s.spi
  drdy : SameSlot .drdy s t
  sync : s.sync.SameButLatch { t.sync with level := s.sync.level }
  refused : t.refused = s.refused
  pending : t.pending = s.pending

/-- What a failing ACQ.START leaves (43_acquisition.md R169): `started` is cleared, and the resources are kept. -/
structure StartReverted (s t : State) : Prop extends StartKeeps s t where
  opened : t.driverState = .opened

/-- An ACQ.START that is about to pulse SYNC on line `m` (43_acquisition.md R165 to R167). -/
structure State.ReadyToPulse (s : State) (m : LineId) : Prop where
  isOpen : s.isOpen = true
  started : s.started = false
  syncEnable : s.cfg.syncEnable = true
  line : s.sync.line = some m
  handle : s.sync.handle = some .output

/-! ### Results -/

/-- One row of the table of 60_exceptions.md R201, but for the columns `OK` (every command may return it) and `BUSY`
(no command does, 30_encoding.md R90). -/
structure CodeRow where
  invalidArgument : Bool
  alreadyOpen : Bool
  notPermitted : Bool
  timedOut : Bool
  ioFailure : Bool
deriving DecidableEq, Repr

/-- The codes a row allows. -/
def CodeRow.allows (r : CodeRow) (c : ResultCode) : Bool :=
  match c with
  | .ok => true
  | .invalidArgument => r.invalidArgument
  | .alreadyOpen => r.alreadyOpen
  | .notPermitted => r.notPermitted
  | .timedOut => r.timedOut
  | .busy => false
  | .ioFailure _ => r.ioFailure

/-- The row of each command (60_exceptions.md R201). -/
def codeRow (i : Instr) : CodeRow :=
  match i with
  | .lineAcquire _ _ _ _ => ⟨false, false, false, false, true⟩
  | .lineWait _ _ => ⟨false, false, true, true, true⟩
  | .lineGet _ => ⟨false, false, true, false, true⟩
  | .lineSet _ _ => ⟨false, false, true, false, true⟩
  | .lineRelease _ => ⟨false, false, false, false, false⟩
  | .spiOpen _ _ _ _ => ⟨false, false, false, false, true⟩
  | .spiXfer _ => ⟨false, false, true, false, true⟩
  | .spiClose => ⟨false, false, false, false, false⟩
  | .acqOpen _ => ⟨true, true, false, false, true⟩
  | .acqStart => ⟨false, false, true, true, true⟩
  | .acqRead _ => ⟨true, false, true, true, true⟩
  | .acqRaw _ => ⟨true, false, false, false, false⟩
  | .acqStop => ⟨false, false, false, false, false⟩
  | .acqClose => ⟨false, false, false, false, false⟩

/-- The output record of each command that returns OK (30_encoding.md R91). -/
def outputFits (i : Instr) (o : Output) : Prop :=
  match i with
  | .lineAcquire _ _ _ _ => o = .nothing
  | .lineWait _ _ => o = .nothing
  | .lineGet _ => ∃ v, o = .level v
  | .lineSet _ _ => o = .nothing
  | .lineRelease _ => o = .nothing
  | .spiOpen _ _ _ _ => o = .nothing
  | .spiXfer _ => ∃ b, o = .bytes b
  | .spiClose => o = .nothing
  | .acqOpen _ => o = .nothing
  | .acqStart => o = .nothing
  | .acqRead _ => ∃ f, o = .frame f
  | .acqRaw _ => ∃ b, o = .bytes b
  | .acqStop => o = .nothing
  | .acqClose => o = .nothing

/-- A response the command may give: a code of its row; its output record with OK and none otherwise. -/
def Answers (i : Instr) (r : Response) : Prop :=
  (codeRow i).allows r.code = true ∧ (r.code = .ok → outputFits i r.output) ∧ (r.code ≠ .ok → r.output = .nothing)

/-- The blocked command `w` is the command `i` (00_scope.md R15(d)). -/
def Inflight.belongsTo (w : Inflight) (i : Instr) : Prop :=
  match w with
  | .lineWait k => ∃ ms, i = .lineWait k ms
  | .acqRead => i = .acqRead true
  | .acqStart _ => i = .acqStart

/-- The outcomes of a command (00_scope.md R15): refused, blocked, or completed with a response it may give. -/
def Outcomes (i : Instr) (s t : State) : Prop :=
  t = s.refuse ∨
    (∃ w, t.inflight = some w ∧ w.belongsTo i ∧ t.cp = s.cp ∧ t.out = s.out ∧ t.refused = s.refused) ∨
    (∃ r, Completed s t r ∧ Answers i r ∧ t.refused = s.refused)

/-! ### Header words -/

/-- The fields a command uses, `S` at bit 0, `D` at bit 1, `V` at bit 2 and `P` at bit 3, by its opcode; `none` for an
opcode with no command (30_encoding.md R83, R84, R87). -/
def usedFields (op : BitVec 8) : Option (BitVec 4) :=
  if op = 0x10 then some 0b0111
  else if op = 0x11 then some 0b0001
  else if op = 0x12 then some 0b0001
  else if op = 0x13 then some 0b0101
  else if op = 0x14 then some 0b0001
  else if op = 0x20 then some 0
  else if op = 0x21 then some 0
  else if op = 0x22 then some 0
  else if op = 0x30 then some 0b1000
  else if op = 0x31 then some 0
  else if op = 0x32 then some 0b1000
  else if op = 0x33 then some 0b1000
  else if op = 0x34 then some 0
  else if op = 0x35 then some 0
  else none

/-- A header word is reserved: its opcode has no command, or an unused field or a bit of [31:12] is not 0
(30_encoding.md R81, R87). -/
def reservedHeader (w : Header) : Bool :=
  match usedFields (w.extractLsb' 0 8) with
  | none => true
  | some used => !((w.extractLsb' 8 4 &&& ~~~used) == 0) || !(w.extractLsb' 12 20 == 0)

/-! ### The invariant -/

/-- What every slot satisfies (10_state.md R29, R30): an empty slot holds nothing, a handle goes with its direction and
edge mode, and only inputs have an edge mode. -/
structure LineSlot.Coherent (x : LineSlot) : Prop where
  empty : x.line = none → x.Empty
  input : x.handle = some .input → x.dir = some .input ∧ x.edge = some .falling
  output : x.handle = some .output → x.dir = some .output
  edge : x.edge = some .falling → x.dir = some .input

/-- What the controller holds while it is open (10_state.md R22, 43_acquisition.md R160 to R162, R171). -/
structure State.Held (s : State) : Prop where
  spi : s.spi.isOpen = true
  drdy : s.drdy.handle = some .input
  drdyLine : s.drdy.line = s.cfg.drdyLine
  sync : s.cfg.syncEnable = true → s.sync.handle = some .output ∧ s.sync.line = s.cfg.syncLine
  noSync : s.cfg.syncEnable = false → s.sync.line = none
  differ : s.cfg.syncEnable = true → s.cfg.syncLine ≠ s.cfg.drdyLine
  path : s.cfg.busPath ≠ none
  clock : s.cfg.clockHz ≠ 0
  timeout : s.cfg.timeoutMs ≠ 0

/-- A blocked command is one that can be (00_scope.md R15(d)): LINE.WAIT on an acquired input while the controller is
closed, a read while it is started, a start, which has set `started`, with sync enabled (43_acquisition.md R166). -/
def State.InflightLegal (s : State) : Prop :=
  match s.inflight with
  | none => True
  | some (.lineWait k) => s.isOpen = false ∧ (s.slot k).handle = some .input
  | some .acqRead => s.started = true
  | some (.acqStart _) => s.started = true ∧ s.cfg.syncEnable = true

/-- The invariant of the block: what holds at reset and after every step. -/
structure State.Inv (s : State) : Prop where
  /-- 10_state.md R22. -/
  startedOpen : s.started = true → s.isOpen = true
  /-- 10_state.md R50: while closed the counter is 0 and the raw shadow zero (R25, R26). -/
  closed : s.isOpen = false → s.seq = 0 ∧ s.raw = FrameBuf.zero
  /-- 10_state.md R22. -/
  held : s.isOpen = true → s.Held
  /-- 10_state.md R28: 8 bits only. -/
  bits : s.spi.isOpen = true → s.spi.bitsPerWord = 8
  drdy : s.drdy.Coherent
  sync : s.sync.Coherent
  /-- 10_state.md R32: a reservation this block made is held. -/
  reserved : ∀ l, s.owns l = true → (s.lineEnv l).reserved = true
  /-- 10_state.md R44: a line is reserved once. -/
  once : s.drdy.exportedByUs = true → s.sync.exportedByUs = true → s.drdy.line ≠ s.sync.line
  inflight : s.InflightLegal
  /-- The line table has its canonical form. -/
  lines : LineTable.wf s.env.lines

end Sys2Proof.Machine
end

