-- ==== Sys2Proof/Certificates/Slice0/Obligations.lean ====
section
/-! DEFINITION. The statements for the provers. Where a statement assumes answers of the environment, as 10_state.md R45
asks, it names them as the turns at the head of the script (log 1 to 3). -/

open Sys2Proof Sys2Proof.Machine

/-! ### Encoding, decoding and the step -/

/-- Decode and encode are inverse to each other, for every instruction with every operand, and in both directions: a
header word and a payload decode to an instruction exactly if they are that instruction's encoding
(30_encoding.md R80, R83 to R85, R89). -/
def Obligations.DecodeInvertsEncode : Prop :=
  ∀ (w : Header) (p : Payload) (i : Instr), decode w p = some i ↔ encode i = { header := w, payload := p }

/-- A header word matches no row of the table exactly if its opcode has no command, or an unused field or a bit of
[31:12] is not 0 (30_encoding.md R81, R87), and exactly then nothing decodes from it; and the rows do not overlap
(R85). -/
def Obligations.ReservedWordsMatchNoRow : Prop :=
  (∀ w : Header, (rowOf w = none ↔ reservedHeader w = true) ∧
    (reservedHeader w = true ↔ ∀ p, decode w p = none)) ∧
  (∀ (w : Header) (a b : OpRow), a ∈ opRows → b ∈ opRows → a.hits w = true → b.hits w = true → a = b)

/-- A few of the words of 30_encoding.md R102 and their instructions. -/
def Obligations.WordsOfTheSpecDecode : Prop :=
  decode 0x00000010#32 (.line 7) = some (.lineAcquire .drdy .input false 7) ∧
  decode 0x00000710#32 (.line 9) = some (.lineAcquire .sync .output true 9) ∧
  decode 0x00000011#32 (.timeout 2000) = some (.lineWait .drdy 2000) ∧
  decode 0x00000113#32 .empty = some (.lineSet .sync false) ∧
  decode 0x00000513#32 .empty = some (.lineSet .sync true) ∧
  decode 0x00000114#32 .empty = some (.lineRelease .sync) ∧
  decode 0x00000021#32 (.length 24) = some (.spiXfer 24) ∧
  decode 0x00000030#32 .empty = some (.acqOpen none) ∧
  decode 0x00000832#32 .empty = some (.acqRead true) ∧
  decode 0x00000833#32 .empty = some (.acqRaw true) ∧
  decode 0x00000035#32 .empty = some .acqClose

/-- A step runs the decoded instruction: with no command blocked, the host's next command is taken, and the step is
`exec` of what it decodes to (10_state.md R21, 20_memory.md R74). A step while a command is blocked is a further turn of
that command and takes no new one (00_scope.md R15); with nothing blocked and no command to take the machine stays as
it is (70_reset_and_hazards.md R231; the model's own idle step, log 8). -/
def Obligations.StepRunsTheDecodedInstruction : Prop :=
  (∀ (s : State) (c : Command) (rest : List Command) (i : Instr),
    s.inflight = none → s.pending = c :: rest → decode c.header c.payload = some i →
    step s = exec i { s with pending := rest }) ∧
  (∀ (s : State) (w : Inflight), s.inflight = some w → step s = .next (finish s (resumeBody w s))) ∧
  (∀ s : State, s.inflight = none → s.pending = [] → step s = .next s)

/-- A reserved header word is refused: the mark is set and no other state of the block or of the environment changes
(30_encoding.md R87, 60_exceptions.md R203). That the host then goes on to its next command, and sees no response, is
the model's choice (log 5). -/
def Obligations.ReservedWordIsRefused : Prop :=
  ∀ (s : State) (c : Command) (rest : List Command),
    s.inflight = none → s.pending = c :: rest → reservedHeader c.header = true →
    step s = .next { s with pending := rest, refused := true, out := none, cp := s.cp + 1 }

/-! ### Reset and the invariant -/

/-- What reset leaves (70_reset_and_hazards.md R230, 10_state.md R50): the fields for which the spec gives a value. -/
def Obligations.ResetLeavesTheBlockClosed : Prop :=
  State.reset.driverState = .closed ∧ State.reset.isOpen = false ∧ State.reset.started = false ∧
  State.reset.seq = 0 ∧ State.reset.raw = FrameBuf.zero ∧ State.reset.spi.isOpen = false ∧
  State.reset.drdy.Empty ∧ State.reset.sync.Empty ∧ State.reset.diag = [] ∧ State.reset.refused = false

/-- The invariant of the block holds at reset. -/
def Obligations.ResetMeetsTheInvariant : Prop := State.reset.Inv

/-- Every step keeps the invariant of the block, from every state that meets it and whatever the environment answers:
`started` implies `open` (10_state.md R22); what the controller holds while it is open (R22, 43_acquisition.md R160 to
R162, R171); a zero counter and a zero shadow while it is closed (10_state.md R25, R26); 8 bits per word (R28); coherent
slots (R29, R30); reservations held and held once (R32, R44). -/
def Obligations.EveryStepKeepsTheInvariant : Prop :=
  ∀ s t : State, s.Inv → step s = .next t → t.Inv

/-! ### The machine as a whole -/

/-- Every command, in every state and whatever the environment answers, is refused, blocked, or completed with a code
of its row in the table of 60_exceptions.md R201 and with its output record of 30_encoding.md R91; and so is a blocked
command when it is taken up again. The seven codes have the numbers 0 to 6 of 30_encoding.md R90, whatever the cause. -/
def Obligations.CommandsReturnTheirCodes : Prop :=
  (∀ (i : Instr) (s t : State), s.inflight = none → exec i s = .next t → Outcomes i s t) ∧
  (∀ (i : Instr) (w : Inflight) (s t : State), s.inflight = some w → w.belongsTo i → step s = .next t →
    Outcomes i s t) ∧
  ([.ok, .invalidArgument, .alreadyOpen, .notPermitted, .timedOut, .busy].map ResultCode.number = [0, 1, 2, 3, 4, 5] ∧
    ∀ c, (ResultCode.ioFailure c).number = 6)

/-- The refusal mark (10_state.md R43, 60_exceptions.md R203): a refused command sets it, no command clears it, and a
command that is not refused leaves it; and what a first refusal leaves is the state before the command with the mark
set. That the response is cleared and `cp` advances is the model's choice (log 5). -/
def Obligations.RefusalIsStickyAndChangesNothingElse : Prop :=
  (∀ s t : State, step s = .next t →
    (s.refused = true → t.refused = true) ∧ (t.cp = s.cp + 1 → t.out = none → t.refused = true) ∧
    (t.refused = true → s.refused = true ∨ (t.cp = s.cp + 1 ∧ t.out = none))) ∧
  (∀ (i : Instr) (s t : State), s.inflight = none → s.refused = false → exec i s = .next t → t.refused = true →
    t = { s with refused := true, out := none, cp := s.cp + 1 })

/-- `cp` starts at 0 and advances by exactly 1 with every command that ends, whatever its result; while a command is
blocked, or while there is no command, it stays (10_state.md R21). -/
def Obligations.CommandIndexAdvancesByOne : Prop :=
  State.reset.cp = 0 ∧
  ∀ s t : State, step s = .next t →
    (t.cp = s.cp + 1 ∧ t.inflight = none) ∨ (t.cp = s.cp ∧ (t.inflight ≠ none ∨ t = s))

/-- The controller's state moves only as 10_state.md R23 says: to `Opened` from `Closed` by ACQ.OPEN, from `Opened` to
`Started` by ACQ.START, back by ACQ.STOP, and to `Closed` from any state by ACQ.CLOSE; and, when a blocked command is
taken up again, from `Started` to `Opened` by an ACQ.START that fails (43_acquisition.md R169). -/
def Obligations.DriverStateMoves : Prop :=
  (∀ (i : Instr) (s t : State), exec i s = .next t →
    t.driverState = s.driverState ∨
    ((∃ c, i = .acqOpen (some c)) ∧ s.driverState = .closed ∧ t.driverState = .opened) ∨
    (i = .acqStart ∧ s.driverState = .opened ∧ t.driverState = .started) ∨
    (i = .acqStop ∧ s.driverState = .started ∧ t.driverState = .opened) ∨
    (i = .acqClose ∧ t.driverState = .closed)) ∧
  (∀ (w : Inflight) (s t : State), s.inflight = some w → step s = .next t →
    t.driverState = s.driverState ∨
    ((∃ n, w = .acqStart n) ∧ s.driverState = .started ∧ t.driverState = .opened))

/-- Configurations are immutable while they are in force: the controller's while it is open, which is that of the
ACQ.OPEN that opened it, with the defaults applied (10_state.md R24); the SPI master's while a handle is open, when a
step leaves it or closes the handle (10_state.md R27, R28). -/
def Obligations.ConfigurationsAreImmutableWhileOpen : Prop :=
  (∀ s t : State, step s = .next t → s.isOpen = true → t.isOpen = true → t.cfg = s.cfg) ∧
  (∀ (i : Instr) (s t : State), exec i s = .next t → s.isOpen = false → t.isOpen = true →
    ∃ c, i = .acqOpen (some c) ∧ t.cfg = applyDefaults c) ∧
  (∀ s t : State, step s = .next t → s.spi.isOpen = true → t.spi = s.spi ∨ t.spi = { s.spi with isOpen := false })

/-- Timestamps: the clock's bound never falls, and a Frame that a step returns carries 0 or a time between the bound
before the step and the bound after it; so nonzero timestamps never decrease from one frame to a later one (10_state.md
R34, 43_acquisition.md R183). -/
def Obligations.TimestampsNeverDecrease : Prop :=
  ∀ s t : State, step s = .next t →
    s.env.clock.toNat ≤ t.env.clock.toNat ∧
    (t.cp = s.cp + 1 → ∀ f, t.out = some ⟨.ok, .frame f⟩ →
      f.ts = 0 ∨ (s.env.clock.toNat ≤ f.ts.toNat ∧ f.ts.toNat ≤ t.env.clock.toNat))

/-- The diagnostic trace and the record of underlying calls are only appended to (10_state.md R42, 20_memory.md R74),
and every exchange transmits 24 zero bytes (10_state.md R36, 42_spi_master.md R148). -/
def Obligations.TracesOnlyGrowAndTransmitZeros : Prop :=
  ∀ s t : State, step s = .next t →
    (∃ ds, t.diag = s.diag ++ ds) ∧
    ∃ cs, t.calls = s.calls ++ cs ∧ ∀ tx, Call.spiTransfer tx ∈ cs → tx = Vector.replicate 24 0x00#8

/-- A host command of the GPIO line unit or of the SPI master is refused while the controller is open (41_gpio_line.md
R110). What the host sees of a refusal is the model's choice (log 5). -/
def Obligations.PrimitivesAreRefusedWhileOpen : Prop :=
  ∀ (s : State), s.isOpen = true →
    ∀ (k : Slot) (d : Dir) (v : Bool) (l : LineId) (ms len hz : U32) (path : BusPath) (mode : U8) (noCs : Bool),
      exec (.lineAcquire k d v l) s = .next s.refuse ∧ exec (.lineWait k ms) s = .next s.refuse ∧
      exec (.lineGet k) s = .next s.refuse ∧ exec (.lineSet k v) s = .next s.refuse ∧
      exec (.lineRelease k) s = .next s.refuse ∧ exec (.spiOpen path hz mode noCs) s = .next s.refuse ∧
      exec (.spiXfer len) s = .next s.refuse ∧ exec .spiClose s = .next s.refuse

/-- The frame of the line unit's commands, on every path (41_gpio_line.md R111, R118, R120, R122 to R124, R126): the
controller, the SPI master and the other slot stay, the other slot but for its latch; LINE.WAIT and LINE.GET leave the
whole block but for the latches; LINE.SET changes in its slot nothing but latch and level. -/
def Obligations.LineCommandsStayInTheirSlot : Prop :=
  ∀ (k : Slot) (s t : State),
    (∀ i : Instr, ((∃ d v l, i = .lineAcquire k d v l) ∨ (∃ ms, i = .lineWait k ms) ∨ i = .lineGet k ∨
        (∃ v, i = .lineSet k v) ∨ i = .lineRelease k) → exec i s = .next t →
      SameController s { t with refused := s.refused } ∧ t.spi = s.spi ∧ SameSlot (otherSlot k) s t) ∧
    (∀ ms, exec (.lineWait k ms) s = .next t → SameBlock s { t with refused := s.refused }) ∧
    (exec (.lineGet k) s = .next t → SameBlock s { t with refused := s.refused }) ∧
    (∀ v, exec (.lineSet k v) s = .next t → (s.slot k).SameButLatch { t.slot k with level := (s.slot k).level })

/-- The frame of the SPI master's commands, on every path: the controller and both slots stay, the slots but for their
latches; SPI.XFER leaves the SPI master too (42_spi_master.md R141, R147, R150). -/
def Obligations.SpiCommandsLeaveTheRest : Prop :=
  ∀ (s t : State),
    (∀ path hz mode noCs, exec (.spiOpen path hz mode noCs) s = .next t →
      SameController s { t with refused := s.refused } ∧ SameSlot .drdy s t ∧ SameSlot .sync s t) ∧
    (∀ len, exec (.spiXfer len) s = .next t → SameBlock s { t with refused := s.refused }) ∧
    (exec .spiClose s = .next t →
      SameController s { t with refused := s.refused } ∧ SameSlot .drdy s t ∧ SameSlot .sync s t)

/-! ### The environment -/

/-- No step of the environment, and no underlying call with its own effect on reservations and pins, reaches the block's
state but for the latches (60_exceptions.md R214, R218, 10_state.md R31, R44). That a drive of the block's own may set a
latch is the model's choice (log 21). -/
def Obligations.EnvironmentReachesOnlyLatches : Prop :=
  (∀ (s : State) (e : EnvEvent), SameBlock s (s.envStep e)) ∧
  (∀ (s : State) (c : Call), SameBlock s (s.ask c).2) ∧
  (∀ (s : State) (l : LineId) (d : Dir) (e : EdgeMode) (v : Level) (acc : Access),
    SameBlock s (envReserve s l).2 ∧ SameBlock s (envUnreserve s l).2 ∧ SameBlock s (envSetDirection s l d).2 ∧
    SameBlock s (envSetEdge s l e).2 ∧ SameBlock s (envSetInitialLevel s l v).2 ∧
    SameBlock s (envOpenValue s l acc).2 ∧ SameBlock s (envCloseValue s l).2 ∧ SameBlock s (envReadValue s l).2 ∧
    SameBlock s (envWriteValue s l v).2) ∧
  (∀ (s : State) (k : Slot), SameBlock s (envWaitTurn s k).2) ∧
  (∀ (s : State) (path : BusPath) (mode bits : U8) (noCs : Bool) (hz : U32) (tx : FrameBuf) (us : Nat),
    SameBlock s (envSpiOpen s path).2 ∧ SameBlock s (envSpiSetMode s mode noCs).2 ∧
    SameBlock s (envSpiSetBits s bits).2 ∧ SameBlock s (envSpiSetSpeed s hz).2 ∧
    SameBlock s (envSpiTransfer s tx).2 ∧ SameBlock s (envSpiClose s).2 ∧ SameBlock s (envClock s).2 ∧
    SameBlock s (envDelay s us))

/-- The edge detector (10_state.md R31). A `PinFall` of a line at level 1 that this block does not drive sets the latch of
every acquired falling-edge input on the line, and a slot that is no falling-edge input on the line keeps its latch.
`PinRise`, and what other processes do to reservations, keep every latch. A `PinFall` of a line at level 0 keeps every
latch, and a pin step on a line this block drives changes nothing at all: these two are the model's reading (log 22). -/
def Obligations.FallingEdgeSetsTheLatch : Prop :=
  ∀ (s : State) (l : LineId) (k : Slot),
    (s.drives l = false → (s.lineEnv l).pin = true → (s.slot k).line = some l → (s.slot k).detectsFalling = true →
      (s.slot k).handle ≠ none → ((s.envStep (.pinFall l)).slot k).latch = true) ∧
    ((s.slot k).line ≠ some l ∨ (s.slot k).detectsFalling = false ∨ (s.lineEnv l).pin = false →
      ((s.envStep (.pinFall l)).slot k).latch = (s.slot k).latch) ∧
    ((s.envStep (.pinRise l)).slot k).latch = (s.slot k).latch ∧
    ((s.envStep (.otherReserve l)).slot k).latch = (s.slot k).latch ∧
    ((s.envStep (.otherRelease l)).slot k).latch = (s.slot k).latch ∧
    (s.drives l = false →
      ((s.envStep (.pinFall l)).lineEnv l).pin = false ∧ ((s.envStep (.pinRise l)).lineEnv l).pin = true) ∧
    (s.drives l = true → s.envStep (.pinFall l) = s ∧ s.envStep (.pinRise l) = s)

/-- The constraints on the environment's answers (10_state.md R44, 41_gpio_line.md R119). A reservation: `Ok` only for a
line that was free when the call was answered, and it is reserved then; `Busy` only for a line that was not. A wait:
`Edge` only while the latch is set, `Timeout` only while it is clear, `Fail` at any time, and with the latch clear a
wait without an answer is blocked. That a wait is answered at once while the latch is set is the model's choice (log 4). -/
def Obligations.AnswersMeetTheirConstraints : Prop :=
  (∀ (s : State) (l : LineId),
    ((envReserve s l).1 = .ok →
      ((s.ask (.reserve l)).2.lineEnv l).reserved = false ∧ ((envReserve s l).2.lineEnv l).reserved = true) ∧
    ((envReserve s l).1 = .busy →
      ((s.ask (.reserve l)).2.lineEnv l).reserved = true ∧ ((envReserve s l).2.lineEnv l).reserved = true)) ∧
  (∀ (s : State) (k : Slot),
    ((envWaitTurn s k).1 = .edge → ((envWaitTurn s k).2.slot k).latch = true) ∧
    ((envWaitTurn s k).1 = .timeout → ((envWaitTurn s k).2.slot k).latch = false) ∧
    (∀ c, s.nextTurn.1.verdict = .fail c → (envWaitTurn s k).1 = .fail (.env c)) ∧
    ((envWaitTurn s k).1 = .silent ↔
      ((envWaitTurn s k).2.slot k).latch = false ∧ s.nextTurn.1.verdict ≠ .timeout ∧
        ∀ c, s.nextTurn.1.verdict ≠ .fail c))

/-! ### LINE.ACQUIRE -/

/-- LINE.ACQUIRE of an input completes with OK when every call is granted (41_gpio_line.md R111 to R116): the slot holds
the line as an open falling-edge input with a clear latch, reserved by this block exactly if the line was free; the
calls are the four of the rule, in its order; and if the environment takes no step of its own, no other line changes. -/
def Obligations.AcquireInputCompletes : Prop :=
  ∀ (k : Slot) (l : LineId) (s : State) (t1 t2 t3 t4 : Turn) (rest : List Turn),
    s.isOpen = false → (s.slot k).line = none → s.env.script = t1 :: t2 :: t3 :: t4 :: rest →
    AllGranted [t1, t2, t3, t4] → t1.events = [] →
    ∃ t, exec (.lineAcquire k .input false l) s = .next t ∧ Completed s t ⟨.ok, .nothing⟩ ∧
      t.slot k = { line := some l, exportedByUs := !(s.lineEnv l).reserved, handle := some .input, dir := some .input,
                   edge := some .falling, level := (s.slot k).level, latch := false } ∧
      SameController s t ∧ t.spi = s.spi ∧ SameSlot (otherSlot k) s t ∧ t.env.script = rest ∧
      t.calls = s.calls ++ acquireCalls l .input false ∧
      ((t2.events = [] ∧ t3.events = [] ∧ t4.events = []) →
        t.lineEnv l = { s.lineEnv l with reserved := true, dir := some .input, edge := some .falling } ∧
        ∀ m, m ≠ l → t.lineEnv m = s.lineEnv m)

/-- LINE.ACQUIRE of an output completes with OK when every call is granted (41_gpio_line.md R111 to R116): the slot
holds the line as an open output at the initial level, which the pin shows; no edge mode is set. -/
def Obligations.AcquireOutputCompletes : Prop :=
  ∀ (k : Slot) (l : LineId) (v : Level) (s : State) (t1 t2 t3 t4 : Turn) (rest : List Turn),
    s.isOpen = false → (s.slot k).line = none → s.env.script = t1 :: t2 :: t3 :: t4 :: rest →
    AllGranted [t1, t2, t3, t4] → t1.events = [] →
    ∃ t, exec (.lineAcquire k .output v l) s = .next t ∧ Completed s t ⟨.ok, .nothing⟩ ∧
      t.slot k = { line := some l, exportedByUs := !(s.lineEnv l).reserved, handle := some .output, dir := some .output,
                   edge := (s.slot k).edge, level := v, latch := false } ∧
      (t.lineEnv l).pin = v ∧
      SameController s t ∧ t.spi = s.spi ∧ SameSlot (otherSlot k) s t ∧ t.env.script = rest ∧
      t.calls = s.calls ++ acquireCalls l .output v ∧
      ((t2.events = [] ∧ t3.events = [] ∧ t4.events = []) →
        t.lineEnv l = { s.lineEnv l with reserved := true, dir := some .output, pin := v } ∧
        ∀ m, m ≠ l → t.lineEnv m = s.lineEnv m)

/-- A LINE.ACQUIRE that fails at step `n` keeps what the steps before it did, has no handle, and has made no later call
(41_gpio_line.md R117, 60_exceptions.md R211); the cause is the environment's (60_exceptions.md R202). -/
def Obligations.FailedAcquireKeepsTheStepsDone : Prop :=
  ∀ (k : Slot) (d : Dir) (v : Bool) (l : LineId) (s : State) (done : List Turn) (bad : Turn) (rest : List Turn)
    (c : EnvCause),
    s.isOpen = false → (s.slot k).Empty → (d = .input → v = false) →
    s.env.script = done ++ bad :: rest → done.length ≤ 3 → AllGranted done → (∀ x ∈ done, x.events = []) →
    bad.verdict = .fail c →
    ∃ t, exec (.lineAcquire k d v l) s = .next t ∧ Completed s t ⟨.ioFailure (.env c), .nothing⟩ ∧
      (t.slot k).line = some l ∧ (t.slot k).handle = none ∧
      (t.slot k).exportedByUs = (decide (1 ≤ done.length) && !(s.lineEnv l).reserved) ∧
      (t.slot k).dir = (if 2 ≤ done.length then some d else none) ∧
      (t.slot k).edge = (if done.length = 3 ∧ d = .input then some .falling else none) ∧
      (t.slot k).level = (if done.length = 3 ∧ d = .output then v else (s.slot k).level) ∧
      ((t.slot k).exportedByUs = true → (t.lineEnv l).reserved = true) ∧
      SameController s t ∧ t.spi = s.spi ∧ SameSlot (otherSlot k) s t ∧
      t.calls = s.calls ++ (acquireCalls l d v).take (done.length + 1)

/-- The checks of the line unit's commands, with the controller closed: LINE.ACQUIRE refuses a reserved edge selector
and an occupied slot (30_encoding.md R86, 41_gpio_line.md R111); LINE.WAIT, LINE.GET and LINE.SET return NOT_PERMITTED
on a slot without a handle; LINE.WAIT is refused on a slot with a handle that is no falling-edge input; LINE.SET returns
IO_FAILURE(NotOutput) on an input (R118, R122, R124, R125). None makes a call, or changes more than the mark, the response
and `cp`. What the host sees of a refusal is the model's choice (log 5). -/
def Obligations.LineCommandsCheckTheirSlot : Prop :=
  ∀ (k : Slot) (d : Dir) (v : Bool) (l : LineId) (ms : U32) (s : State), s.isOpen = false →
    exec (.lineAcquire k .input true l) s = .next s.refuse ∧
    ((s.slot k).line ≠ none → exec (.lineAcquire k d v l) s = .next s.refuse) ∧
    ((s.slot k).handle = none → exec (.lineWait k ms) s = .next (s.complete ⟨.notPermitted, .nothing⟩) ∧
      exec (.lineGet k) s = .next (s.complete ⟨.notPermitted, .nothing⟩) ∧
      exec (.lineSet k v) s = .next (s.complete ⟨.notPermitted, .nothing⟩)) ∧
    ((s.slot k).handle ≠ none → (s.slot k).detectsFalling = false → exec (.lineWait k ms) s = .next s.refuse) ∧
    ((s.slot k).handle = some .input →
      exec (.lineSet k v) s = .next (s.complete ⟨.ioFailure .notOutput, .nothing⟩))

/-! ### LINE.WAIT -/

/-- LINE.WAIT completes with OK, with the latch clear, when the line falls in the wait, whatever the latch was before
and whatever the timeout is (41_gpio_line.md R118, R121); its calls are the two clears and the wait. That the
edge is answered at once is the model's choice (log 4). -/
def Obligations.WaitCompletesOnAnEdge : Prop :=
  ∀ (k : Slot) (ms : U32) (l : LineId) (s : State) (t1 t2 t3 : Turn) (rest : List Turn),
    s.isOpen = false → (s.slot k).line = some l → (s.slot k).handle ≠ none → (s.slot k).detectsFalling = true →
    s.drives l = false → s.env.script = t1 :: t2 :: t3 :: rest →
    t1.verdict = .ok → (∀ c, t2.verdict ≠ .fail c) → FallsIn s l t1 t2 → t3.verdict = .ok →
    ∃ t, exec (.lineWait k ms) s = .next t ∧ Completed s t ⟨.ok, .nothing⟩ ∧ SameBlock s t ∧
      (t.slot k).latch = false ∧ t.env.script = rest ∧
      t.calls = s.calls ++ [.readValue l, .waitEdge k ms, .readValue l]

/-- The stale-edge rule (41_gpio_line.md R118, 70_reset_and_hazards.md R237): an edge from before the wait, or from the
first clear's own turn, is discarded. With no event in the wait, `Timeout` gives TIMED_OUT, and no answer blocks the
command, which has then made two calls and not ended. -/
def Obligations.StaleEdgeIsDiscarded : Prop :=
  ∀ (k : Slot) (ms : U32) (l : LineId) (s : State) (t1 t2 : Turn) (rest : List Turn),
    s.isOpen = false → (s.slot k).line = some l → (s.slot k).handle ≠ none → (s.slot k).detectsFalling = true →
    s.env.script = t1 :: t2 :: rest → t1.verdict = .ok → t2.events = [] →
    (t2.verdict = .timeout →
      ∃ t, exec (.lineWait k ms) s = .next t ∧ Completed s t ⟨.timedOut, .nothing⟩ ∧ SameBlock s t ∧
        (t.slot k).latch = false ∧ t.env.script = rest ∧ t.calls = s.calls ++ [.readValue l, .waitEdge k ms]) ∧
    (t2.verdict = .silent →
      ∃ t, exec (.lineWait k ms) s = .next t ∧ t.inflight = some (.lineWait k) ∧ t.cp = s.cp ∧ t.out = s.out ∧
        SameBlock s t ∧ (t.slot k).latch = false ∧ t.env.script = rest ∧
        t.calls = s.calls ++ [.readValue l, .waitEdge k ms])

/-- A blocked LINE.WAIT goes on: a turn in which the line falls ends it with OK, a `Timeout` with the latch clear ends it
with TIMED_OUT, a failing turn ends it with the environment's cause and no further call, a second clear that fails with
its own, and a turn without event and answer leaves it blocked (41_gpio_line.md R118, R119, 60_exceptions.md R202,
00_scope.md R15). That the turn in which the line falls ends the wait, whatever its verdict but a failure, is the model's choice (log 4);
that the wait is not called again is too (log 36). -/
def Obligations.BlockedWaitGoesOn : Prop :=
  ∀ (k : Slot) (l : LineId) (s : State) (t1 : Turn) (rest : List Turn),
    s.inflight = some (.lineWait k) → (s.slot k).line = some l → (s.slot k).handle ≠ none →
    (s.slot k).detectsFalling = true → s.drives l = false → s.env.script = t1 :: rest →
    (∀ (t2 : Turn) (rest' : List Turn), rest = t2 :: rest' → (∀ c, t1.verdict ≠ .fail c) → Pulses t1 l →
      t2.verdict = .ok →
      ∃ t, step s = .next t ∧ Completed s t ⟨.ok, .nothing⟩ ∧ SameBlock s t ∧ (t.slot k).latch = false ∧
        t.env.script = rest' ∧ t.calls = s.calls ++ [.readValue l]) ∧
    ((s.slot k).latch = false → t1.events = [] → t1.verdict = .timeout →
      ∃ t, step s = .next t ∧ Completed s t ⟨.timedOut, .nothing⟩ ∧ SameBlock s t ∧ t.calls = s.calls) ∧
    ((s.slot k).latch = false → t1.events = [] → t1.verdict = .silent →
      ∃ t, step s = .next t ∧ t.inflight = s.inflight ∧ t.cp = s.cp ∧ t.out = s.out ∧ SameBlock s t ∧
        t.calls = s.calls) ∧
    (∀ c, t1.verdict = .fail c →
      ∃ t, step s = .next t ∧ Completed s t ⟨.ioFailure (.env c), .nothing⟩ ∧ SameBlock s t ∧ t.env.script = rest ∧
        t.calls = s.calls) ∧
    (∀ (t2 : Turn) (rest' : List Turn) (c : EnvCause), rest = t2 :: rest' → (∀ e, t1.verdict ≠ .fail e) →
      Pulses t1 l → t2.verdict = .fail c →
      ∃ t, step s = .next t ∧ Completed s t ⟨.ioFailure (.env c), .nothing⟩ ∧ SameBlock s t ∧
        (t.slot k).latch = true ∧ t.env.script = rest' ∧ t.calls = s.calls ++ [.readValue l])

/-- An I/O failure ends LINE.WAIT at the call that fails, with the environment's cause: the first clear, the wait, or
the second clear (41_gpio_line.md R118, 60_exceptions.md R202, R208). That the edge is answered at once, so that the second
clear is called in this step, is the model's choice (log 4). -/
def Obligations.WaitFailsAtTheFailingCall : Prop :=
  ∀ (k : Slot) (ms : U32) (l : LineId) (s : State) (t1 t2 t3 : Turn) (rest : List Turn) (c : EnvCause),
    s.isOpen = false → (s.slot k).line = some l → (s.slot k).handle ≠ none → (s.slot k).detectsFalling = true →
    s.drives l = false → s.env.script = t1 :: t2 :: t3 :: rest →
    (t1.verdict = .fail c →
      ∃ t, exec (.lineWait k ms) s = .next t ∧ Completed s t ⟨.ioFailure (.env c), .nothing⟩ ∧ SameBlock s t ∧
        t.calls = s.calls ++ [.readValue l]) ∧
    (t1.verdict = .ok → t2.verdict = .fail c →
      ∃ t, exec (.lineWait k ms) s = .next t ∧ Completed s t ⟨.ioFailure (.env c), .nothing⟩ ∧ SameBlock s t ∧
        t.calls = s.calls ++ [.readValue l, .waitEdge k ms]) ∧
    (t1.verdict = .ok → t2.verdict = .ok → FallsIn s l t1 t2 → t3.verdict = .fail c →
      ∃ t, exec (.lineWait k ms) s = .next t ∧ Completed s t ⟨.ioFailure (.env c), .nothing⟩ ∧ SameBlock s t ∧
        (t.slot k).latch = true ∧ t.calls = s.calls ++ [.readValue l, .waitEdge k ms, .readValue l])

/-! ### LINE.GET and LINE.SET -/

/-- LINE.GET completes with OK and the level of the pin (41_gpio_line.md R122); the latch is unchanged or cleared
(R123), and nothing else of the block changes. -/
def Obligations.GetReturnsThePin : Prop :=
  ∀ (k : Slot) (l : LineId) (s : State) (t1 : Turn) (rest : List Turn),
    s.isOpen = false → (s.slot k).line = some l → (s.slot k).handle ≠ none → s.env.script = t1 :: rest →
    t1.verdict = .ok →
    ∃ t, exec (.lineGet k) s = .next t ∧ Completed s t ⟨.ok, .level (t.lineEnv l).pin⟩ ∧ SameBlock s t ∧
      t.env.script = rest ∧ t.calls = s.calls ++ [.readValue l] ∧
      (t1.events = [] → (∀ m, t.lineEnv m = s.lineEnv m) ∧
        ((t.slot k).latch = (s.slot k).latch ∨ (t.slot k).latch = false) ∧
        (t.slot (otherSlot k)).latch = (s.slot (otherSlot k)).latch)

/-- How a granted check still ends in a failure: LINE.GET fails with the environment's cause (41_gpio_line.md R122);
LINE.SET fails with IO_FAILURE(ShortWrite) after a short write and with the environment's cause after a failed one
(R124, R125, 60_exceptions.md R202). -/
def Obligations.GetAndSetFailures : Prop :=
  ∀ (k : Slot) (v : Level) (l : LineId) (s : State) (t1 : Turn) (rest : List Turn), s.isOpen = false →
    (s.slot k).line = some l → s.env.script = t1 :: rest →
    ((s.slot k).handle ≠ none → ∀ c, t1.verdict = .fail c →
      ∃ t, exec (.lineGet k) s = .next t ∧ Completed s t ⟨.ioFailure (.env c), .nothing⟩ ∧ SameBlock s t ∧
        t.calls = s.calls ++ [.readValue l]) ∧
    ((s.slot k).handle = some .output →
      (t1.verdict = .short →
        ∃ t, exec (.lineSet k v) s = .next t ∧ Completed s t ⟨.ioFailure .shortWrite, .nothing⟩ ∧
          t.calls = s.calls ++ [.writeValue l v]) ∧
      (∀ c, t1.verdict = .fail c →
        ∃ t, exec (.lineSet k v) s = .next t ∧ Completed s t ⟨.ioFailure (.env c), .nothing⟩ ∧
          t.calls = s.calls ++ [.writeValue l v]))

/-- LINE.SET on an output completes with OK when the write is granted, whatever the level was: the pin and the slot's
`level` are at the level driven (41_gpio_line.md R124); its one call is the write, and if the environment takes no step
of its own, no other line changes. -/
def Obligations.SetDrivesTheLine : Prop :=
  ∀ (k : Slot) (v : Level) (l : LineId) (s : State) (t1 : Turn) (rest : List Turn),
    s.isOpen = false → (s.slot k).line = some l → (s.slot k).handle = some .output → s.env.script = t1 :: rest →
    t1.verdict = .ok →
    ∃ t, exec (.lineSet k v) s = .next t ∧ Completed s t ⟨.ok, .nothing⟩ ∧ (t.lineEnv l).pin = v ∧
      (t.slot k).level = v ∧ (s.slot k).SameButLatch { t.slot k with level := (s.slot k).level } ∧
      SameController s t ∧ t.spi = s.spi ∧ SameSlot (otherSlot k) s t ∧ t.env.script = rest ∧
      t.calls = s.calls ++ [.writeValue l v] ∧ (t1.events = [] → ∀ m, m ≠ l → t.lineEnv m = s.lineEnv m)

/-! ### LINE.RELEASE -/

/-- LINE.RELEASE never fails (41_gpio_line.md R126): from every state with the controller closed, and whatever the
environment answers, it completes with OK, the slot is empty, its calls are those of the rule, and the rest of the
block stays but for the other slot's latch. -/
def Obligations.ReleaseEmptiesTheSlot : Prop :=
  ∀ (k : Slot) (s : State), s.isOpen = false →
    ∃ t, exec (.lineRelease k) s = .next t ∧ Completed s t ⟨.ok, .nothing⟩ ∧ (t.slot k).Empty ∧
      t.calls = s.calls ++ releaseCallList (s.slot k) ∧
      SameController s t ∧ t.spi = s.spi ∧ SameSlot (otherSlot k) s t

/-- What becomes of the reservation of an acquired line (41_gpio_line.md R126 to R128, 10_state.md R44). Of one this block
reserved:
after a failed unreserve the slot is emptied and the line stays reserved; after a granted one the line is free; a second
release finds the slot empty and makes no call. A shared line, whose reservation was `Busy`, is left as it is: the
handle is closed, and no line changes if the environment takes no step of its own. -/
def Obligations.ReleaseAndTheReservation : Prop :=
  (∀ (k : Slot) (l : LineId) (s : State) (t1 t2 : Turn) (rest : List Turn),
    s.Inv → s.isOpen = false → (s.slot k).line = some l → (s.slot k).handle ≠ none →
    (s.slot k).exportedByUs = true → s.env.script = t1 :: t2 :: rest →
    ∃ t, exec (.lineRelease k) s = .next t ∧ (t.slot k).Empty ∧ t.env.script = rest ∧
      (∀ c, t2.verdict = .fail c → (t.lineEnv l).reserved = true) ∧
      (t2.verdict = .ok → (t.lineEnv l).reserved = false) ∧
      exec (.lineRelease k) t = .next (t.complete ⟨.ok, .nothing⟩)) ∧
  (∀ (k : Slot) (l : LineId) (s : State) (t1 : Turn) (rest : List Turn),
    s.isOpen = false → (s.slot k).line = some l → (s.slot k).handle ≠ none → (s.slot k).exportedByUs = false →
    s.env.script = t1 :: rest → t1.events = [] →
    ∃ t, exec (.lineRelease k) s = .next t ∧ (∀ m, t.lineEnv m = s.lineEnv m) ∧ t.calls = s.calls ++ [.closeValue l])

/-! ### The SPI master -/

/-- SPI.OPEN completes with OK when every call is granted: the handle is open, configured as asked with 8 bits per word,
and the calls are open, mode, bits, speed, in that order (42_spi_master.md R141, R143, R144, R146). -/
def Obligations.SpiOpenCompletes : Prop :=
  ∀ (path : BusPath) (hz : U32) (mode : U8) (noCs : Bool) (s : State) (t1 t2 t3 t4 : Turn) (rest : List Turn),
    s.isOpen = false → s.spi.isOpen = false → s.env.script = t1 :: t2 :: t3 :: t4 :: rest →
    AllGranted [t1, t2, t3, t4] →
    ∃ t, exec (.spiOpen path hz mode noCs) s = .next t ∧ Completed s t ⟨.ok, .nothing⟩ ∧
      t.spi = { isOpen := true, path := path, mode := mode, noCs := noCs, bitsPerWord := 8, maxHz := hz } ∧
      SameController s t ∧ SameSlot .drdy s t ∧ SameSlot .sync s t ∧ t.env.script = rest ∧
      t.calls = s.calls ++ spiOpenCalls path hz mode noCs

/-- The no-chip-select fallback (42_spi_master.md R142): after `Rejected`, and only then, and only if the variant was
requested, the mode step is retried once without it. A granted retry is in force; a second rejection, and a first one
without the variant, give IO_FAILURE(Rejected) with the endpoint closed; a failure is never retried. -/
def Obligations.NoChipSelectIsRetriedOnce : Prop :=
  ∀ (path : BusPath) (hz : U32) (mode : U8) (s : State) (t1 t2 t3 : Turn) (rest : List Turn),
    s.isOpen = false → s.spi.isOpen = false → s.env.script = t1 :: t2 :: t3 :: rest → t1.verdict = .ok →
    (∀ (t4 t5 : Turn) (rest' : List Turn), rest = t4 :: t5 :: rest' → t2.verdict = .rejected →
      AllGranted [t3, t4, t5] →
      ∃ t, exec (.spiOpen path hz mode true) s = .next t ∧ Completed s t ⟨.ok, .nothing⟩ ∧
        t.spi = { isOpen := true, path := path, mode := mode, noCs := false, bitsPerWord := 8, maxHz := hz } ∧
        t.calls = s.calls ++ [.spiOpen path, .spiSetMode mode true, .spiSetMode mode false, .spiSetBits 8,
          .spiSetSpeed hz]) ∧
    (t2.verdict = .rejected → t3.verdict = .rejected →
      ∃ t, exec (.spiOpen path hz mode true) s = .next t ∧ Completed s t ⟨.ioFailure .rejected, .nothing⟩ ∧
        t.spi = s.spi ∧
        t.calls = s.calls ++ [.spiOpen path, .spiSetMode mode true, .spiSetMode mode false, .spiClose]) ∧
    (t2.verdict = .rejected →
      ∃ t, exec (.spiOpen path hz mode false) s = .next t ∧ Completed s t ⟨.ioFailure .rejected, .nothing⟩ ∧
        t.spi = s.spi ∧ t.calls = s.calls ++ [.spiOpen path, .spiSetMode mode false, .spiClose]) ∧
    (∀ (noCs : Bool) (c : EnvCause), t2.verdict = .fail c →
      ∃ t, exec (.spiOpen path hz mode noCs) s = .next t ∧ Completed s t ⟨.ioFailure (.env c), .nothing⟩ ∧
        t.spi = s.spi ∧ t.calls = s.calls ++ [.spiOpen path, .spiSetMode mode noCs, .spiClose])

/-- Any configuration step that fails after the open closes the handle and propagates the error (42_spi_master.md R145):
whatever the environment answers, a failing SPI.OPEN leaves the SPI master as it was, closed, and its last call is the
close, unless the open itself was the call that failed. -/
def Obligations.FailingSpiOpenClosesTheHandle : Prop :=
  ∀ (path : BusPath) (hz : U32) (mode : U8) (noCs : Bool) (s t : State) (r : Response),
    s.spi.isOpen = false → exec (.spiOpen path hz mode noCs) s = .next t → t.out = some r → r.code ≠ .ok →
    t.spi = s.spi ∧ t.spi.isOpen = false ∧ (∃ c, r.code = .ioFailure c) ∧
      (t.calls = s.calls ++ [.spiOpen path] ∨
        ∃ cs, t.calls = s.calls ++ [.spiOpen path] ++ cs ++ [.spiClose] ∧ .spiClose ∉ cs)

/-- SPI.XFER completes with OK and the 24 bytes received when the transfer is granted; it transmits 24 zero bytes and
changes nothing of the block but latches, not even the raw shadow (42_spi_master.md R147, R148). -/
def Obligations.ExchangeReturnsTheBytes : Prop :=
  ∀ (s : State) (t1 : Turn) (rest : List Turn),
    s.isOpen = false → s.spi.isOpen = true → s.env.script = t1 :: rest → t1.verdict = .ok →
    ∃ t, exec (.spiXfer 24) s = .next t ∧ Completed s t ⟨.ok, .bytes t1.rx⟩ ∧ SameBlock s t ∧ t.env.script = rest ∧
      t.calls = s.calls ++ [.spiTransfer (Vector.replicate 24 0x00#8)]

/-- How SPI.XFER does not complete so (42_spi_master.md R147): refused for any length but 24, NOT_PERMITTED without a
handle, and the environment's cause after a failed transfer. SPI.OPEN with a handle open is refused (R141). What the host sees of a
refusal is the model's choice (log 5). -/
def Obligations.ExchangeFailures : Prop :=
  ∀ (s : State), s.isOpen = false →
    (∀ len : U32, len ≠ 24 → exec (.spiXfer len) s = .next s.refuse) ∧
    (s.spi.isOpen = false → exec (.spiXfer 24) s = .next (s.complete ⟨.notPermitted, .nothing⟩)) ∧
    (∀ (t1 : Turn) (rest : List Turn) (c : EnvCause), s.spi.isOpen = true → s.env.script = t1 :: rest →
      t1.verdict = .fail c →
      ∃ t, exec (.spiXfer 24) s = .next t ∧ Completed s t ⟨.ioFailure (.env c), .nothing⟩ ∧ SameBlock s t) ∧
    (s.spi.isOpen = true → ∀ (path : BusPath) (hz : U32) (mode : U8) (noCs : Bool),
      exec (.spiOpen path hz mode noCs) s = .next s.refuse)

/-- SPI.CLOSE never fails (42_spi_master.md R150): whatever the environment answers it completes with OK and the handle
closed, the configuration fields keep their values, and with no handle open it makes no call and changes nothing. -/
def Obligations.SpiCloseNeverFails : Prop :=
  ∀ (s : State), s.isOpen = false →
    (∃ t, exec .spiClose s = .next t ∧ Completed s t ⟨.ok, .nothing⟩ ∧ t.spi = { s.spi with isOpen := false } ∧
      SameController s t ∧ SameSlot .drdy s t ∧ SameSlot .sync s t ∧
      t.calls = s.calls ++ (if s.spi.isOpen then [.spiClose] else [])) ∧
    (s.spi.isOpen = false → exec .spiClose s = .next (s.complete ⟨.ok, .nothing⟩))

/-! ### ACQ.OPEN -/

/-- ACQ.OPEN without sync completes with OK when every call is granted (43_acquisition.md R160, R161): the controller is
`Opened` with the configuration, defaults applied, the counter at 0, the SPI master open as configured, DRDY an open
falling-edge input; the SYNC slot stays as it was, and the calls are SPI.OPEN's and LINE.ACQUIRE's in that order. -/
def Obligations.AcquisitionOpensWithoutSync : Prop :=
  ∀ (c : DeviceConfig) (d : LineId) (s : State) (ts rest : List Turn),
    s.Unused → c.drdyLine = some d → c.syncEnable = false → s.env.script = ts ++ rest → ts.length = 8 →
    AllGranted ts → (∀ x ∈ ts, x.events = []) →
    ∃ t, exec (.acqOpen (some c)) s = .next t ∧ Completed s t ⟨.ok, .nothing⟩ ∧ t.driverState = .opened ∧
      t.cfg = applyDefaults c ∧ t.seq = 0 ∧
      t.spi = { isOpen := true, path := defaultedPath c.busPath, mode := c.mode, noCs := c.noCs, bitsPerWord := 8,
                maxHz := (applyDefaults c).clockHz } ∧
      t.drdy = { line := some d, exportedByUs := !(s.lineEnv d).reserved, handle := some .input, dir := some .input,
                 edge := some .falling, level := s.drdy.level, latch := false } ∧
      SameSlot .sync s t ∧ t.raw = s.raw ∧ t.diag = s.diag ∧ t.refused = s.refused ∧ t.pending = s.pending ∧
      t.env.script = rest ∧
      t.calls = s.calls ++ spiOpenCalls (defaultedPath c.busPath) (applyDefaults c).clockHz c.mode c.noCs ++
        acquireCalls d .input false ∧
      ∀ m, m ≠ d → t.lineEnv m = s.lineEnv m

/-- ACQ.OPEN with sync completes with OK when every call is granted (43_acquisition.md R160): as without sync, and the
SYNC slot is an open output at level 1, which its pin shows; no line but the two changes. -/
def Obligations.AcquisitionOpensWithSync : Prop :=
  ∀ (c : DeviceConfig) (d m : LineId) (s : State) (ts rest : List Turn),
    s.Unused → c.drdyLine = some d → c.syncEnable = true → c.syncLine = some m → m ≠ d →
    s.env.script = ts ++ rest → ts.length = 12 → AllGranted ts → (∀ x ∈ ts, x.events = []) →
    ∃ t, exec (.acqOpen (some c)) s = .next t ∧ Completed s t ⟨.ok, .nothing⟩ ∧ t.driverState = .opened ∧
      t.cfg = applyDefaults c ∧ t.seq = 0 ∧
      t.spi = { isOpen := true, path := defaultedPath c.busPath, mode := c.mode, noCs := c.noCs, bitsPerWord := 8,
                maxHz := (applyDefaults c).clockHz } ∧
      t.drdy = { line := some d, exportedByUs := !(s.lineEnv d).reserved, handle := some .input, dir := some .input,
                 edge := some .falling, level := s.drdy.level, latch := false } ∧
      t.sync = { line := some m, exportedByUs := !(s.lineEnv m).reserved, handle := some .output, dir := some .output,
                 edge := s.sync.edge, level := true, latch := false } ∧
      (t.lineEnv m).pin = true ∧ t.raw = s.raw ∧ t.diag = s.diag ∧ t.refused = s.refused ∧ t.pending = s.pending ∧
      t.env.script = rest ∧
      t.calls = s.calls ++ spiOpenCalls (defaultedPath c.busPath) (applyDefaults c).clockHz c.mode c.noCs ++
        acquireCalls d .input false ++ acquireCalls m .output true ∧
      ∀ l, l ≠ d → l ≠ m → t.lineEnv l = s.lineEnv l

/-- `APPLY_DEFAULTS` makes three substitutions and no other (43_acquisition.md R161). -/
def Obligations.DefaultsAreThreeSubstitutions : Prop :=
  ∀ c : DeviceConfig,
    ((applyDefaults c).busPath =
      if c.busPath = none ∨ c.busPath = some "" then some Config.defaultBusPath else c.busPath) ∧
    ((applyDefaults c).clockHz = if c.clockHz = 0 then 1000000 else c.clockHz) ∧
    ((applyDefaults c).timeoutMs = if c.timeoutMs = 0 then 2000 else c.timeoutMs) ∧
    (applyDefaults c).mode = c.mode ∧ (applyDefaults c).noCs = c.noCs ∧ (applyDefaults c).drdyLine = c.drdyLine ∧
    (applyDefaults c).syncLine = c.syncLine ∧ (applyDefaults c).syncEnable = c.syncEnable ∧
    (applyDefaults c).settleFrames = c.settleFrames

/-- `CHECK_LINES` runs before any resource is acquired (43_acquisition.md R162): a missing DRDY line, and a missing SYNC
line with sync enabled, give INVALID_ARGUMENT; one line for both is refused; nothing else changes and no call is made. What the host sees of a refusal is the model's
choice (log 5). -/
def Obligations.LinesAreCheckedFirst : Prop :=
  ∀ (c : DeviceConfig) (s : State), s.Unused →
    (c.drdyLine = none → exec (.acqOpen (some c)) s = .next (s.complete ⟨.invalidArgument, .nothing⟩)) ∧
    (∀ d, c.drdyLine = some d → c.syncEnable = true → c.syncLine = none →
      exec (.acqOpen (some c)) s = .next (s.complete ⟨.invalidArgument, .nothing⟩)) ∧
    (∀ d, c.drdyLine = some d → c.syncEnable = true → c.syncLine = some d →
      exec (.acqOpen (some c)) s = .next s.refuse)

/-- The checks of the controller's commands, in their order (43_acquisition.md R160, R164, R170, R177, 60_exceptions.md
R208): an absent configuration or output slot gives INVALID_ARGUMENT in every state; otherwise ACQ.OPEN gives
ALREADY_OPEN with the controller open, and ACQ.READ gives NOT_PERMITTED with it not started. None changes a state, so an
open instance stays open with its configuration. With the controller closed, anything left in use by host commands makes
ACQ.OPEN refused. What the host sees of a refusal is the model's choice (log 5). -/
def Obligations.ArgumentIsCheckedBeforeState : Prop :=
  ∀ (s : State) (c : DeviceConfig),
    exec (.acqOpen none) s = .next (s.complete ⟨.invalidArgument, .nothing⟩) ∧
    exec (.acqRead false) s = .next (s.complete ⟨.invalidArgument, .nothing⟩) ∧
    exec (.acqRaw false) s = .next (s.complete ⟨.invalidArgument, .nothing⟩) ∧
    (s.isOpen = true → exec (.acqOpen (some c)) s = .next (s.complete ⟨.alreadyOpen, .nothing⟩)) ∧
    (s.started = false → exec (.acqRead true) s = .next (s.complete ⟨.notPermitted, .nothing⟩)) ∧
    (s.isOpen = false → ¬ s.Unused → exec (.acqOpen (some c)) s = .next s.refuse)

/-- A failing ACQ.OPEN tears everything down (43_acquisition.md R163), from every state that meets the invariant with the
controller closed and whatever the environment answers: the controller is `Closed`, no SPI handle is open, both slots
are empty, counter and raw shadow are zero, and no slot holds a reservation. -/
def Obligations.FailingOpenTearsDown : Prop :=
  ∀ (c : DeviceConfig) (s t : State) (r : Response),
    s.Inv → s.isOpen = false → exec (.acqOpen (some c)) s = .next t → t.out = some r → r.code ≠ .ok →
    t.driverState = .closed ∧ t.isOpen = false ∧ t.started = false ∧ t.spi.isOpen = false ∧ t.drdy.Empty ∧
      t.sync.Empty ∧ t.seq = 0 ∧ t.raw = FrameBuf.zero ∧ t.diag = s.diag ∧ t.refused = s.refused ∧
      t.pending = s.pending ∧ (∀ l, t.owns l = false)

/-- An ACQ.OPEN that fails at step `n + 1` of the SYNC acquisition releases all it acquired, in the order of ACQ.CLOSE
(43_acquisition.md R163, R179), with the failing step's code (60_exceptions.md R210); if the environment grants the
releases, no line that was free is left reserved. -/
def Obligations.FailedSyncAcquisitionReleasesAll : Prop :=
  ∀ (c : DeviceConfig) (d m : LineId) (s : State) (ts done : List Turn) (bad : Turn) (rest : List Turn) (e : EnvCause),
    s.Unused → s.drdy.Empty → s.sync.Empty → c.drdyLine = some d → c.syncEnable = true → c.syncLine = some m → m ≠ d →
    s.env.script = ts ++ done ++ bad :: rest → ts.length = 8 → done.length ≤ 3 → AllGranted ts → AllGranted done →
    (∀ x ∈ ts, x.events = []) → (∀ x ∈ done, x.events = []) → bad.events = [] → bad.verdict = .fail e →
    (s.lineEnv d).reserved = false → (s.lineEnv m).reserved = false →
    ∃ t, exec (.acqOpen (some c)) s = .next t ∧ Completed s t ⟨.ioFailure (.env e), .nothing⟩ ∧
      t.driverState = .closed ∧ t.spi.isOpen = false ∧ t.drdy.Empty ∧ t.sync.Empty ∧
      t.calls = s.calls ++ spiOpenCalls (defaultedPath c.busPath) (applyDefaults c).clockHz c.mode c.noCs ++
        acquireCalls d .input false ++ (acquireCalls m .output true).take (done.length + 1) ++
        [.spiClose, .closeValue d, .unreserve d] ++ (if 1 ≤ done.length then [.unreserve m] else []) ∧
      ((∀ x ∈ rest.take 4, x.verdict = .ok ∧ x.events = []) → 4 ≤ rest.length →
        (t.lineEnv d).reserved = false ∧ (t.lineEnv m).reserved = false)

/-! ### ACQ.START -/

/-- ACQ.START (43_acquisition.md R165): NOT_PERMITTED while the controller is closed, with no change; OK and no change
once it is started; with sync disabled it only sets `started`, with no call and whatever `settle_frames` is. -/
def Obligations.StartWithoutSync : Prop :=
  ∀ s : State,
    (s.isOpen = false → exec .acqStart s = .next (s.complete ⟨.notPermitted, .nothing⟩)) ∧
    (s.isOpen = true → s.started = true → exec .acqStart s = .next (s.complete ⟨.ok, .nothing⟩)) ∧
    (s.isOpen = true → s.started = false → s.cfg.syncEnable = false →
      exec .acqStart s = .next ({ s with started := true }.complete ⟨.ok, .nothing⟩))

/-- ACQ.START with sync completes with OK after the pulse and exactly `settle_frames` frame reads, however many they
are, when the environment grants the pulse and delivers every frame (43_acquisition.md R165 to R168, R182): the
controller is `Started`, the SYNC pin is back at 1, the counter has advanced by `settle_frames` modulo 2^64, the raw
shadow holds the last settle frame, no Frame is returned; the calls are the two writes with the delay between them, then
those of every read. When the wait of a settle read is not answered, the start is blocked in it, `started` set, with the
reads done counted and exactly the others due (90_conflicts.md C7, 00_scope.md R15). A start that was blocked in a settle
read with `n` more due completes after exactly `n + 1` reads that deliver; and, with a clear latch, it is blocked again
in the settle read whose wait is not answered. That each wait is answered in the turn in which the line falls is the
model's choice (log 4), and so is that it is not called again when it is taken up (log 36). -/
def Obligations.StartPulsesAndSettles : Prop :=
  (∀ (d m : LineId) (s : State) (t1 t2 t3 : Turn) (reads : List ReadTurns) (rest : List Turn),
    s.ReadyToPulse m → s.sync.dir = some .output → s.ReadyToRead d →
    AllGranted [t1, t2, t3] → reads.length = s.cfg.settleFrames.toNat → (∀ r ∈ reads, r.Delivers d) →
    s.env.script = t1 :: t2 :: t3 :: (reads.flatMap ReadTurns.list ++ rest) →
    ∃ t, exec .acqStart s = .next t ∧ Completed s t ⟨.ok, .nothing⟩ ∧ t.driverState = .started ∧ StartKeeps s t ∧
      t.sync.level = true ∧ (t.lineEnv m).pin = true ∧
      t.seq = s.seq + BitVec.ofNat 64 reads.length ∧ t.raw = shadowAfter s reads ∧ t.env.script = rest ∧
      t.calls = s.calls ++ [.writeValue m false, .delay 10, .writeValue m true] ++
        (List.replicate reads.length (readCalls d s.cfg.timeoutMs)).flatten) ∧
  (∀ (d m : LineId) (s : State) (t1 t2 t3 a b : Turn) (reads : List ReadTurns) (rest : List Turn),
    s.ReadyToPulse m → s.sync.dir = some .output → s.ReadyToRead d →
    AllGranted [t1, t2, t3] → reads.length < s.cfg.settleFrames.toNat → (∀ r ∈ reads, r.Delivers d) →
    UnansweredRead d a b → s.env.script = t1 :: t2 :: t3 :: (reads.flatMap ReadTurns.list ++ a :: b :: rest) →
    ∃ t, exec .acqStart s = .next t ∧ BlockedAs (.acqStart (s.cfg.settleFrames.toNat - (reads.length + 1))) s t ∧
      t.driverState = .started ∧ StartKeeps s t ∧ t.sync.level = true ∧ (t.lineEnv m).pin = true ∧
      t.drdy.latch = false ∧
      t.seq = s.seq + BitVec.ofNat 64 reads.length ∧ t.raw = shadowAfter s reads ∧ t.env.script = rest ∧
      t.calls = s.calls ++ [.writeValue m false, .delay 10, .writeValue m true] ++
        (List.replicate reads.length (readCalls d s.cfg.timeoutMs)).flatten ++ (readCalls d s.cfg.timeoutMs).take 2) ∧
  (∀ (d : LineId) (s : State) (r : ReadTurns) (reads : List ReadTurns) (rest : List Turn),
    s.isOpen = true → s.started = true → s.inflight = some (.acqStart reads.length) → s.ReadyToRead d →
    (∀ x ∈ r :: reads, x.Delivers d) →
    s.env.script = r.wait :: r.again :: r.before :: r.exchange :: r.after :: (reads.flatMap ReadTurns.list ++ rest) →
    ∃ t, step s = .next t ∧ Completed s t ⟨.ok, .nothing⟩ ∧ t.driverState = .started ∧ StartKeeps s t ∧
      t.sync.level = s.sync.level ∧ (∀ l, s.drives l = true → (t.lineEnv l).pin = (s.lineEnv l).pin) ∧
      t.seq = s.seq + BitVec.ofNat 64 (reads.length + 1) ∧ t.raw = shadowAfter s (r :: reads) ∧ t.env.script = rest ∧
      t.calls = s.calls ++ (readCalls d s.cfg.timeoutMs).drop 2 ++
        (List.replicate reads.length (readCalls d s.cfg.timeoutMs)).flatten) ∧
  (∀ (d : LineId) (s : State) (n : Nat) (reads : List ReadTurns) (a b x : Turn) (more rest : List Turn),
    s.isOpen = true → s.started = true → s.inflight = some (.acqStart n) → s.ReadyToRead d → s.drdy.latch = false →
    reads.length ≤ n → (∀ r ∈ reads, r.Delivers d) → UnansweredRead d a b →
    reads.flatMap ReadTurns.list ++ [a, b] = x :: more → s.env.script = more ++ rest →
    ∃ t, step s = .next t ∧ BlockedAs (.acqStart (n - reads.length)) s t ∧ t.driverState = .started ∧
      StartKeeps s t ∧ t.sync.level = s.sync.level ∧ t.drdy.latch = false ∧
      (∀ l, s.drives l = true → (t.lineEnv l).pin = (s.lineEnv l).pin) ∧
      t.seq = s.seq + BitVec.ofNat 64 reads.length ∧ t.raw = shadowAfter s reads ∧ t.env.script = rest ∧
      t.calls = s.calls ++ ((List.replicate reads.length (readCalls d s.cfg.timeoutMs)).flatten ++
        (readCalls d s.cfg.timeoutMs).take 2).drop 2)

/-- A failing ACQ.START clears `started` and undoes nothing else (43_acquisition.md R169). Whatever the environment
answers, the resources stay as they were but for latches and SYNC's level, and the counter keeps one increment for every
settle read that completed: such a read has sampled the clock twice, and a failing one at most once. When a write of the
pulse fails, its code is returned, and counter and shadow stay. When the pulse is granted and some settle reads deliver
before one fails, the failing read's code is returned (60_exceptions.md R210), the counter has advanced by the number
delivered, and the raw shadow holds the last of them. The same holds when the start fails after having been blocked in
the wait of a settle read, with a clear latch. That a wait is answered in the turn in which the line falls, and is not
called again when it is taken up, is the model's choice (log 4, 36). -/
def Obligations.FailingStartRevertsOnlyStarted : Prop :=
  (∀ (s t : State) (r : Response), s.isOpen = true → t.inflight = none → t.out = some r → r.code ≠ .ok →
    (exec .acqStart s = .next t → StartReverted s t ∧
      ∃ cs, t.calls = s.calls ++ cs ∧ cs.count .clock / 2 ≤ s.cfg.settleFrames.toNat ∧
        t.seq = s.seq + BitVec.ofNat 64 (cs.count .clock / 2)) ∧
    (∀ n, s.inflight = some (.acqStart n) → step s = .next t → StartReverted s t ∧
      ∃ cs, t.calls = s.calls ++ cs ∧ cs.count .clock / 2 ≤ n + 1 ∧
        t.seq = s.seq + BitVec.ofNat 64 (cs.count .clock / 2))) ∧
  (∀ (m : LineId) (s : State) (t1 : Turn) (rest : List Turn) (c : ResultCode),
    s.ReadyToPulse m → s.env.script = t1 :: rest →
    (FailingWrite t1 c → ∃ t, exec .acqStart s = .next t ∧ Completed s t ⟨c, .nothing⟩ ∧ StartReverted s t ∧
      t.seq = s.seq ∧ t.raw = s.raw ∧ t.calls = s.calls ++ [.writeValue m false]) ∧
    (∀ (t2 t3 : Turn) (rest' : List Turn), rest = t2 :: t3 :: rest' → t1.verdict = .ok → FailingWrite t3 c →
      ∃ t, exec .acqStart s = .next t ∧ Completed s t ⟨c, .nothing⟩ ∧ StartReverted s t ∧
        t.seq = s.seq ∧ t.raw = s.raw ∧
        t.calls = s.calls ++ [.writeValue m false, .delay 10, .writeValue m true])) ∧
  (∀ (d m : LineId) (s : State) (t1 t2 t3 : Turn) (reads : List ReadTurns) (ts rest : List Turn) (c : ResultCode),
    s.ReadyToPulse m → s.ReadyToRead d → AllGranted [t1, t2, t3] →
    reads.length < s.cfg.settleFrames.toNat → (∀ r ∈ reads, r.Delivers d) → FailingRead d ts c →
    s.env.script = t1 :: t2 :: t3 :: (reads.flatMap ReadTurns.list ++ (ts ++ rest)) →
    ∃ t, exec .acqStart s = .next t ∧ Completed s t ⟨c, .nothing⟩ ∧ StartReverted s t ∧
      t.seq = s.seq + BitVec.ofNat 64 reads.length ∧ t.raw = shadowAfter s reads ∧ t.env.script = rest ∧
      t.calls = s.calls ++ [.writeValue m false, .delay 10, .writeValue m true] ++
        (List.replicate reads.length (readCalls d s.cfg.timeoutMs)).flatten ++
        (readCalls d s.cfg.timeoutMs).take ts.length) ∧
  (∀ (d : LineId) (s : State) (n : Nat) (reads : List ReadTurns) (ts : List Turn) (a : Turn) (more rest : List Turn)
    (c : ResultCode),
    s.isOpen = true → s.inflight = some (.acqStart n) → s.ReadyToRead d → s.drdy.latch = false →
    reads.length ≤ n → (∀ r ∈ reads, r.Delivers d) → FailingRead d ts c →
    reads.flatMap ReadTurns.list ++ ts = a :: more → more ≠ [] → s.env.script = more ++ rest →
    ∃ t, step s = .next t ∧ Completed s t ⟨c, .nothing⟩ ∧ StartReverted s t ∧
      t.seq = s.seq + BitVec.ofNat 64 reads.length ∧ t.raw = shadowAfter s reads ∧ t.env.script = rest ∧
      t.calls = s.calls ++ ((List.replicate reads.length (readCalls d s.cfg.timeoutMs)).flatten ++
        (readCalls d s.cfg.timeoutMs).take ts.length).drop 2)

/-! ### ACQ.READ -/

/-- ACQ.READ completes with OK and the Frame when the environment delivers it (43_acquisition.md R170, R171, R175): the
Frame carries the counter's value, the time sampled first, and the eight decoded channels; the counter advances by 1
modulo 2^64 and the raw shadow holds the 24 bytes received; the rest of the block stays but for the latches; the calls
are those of the rule, in its order. That the wait is answered in the turn in which the line falls, whatever its verdict
but a failure, is the model's choice (log 4). -/
def Obligations.ReadDeliversAFrame : Prop :=
  ∀ (d : LineId) (s : State) (r : ReadTurns) (rest : List Turn),
    s.started = true → s.ReadyToRead d → r.Delivers d → s.env.script = r.list ++ rest →
    ∃ t, exec (.acqRead true) s = .next t ∧
      Completed s t ⟨.ok, .frame { seq := s.seq, ts := clockSample s.env.clock r.before.time,
                                   ch := decodeFrame r.exchange.rx }⟩ ∧
      t.seq = s.seq + 1 ∧ t.raw = r.exchange.rx ∧ t.isOpen = s.isOpen ∧ t.started = true ∧ t.cfg = s.cfg ∧
      t.spi = s.spi ∧ SameSlot .drdy s t ∧ SameSlot .sync s t ∧ t.refused = s.refused ∧ t.pending = s.pending ∧
      t.env.script = rest ∧ t.calls = s.calls ++ readCalls d s.cfg.timeoutMs

/-- ACQ.READ blocks when its first clear is granted and its wait is not answered (43_acquisition.md R171, 41_gpio_line.md
R119, 00_scope.md R15): two calls are made, nothing of the block changes but latches, and nothing is returned; a further
turn that does not answer leaves it blocked, with no call. A read that was blocked completes in the same way as one that
was not: the first clear is not repeated, the Frame carries the counter's value, and the rest of the block stays but for
the latches (43_acquisition.md R175). That the turn in which the line falls ends the wait is the model's choice (log 4),
and so is that the wait is not called again (log 36). -/
def Obligations.BlockedReadDeliversAFrame : Prop :=
  (∀ (d : LineId) (s : State) (a b : Turn) (rest : List Turn),
    s.started = true → s.ReadyToRead d → UnansweredRead d a b → s.env.script = a :: b :: rest →
    ∃ t, exec (.acqRead true) s = .next t ∧ BlockedAs .acqRead s t ∧ SameBlock s t ∧ t.drdy.latch = false ∧
      t.env.script = rest ∧ t.calls = s.calls ++ (readCalls d s.cfg.timeoutMs).take 2) ∧
  (∀ (d : LineId) (s : State) (b : Turn) (rest : List Turn),
    s.inflight = some .acqRead → s.ReadyToRead d → s.drdy.latch = false → .pinFall d ∉ b.events →
    b.verdict = .silent → s.env.script = b :: rest →
    ∃ t, step s = .next t ∧ BlockedAs .acqRead s t ∧ SameBlock s t ∧ t.drdy.latch = false ∧ t.env.script = rest ∧
      t.calls = s.calls) ∧
  (∀ (d : LineId) (s : State) (r : ReadTurns) (rest : List Turn),
    s.inflight = some .acqRead → s.ReadyToRead d → r.Delivers d →
    s.env.script = r.wait :: r.again :: r.before :: r.exchange :: r.after :: rest →
    ∃ t, step s = .next t ∧
      Completed s t ⟨.ok, .frame { seq := s.seq, ts := clockSample s.env.clock r.before.time,
                                   ch := decodeFrame r.exchange.rx }⟩ ∧
      t.seq = s.seq + 1 ∧ t.raw = r.exchange.rx ∧ t.isOpen = s.isOpen ∧ t.started = s.started ∧ t.cfg = s.cfg ∧
      t.spi = s.spi ∧ SameSlot .drdy s t ∧ SameSlot .sync s t ∧ t.refused = s.refused ∧ t.pending = s.pending ∧
      t.env.script = rest ∧ t.calls = s.calls ++ (readCalls d s.cfg.timeoutMs).drop 2)

/-- The overrun warning (43_acquisition.md R172): with both samples valid, it is appended to the diagnostic trace
exactly if more than 5,000,000 ns lie between them, and the read succeeds all the same; with an invalid sample there is
none, and a Frame whose first sample is invalid carries the time 0. That the wait is answered in the turn in which the
line falls is the model's choice (log 4). -/
def Obligations.OverrunOnlyWarns : Prop :=
  ∀ (d : LineId) (s : State) (r : ReadTurns) (rest : List Turn),
    s.started = true → s.ReadyToRead d → r.Delivers d → s.env.script = r.list ++ rest →
    (r.before.time ≠ 0 → s.env.clock.toNat ≤ r.before.time.toNat → r.before.time.toNat ≤ r.after.time.toNat →
      ∃ t f, exec (.acqRead true) s = .next t ∧ Completed s t ⟨.ok, .frame f⟩ ∧ f.ts = r.before.time ∧
        t.diag = if 5000000 < (r.after.time - r.before.time).toNat
          then s.diag ++ [.overrunWarning (r.after.time - r.before.time)] else s.diag) ∧
    (r.before.time = 0 ∨ r.after.time = 0 →
      ∃ t f, exec (.acqRead true) s = .next t ∧ Completed s t ⟨.ok, .frame f⟩ ∧ t.diag = s.diag ∧
        (r.before.time = 0 → f.ts = 0))

/-- A frame read commits all or nothing (20_memory.md R69, 43_acquisition.md R175, R176), in every state and whatever the
environment answers: either a Frame is returned that carries the old counter and the decode of the new raw shadow, and
the counter has advanced by 1; or no Frame is returned and nothing of the block changes but latches and, for a refused
command, the mark. The same holds of a read that was blocked. A read that fails, blocked before with a clear latch or
not, returns the code of the call that fails (R170, R171, R176): TIMED_OUT after a `Timeout`, IO_FAILURE with the cause
of the failing clear, wait or exchange; and it makes no call after that one. That the wait is answered in the turn in
which the line falls, and is not called again when it is taken up, is the model's choice (log 4, 36). -/
def Obligations.ReadCommitsAllOrNothing : Prop :=
  (∀ s t : State, (exec (.acqRead true) s = .next t ∨ (s.inflight = some .acqRead ∧ step s = .next t)) →
    (t.inflight = none ∧ ∃ f : Frame, t.out = some ⟨.ok, .frame f⟩ ∧ f.seq = s.seq ∧ t.seq = s.seq + 1 ∧
      f.ch = decodeFrame t.raw) ∨
    (SameBlock s { t with refused := s.refused } ∧ (t.inflight = none → ∀ f, t.out ≠ some ⟨.ok, .frame f⟩))) ∧
  (∀ (d : LineId) (s : State) (ts rest : List Turn) (c : ResultCode),
    s.started = true → s.ReadyToRead d → FailingRead d ts c → s.env.script = ts ++ rest →
    ∃ t, exec (.acqRead true) s = .next t ∧ Completed s t ⟨c, .nothing⟩ ∧ SameBlock s t ∧ t.env.script = rest ∧
      t.calls = s.calls ++ (readCalls d s.cfg.timeoutMs).take ts.length) ∧
  (∀ (d : LineId) (s : State) (a : Turn) (more rest : List Turn) (c : ResultCode),
    s.inflight = some .acqRead → s.ReadyToRead d → s.drdy.latch = false → FailingRead d (a :: more) c → more ≠ [] →
    s.env.script = more ++ rest →
    ∃ t, step s = .next t ∧ Completed s t ⟨c, .nothing⟩ ∧ SameBlock s t ∧ t.env.script = rest ∧
      t.calls = s.calls ++ ((readCalls d s.cfg.timeoutMs).take (more.length + 1)).drop 2)

/-! ### ACQ.RAW, ACQ.STOP, ACQ.CLOSE -/

/-- ACQ.RAW copies all 24 bytes of the raw shadow, in every state and with no side effect (20_memory.md R70,
43_acquisition.md R177). -/
def Obligations.RawCopiesTheShadow : Prop :=
  ∀ s : State, exec (.acqRaw true) s = .next (s.complete ⟨.ok, .bytes s.raw⟩)

/-- ACQ.STOP always returns OK, clears `started` and keeps everything else (43_acquisition.md R178). -/
def Obligations.StopKeepsTheResources : Prop :=
  ∀ s : State, exec .acqStop s = .next ({ s with started := false }.complete ⟨.ok, .nothing⟩)

/-- ACQ.CLOSE never fails (43_acquisition.md R179, 70_reset_and_hazards.md R233): from every state, and whatever the
environment answers, it completes with OK and the controller as after reset; the diagnostics, the mark and the SPI
configuration fields stay; its calls are those of the three closes in their order, none of which drives SYNC (R181). -/
def Obligations.CloseRestoresTheResetState : Prop :=
  ∀ s : State,
    ∃ t, exec .acqClose s = .next t ∧ Completed s t ⟨.ok, .nothing⟩ ∧ t.driverState = .closed ∧ t.isOpen = false ∧
      t.started = false ∧ t.seq = 0 ∧ t.raw = FrameBuf.zero ∧ t.spi = { s.spi with isOpen := false } ∧ t.drdy.Empty ∧
      t.sync.Empty ∧ t.diag = s.diag ∧ t.refused = s.refused ∧ t.pending = s.pending ∧
      t.calls = s.calls ++ (if s.spi.isOpen then [.spiClose] else []) ++ releaseCallList s.drdy ++
        releaseCallList s.sync

/-- ACQ.CLOSE is idempotent (43_acquisition.md R180): after an ACQ.CLOSE, and in every state that meets the invariant
with the controller closed and nothing in use, it makes no call and leaves the same state. -/
def Obligations.CloseIsIdempotent : Prop :=
  (∀ s t : State, exec .acqClose s = .next t → exec .acqClose t = .next (t.complete ⟨.ok, .nothing⟩)) ∧
  (∀ s : State, s.Inv → s.Unused → exec .acqClose s = .next (s.complete ⟨.ok, .nothing⟩))

/-! ### Data -/

/-- `DECODE24` is the sign extension of the 24-bit big-endian field (43_acquisition.md R173): the one integer from
-2^23 up to but not including 2^23 that agrees with the field modulo 2^24. Channel `c` of a frame is `DECODE24` of bytes
`3c`, `3c + 1` and `3c + 2` (R174, 20_memory.md R61, R62). -/
def Obligations.DecodeIsSignExtension : Prop :=
  (∀ b0 b1 b2 : Byte,
    decode24 b0 b1 b2 = (b0 ++ b1 ++ b2 : BitVec 24).signExtend 32 ∧
    -2 ^ 23 ≤ (decode24 b0 b1 b2).toInt ∧ (decode24 b0 b1 b2).toInt < 2 ^ 23 ∧
    (decode24 b0 b1 b2).toInt % 2 ^ 24 = ((b0.toNat * 65536 + b1.toNat * 256 + b2.toNat : Nat) : Int)) ∧
  (∀ (rx : FrameBuf) (c : Nat) (h : c < 8),
    (decodeFrame rx)[c] =
      decode24 (rx[3 * c]'(by show _ < 8 * 3; omega)) (rx[3 * c + 1]'(by show _ < 8 * 3; omega))
        (rx[3 * c + 2]'(by show _ < 8 * 3; omega)))

/-- The record of a Frame (43_acquisition.md R184): 48 bytes, `seq` at 0, `ts` at 8, channel `c` at 16 + 4c, each least
significant byte first. -/
def Obligations.RecordLayout : Prop :=
  ∀ f : Frame, f.record.toList.length = 48 ∧
    (∀ i, i < 8 → f.record[i]? = some (f.seq.extractLsb' (8 * i) 8)) ∧
    (∀ i, i < 8 → f.record[8 + i]? = some (f.ts.extractLsb' (8 * i) 8)) ∧
    (∀ (c : Nat) (h : c < 8), ∀ i, i < 4 → f.record[16 + 4 * c + i]? = some (f.ch[c].extractLsb' (8 * i) 8))
end

