-- ==== Sys2Proof/Laws/State.lean ====
section
/-! SUPPORT. The small lemmas of the state: what each update does to each field, so that no proof unfolds an update. -/

namespace Sys2Proof

/-! ### The sizes, at the defaults of the parameters -/

theorem numChannels_eq : numChannels = 8 := rfl

theorem bytesPerSample_eq : bytesPerSample = 3 := rfl

theorem frameBytes_eq : frameBytes = 24 := rfl

theorem sampleBits_eq : sampleBits = 24 := rfl

theorem recordBytes_eq : recordBytes = 48 := rfl

namespace Machine

/-! ### The sample decode at those sizes -/

theorem sampleField_eq (b0 b1 b2 : Byte) : sampleField b0 b1 b2 = (b0 ++ b1 ++ b2 : BitVec 24) := BitVec.setWidth_eq _

theorem decode24_eq (b0 b1 b2 : Byte) :
    decode24 b0 b1 b2 =
      if (b0 ++ b1 ++ b2 : BitVec 24).getLsbD 23 then (b0 ++ b1 ++ b2 : BitVec 24).setWidth 32 ||| 0xFF000000#32
      else (b0 ++ b1 ++ b2 : BitVec 24).setWidth 32 := by
  have top : ∀ x : BitVec 24, (x.setWidth 32).getLsbD 23 = x.getLsbD 23 := by simp
  unfold decode24
  rw [sampleField_eq, ← top]
  rfl

/-! ### The numbers of the result codes (30_encoding.md R90) -/

theorem ResultCode.number_eq_zero (c : ResultCode) : c.number = 0 ↔ c = .ok := by
  cases c <;> simp [ResultCode.number]

theorem ResultCode.number_le (c : ResultCode) : c.number ≤ 6 := by
  cases c <;> simp [ResultCode.number]

end Machine

end Sys2Proof

namespace Sys2Proof.Machine

/-! ### Slots -/

@[simp] theorem State.slot_drdy (s : State) : s.slot .drdy = s.drdy := rfl
@[simp] theorem State.slot_sync (s : State) : s.slot .sync = s.sync := rfl
@[simp] theorem State.setSlot_drdy (s : State) (x : LineSlot) : s.setSlot .drdy x = { s with drdy := x } := rfl
@[simp] theorem State.setSlot_sync (s : State) (x : LineSlot) : s.setSlot .sync x = { s with sync := x } := rfl
@[simp] theorem otherSlot_drdy : otherSlot .drdy = .sync := rfl
@[simp] theorem otherSlot_sync : otherSlot .sync = .drdy := rfl

theorem State.slot_setSlot_self (s : State) (k : Slot) (x : LineSlot) : (s.setSlot k x).slot k = x := by
  cases k <;> rfl

theorem State.slot_setSlot_other (s : State) (k : Slot) (x : LineSlot) :
    (s.setSlot k x).slot (otherSlot k) = s.slot (otherSlot k) := by
  cases k <;> rfl

@[simp] theorem State.setSlot_isOpen (s : State) (k : Slot) (x : LineSlot) : (s.setSlot k x).isOpen = s.isOpen := by
  cases k <;> rfl

@[simp] theorem State.setSlot_started (s : State) (k : Slot) (x : LineSlot) : (s.setSlot k x).started = s.started := by
  cases k <;> rfl

@[simp] theorem State.setSlot_cfg (s : State) (k : Slot) (x : LineSlot) : (s.setSlot k x).cfg = s.cfg := by
  cases k <;> rfl

@[simp] theorem State.setSlot_seq (s : State) (k : Slot) (x : LineSlot) : (s.setSlot k x).seq = s.seq := by
  cases k <;> rfl

@[simp] theorem State.setSlot_raw (s : State) (k : Slot) (x : LineSlot) : (s.setSlot k x).raw = s.raw := by
  cases k <;> rfl

@[simp] theorem State.setSlot_spi (s : State) (k : Slot) (x : LineSlot) : (s.setSlot k x).spi = s.spi := by
  cases k <;> rfl

@[simp] theorem State.setSlot_diag (s : State) (k : Slot) (x : LineSlot) : (s.setSlot k x).diag = s.diag := by
  cases k <;> rfl

@[simp] theorem State.setSlot_refused (s : State) (k : Slot) (x : LineSlot) : (s.setSlot k x).refused = s.refused := by
  cases k <;> rfl

@[simp] theorem State.setSlot_env (s : State) (k : Slot) (x : LineSlot) : (s.setSlot k x).env = s.env := by
  cases k <;> rfl

@[simp] theorem State.setSlot_cp (s : State) (k : Slot) (x : LineSlot) : (s.setSlot k x).cp = s.cp := by
  cases k <;> rfl

@[simp] theorem State.setSlot_pending (s : State) (k : Slot) (x : LineSlot) : (s.setSlot k x).pending = s.pending := by
  cases k <;> rfl

@[simp] theorem State.setSlot_inflight (s : State) (k : Slot) (x : LineSlot) : (s.setSlot k x).inflight = s.inflight := by
  cases k <;> rfl

@[simp] theorem State.setSlot_out (s : State) (k : Slot) (x : LineSlot) : (s.setSlot k x).out = s.out := by
  cases k <;> rfl

@[simp] theorem State.setSlot_calls (s : State) (k : Slot) (x : LineSlot) : (s.setSlot k x).calls = s.calls := by
  cases k <;> rfl


/-! ### Environment updates -/

@[simp] theorem State.setLineEnv_isOpen (s : State) (l : LineId) (e : LineEnv) : (s.setLineEnv l e).isOpen = s.isOpen := rfl
@[simp] theorem State.setLineEnv_started (s : State) (l : LineId) (e : LineEnv) : (s.setLineEnv l e).started = s.started := rfl
@[simp] theorem State.setLineEnv_cfg (s : State) (l : LineId) (e : LineEnv) : (s.setLineEnv l e).cfg = s.cfg := rfl
@[simp] theorem State.setLineEnv_seq (s : State) (l : LineId) (e : LineEnv) : (s.setLineEnv l e).seq = s.seq := rfl
@[simp] theorem State.setLineEnv_raw (s : State) (l : LineId) (e : LineEnv) : (s.setLineEnv l e).raw = s.raw := rfl
@[simp] theorem State.setLineEnv_spi (s : State) (l : LineId) (e : LineEnv) : (s.setLineEnv l e).spi = s.spi := rfl
@[simp] theorem State.setLineEnv_drdy (s : State) (l : LineId) (e : LineEnv) : (s.setLineEnv l e).drdy = s.drdy := rfl
@[simp] theorem State.setLineEnv_sync (s : State) (l : LineId) (e : LineEnv) : (s.setLineEnv l e).sync = s.sync := rfl
@[simp] theorem State.setLineEnv_diag (s : State) (l : LineId) (e : LineEnv) : (s.setLineEnv l e).diag = s.diag := rfl
@[simp] theorem State.setLineEnv_refused (s : State) (l : LineId) (e : LineEnv) : (s.setLineEnv l e).refused = s.refused := rfl
@[simp] theorem State.setLineEnv_env (s : State) (l : LineId) (e : LineEnv) : (s.setLineEnv l e).env = { s.env with lines := LineTable.set s.env.lines l e } := rfl
@[simp] theorem State.setLineEnv_cp (s : State) (l : LineId) (e : LineEnv) : (s.setLineEnv l e).cp = s.cp := rfl
@[simp] theorem State.setLineEnv_pending (s : State) (l : LineId) (e : LineEnv) : (s.setLineEnv l e).pending = s.pending := rfl
@[simp] theorem State.setLineEnv_inflight (s : State) (l : LineId) (e : LineEnv) : (s.setLineEnv l e).inflight = s.inflight := rfl
@[simp] theorem State.setLineEnv_out (s : State) (l : LineId) (e : LineEnv) : (s.setLineEnv l e).out = s.out := rfl
@[simp] theorem State.setLineEnv_calls (s : State) (l : LineId) (e : LineEnv) : (s.setLineEnv l e).calls = s.calls := rfl

/-! ### Reservations -/

@[simp] theorem State.setReserved_isOpen (s : State) (l : LineId) (b : Bool) : (s.setReserved l b).isOpen = s.isOpen := rfl
@[simp] theorem State.setReserved_started (s : State) (l : LineId) (b : Bool) : (s.setReserved l b).started = s.started := rfl
@[simp] theorem State.setReserved_cfg (s : State) (l : LineId) (b : Bool) : (s.setReserved l b).cfg = s.cfg := rfl
@[simp] theorem State.setReserved_seq (s : State) (l : LineId) (b : Bool) : (s.setReserved l b).seq = s.seq := rfl
@[simp] theorem State.setReserved_raw (s : State) (l : LineId) (b : Bool) : (s.setReserved l b).raw = s.raw := rfl
@[simp] theorem State.setReserved_spi (s : State) (l : LineId) (b : Bool) : (s.setReserved l b).spi = s.spi := rfl
@[simp] theorem State.setReserved_drdy (s : State) (l : LineId) (b : Bool) : (s.setReserved l b).drdy = s.drdy := rfl
@[simp] theorem State.setReserved_sync (s : State) (l : LineId) (b : Bool) : (s.setReserved l b).sync = s.sync := rfl
@[simp] theorem State.setReserved_diag (s : State) (l : LineId) (b : Bool) : (s.setReserved l b).diag = s.diag := rfl
@[simp] theorem State.setReserved_refused (s : State) (l : LineId) (b : Bool) : (s.setReserved l b).refused = s.refused := rfl
@[simp] theorem State.setReserved_env (s : State) (l : LineId) (b : Bool) : (s.setReserved l b).env = { s.env with lines := LineTable.set s.env.lines l { s.lineEnv l with reserved := b } } := rfl
@[simp] theorem State.setReserved_cp (s : State) (l : LineId) (b : Bool) : (s.setReserved l b).cp = s.cp := rfl
@[simp] theorem State.setReserved_pending (s : State) (l : LineId) (b : Bool) : (s.setReserved l b).pending = s.pending := rfl
@[simp] theorem State.setReserved_inflight (s : State) (l : LineId) (b : Bool) : (s.setReserved l b).inflight = s.inflight := rfl
@[simp] theorem State.setReserved_out (s : State) (l : LineId) (b : Bool) : (s.setReserved l b).out = s.out := rfl
@[simp] theorem State.setReserved_calls (s : State) (l : LineId) (b : Bool) : (s.setReserved l b).calls = s.calls := rfl

/-! ### Draws -/

@[simp] theorem State.drawBit_isOpen (s : State) : (s.drawBit.2).isOpen = s.isOpen := rfl
@[simp] theorem State.drawBit_started (s : State) : (s.drawBit.2).started = s.started := rfl
@[simp] theorem State.drawBit_cfg (s : State) : (s.drawBit.2).cfg = s.cfg := rfl
@[simp] theorem State.drawBit_seq (s : State) : (s.drawBit.2).seq = s.seq := rfl
@[simp] theorem State.drawBit_raw (s : State) : (s.drawBit.2).raw = s.raw := rfl
@[simp] theorem State.drawBit_spi (s : State) : (s.drawBit.2).spi = s.spi := rfl
@[simp] theorem State.drawBit_drdy (s : State) : (s.drawBit.2).drdy = s.drdy := rfl
@[simp] theorem State.drawBit_sync (s : State) : (s.drawBit.2).sync = s.sync := rfl
@[simp] theorem State.drawBit_diag (s : State) : (s.drawBit.2).diag = s.diag := rfl
@[simp] theorem State.drawBit_refused (s : State) : (s.drawBit.2).refused = s.refused := rfl
@[simp] theorem State.drawBit_env (s : State) : (s.drawBit.2).env = { s.env with free := s.env.free + 1 } := rfl
@[simp] theorem State.drawBit_cp (s : State) : (s.drawBit.2).cp = s.cp := rfl
@[simp] theorem State.drawBit_pending (s : State) : (s.drawBit.2).pending = s.pending := rfl
@[simp] theorem State.drawBit_inflight (s : State) : (s.drawBit.2).inflight = s.inflight := rfl
@[simp] theorem State.drawBit_out (s : State) : (s.drawBit.2).out = s.out := rfl
@[simp] theorem State.drawBit_calls (s : State) : (s.drawBit.2).calls = s.calls := rfl

/-! ### Pins -/

@[simp] theorem State.drivePin_isOpen (s : State) (l : LineId) (v : Level) : (s.drivePin l v).isOpen = s.isOpen := rfl
@[simp] theorem State.drivePin_started (s : State) (l : LineId) (v : Level) : (s.drivePin l v).started = s.started := rfl
@[simp] theorem State.drivePin_cfg (s : State) (l : LineId) (v : Level) : (s.drivePin l v).cfg = s.cfg := rfl
@[simp] theorem State.drivePin_seq (s : State) (l : LineId) (v : Level) : (s.drivePin l v).seq = s.seq := rfl
@[simp] theorem State.drivePin_raw (s : State) (l : LineId) (v : Level) : (s.drivePin l v).raw = s.raw := rfl
@[simp] theorem State.drivePin_spi (s : State) (l : LineId) (v : Level) : (s.drivePin l v).spi = s.spi := rfl
@[simp] theorem State.drivePin_drdy (s : State) (l : LineId) (v : Level) : (s.drivePin l v).drdy = s.drdy.onDrive l (!v && (s.lineEnv l).pin) (Config.freeBit s.env.free) := rfl
@[simp] theorem State.drivePin_sync (s : State) (l : LineId) (v : Level) : (s.drivePin l v).sync = s.sync.onDrive l (!v && (s.lineEnv l).pin) (Config.freeBit (s.env.free + 1)) := rfl
@[simp] theorem State.drivePin_diag (s : State) (l : LineId) (v : Level) : (s.drivePin l v).diag = s.diag := rfl
@[simp] theorem State.drivePin_refused (s : State) (l : LineId) (v : Level) : (s.drivePin l v).refused = s.refused := rfl
@[simp] theorem State.drivePin_env (s : State) (l : LineId) (v : Level) : (s.drivePin l v).env = { s.env with lines := LineTable.set s.env.lines l { s.lineEnv l with pin := v }, free := s.env.free + 2 } := rfl
@[simp] theorem State.drivePin_cp (s : State) (l : LineId) (v : Level) : (s.drivePin l v).cp = s.cp := rfl
@[simp] theorem State.drivePin_pending (s : State) (l : LineId) (v : Level) : (s.drivePin l v).pending = s.pending := rfl
@[simp] theorem State.drivePin_inflight (s : State) (l : LineId) (v : Level) : (s.drivePin l v).inflight = s.inflight := rfl
@[simp] theorem State.drivePin_out (s : State) (l : LineId) (v : Level) : (s.drivePin l v).out = s.out := rfl
@[simp] theorem State.drivePin_calls (s : State) (l : LineId) (v : Level) : (s.drivePin l v).calls = s.calls := rfl

/-! ### Calls -/

@[simp] theorem State.logCall_isOpen (s : State) (c : Call) : (s.logCall c).isOpen = s.isOpen := rfl
@[simp] theorem State.logCall_started (s : State) (c : Call) : (s.logCall c).started = s.started := rfl
@[simp] theorem State.logCall_cfg (s : State) (c : Call) : (s.logCall c).cfg = s.cfg := rfl
@[simp] theorem State.logCall_seq (s : State) (c : Call) : (s.logCall c).seq = s.seq := rfl
@[simp] theorem State.logCall_raw (s : State) (c : Call) : (s.logCall c).raw = s.raw := rfl
@[simp] theorem State.logCall_spi (s : State) (c : Call) : (s.logCall c).spi = s.spi := rfl
@[simp] theorem State.logCall_drdy (s : State) (c : Call) : (s.logCall c).drdy = s.drdy := rfl
@[simp] theorem State.logCall_sync (s : State) (c : Call) : (s.logCall c).sync = s.sync := rfl
@[simp] theorem State.logCall_diag (s : State) (c : Call) : (s.logCall c).diag = s.diag := rfl
@[simp] theorem State.logCall_refused (s : State) (c : Call) : (s.logCall c).refused = s.refused := rfl
@[simp] theorem State.logCall_env (s : State) (c : Call) : (s.logCall c).env = s.env := rfl
@[simp] theorem State.logCall_cp (s : State) (c : Call) : (s.logCall c).cp = s.cp := rfl
@[simp] theorem State.logCall_pending (s : State) (c : Call) : (s.logCall c).pending = s.pending := rfl
@[simp] theorem State.logCall_inflight (s : State) (c : Call) : (s.logCall c).inflight = s.inflight := rfl
@[simp] theorem State.logCall_out (s : State) (c : Call) : (s.logCall c).out = s.out := rfl
@[simp] theorem State.logCall_calls (s : State) (c : Call) : (s.logCall c).calls = s.calls ++ [c] := rfl

/-! ### Ends of a command: refused -/

@[simp] theorem State.refuse_isOpen (s : State) : (s.refuse).isOpen = s.isOpen := rfl
@[simp] theorem State.refuse_started (s : State) : (s.refuse).started = s.started := rfl
@[simp] theorem State.refuse_cfg (s : State) : (s.refuse).cfg = s.cfg := rfl
@[simp] theorem State.refuse_seq (s : State) : (s.refuse).seq = s.seq := rfl
@[simp] theorem State.refuse_raw (s : State) : (s.refuse).raw = s.raw := rfl
@[simp] theorem State.refuse_spi (s : State) : (s.refuse).spi = s.spi := rfl
@[simp] theorem State.refuse_drdy (s : State) : (s.refuse).drdy = s.drdy := rfl
@[simp] theorem State.refuse_sync (s : State) : (s.refuse).sync = s.sync := rfl
@[simp] theorem State.refuse_diag (s : State) : (s.refuse).diag = s.diag := rfl
@[simp] theorem State.refuse_refused (s : State) : (s.refuse).refused = true := rfl
@[simp] theorem State.refuse_env (s : State) : (s.refuse).env = s.env := rfl
@[simp] theorem State.refuse_cp (s : State) : (s.refuse).cp = s.cp + 1 := rfl
@[simp] theorem State.refuse_pending (s : State) : (s.refuse).pending = s.pending := rfl
@[simp] theorem State.refuse_inflight (s : State) : (s.refuse).inflight = none := rfl
@[simp] theorem State.refuse_out (s : State) : (s.refuse).out = none := rfl
@[simp] theorem State.refuse_calls (s : State) : (s.refuse).calls = s.calls := rfl

/-! ### Ends of a command: completed -/

@[simp] theorem State.complete_isOpen (s : State) (r : Response) : (s.complete r).isOpen = s.isOpen := rfl
@[simp] theorem State.complete_started (s : State) (r : Response) : (s.complete r).started = s.started := rfl
@[simp] theorem State.complete_cfg (s : State) (r : Response) : (s.complete r).cfg = s.cfg := rfl
@[simp] theorem State.complete_seq (s : State) (r : Response) : (s.complete r).seq = s.seq := rfl
@[simp] theorem State.complete_raw (s : State) (r : Response) : (s.complete r).raw = s.raw := rfl
@[simp] theorem State.complete_spi (s : State) (r : Response) : (s.complete r).spi = s.spi := rfl
@[simp] theorem State.complete_drdy (s : State) (r : Response) : (s.complete r).drdy = s.drdy := rfl
@[simp] theorem State.complete_sync (s : State) (r : Response) : (s.complete r).sync = s.sync := rfl
@[simp] theorem State.complete_diag (s : State) (r : Response) : (s.complete r).diag = s.diag := rfl
@[simp] theorem State.complete_refused (s : State) (r : Response) : (s.complete r).refused = s.refused := rfl
@[simp] theorem State.complete_env (s : State) (r : Response) : (s.complete r).env = s.env := rfl
@[simp] theorem State.complete_cp (s : State) (r : Response) : (s.complete r).cp = s.cp + 1 := rfl
@[simp] theorem State.complete_pending (s : State) (r : Response) : (s.complete r).pending = s.pending := rfl
@[simp] theorem State.complete_inflight (s : State) (r : Response) : (s.complete r).inflight = none := rfl
@[simp] theorem State.complete_out (s : State) (r : Response) : (s.complete r).out = some r := rfl
@[simp] theorem State.complete_calls (s : State) (r : Response) : (s.complete r).calls = s.calls := rfl

/-! ### The raw shadow -/

@[simp] theorem State.rawWrite_isOpen (s : State) (i : Fin frameBytes) (b : Byte) : (s.rawWrite i b).isOpen = s.isOpen := rfl
@[simp] theorem State.rawWrite_started (s : State) (i : Fin frameBytes) (b : Byte) : (s.rawWrite i b).started = s.started := rfl
@[simp] theorem State.rawWrite_cfg (s : State) (i : Fin frameBytes) (b : Byte) : (s.rawWrite i b).cfg = s.cfg := rfl
@[simp] theorem State.rawWrite_seq (s : State) (i : Fin frameBytes) (b : Byte) : (s.rawWrite i b).seq = s.seq := rfl
@[simp] theorem State.rawWrite_raw (s : State) (i : Fin frameBytes) (b : Byte) : (s.rawWrite i b).raw = s.raw.set i b := rfl
@[simp] theorem State.rawWrite_spi (s : State) (i : Fin frameBytes) (b : Byte) : (s.rawWrite i b).spi = s.spi := rfl
@[simp] theorem State.rawWrite_drdy (s : State) (i : Fin frameBytes) (b : Byte) : (s.rawWrite i b).drdy = s.drdy := rfl
@[simp] theorem State.rawWrite_sync (s : State) (i : Fin frameBytes) (b : Byte) : (s.rawWrite i b).sync = s.sync := rfl
@[simp] theorem State.rawWrite_diag (s : State) (i : Fin frameBytes) (b : Byte) : (s.rawWrite i b).diag = s.diag := rfl
@[simp] theorem State.rawWrite_refused (s : State) (i : Fin frameBytes) (b : Byte) : (s.rawWrite i b).refused = s.refused := rfl
@[simp] theorem State.rawWrite_env (s : State) (i : Fin frameBytes) (b : Byte) : (s.rawWrite i b).env = s.env := rfl
@[simp] theorem State.rawWrite_cp (s : State) (i : Fin frameBytes) (b : Byte) : (s.rawWrite i b).cp = s.cp := rfl
@[simp] theorem State.rawWrite_pending (s : State) (i : Fin frameBytes) (b : Byte) : (s.rawWrite i b).pending = s.pending := rfl
@[simp] theorem State.rawWrite_inflight (s : State) (i : Fin frameBytes) (b : Byte) : (s.rawWrite i b).inflight = s.inflight := rfl
@[simp] theorem State.rawWrite_out (s : State) (i : Fin frameBytes) (b : Byte) : (s.rawWrite i b).out = s.out := rfl
@[simp] theorem State.rawWrite_calls (s : State) (i : Fin frameBytes) (b : Byte) : (s.rawWrite i b).calls = s.calls := rfl

/-! ### The host's port -/

@[simp] theorem State.popCommand_isOpen (s : State) : (s.popCommand).isOpen = s.isOpen := rfl
@[simp] theorem State.popCommand_started (s : State) : (s.popCommand).started = s.started := rfl
@[simp] theorem State.popCommand_cfg (s : State) : (s.popCommand).cfg = s.cfg := rfl
@[simp] theorem State.popCommand_seq (s : State) : (s.popCommand).seq = s.seq := rfl
@[simp] theorem State.popCommand_raw (s : State) : (s.popCommand).raw = s.raw := rfl
@[simp] theorem State.popCommand_spi (s : State) : (s.popCommand).spi = s.spi := rfl
@[simp] theorem State.popCommand_drdy (s : State) : (s.popCommand).drdy = s.drdy := rfl
@[simp] theorem State.popCommand_sync (s : State) : (s.popCommand).sync = s.sync := rfl
@[simp] theorem State.popCommand_diag (s : State) : (s.popCommand).diag = s.diag := rfl
@[simp] theorem State.popCommand_refused (s : State) : (s.popCommand).refused = s.refused := rfl
@[simp] theorem State.popCommand_env (s : State) : (s.popCommand).env = s.env := rfl
@[simp] theorem State.popCommand_cp (s : State) : (s.popCommand).cp = s.cp := rfl
@[simp] theorem State.popCommand_pending (s : State) : (s.popCommand).pending = s.pending.tail := rfl
@[simp] theorem State.popCommand_inflight (s : State) : (s.popCommand).inflight = s.inflight := rfl
@[simp] theorem State.popCommand_out (s : State) : (s.popCommand).out = s.out := rfl
@[simp] theorem State.popCommand_calls (s : State) : (s.popCommand).calls = s.calls := rfl

/-! ### A command placed -/

@[simp] theorem State.placeCommand_isOpen (s : State) (c : Command) : (s.placeCommand c).isOpen = s.isOpen := rfl
@[simp] theorem State.placeCommand_started (s : State) (c : Command) : (s.placeCommand c).started = s.started := rfl
@[simp] theorem State.placeCommand_cfg (s : State) (c : Command) : (s.placeCommand c).cfg = s.cfg := rfl
@[simp] theorem State.placeCommand_seq (s : State) (c : Command) : (s.placeCommand c).seq = s.seq := rfl
@[simp] theorem State.placeCommand_raw (s : State) (c : Command) : (s.placeCommand c).raw = s.raw := rfl
@[simp] theorem State.placeCommand_spi (s : State) (c : Command) : (s.placeCommand c).spi = s.spi := rfl
@[simp] theorem State.placeCommand_drdy (s : State) (c : Command) : (s.placeCommand c).drdy = s.drdy := rfl
@[simp] theorem State.placeCommand_sync (s : State) (c : Command) : (s.placeCommand c).sync = s.sync := rfl
@[simp] theorem State.placeCommand_diag (s : State) (c : Command) : (s.placeCommand c).diag = s.diag := rfl
@[simp] theorem State.placeCommand_refused (s : State) (c : Command) : (s.placeCommand c).refused = s.refused := rfl
@[simp] theorem State.placeCommand_env (s : State) (c : Command) : (s.placeCommand c).env = s.env := rfl
@[simp] theorem State.placeCommand_cp (s : State) (c : Command) : (s.placeCommand c).cp = s.cp := rfl
@[simp] theorem State.placeCommand_pending (s : State) (c : Command) : (s.placeCommand c).pending = c :: s.pending.tail := rfl
@[simp] theorem State.placeCommand_inflight (s : State) (c : Command) : (s.placeCommand c).inflight = none := rfl
@[simp] theorem State.placeCommand_out (s : State) (c : Command) : (s.placeCommand c).out = s.out := rfl
@[simp] theorem State.placeCommand_calls (s : State) (c : Command) : (s.placeCommand c).calls = s.calls := rfl

/-! ### Slot updates -/

@[simp] theorem LineSlot.emptied_line (x : LineSlot) : x.emptied.line = none := rfl
@[simp] theorem LineSlot.emptied_exportedByUs (x : LineSlot) : x.emptied.exportedByUs = false := rfl
@[simp] theorem LineSlot.emptied_handle (x : LineSlot) : x.emptied.handle = none := rfl
@[simp] theorem LineSlot.emptied_dir (x : LineSlot) : x.emptied.dir = none := rfl
@[simp] theorem LineSlot.emptied_edge (x : LineSlot) : x.emptied.edge = none := rfl
@[simp] theorem LineSlot.emptied_level (x : LineSlot) : x.emptied.level = x.level := rfl
@[simp] theorem LineSlot.emptied_latch (x : LineSlot) : x.emptied.latch = false := rfl
@[simp] theorem LineSlot.onDrive_line (x : LineSlot) (l : LineId) (a b : Bool) : (x.onDrive l a b).line = x.line := rfl
@[simp] theorem LineSlot.onDrive_exportedByUs (x : LineSlot) (l : LineId) (a b : Bool) :
    (x.onDrive l a b).exportedByUs = x.exportedByUs := rfl
@[simp] theorem LineSlot.onDrive_handle (x : LineSlot) (l : LineId) (a b : Bool) : (x.onDrive l a b).handle = x.handle := rfl
@[simp] theorem LineSlot.onDrive_dir (x : LineSlot) (l : LineId) (a b : Bool) : (x.onDrive l a b).dir = x.dir := rfl
@[simp] theorem LineSlot.onDrive_edge (x : LineSlot) (l : LineId) (a b : Bool) : (x.onDrive l a b).edge = x.edge := rfl
@[simp] theorem LineSlot.onDrive_level (x : LineSlot) (l : LineId) (a b : Bool) : (x.onDrive l a b).level = x.level := rfl
theorem LineSlot.onDrive_latch (x : LineSlot) (l : LineId) (a b : Bool) :
    (x.onDrive l a b).latch = (x.latch || (x.watches l && (a && (x.acquired || b)))) := rfl

/-- A slot emptied is an empty slot. -/
theorem LineSlot.emptied_empty (x : LineSlot) : x.emptied.Empty := ⟨rfl, rfl, rfl, rfl, rfl, rfl⟩

/-- Emptying an empty slot changes nothing: the second of two releases (41_gpio_line.md R127). -/
theorem LineSlot.emptied_of_empty {x : LineSlot} (h : x.Empty) : x.emptied = x := by
  obtain ⟨line, exportedByUs, handle, dir, edge, level, latch⟩ := x
  obtain ⟨h1, h2, h3, h4, h5, h6⟩ := h
  simp only at h1 h2 h3 h4 h5 h6
  subst h1 h2 h3 h4 h5 h6
  rfl

theorem LineSlot.SameButLatch.refl (x : LineSlot) : x.SameButLatch x :=
  ⟨rfl, rfl, rfl, rfl, rfl, rfl, fun h h' => by rw [h] at h'; cases h'⟩

theorem LineSlot.SameButLatch.detectsFalling {x y : LineSlot} (h : x.SameButLatch y) :
    y.detectsFalling = x.detectsFalling := by
  simp only [LineSlot.detectsFalling, h.dir, h.edge]

theorem LineSlot.SameButLatch.trans {x y z : LineSlot} (h : x.SameButLatch y) (h' : y.SameButLatch z) :
    x.SameButLatch z := by
  refine ⟨h'.line.trans h.line, h'.exportedByUs.trans h.exportedByUs, h'.handle.trans h.handle, h'.dir.trans h.dir,
    h'.edge.trans h.edge, h'.level.trans h.level, fun hx hz => ?_⟩
  cases hy : y.latch
  · have := h'.latch hy hz
    rw [h.line, h.detectsFalling] at this
    exact this
  · exact h.latch hx hy

/-- An empty slot stays empty. -/
theorem LineSlot.SameButLatch.empty {x y : LineSlot} (h : x.SameButLatch y) (he : x.Empty) : y.Empty := by
  refine ⟨h.line.trans he.line, h.exportedByUs.trans he.exportedByUs, h.handle.trans he.handle, h.dir.trans he.dir,
    h.edge.trans he.edge, ?_⟩
  cases hy : y.latch
  · rfl
  · exact absurd he.line (h.latch he.latch hy).1

/-- A coherent slot stays coherent. -/
theorem LineSlot.SameButLatch.coherent {x y : LineSlot} (h : x.SameButLatch y) (hc : x.Coherent) : y.Coherent := by
  refine ⟨fun e => h.empty (hc.empty (h.line ▸ e)), fun e => ?_, fun e => ?_, fun e => ?_⟩
  · rw [h.dir, h.edge]; exact hc.input (h.handle ▸ e)
  · rw [h.dir]; exact hc.output (h.handle ▸ e)
  · rw [h.dir]; exact hc.edge (h.edge ▸ e)

theorem LineSlot.onDrive_sameButLatch (x : LineSlot) (l : LineId) (a b : Bool) : x.SameButLatch (x.onDrive l a b) := by
  refine ⟨rfl, rfl, rfl, rfl, rfl, rfl, fun h h' => ?_⟩
  simp only [LineSlot.onDrive_latch, h, Bool.false_or, Bool.and_eq_true, LineSlot.watches, beq_iff_eq] at h'
  exact ⟨by rw [h'.1.1]; simp, h'.1.2⟩

/-- Clearing or keeping a latch. -/
theorem LineSlot.setLatch_sameButLatch (x : LineSlot) (b : Bool) : x.SameButLatch { x with latch := x.latch && b } :=
  ⟨rfl, rfl, rfl, rfl, rfl, rfl, fun h h' => by simp [h] at h'⟩

/-! ### The raw shadow written with zeros -/

/-- Zero writes at a list of indices, as a function of the shadow. -/
def zeroAt (is : List (Fin frameBytes)) (r : FrameBuf) : FrameBuf := is.foldl (fun r (i : Fin frameBytes) => r.set i 0) r

theorem foldl_rawWrite (is : List (Fin frameBytes)) (t : State) :
    is.foldl (fun t i => t.rawWrite i 0) t = { t with raw := zeroAt is t.raw } := by
  induction is generalizing t with
  | nil => rfl
  | cons i is ih => rw [List.foldl_cons, ih]; rfl

theorem getElem_zeroAt (is : List (Fin frameBytes)) (r : FrameBuf) (j : Fin frameBytes) :
    (zeroAt is r)[j] = if j ∈ is then 0 else r[j] := by
  induction is generalizing r with
  | nil => simp [zeroAt]
  | cons i is ih =>
    have : zeroAt (i :: is) r = zeroAt is (r.set i 0) := rfl
    rw [this, ih]
    by_cases hj : j ∈ is
    · simp [hj]
    · by_cases hi : j = i
      · subst hi; simp [hj]
      · have hv : i.val ≠ j.val := fun h => hi (Fin.ext h.symm)
        simp [hj, hi, hv]

theorem zeroAt_all (r : FrameBuf) : zeroAt (List.finRange frameBytes) r = FrameBuf.zero := by
  apply Vector.ext
  intro j hj
  have h := getElem_zeroAt (List.finRange frameBytes) r ⟨j, hj⟩
  rw [if_pos (List.mem_finRange _)] at h
  refine h.trans ?_
  simp [FrameBuf.zero]

/-- The 24 zero writes leave 24 zero bytes and nothing else changed (43_acquisition.md R179). -/
theorem State.zeroRaw_eq (s : State) : s.zeroRaw = { s with raw := FrameBuf.zero } := by
  rw [State.zeroRaw, foldl_rawWrite, zeroAt_all]

/-- Reading a byte after writing it (20_memory.md R60). -/
theorem State.rawRead_rawWrite_self (s : State) (i : Fin frameBytes) (b : Byte) : (s.rawWrite i b).rawRead i = b := by
  simp [State.rawRead, State.rawWrite]

/-- Writing a byte leaves the others (20_memory.md R60). -/
theorem State.rawRead_rawWrite_other (s : State) (i j : Fin frameBytes) (b : Byte) (h : j ≠ i) :
    (s.rawWrite i b).rawRead j = s.rawRead j := by
  have : i.val ≠ j.val := fun e => h (Fin.ext e.symm)
  simp [State.rawRead, State.rawWrite, this]

/-- All bytes read out are the shadow (43_acquisition.md R177). -/
theorem State.ofFn_rawRead (s : State) : Vector.ofFn s.rawRead = s.raw := by
  apply Vector.ext
  intro i hi
  simp [State.rawRead]

end Sys2Proof.Machine
end

