-- ==== Sys2Proof/Laws/Lines.lean ====
section
/-! SUPPORT. The line table: read after write, and the canonical form that every operation keeps. -/

namespace Sys2Proof.Machine

theorem LineTable.get_set_self (t : List (LineId × LineEnv)) (l : LineId) (e : LineEnv) :
    LineTable.get (LineTable.set t l e) l = e := by
  induction t with
  | nil => simp [LineTable.set, LineTable.get]
  | cons p t ih =>
    obtain ⟨l', e'⟩ := p
    simp only [LineTable.set]
    split
    · simp [LineTable.get]
    · split
      · simp [LineTable.get]
      · simp [LineTable.get, *]

theorem LineTable.get_set_other (t : List (LineId × LineEnv)) {l m : LineId} (e : LineEnv) (h : m ≠ l) :
    LineTable.get (LineTable.set t l e) m = LineTable.get t m := by
  induction t with
  | nil => simp [LineTable.set, LineTable.get, h]
  | cons p t ih =>
    obtain ⟨l', e'⟩ := p
    simp only [LineTable.set]
    split
    · simp [LineTable.get, h]
    · split
      · rename_i hl; subst hl; simp [LineTable.get, h]
      · simp [LineTable.get, ih]

theorem LineTable.mem_set {t : List (LineId × LineEnv)} {l : LineId} {e : LineEnv} {p : LineId × LineEnv}
    (h : p ∈ LineTable.set t l e) : p.1 = l ∨ p ∈ t := by
  induction t with
  | nil => simp [LineTable.set] at h; simp [h]
  | cons q t ih =>
    obtain ⟨l', e'⟩ := q
    simp only [LineTable.set] at h
    split at h
    · rcases List.mem_cons.1 h with rfl | h
      · exact .inl rfl
      · exact .inr h
    · split at h
      · rcases List.mem_cons.1 h with rfl | h
        · exact .inl rfl
        · exact .inr (List.mem_cons_of_mem _ h)
      · rcases List.mem_cons.1 h with rfl | h
        · exact .inr (List.mem_cons_self ..)
        · exact (ih h).imp id (List.mem_cons_of_mem _)

/-- Writing an entry keeps the canonical form. -/
theorem LineTable.set_wf {t : List (LineId × LineEnv)} (h : LineTable.wf t) (l : LineId) (e : LineEnv) :
    LineTable.wf (LineTable.set t l e) := by
  induction t with
  | nil => simp [LineTable.set, LineTable.wf]
  | cons q t ih =>
    obtain ⟨l', e'⟩ := q
    obtain ⟨h1, h2⟩ := List.pairwise_cons.1 h
    simp only [LineTable.set]
    split
    · rename_i hl
      refine List.pairwise_cons.2 ⟨fun p hp => ?_, h⟩
      rcases List.mem_cons.1 hp with rfl | hp
      · exact hl
      · exact Nat.lt_trans hl (h1 p hp)
    · split
      · rename_i hl
        subst hl
        exact List.pairwise_cons.2 ⟨h1, h2⟩
      · rename_i hn hne
        refine List.pairwise_cons.2 ⟨fun p hp => ?_, ih h2⟩
        rcases LineTable.mem_set hp with hp | hp
        · simp only [LineId] at *
          omega
        · exact h1 p hp

@[simp] theorem State.lineEnv_setSlot (s : State) (k : Slot) (x : LineSlot) (l : LineId) :
    (s.setSlot k x).lineEnv l = s.lineEnv l := by
  cases k <;> rfl

@[simp] theorem State.lineEnv_setLineEnv_self (s : State) (l : LineId) (e : LineEnv) :
    (s.setLineEnv l e).lineEnv l = e := LineTable.get_set_self _ _ _

theorem State.lineEnv_setLineEnv_other (s : State) {l m : LineId} (e : LineEnv) (h : m ≠ l) :
    (s.setLineEnv l e).lineEnv m = s.lineEnv m := LineTable.get_set_other _ _ h

@[simp] theorem State.lineEnv_setReserved_self (s : State) (l : LineId) (b : Bool) :
    (s.setReserved l b).lineEnv l = { s.lineEnv l with reserved := b } := LineTable.get_set_self _ _ _

theorem State.lineEnv_setReserved_other (s : State) {l m : LineId} (b : Bool) (h : m ≠ l) :
    (s.setReserved l b).lineEnv m = s.lineEnv m := LineTable.get_set_other _ _ h

@[simp] theorem State.lineEnv_drivePin_self (s : State) (l : LineId) (v : Level) :
    (s.drivePin l v).lineEnv l = { s.lineEnv l with pin := v } := LineTable.get_set_self _ _ _

theorem State.lineEnv_drivePin_other (s : State) {l m : LineId} (v : Level) (h : m ≠ l) :
    (s.drivePin l v).lineEnv m = s.lineEnv m := LineTable.get_set_other _ _ h

@[simp] theorem State.lineEnv_drawBit (s : State) (l : LineId) : s.drawBit.2.lineEnv l = s.lineEnv l := rfl
@[simp] theorem State.lineEnv_logCall (s : State) (c : Call) (l : LineId) : (s.logCall c).lineEnv l = s.lineEnv l := rfl
@[simp] theorem State.lineEnv_complete (s : State) (r : Response) (l : LineId) : (s.complete r).lineEnv l = s.lineEnv l := rfl
@[simp] theorem State.lineEnv_refuse (s : State) (l : LineId) : s.refuse.lineEnv l = s.lineEnv l := rfl

/-- Reserving or driving a line never changes another fact of it. -/
theorem State.lineEnv_setReserved_pin (s : State) (l m : LineId) (b : Bool) :
    ((s.setReserved l b).lineEnv m).pin = (s.lineEnv m).pin := by
  by_cases h : m = l
  · subst h; simp
  · rw [State.lineEnv_setReserved_other s b h]

theorem State.lineEnv_drivePin_reserved (s : State) (l m : LineId) (v : Level) :
    ((s.drivePin l v).lineEnv m).reserved = (s.lineEnv m).reserved := by
  by_cases h : m = l
  · subst h; simp
  · rw [State.lineEnv_drivePin_other s v h]

end Sys2Proof.Machine
end

