-- ==== Sys2Proof/Laws/Environment.lean ====
section
/-! SUPPORT. What the environment's steps and the underlying calls can do: `ByEnv s t` says once all that a call may
change, and each call of Machine/Environment.lean has one lemma that gives it. -/

namespace Sys2Proof.Machine

/-! ### The frame relations -/

theorem SameController.refl (s : State) : SameController s s := ⟨rfl, rfl, rfl, rfl, rfl, rfl, rfl, rfl⟩

theorem SameController.trans {s t u : State} (h : SameController s t) (h' : SameController t u) : SameController s u :=
  ⟨h'.isOpen.trans h.isOpen, h'.started.trans h.started, h'.cfg.trans h.cfg, h'.seq.trans h.seq, h'.raw.trans h.raw,
    h'.diag.trans h.diag, h'.refused.trans h.refused, h'.pending.trans h.pending⟩

theorem SameBlock.refl (s : State) : SameBlock s s := ⟨.refl s, rfl, .refl _, .refl _⟩

theorem SameBlock.trans {s t u : State} (h : SameBlock s t) (h' : SameBlock t u) : SameBlock s u :=
  ⟨h.controller.trans h'.controller, h'.spi.trans h.spi, LineSlot.SameButLatch.trans h.drdy h'.drdy,
    LineSlot.SameButLatch.trans h.sync h'.sync⟩

theorem SameBlock.slot {s t : State} (h : SameBlock s t) (k : Slot) : (s.slot k).SameButLatch (t.slot k) := by
  cases k
  · exact h.drdy
  · exact h.sync

/-- Calls were only added, and every exchange among them transmits zeros (42_spi_master.md R148). -/
def CallsGrow (s t : State) : Prop :=
  ∃ cs, t.calls = s.calls ++ cs ∧ ∀ tx, Call.spiTransfer tx ∈ cs → tx = FrameBuf.zero

theorem CallsGrow.refl (s : State) : CallsGrow s s := ⟨[], by simp, by simp⟩

theorem CallsGrow.of_eq {s t : State} (h : t.calls = s.calls) : CallsGrow s t := ⟨[], by simp [h], by simp⟩

theorem CallsGrow.trans {s t u : State} (h : CallsGrow s t) (h' : CallsGrow t u) : CallsGrow s u := by
  obtain ⟨cs, h1, h2⟩ := h
  obtain ⟨cs', h3, h4⟩ := h'
  refine ⟨cs ++ cs', by rw [h3, h1, List.append_assoc], fun tx hx => ?_⟩
  rcases List.mem_append.1 hx with hx | hx
  · exact h2 tx hx
  · exact h4 tx hx

/-- `t` comes from `s` by steps of the environment and underlying calls alone: the block is as it was but for the
latches, the host's port is as it was, calls were only added, the clock's bound only rose, the line table kept its
form. -/
structure ByEnv (s t : State) : Prop where
  block : SameBlock s t
  cp : t.cp = s.cp
  inflight : t.inflight = s.inflight
  out : t.out = s.out
  calls : CallsGrow s t
  clock : s.env.clock.toNat ≤ t.env.clock.toNat
  wf : LineTable.wf s.env.lines → LineTable.wf t.env.lines

theorem ByEnv.refl (s : State) : ByEnv s s := ⟨.refl s, rfl, rfl, rfl, CallsGrow.of_eq rfl, le_rfl, id⟩

theorem ByEnv.trans {s t u : State} (h : ByEnv s t) (h' : ByEnv t u) : ByEnv s u := 
  ⟨h.block.trans h'.block, h'.cp.trans h.cp, h'.inflight.trans h.inflight, h'.out.trans h.out,
    h.calls.trans h'.calls, h.clock.trans h'.clock, fun w => h'.wf (h.wf w)⟩

/-- Slot `k`'s line is as it was. -/
theorem ByEnv.line {s t : State} (h : ByEnv s t) (k : Slot) : (t.slot k).line = (s.slot k).line :=
  (h.block.slot k).line

theorem ByEnv.exportedByUs {s t : State} (h : ByEnv s t) (k : Slot) :
    (t.slot k).exportedByUs = (s.slot k).exportedByUs := (h.block.slot k).exportedByUs

theorem ByEnv.handle {s t : State} (h : ByEnv s t) (k : Slot) : (t.slot k).handle = (s.slot k).handle :=
  (h.block.slot k).handle

theorem ByEnv.dir {s t : State} (h : ByEnv s t) (k : Slot) : (t.slot k).dir = (s.slot k).dir :=
  (h.block.slot k).dir

theorem ByEnv.edge {s t : State} (h : ByEnv s t) (k : Slot) : (t.slot k).edge = (s.slot k).edge :=
  (h.block.slot k).edge

theorem ByEnv.level {s t : State} (h : ByEnv s t) (k : Slot) : (t.slot k).level = (s.slot k).level :=
  (h.block.slot k).level

theorem ByEnv.owns {s t : State} (h : ByEnv s t) (l : LineId) : t.owns l = s.owns l := by
  have a := h.line .drdy
  have b := h.line .sync
  have c := h.exportedByUs .drdy
  have d := h.exportedByUs .sync
  simp only [State.slot] at a b c d
  simp [State.owns, a, b, c, d]

theorem ByEnv.drives {s t : State} (h : ByEnv s t) (l : LineId) : t.drives l = s.drives l := by
  have a := h.line .drdy
  have b := h.line .sync
  have c := h.dir .drdy
  have d := h.dir .sync
  simp only [State.slot] at a b c d
  simp [State.drives, a, b, c, d]

/-- A reservation this block made stays. -/
def KeepsOwn (s t : State) : Prop :=
  ∀ l, s.owns l = true → (s.lineEnv l).reserved = true → (t.lineEnv l).reserved = true

/-! ### Updates of the environment alone -/

theorem State.setLineEnv_byEnv (s : State) (l : LineId) (e : LineEnv) : ByEnv s (s.setLineEnv l e) :=
  ⟨⟨⟨rfl, rfl, rfl, rfl, rfl, rfl, rfl, rfl⟩, rfl, .refl _, .refl _⟩, rfl, rfl, rfl, CallsGrow.of_eq rfl, le_rfl,
    fun w => LineTable.set_wf w l e⟩

theorem State.setReserved_byEnv (s : State) (l : LineId) (b : Bool) : ByEnv s (s.setReserved l b) :=
  s.setLineEnv_byEnv l _

theorem State.drawBit_byEnv (s : State) : ByEnv s s.drawBit.2 :=
  ⟨⟨⟨rfl, rfl, rfl, rfl, rfl, rfl, rfl, rfl⟩, rfl, .refl _, .refl _⟩, rfl, rfl, rfl, CallsGrow.of_eq rfl, le_rfl, id⟩

theorem State.drivePin_byEnv (s : State) (l : LineId) (v : Level) : ByEnv s (s.drivePin l v) :=
  ⟨⟨⟨rfl, rfl, rfl, rfl, rfl, rfl, rfl, rfl⟩, rfl, s.drdy.onDrive_sameButLatch _ _ _, s.sync.onDrive_sameButLatch _ _ _⟩, rfl, rfl, rfl, CallsGrow.of_eq rfl, le_rfl,
    fun w => LineTable.set_wf w l _⟩

theorem State.drawPin_byEnv (s : State) (l : LineId) : ByEnv s (s.drawPin l) :=
  s.drawBit_byEnv.trans (State.drivePin_byEnv _ _ _)

theorem State.logCall_byEnv (s : State) (c : Call)
    (hc : ∀ tx, c = .spiTransfer tx → tx = FrameBuf.zero := by simp) : ByEnv s (s.logCall c) :=
  ⟨⟨⟨rfl, rfl, rfl, rfl, rfl, rfl, rfl, rfl⟩, rfl, .refl _, .refl _⟩, rfl, rfl, rfl,
    ⟨[c], rfl, fun tx h => hc tx (List.mem_singleton.1 h).symm⟩, le_rfl, id⟩

/-- All that a step of the environment can do. -/
theorem State.envStep_byEnv (s : State) (e : EnvEvent) : ByEnv s (s.envStep e) := by
  cases e with
  | pinFall l => simp only [State.envStep]; split; exacts [.refl s, s.drivePin_byEnv l _]
  | pinRise l => simp only [State.envStep]; split; exacts [.refl s, s.drivePin_byEnv l _]
  | otherReserve l => exact s.setReserved_byEnv l _
  | otherRelease l => simp only [State.envStep]; split; exacts [.refl s, s.setReserved_byEnv l _]

/-- The environment never releases a reservation of this block (10_state.md R32). -/
theorem State.envStep_keepsOwn (s : State) (e : EnvEvent) : KeepsOwn s (s.envStep e) := by
  intro m ho hr
  cases e with
  | pinFall l => simp only [State.envStep]; split; exacts [hr, by rw [lineEnv_drivePin_reserved, hr]]
  | pinRise l => simp only [State.envStep]; split; exacts [hr, by rw [lineEnv_drivePin_reserved, hr]]
  | otherReserve l =>
    simp only [State.envStep]
    by_cases h : m = l
    · subst h; simp
    · rw [State.lineEnv_setReserved_other s _ h, hr]
  | otherRelease l =>
    simp only [State.envStep]
    split
    · exact hr
    · rename_i hl
      have h : m ≠ l := fun e => hl (e ▸ ho)
      rw [State.lineEnv_setReserved_other s _ h, hr]

/-- A latch that is set stays set through a step of the environment. -/
theorem State.envStep_latch (s : State) (e : EnvEvent) (k : Slot) (h : (s.slot k).latch = true) :
    ((s.envStep e).slot k).latch = true := by
  cases e <;> cases k <;> simp only [State.envStep, State.slot] at * <;> (try split) <;>
    simp_all [LineSlot.onDrive_latch]

/-- No step of the environment takes a turn, makes a call or samples the clock. -/
theorem State.envStep_script (s : State) (e : EnvEvent) :
    (s.envStep e).env.script = s.env.script ∧ (s.envStep e).calls = s.calls ∧ (s.envStep e).env.clock = s.env.clock := by
  cases e <;> simp only [State.envStep] <;> (try split) <;> simp

theorem foldl_envStep_byEnv (es : List EnvEvent) (s : State) : ByEnv s (es.foldl State.envStep s) := by
  induction es generalizing s with
  | nil => exact .refl s
  | cons e es ih => exact (s.envStep_byEnv e).trans (ih _)

theorem foldl_envStep_keepsOwn (es : List EnvEvent) (s : State) : KeepsOwn s (es.foldl State.envStep s) := by
  induction es generalizing s with
  | nil => exact fun _ _ h => h
  | cons e es ih =>
    intro l ho hr
    exact ih (s.envStep e) l (((s.envStep_byEnv e).owns l).trans ho) (s.envStep_keepsOwn e l ho hr)

theorem foldl_envStep_latch (es : List EnvEvent) (s : State) (k : Slot) (h : (s.slot k).latch = true) :
    ((es.foldl State.envStep s).slot k).latch = true := by
  induction es generalizing s with
  | nil => exact h
  | cons e es ih => exact ih _ (s.envStep_latch e k h)

theorem foldl_envStep_script (es : List EnvEvent) (s : State) :
    (es.foldl State.envStep s).env.script = s.env.script ∧ (es.foldl State.envStep s).calls = s.calls ∧
      (es.foldl State.envStep s).env.clock = s.env.clock := by
  induction es generalizing s with
  | nil => exact ⟨rfl, rfl, rfl⟩
  | cons e es ih =>
    obtain ⟨h1, h2, h3⟩ := ih (s.envStep e)
    obtain ⟨g1, g2, g3⟩ := s.envStep_script e
    exact ⟨h1.trans g1, h2.trans g2, h3.trans g3⟩

/-- A whole falling edge of line `l`, wherever it stands among the environment's steps, sets the latch of a slot that
holds an open falling-edge input on `l`, if this block does not drive the line (10_state.md R31). -/
theorem foldl_envStep_falls (es es' : List EnvEvent) (s : State) (k : Slot) (l : LineId)
    (hl : (s.slot k).line = some l) (hf : (s.slot k).detectsFalling = true) (hh : (s.slot k).handle.isSome = true)
    (hd : s.drives l = false) :
    (((es ++ .pinRise l :: .pinFall l :: es').foldl State.envStep s).slot k).latch = true := by
  rw [List.foldl_append]
  have b := foldl_envStep_byEnv es s
  have hl' := (b.line k).trans hl
  have hh' : ((es.foldl State.envStep s).slot k).handle.isSome = true := by rw [b.handle k, hh]
  have hf' : ((es.foldl State.envStep s).slot k).detectsFalling = true := by
    simp only [LineSlot.detectsFalling] at *
    rw [b.dir k, b.edge k, hf]
  have hd' := (b.drives l).trans hd
  generalize es.foldl State.envStep s = t at *
  rw [List.foldl_cons, List.foldl_cons]
  apply foldl_envStep_latch
  have r := State.envStep_byEnv t (.pinRise l)
  have hd2 := (r.drives l).trans hd'
  have hp : ((t.envStep (.pinRise l)).lineEnv l).pin = true := by
    simp only [State.envStep, hd']
    simp
  have hl2 := (r.line k).trans hl'
  have hh2 : ((t.envStep (.pinRise l)).slot k).handle.isSome = true := by rw [r.handle k, hh']
  have hf2 : ((t.envStep (.pinRise l)).slot k).detectsFalling = true := by
    simp only [LineSlot.detectsFalling] at *
    rw [r.dir k, r.edge k, hf']
  generalize t.envStep (.pinRise l) = u at *
  cases k <;> simp_all [State.envStep, State.slot, LineSlot.onDrive_latch, LineSlot.watches, LineSlot.acquired]

/-! ### Turns and calls -/

/-- The next turn of a script that is not empty. -/
theorem State.nextTurn_cons {s : State} {t : Turn} {rest : List Turn} (h : s.env.script = t :: rest) :
    s.nextTurn = (t, t.events.foldl State.envStep { s with env := { s.env with script := rest } }) := by
  simp [State.nextTurn, h]

theorem State.nextTurn_byEnv (s : State) : ByEnv s s.nextTurn.2 := by
  have key : ∀ (e : EnvState) (es : List EnvEvent), e.lines = s.env.lines → e.clock = s.env.clock →
      ByEnv s (es.foldl State.envStep { s with env := e }) := by
    intro e es h1 h2
    refine ByEnv.trans (t := { s with env := e }) ?_ (foldl_envStep_byEnv _ _)
    exact ⟨⟨⟨rfl, rfl, rfl, rfl, rfl, rfl, rfl, rfl⟩, rfl, .refl _, .refl _⟩, rfl, rfl, rfl, CallsGrow.of_eq rfl, by simp [h2],
      by simp [h1]⟩
  simp only [State.nextTurn]
  split
  · exact key _ _ rfl rfl
  · exact key _ _ rfl rfl

theorem State.nextTurn_keepsOwn (s : State) : KeepsOwn s s.nextTurn.2 := by
  have key : ∀ (e : EnvState) (es : List EnvEvent), e.lines = s.env.lines →
      KeepsOwn s (es.foldl State.envStep { s with env := e }) := by
    intro e es h l ho hr
    exact foldl_envStep_keepsOwn es { s with env := e } l ho (by simpa [State.lineEnv, h] using hr)
  simp only [State.nextTurn]
  split
  · exact key _ _ rfl
  · exact key _ _ rfl

/-- A turn makes no call. -/
theorem State.nextTurn_calls (s : State) : s.nextTurn.2.calls = s.calls := by
  simp only [State.nextTurn]
  split <;> simp [(foldl_envStep_script _ _).2.1]

theorem State.nextTurn_clock (s : State) : s.nextTurn.2.env.clock = s.env.clock := by
  simp only [State.nextTurn]
  split <;> simp [(foldl_envStep_script _ _).2.2]

theorem State.nextTurn_script {s : State} {t : Turn} {rest : List Turn} (h : s.env.script = t :: rest) :
    s.nextTurn.1 = t ∧ s.nextTurn.2.env.script = rest := by
  rw [State.nextTurn_cons h]
  exact ⟨rfl, by simp [(foldl_envStep_script _ _).1]⟩

theorem State.ask_byEnv (s : State) (c : Call)
    (hc : ∀ tx, c = .spiTransfer tx → tx = FrameBuf.zero := by simp) : ByEnv s (s.ask c).2 :=
  (s.logCall_byEnv c hc).trans (State.nextTurn_byEnv _)

theorem State.ask_keepsOwn (s : State) (c : Call) : KeepsOwn s (s.ask c).2 :=
  fun l ho hr => State.nextTurn_keepsOwn (s.logCall c) l ho hr

/-- A call is recorded exactly once. -/
theorem State.ask_calls (s : State) (c : Call) : (s.ask c).2.calls = s.calls ++ [c] := by
  simp [State.ask, State.nextTurn_calls]

theorem State.ask_clock (s : State) (c : Call) : (s.ask c).2.env.clock = s.env.clock := by
  simp [State.ask, State.nextTurn_clock]

/-- A call takes exactly one turn of the script. -/
theorem State.ask_script {s : State} (c : Call) {t : Turn} {rest : List Turn} (h : s.env.script = t :: rest) :
    (s.ask c).1 = t ∧ (s.ask c).2.env.script = rest :=
  State.nextTurn_script (s := s.logCall c) h

/-- A turn without events changes nothing of the environment's lines, nor a latch. -/
theorem State.ask_quiet {s : State} (c : Call) {t : Turn} {rest : List Turn} (h : s.env.script = t :: rest)
    (q : t.events = []) :
    (s.ask c).2 = { s with env := { s.env with script := rest }, calls := s.calls ++ [c] } := by
  rw [State.ask, State.nextTurn_cons (s := s.logCall c) h, q]
  rfl

/-! ### The answers of each call -/

/-- What an `Ack` call can do. -/
theorem ackOf_ok {v : Verdict} (h : failureOf v = none) : ackOf v = .ok := by simp [ackOf, h]

theorem ackOf_fail {v : Verdict} {c : Cause} (h : failureOf v = some c) : ackOf v = .fail c := by simp [ackOf, h]

/-- `Env.reserve`: `Ok` only of a line that was free, which is then reserved; `Busy` only of a line that was not. -/
theorem envReserve_cases (s : State) (l : LineId) :
    ByEnv s (envReserve s l).2 ∧ KeepsOwn s (envReserve s l).2 ∧
    (((∃ c, (envReserve s l).1 = .fail c) ∧ (envReserve s l).2 = (s.ask (.reserve l)).2) ∨
      ((envReserve s l).1 = .busy ∧ (envReserve s l).2 = (s.ask (.reserve l)).2 ∧
        ((s.ask (.reserve l)).2.lineEnv l).reserved = true) ∨
      ((envReserve s l).1 = .ok ∧ (envReserve s l).2 = (s.ask (.reserve l)).2.setReserved l true ∧
        ((s.ask (.reserve l)).2.lineEnv l).reserved = false)) := by
  have b := s.ask_byEnv (.reserve l)
  have o := s.ask_keepsOwn (.reserve l)
  simp only [envReserve]
  split
  · exact ⟨b, o, .inl ⟨⟨_, rfl⟩, rfl⟩⟩
  · split
    · rename_i h
      exact ⟨b, o, .inr (.inl ⟨rfl, rfl, h⟩)⟩
    · rename_i h
      refine ⟨b.trans (State.setReserved_byEnv _ _ _), fun m ho hr => ?_, .inr (.inr ⟨rfl, rfl, by simpa using h⟩)⟩
      by_cases e : m = l
      · subst e; simp
      · rw [State.lineEnv_setReserved_other _ _ e]
        exact o m ho hr

theorem State.unexport_byEnv (s : State) (l : LineId) : ByEnv s (s.unexport l) :=
  ((s.setReserved_byEnv l false).trans (State.drawBit_byEnv _)).trans (State.drivePin_byEnv _ _ _)

/-- Unexporting a line releases no other. -/
theorem State.unexport_reserved_other (s : State) {l m : LineId} (h : m ≠ l) :
    ((s.unexport l).lineEnv m).reserved = (s.lineEnv m).reserved := by
  simp only [State.unexport]
  rw [State.lineEnv_drivePin_other _ _ h, State.lineEnv_drawBit, State.lineEnv_setReserved_other _ _ h]

theorem State.unexport_reserved_self (s : State) (l : LineId) : ((s.unexport l).lineEnv l).reserved = false := by
  simp [State.unexport]

/-- `Env.unreserve` touches the reservation of its own line only. -/
theorem envUnreserve_cases (s : State) (l : LineId) :
    ByEnv s (envUnreserve s l).2 ∧
    (((∃ c, (envUnreserve s l).1 = .fail c) ∧ (envUnreserve s l).2 = (s.ask (.unreserve l)).2) ∨
      ((envUnreserve s l).1 = .ok ∧ (envUnreserve s l).2 = (s.ask (.unreserve l)).2.unexport l)) := by
  have b := s.ask_byEnv (.unreserve l)
  simp only [envUnreserve]
  split
  · exact ⟨b, .inl ⟨⟨_, rfl⟩, rfl⟩⟩
  · exact ⟨b.trans (State.unexport_byEnv _ _), .inr ⟨rfl, rfl⟩⟩

/-- A change of the kept settings of a line changes no reservation. -/
theorem State.setLineEnv_keepsOwn (s : State) (l : LineId) (e : LineEnv) (h : e.reserved = (s.lineEnv l).reserved) :
    KeepsOwn s (s.setLineEnv l e) := by
  intro m _ hr
  by_cases hm : m = l
  · subst hm; rw [State.lineEnv_setLineEnv_self, h, hr]
  · rw [State.lineEnv_setLineEnv_other _ _ hm, hr]

theorem State.drivePin_keepsOwn (s : State) (l : LineId) (v : Level) : KeepsOwn s (s.drivePin l v) :=
  fun m _ hr => by rw [State.lineEnv_drivePin_reserved, hr]

theorem State.drawPin_keepsOwn (s : State) (l : LineId) : KeepsOwn s (s.drawPin l) :=
  fun m _ hr => by simp only [State.drawPin]; rw [State.lineEnv_drivePin_reserved, State.lineEnv_drawBit, hr]

theorem KeepsOwn.trans {s t u : State} (h : KeepsOwn s t) (b : ByEnv s t) (h' : KeepsOwn t u) : KeepsOwn s u :=
  fun l ho hr => h' l ((b.owns l).trans ho) (h l ho hr)

theorem envSetDirection_byEnv (s : State) (l : LineId) (d : Dir) :
    ByEnv s (envSetDirection s l d).2 ∧ KeepsOwn s (envSetDirection s l d).2 := by
  have b := s.ask_byEnv (.setDirection l d)
  have o := s.ask_keepsOwn (.setDirection l d)
  simp only [envSetDirection]
  split
  · exact ⟨b, o⟩
  · exact ⟨b.trans (State.setLineEnv_byEnv _ _ _), o.trans b (State.setLineEnv_keepsOwn _ _ _ rfl)⟩

theorem envSetEdge_byEnv (s : State) (l : LineId) (e : EdgeMode) :
    ByEnv s (envSetEdge s l e).2 ∧ KeepsOwn s (envSetEdge s l e).2 := by
  have b := s.ask_byEnv (.setEdge l e)
  have o := s.ask_keepsOwn (.setEdge l e)
  simp only [envSetEdge]
  split
  · exact ⟨b, o⟩
  · exact ⟨b.trans (State.setLineEnv_byEnv _ _ _), o.trans b (State.setLineEnv_keepsOwn _ _ _ rfl)⟩

theorem envSetInitialLevel_byEnv (s : State) (l : LineId) (v : Level) :
    ByEnv s (envSetInitialLevel s l v).2 ∧ KeepsOwn s (envSetInitialLevel s l v).2 := by
  have b := s.ask_byEnv (.setInitialLevel l v)
  have o := s.ask_keepsOwn (.setInitialLevel l v)
  simp only [envSetInitialLevel]
  split
  · exact ⟨b, o⟩
  · exact ⟨b.trans (State.drivePin_byEnv _ _ _), o.trans b (State.drivePin_keepsOwn _ _ _)⟩

theorem envOpenValue_byEnv (s : State) (l : LineId) (acc : Access) :
    ByEnv s (envOpenValue s l acc).2 ∧ KeepsOwn s (envOpenValue s l acc).2 :=
  ⟨s.ask_byEnv _, s.ask_keepsOwn _⟩

theorem envCloseValue_byEnv (s : State) (l : LineId) :
    ByEnv s (envCloseValue s l).2 ∧ KeepsOwn s (envCloseValue s l).2 := ⟨s.ask_byEnv _, s.ask_keepsOwn _⟩

/-- `Env.readValue` reads the pin and changes nothing of its own. -/
theorem envReadValue_cases (s : State) (l : LineId) :
    (envReadValue s l).2 = (s.ask (.readValue l)).2 ∧
    ((∃ c, (envReadValue s l).1 = .fail c) ∨ (envReadValue s l).1 = .ok ((envReadValue s l).2.lineEnv l).pin) := by
  simp only [envReadValue]
  split
  · exact ⟨rfl, .inl ⟨_, rfl⟩⟩
  · exact ⟨rfl, .inr rfl⟩

theorem envReadValue_byEnv (s : State) (l : LineId) :
    ByEnv s (envReadValue s l).2 ∧ KeepsOwn s (envReadValue s l).2 := by
  rw [(envReadValue_cases s l).1]
  exact ⟨s.ask_byEnv _, s.ask_keepsOwn _⟩

/-- `Env.writeValue`: after `Ok` the pin is at the level written. -/
theorem envWriteValue_cases (s : State) (l : LineId) (v : Level) :
    ((envWriteValue s l v).1 = .ok ∧ (envWriteValue s l v).2 = (s.ask (.writeValue l v)).2.drivePin l v) ∨
    ((envWriteValue s l v).1 ≠ .ok ∧ (envWriteValue s l v).2 = (s.ask (.writeValue l v)).2.drawPin l) := by
  simp only [envWriteValue]
  split <;> simp

theorem envWriteValue_byEnv (s : State) (l : LineId) (v : Level) :
    ByEnv s (envWriteValue s l v).2 ∧ KeepsOwn s (envWriteValue s l v).2 := by
  have b := s.ask_byEnv (.writeValue l v)
  have o := s.ask_keepsOwn (.writeValue l v)
  rcases envWriteValue_cases s l v with ⟨_, h⟩ | ⟨_, h⟩ <;> rw [h]
  · exact ⟨b.trans (State.drivePin_byEnv _ _ _), o.trans b (State.drivePin_keepsOwn _ _ _)⟩
  · exact ⟨b.trans (State.drawPin_byEnv _ _), o.trans b (State.drawPin_keepsOwn _ _)⟩

theorem envWaitTurn_byEnv (s : State) (k : Slot) : ByEnv s (envWaitTurn s k).2 ∧ KeepsOwn s (envWaitTurn s k).2 :=
  ⟨s.nextTurn_byEnv, s.nextTurn_keepsOwn⟩

/-- The constraints of `Env.waitEdge` (41_gpio_line.md R119): `Edge` needs the latch, `Timeout` and no answer its
absence. -/
theorem waitAnswerOf_cases (latch : Bool) (v : Verdict) :
    ((∃ c, waitAnswerOf latch v = .fail (.env c) ∧ v = .fail c)) ∨ (waitAnswerOf latch v = .edge ∧ latch = true) ∨
    (waitAnswerOf latch v = .timeout ∧ latch = false ∧ v = .timeout) ∨
    (waitAnswerOf latch v = .silent ∧ latch = false) := by
  cases v <;> cases latch <;> simp [waitAnswerOf]

theorem envSpiOpen_byEnv (s : State) (p : BusPath) : ByEnv s (envSpiOpen s p).2 ∧ KeepsOwn s (envSpiOpen s p).2 :=
  ⟨s.ask_byEnv _, s.ask_keepsOwn _⟩

theorem envSpiSetMode_state (s : State) (m : U8) (n : Bool) :
    (envSpiSetMode s m n).2 = (s.ask (.spiSetMode m n)).2 := by
  simp only [envSpiSetMode]
  split <;> rfl

theorem envSpiSetMode_byEnv (s : State) (m : U8) (n : Bool) :
    ByEnv s (envSpiSetMode s m n).2 ∧ KeepsOwn s (envSpiSetMode s m n).2 := by
  rw [envSpiSetMode_state]
  exact ⟨s.ask_byEnv _, s.ask_keepsOwn _⟩

theorem envSpiSetBits_byEnv (s : State) (b : U8) : ByEnv s (envSpiSetBits s b).2 ∧ KeepsOwn s (envSpiSetBits s b).2 :=
  ⟨s.ask_byEnv _, s.ask_keepsOwn _⟩

theorem envSpiSetSpeed_byEnv (s : State) (hz : U32) :
    ByEnv s (envSpiSetSpeed s hz).2 ∧ KeepsOwn s (envSpiSetSpeed s hz).2 := ⟨s.ask_byEnv _, s.ask_keepsOwn _⟩

theorem envSpiTransfer_state (s : State) (tx : FrameBuf) :
    (envSpiTransfer s tx).2 = (s.ask (.spiTransfer tx)).2 := by
  simp only [envSpiTransfer]
  split <;> rfl

/-- An exchange that transmits zeros, as every exchange of the block does (42_spi_master.md R148). -/
theorem envSpiTransfer_byEnv (s : State) :
    ByEnv s (envSpiTransfer s txBuffer).2 ∧ KeepsOwn s (envSpiTransfer s txBuffer).2 := by
  rw [envSpiTransfer_state]
  exact ⟨s.ask_byEnv _ (by rintro _ ⟨⟩; rfl), s.ask_keepsOwn _⟩

theorem envSpiClose_byEnv (s : State) : ByEnv s (envSpiClose s).2 ∧ KeepsOwn s (envSpiClose s).2 :=
  ⟨s.ask_byEnv _, s.ask_keepsOwn _⟩

theorem envDelay_byEnv (s : State) (us : Nat) : ByEnv s (envDelay s us) ∧ KeepsOwn s (envDelay s us) :=
  ⟨s.ask_byEnv _, s.ask_keepsOwn _⟩

/-- A clock sample is 0, or at least the bound (10_state.md R34). -/
theorem clockSample_bound (least time : U64) :
    clockSample least time = 0 ∨ least.toNat ≤ (clockSample least time).toNat := by
  simp only [clockSample]
  split
  · exact .inl rfl
  · split
    · exact .inr le_rfl
    · exact .inr (by omega)

/-- `Env.clock`: the sample is 0 or at least every nonzero earlier one, and bounds the later ones (10_state.md R34). -/
theorem envClock_cases (s : State) :
    ByEnv s (envClock s).2 ∧ KeepsOwn s (envClock s).2 ∧
    ((envClock s).1 = 0 ∨ (s.env.clock.toNat ≤ (envClock s).1.toNat ∧ (envClock s).2.env.clock = (envClock s).1)) := by
  have b := s.ask_byEnv .clock
  have o := s.ask_keepsOwn .clock
  have hc := s.ask_clock .clock
  simp only [envClock]
  generalize ha : s.ask .clock = a at *
  have hs := clockSample_bound a.2.env.clock a.1.time
  generalize clockSample a.2.env.clock a.1.time = t at *
  refine ⟨?_, fun l ho hr => o l ho hr, ?_⟩
  · have c := b.block.controller
    refine ⟨⟨⟨c.isOpen, c.started, c.cfg, c.seq, c.raw, c.diag, c.refused, c.pending⟩, b.block.spi, b.block.drdy,
      b.block.sync⟩, b.cp, b.inflight, b.out, b.calls, ?_, b.wf⟩
    rw [hc] at hs
    simp only
    split
    · exact le_of_eq (by rw [hc])
    · rcases hs with h | h
      · contradiction
      · exact h
  · rcases hs with h | h
    · exact .inl h
    · by_cases ht : t = 0
      · exact .inl ht
      · exact .inr ⟨by rw [← hc]; exact h, if_neg ht⟩

end Sys2Proof.Machine
end

