-- ==== Sys2Proof/Laws/Run.lean ====
section
/-! SUPPORT. How bodies compose and end: `Ran.Holds` says of a body what holds wherever it comes to, with one lemma for
each way to compose bodies; `History` is what every body keeps. -/

namespace Sys2Proof.Machine

/-- `P` holds where the body completes, and `Q` where it blocks. -/
def Ran.Holds (r : Ran) (P : Response → State → Prop) (Q : Inflight → State → Prop) : Prop :=
  match r with
  | .done p t => P p t
  | .refused => True
  | .blocked w t => Q w t

@[simp] theorem Ran.holds_done {p : Response} {t : State} {P : Response → State → Prop} {Q : Inflight → State → Prop} :
    (Ran.done p t).Holds P Q ↔ P p t := Iff.rfl

@[simp] theorem Ran.holds_refused {P : Response → State → Prop} {Q : Inflight → State → Prop} :
    Ran.refused.Holds P Q := trivial

@[simp] theorem Ran.holds_blocked {w : Inflight} {t : State} {P : Response → State → Prop}
    {Q : Inflight → State → Prop} : (Ran.blocked w t).Holds P Q ↔ Q w t := Iff.rfl

@[simp] theorem Ran.holds_ok {t : State} {P : Response → State → Prop} {Q : Inflight → State → Prop} :
    (Ran.ok t).Holds P Q ↔ P ⟨.ok, .nothing⟩ t := Iff.rfl

@[simp] theorem Ran.holds_okWith {o : Output} {t : State} {P : Response → State → Prop}
    {Q : Inflight → State → Prop} : (Ran.okWith o t).Holds P Q ↔ P ⟨.ok, o⟩ t := Iff.rfl

@[simp] theorem Ran.holds_error {c : ResultCode} {t : State} {P : Response → State → Prop}
    {Q : Inflight → State → Prop} : (Ran.error c t).Holds P Q ↔ P ⟨c, .nothing⟩ t := Iff.rfl

@[simp] theorem Ran.holds_ioFailure {c : Cause} {t : State} {P : Response → State → Prop}
    {Q : Inflight → State → Prop} : (Ran.ioFailure c t).Holds P Q ↔ P ⟨.ioFailure c, .nothing⟩ t := Iff.rfl

theorem Ran.Holds.mono {r : Ran} {P P' : Response → State → Prop} {Q Q' : Inflight → State → Prop} (h : r.Holds P Q)
    (hP : ∀ p t, P p t → P' p t) (hQ : ∀ w t, Q w t → Q' w t) : r.Holds P' Q' := by
  cases r with
  | done p t => exact hP _ _ h
  | refused => trivial
  | blocked w t => exact hQ _ _ h

theorem Ran.Holds.and {r : Ran} {P P' : Response → State → Prop} {Q Q' : Inflight → State → Prop} (h : r.Holds P Q)
    (h' : r.Holds P' Q') : r.Holds (fun p t => P p t ∧ P' p t) (fun w t => Q w t ∧ Q' w t) := by
  cases r with
  | done p t => exact ⟨h, h'⟩
  | refused => trivial
  | blocked w t => exact ⟨h, h'⟩

/-- A sequence: after OK the second body runs; any other result is the first's. -/
theorem Ran.Holds.andThen {r : Ran} {f : State → Ran} {P R : Response → State → Prop}
    {Q S : Inflight → State → Prop} (h : r.Holds P Q) (hok : ∀ o t, P ⟨.ok, o⟩ t → (f t).Holds R S)
    (herr : ∀ p t, p.code ≠ .ok → P p t → R p t) (hbl : ∀ w t, Q w t → S w t) : (r.andThen f).Holds R S := by
  cases r with
  | done p t =>
    obtain ⟨c, o⟩ := p
    cases c <;> first | exact hok _ _ h | exact herr _ _ (by simp) h
  | refused => trivial
  | blocked w t => exact hbl _ _ h

/-- An error's clean-up. -/
theorem Ran.Holds.onError {r : Ran} {f : State → State} {P R : Response → State → Prop}
    {Q S : Inflight → State → Prop} (h : r.Holds P Q) (hok : ∀ p t, p.code = .ok → P p t → R p t)
    (herr : ∀ p t, p.code ≠ .ok → P p t → R p (f t)) (hbl : ∀ w t, Q w t → S w t) : (r.onError f).Holds R S := by
  cases r with
  | done p t =>
    obtain ⟨c, o⟩ := p
    cases c <;> first | exact hok _ _ rfl h | exact herr _ _ (by simp) h
  | refused => trivial
  | blocked w t => exact hbl _ _ h

theorem Ran.Holds.blockedAs {r : Ran} {w : Inflight} {P : Response → State → Prop} {Q S : Inflight → State → Prop}
    (h : r.Holds P Q) (hbl : ∀ v t, Q v t → S w t) : (r.blockedAs w).Holds P S := by
  cases r with
  | done p t => exact h
  | refused => trivial
  | blocked v t => exact hbl _ _ h

theorem Ran.Holds.hostOnly {s : State} {r : Ran} {P : Response → State → Prop} {Q : Inflight → State → Prop}
    (h : s.isOpen = false → r.Holds P Q) : (hostOnly s r).Holds P Q := by
  unfold Sys2Proof.Machine.hostOnly
  split
  · trivial
  · exact h (by simpa using ‹¬ s.isOpen = true›)

/-- What a command comes to, once what its body comes to is known. -/
theorem finish_of_holds {s : State} {r : Ran} {P : Response → State → Prop} {Q : Inflight → State → Prop}
    (h : r.Holds P Q) :
    (∃ p t, finish s r = t.complete p ∧ P p t) ∨ finish s r = s.refuse ∨
      ∃ w t, finish s r = { t with inflight := some w } ∧ Q w t := by
  cases r with
  | done p t => exact .inl ⟨p, t, rfl, h⟩
  | refused => exact .inr (.inl rfl)
  | blocked w t => exact .inr (.inr ⟨w, t, rfl, h⟩)

/-! ### What every body keeps -/

/-- The host's port, the refusal mark and every history of `s` are kept or only grow in `t`. -/
structure History (s t : State) : Prop where
  cp : t.cp = s.cp
  inflight : t.inflight = s.inflight
  out : t.out = s.out
  pending : t.pending = s.pending
  refused : t.refused = s.refused
  calls : CallsGrow s t
  diag : ∃ ds, t.diag = s.diag ++ ds
  clock : s.env.clock.toNat ≤ t.env.clock.toNat
  wf : LineTable.wf s.env.lines → LineTable.wf t.env.lines

theorem History.refl (s : State) : History s s :=
  ⟨rfl, rfl, rfl, rfl, rfl, .refl s, ⟨[], by simp⟩, le_rfl, id⟩

theorem History.trans {s t u : State} (h : History s t) (h' : History t u) : History s u := by
  obtain ⟨ds, hds⟩ := h.diag
  obtain ⟨ds', hds'⟩ := h'.diag
  exact ⟨h'.cp.trans h.cp, h'.inflight.trans h.inflight, h'.out.trans h.out, h'.pending.trans h.pending,
    h'.refused.trans h.refused, h.calls.trans h'.calls,
    ⟨ds ++ ds', by rw [hds', hds, List.append_assoc]⟩, h.clock.trans h'.clock, fun w => h'.wf (h.wf w)⟩

theorem ByEnv.history {s t : State} (h : ByEnv s t) : History s t :=
  ⟨h.cp, h.inflight, h.out, h.block.controller.pending, h.block.controller.refused, h.calls,
    ⟨[], by simp [h.block.controller.diag]⟩, h.clock, h.wf⟩

/-- A change of a slot is no part of the history. -/
theorem State.setSlot_history (s : State) (k : Slot) (x : LineSlot) : History s (s.setSlot k x) :=
  ⟨by simp, by simp, by simp, by simp, by simp, .of_eq (by simp), ⟨[], by simp⟩, by simp, by simp⟩

/-- `t` comes from `s` by calls and by changes of slot `k`. -/
structure OnSlot (k : Slot) (s t : State) : Prop where
  controller : SameController s t
  spi : t.spi = s.spi
  other : SameSlot (otherSlot k) s t
  history : History s t

theorem OnSlot.refl (k : Slot) (s : State) : OnSlot k s s := ⟨.refl s, rfl, .refl _, .refl s⟩

theorem OnSlot.trans {k : Slot} {s t u : State} (h : OnSlot k s t) (h' : OnSlot k t u) : OnSlot k s u :=
  ⟨h.controller.trans h'.controller, h'.spi.trans h.spi, LineSlot.SameButLatch.trans h.other h'.other,
    h.history.trans h'.history⟩

theorem ByEnv.onSlot {s t : State} (h : ByEnv s t) (k : Slot) : OnSlot k s t :=
  ⟨h.block.controller, h.block.spi, h.block.slot _, h.history⟩

theorem State.setSlot_onSlot (s : State) (k : Slot) (x : LineSlot) : OnSlot k s (s.setSlot k x) := by
  refine ⟨?_, by simp, ?_, s.setSlot_history k x⟩
  · cases k <;> exact ⟨rfl, rfl, rfl, rfl, rfl, rfl, rfl, rfl⟩
  · cases k <;> exact .refl _

end Sys2Proof.Machine
end

