-- ==== Sys2Proof/Laws/GpioLine.lean ====
section
/-! SUPPORT. What the bodies of the GPIO line unit can do, one lemma each (41_gpio_line.md). -/

namespace Sys2Proof.Machine

/-- Reservations are consistent: what this block made is held, and no line is reserved by both slots
(10_state.md R32, R44). -/
structure State.OwnsHeld (s : State) : Prop where
  reserved : ∀ l, s.owns l = true → (s.lineEnv l).reserved = true
  once : s.drdy.exportedByUs = true → s.sync.exportedByUs = true → s.drdy.line ≠ s.sync.line

/-- Calls that release nothing keep the reservations consistent. -/
theorem State.OwnsHeld.byEnv {s t : State} (h : s.OwnsHeld) (b : ByEnv s t) (o : KeepsOwn s t) : t.OwnsHeld := by
  refine ⟨fun l hl => o l ((b.owns l).symm.trans hl) (h.reserved l ((b.owns l).symm.trans hl)), ?_⟩
  have a1 := b.line .drdy
  have a2 := b.line .sync
  have a3 := b.exportedByUs .drdy
  have a4 := b.exportedByUs .sync
  simp only [State.slot] at a1 a2 a3 a4
  rw [a1, a2, a3, a4]
  exact h.once

/-- A slot update that keeps line and reservation flag keeps the reservations consistent. -/
theorem State.OwnsHeld.setSlot {s : State} (h : s.OwnsHeld) (k : Slot) {x : LineSlot} (hl : x.line = (s.slot k).line)
    (he : x.exportedByUs = (s.slot k).exportedByUs) : (s.setSlot k x).OwnsHeld := by
  cases k <;> simp only [State.slot] at hl he <;>
    exact ⟨fun l hl' => h.reserved l (by simpa [State.owns, State.setSlot, hl, he] using hl'),
      by simpa [State.setSlot, hl, he] using h.once⟩

/-- A slot update that gives up the slot's reservation flag keeps the reservations consistent. -/
theorem State.OwnsHeld.setSlot_unowned {s : State} (h : s.OwnsHeld) (k : Slot) {x : LineSlot}
    (he : x.exportedByUs = false) : (s.setSlot k x).OwnsHeld := by
  cases k <;>
    refine ⟨fun l hl' => h.reserved l ?_, by simp [State.setSlot, he]⟩ <;>
    simp [State.owns, State.setSlot, he] at hl' ⊢ <;> simp [hl']

/-- What LINE.ACQUIRE's later steps make of slot `k`, from a state `s` in which the slot holds line `l` without a
handle: on OK the slot is acquired, on failure it keeps no handle. -/
structure AcquireResult (k : Slot) (d : Dir) (s : State) (p : Response) (t : State) : Prop where
  onSlot : OnSlot k s t
  line : (t.slot k).line = (s.slot k).line
  exported : (t.slot k).exportedByUs = (s.slot k).exportedByUs
  output : p.output = .nothing
  code : p.code = .ok ∨ ∃ c, p.code = .ioFailure c
  ok : p.code = .ok → (t.slot k).handle = some (accessOf d) ∧ (t.slot k).latch = false
  fail : p.code ≠ .ok → (t.slot k).handle = (s.slot k).handle
  owns : s.OwnsHeld → t.OwnsHeld

/-- Slot `k` after a call, field by field. -/
theorem ByEnv.slot_fields {s t : State} (h : ByEnv s t) (k : Slot) :
    (t.slot k).line = (s.slot k).line ∧ (t.slot k).exportedByUs = (s.slot k).exportedByUs ∧
      (t.slot k).handle = (s.slot k).handle ∧ (t.slot k).dir = (s.slot k).dir ∧ (t.slot k).edge = (s.slot k).edge ∧
      (t.slot k).level = (s.slot k).level :=
  ⟨h.line k, h.exportedByUs k, h.handle k, h.dir k, h.edge k, h.level k⟩

/-- Step 4 (41_gpio_line.md R116). -/
theorem acquireHandle_holds (k : Slot) (l : LineId) (d : Dir) (s : State) :
    (acquireHandle k l d s).Holds
      (fun p t => AcquireResult k d s p t ∧ (t.slot k).dir = (s.slot k).dir ∧ (t.slot k).edge = (s.slot k).edge ∧
        (t.slot k).level = (s.slot k).level) (fun _ _ => False) := by
  obtain ⟨b, o⟩ := envOpenValue_byEnv s l (accessOf d)
  have f := b.slot_fields k
  simp only [acquireHandle]
  generalize envOpenValue s l (accessOf d) = r at *
  obtain ⟨a, u⟩ := r
  cases a with
  | fail c =>
    exact ⟨⟨b.onSlot k, f.1, f.2.1, rfl, .inr ⟨c, rfl⟩, by simp, fun _ => f.2.2.1, fun h => h.byEnv b o⟩,
      f.2.2.2.1, f.2.2.2.2.1, f.2.2.2.2.2⟩
  | ok =>
    refine ⟨⟨(b.onSlot k).trans (u.setSlot_onSlot k _), ?_, ?_, rfl, .inl rfl, ?_, by simp,
      fun h => (h.byEnv b o).setSlot k rfl rfl⟩, ?_, ?_, ?_⟩ <;>
      simp [State.slot_setSlot_self, f]

/-- Steps 3 and 4 (41_gpio_line.md R114 to R116). -/
theorem acquireSetting_holds (k : Slot) (l : LineId) (d : Dir) (v : Bool) (s : State) :
    (acquireSetting k l d v s).Holds
      (fun p t => AcquireResult k d s p t ∧ (t.slot k).dir = (s.slot k).dir ∧
        (d = .input → p.code = .ok → (t.slot k).edge = some .falling) ∧
        (d = .input → (t.slot k).edge = (s.slot k).edge ∨ (t.slot k).edge = some .falling) ∧
        (d = .output → (t.slot k).edge = (s.slot k).edge) ∧
        (d = .output → p.code = .ok → (t.slot k).level = v)) (fun _ _ => False) := by
  cases d with
  | input =>
    obtain ⟨b, o⟩ := envSetEdge_byEnv s l .falling
    have f := b.slot_fields k
    simp only [acquireSetting]
    generalize envSetEdge s l .falling = r at *
    obtain ⟨a, u⟩ := r
    cases a with
    | fail c =>
      exact ⟨⟨b.onSlot k, f.1, f.2.1, rfl, .inr ⟨c, rfl⟩, by simp, fun _ => f.2.2.1, fun h => h.byEnv b o⟩,
        f.2.2.2.1, by simp, fun _ => .inl f.2.2.2.2.1, by simp, by simp⟩
    | ok =>
      refine (acquireHandle_holds k l .input (u.setSlot k { u.slot k with edge := some .falling })).mono ?_ (by simp)
      rintro p t ⟨r, hd, he, _⟩
      have q := u.setSlot_onSlot k { u.slot k with edge := some .falling }
      simp only [State.slot_setSlot_self] at hd he
      refine ⟨⟨((b.onSlot k).trans q).trans r.onSlot, ?_, ?_, r.output, r.code, r.ok, ?_, fun h =>
        r.owns ((h.byEnv b o).setSlot k rfl rfl)⟩, hd.trans f.2.2.2.1, fun _ _ => he, fun _ => .inr he, by simp, by simp⟩
      · have := r.line; simp only [State.slot_setSlot_self] at this; exact this.trans f.1
      · have := r.exported; simp only [State.slot_setSlot_self] at this; exact this.trans f.2.1
      · intro h; have := r.fail h; simp only [State.slot_setSlot_self] at this; exact this.trans f.2.2.1
  | output =>
    obtain ⟨b, o⟩ := envSetInitialLevel_byEnv s l v
    have f := b.slot_fields k
    simp only [acquireSetting]
    generalize envSetInitialLevel s l v = r at *
    obtain ⟨a, u⟩ := r
    cases a with
    | fail c =>
      exact ⟨⟨b.onSlot k, f.1, f.2.1, rfl, .inr ⟨c, rfl⟩, by simp, fun _ => f.2.2.1, fun h => h.byEnv b o⟩,
        f.2.2.2.1, by simp, by simp, fun _ => f.2.2.2.2.1, by simp⟩
    | ok =>
      refine (acquireHandle_holds k l .output (u.setSlot k { u.slot k with level := v })).mono ?_ (by simp)
      rintro p t ⟨r, hd, he, hv⟩
      have q := u.setSlot_onSlot k { u.slot k with level := v }
      simp only [State.slot_setSlot_self] at hd he hv
      refine ⟨⟨((b.onSlot k).trans q).trans r.onSlot, ?_, ?_, r.output, r.code, r.ok, ?_, fun h =>
        r.owns ((h.byEnv b o).setSlot k rfl rfl)⟩, hd.trans f.2.2.2.1, by simp, by simp, fun _ => he.trans f.2.2.2.2.1,
        fun _ _ => hv⟩
      · have := r.line; simp only [State.slot_setSlot_self] at this; exact this.trans f.1
      · have := r.exported; simp only [State.slot_setSlot_self] at this; exact this.trans f.2.1
      · intro h; have := r.fail h; simp only [State.slot_setSlot_self] at this; exact this.trans f.2.2.1

/-- Steps 2 to 4 (41_gpio_line.md R113 to R116): the slot's direction and edge mode go together. -/
theorem acquireDirection_holds (k : Slot) (l : LineId) (d : Dir) (v : Bool) (s : State) :
    (acquireDirection k l d v s).Holds
      (fun p t => AcquireResult k d s p t ∧
        ((t.slot k).dir = (s.slot k).dir ∧ (t.slot k).edge = (s.slot k).edge ∧ p.code ≠ .ok ∨
          (t.slot k).dir = some d ∧
            ((t.slot k).edge = (s.slot k).edge ∨ d = .input ∧ (t.slot k).edge = some .falling) ∧
            (p.code = .ok → (d = .input → (t.slot k).edge = some .falling) ∧ (d = .output → (t.slot k).level = v))))
      (fun _ _ => False) := by
  obtain ⟨b, o⟩ := envSetDirection_byEnv s l d
  have f := b.slot_fields k
  simp only [acquireDirection]
  generalize envSetDirection s l d = r at *
  obtain ⟨a, u⟩ := r
  cases a with
  | fail c =>
    exact ⟨⟨b.onSlot k, f.1, f.2.1, rfl, .inr ⟨c, rfl⟩, by simp, fun _ => f.2.2.1, fun h => h.byEnv b o⟩,
      .inl ⟨f.2.2.2.1, f.2.2.2.2.1, by simp⟩⟩
  | ok =>
    refine (acquireSetting_holds k l d v (u.setSlot k { u.slot k with dir := some d })).mono ?_ (by simp)
    rintro p t ⟨r, hd, h1, h2, h3, h4⟩
    have q := u.setSlot_onSlot k { u.slot k with dir := some d }
    simp only [State.slot_setSlot_self] at hd h1 h2 h3
    refine ⟨⟨((b.onSlot k).trans q).trans r.onSlot, ?_, ?_, r.output, r.code, r.ok, ?_, fun h =>
      r.owns ((h.byEnv b o).setSlot k rfl rfl)⟩, .inr ⟨hd, ?_, fun hp => ⟨fun e => h1 e hp, fun e => h4 e hp⟩⟩⟩
    · have := r.line; simp only [State.slot_setSlot_self] at this; exact this.trans f.1
    · have := r.exported; simp only [State.slot_setSlot_self] at this; exact this.trans f.2.1
    · intro h; have := r.fail h; simp only [State.slot_setSlot_self] at this; exact this.trans f.2.2.1
    · cases d with
      | input =>
        rcases h2 rfl with h | h
        · exact .inl (h.trans f.2.2.2.2.1)
        · exact .inr ⟨rfl, h⟩
      | output => exact .inl ((h3 rfl).trans f.2.2.2.2.1)

/-- Taking the reservation of a line that was free keeps the reservations consistent: the other slot cannot own it. -/
theorem State.OwnsHeld.take {w : State} (h : w.OwnsHeld) (k : Slot) {l : LineId} (hl : (w.slot k).line = some l)
    (hf : (w.lineEnv l).reserved = false) :
    ((w.setReserved l true).setSlot k { (w.setReserved l true).slot k with exportedByUs := true }).OwnsHeld := by
  have notOwned : w.owns l = false := by
    cases hh : w.owns l
    · rfl
    · rw [h.reserved l hh] at hf; cases hf
  constructor
  · intro m hm
    by_cases hml : m = l
    · subst hml; simp
    · rw [State.lineEnv_setSlot, State.lineEnv_setReserved_other _ _ hml]
      apply h.reserved m
      cases k <;> simp only [State.slot] at hl <;> simp [State.owns, State.setSlot, State.slot, hl] at hm ⊢
      · exact .inr (hm.resolve_left fun e => hml e.symm)
      · exact .inl (hm.resolve_right fun e => hml e.symm)
  · cases k <;> simp only [State.slot] at hl <;> simp [State.owns, hl] at notOwned <;>
      simp [State.setSlot, State.slot, hl] <;> intro e h2 <;> simp_all

/-- What LINE.ACQUIRE makes of a slot that held nothing (41_gpio_line.md R111, R117): nothing outside the slot changes;
OK only with the slot acquired as asked; otherwise an I/O failure with the slot partially acquired. -/
structure Acquired (k : Slot) (l : LineId) (d : Dir) (v : Bool) (s : State) (p : Response) (t : State) : Prop where
  onSlot : OnSlot k s t
  line : (t.slot k).line = some l
  output : p.output = .nothing
  code : p.code = .ok ∨ ∃ c, p.code = .ioFailure c
  ok : p.code = .ok → (t.slot k).handle = some (accessOf d) ∧ (t.slot k).latch = false ∧ (t.slot k).dir = some d
  okInput : p.code = .ok → d = .input → (t.slot k).edge = some .falling
  okOutput : p.code = .ok → d = .output → (t.slot k).edge = none ∧ (t.slot k).level = v
  fail : p.code ≠ .ok → (t.slot k).handle = none
  coherent : (t.slot k).Coherent

/-- Steps 2 to 4 from a slot that holds the line and nothing else. -/
theorem acquireDirection_acquired (k : Slot) (l : LineId) (d : Dir) (v : Bool) (s : State)
    (hl : (s.slot k).line = some l) (hh : (s.slot k).handle = none) (hd : (s.slot k).dir = none)
    (he : (s.slot k).edge = none) :
    (acquireDirection k l d v s).Holds
      (fun p t => Acquired k l d v s p t ∧ (t.slot k).exportedByUs = (s.slot k).exportedByUs ∧
        (s.OwnsHeld → t.OwnsHeld)) (fun _ _ => False) := by
  refine (acquireDirection_holds k l d v s).mono ?_ (by simp)
  rintro p t ⟨r, hr⟩
  rw [hd, he] at hr
  have hfail := r.fail
  rw [hh] at hfail
  have hline := r.line.trans hl
  refine ⟨⟨r.onSlot, hline, r.output, r.code, fun hp => ?_, fun hp hi => ?_, fun hp ho => ?_, hfail, ?_⟩, r.exported, r.owns⟩
  · rcases hr with ⟨_, _, h3⟩ | ⟨h3, _, _⟩
    · exact absurd hp h3
    · exact ⟨(r.ok hp).1, (r.ok hp).2, h3⟩
  · rcases hr with ⟨_, _, h3⟩ | ⟨_, _, h5⟩
    · exact absurd hp h3
    · exact (h5 hp).1 hi
  · rcases hr with ⟨_, _, h3⟩ | ⟨_, h4, h5⟩
    · exact absurd hp h3
    · rcases h4 with h4 | ⟨h4, _⟩
      · exact ⟨h4, (h5 hp).2 ho⟩
      · rw [ho] at h4; cases h4
  · refine ⟨fun h => ?_, fun h => ?_, fun h => ?_, fun h => ?_⟩
    · rw [hline] at h; cases h
    · by_cases hp : p.code = .ok
      · rcases hr with ⟨_, _, h3⟩ | ⟨h3, _, h5⟩
        · exact absurd hp h3
        · have := (r.ok hp).1
          rw [h] at this
          cases d with
          | input => exact ⟨h3, (h5 hp).1 rfl⟩
          | output => simp [accessOf] at this
      · rw [hfail hp] at h; cases h
    · by_cases hp : p.code = .ok
      · rcases hr with ⟨_, _, h3⟩ | ⟨h3, _, _⟩
        · exact absurd hp h3
        · have := (r.ok hp).1
          rw [h] at this
          cases d with
          | input => simp [accessOf] at this
          | output => exact h3
      · rw [hfail hp] at h; cases h
    · rcases hr with ⟨_, h2, _⟩ | ⟨h3, h4, _⟩
      · rw [h] at h2; cases h2
      · rcases h4 with h4 | ⟨h4, _⟩
        · rw [h] at h4; cases h4
        · rw [h3, h4]

theorem Acquired.of_onSlot {k : Slot} {l : LineId} {d : Dir} {v : Bool} {s s' t : State} {p : Response}
    (q : OnSlot k s s') (h : Acquired k l d v s' p t) : Acquired k l d v s p t :=
  ⟨q.trans h.onSlot, h.line, h.output, h.code, h.ok, h.okInput, h.okOutput, h.fail, h.coherent⟩

/-- All steps, from a slot that holds the line and nothing else. The slot's reservation flag tells whether the line was
free (41_gpio_line.md R112). -/
theorem acquireReserve_holds (k : Slot) (l : LineId) (d : Dir) (v : Bool) (s : State)
    (hl : (s.slot k).line = some l) (hx : (s.slot k).exportedByUs = false) (hh : (s.slot k).handle = none)
    (hd : (s.slot k).dir = none) (he : (s.slot k).edge = none) :
    (acquireReserve k l d v s).Holds
      (fun p t => Acquired k l d v s p t ∧ (s.OwnsHeld → t.OwnsHeld) ∧
        ((t.slot k).exportedByUs = true → ((s.ask (.reserve l)).2.lineEnv l).reserved = false) ∧
        (p.code = .ok → (t.slot k).exportedByUs = !((s.ask (.reserve l)).2.lineEnv l).reserved))
      (fun _ _ => False) := by
  obtain ⟨b, o, hc⟩ := envReserve_cases s l
  have f := b.slot_fields k
  have later : ∀ (x : Bool), (s.OwnsHeld → ((envReserve s l).2.setSlot k { (envReserve s l).2.slot k with exportedByUs := x }).OwnsHeld) →
      (x = !((s.ask (.reserve l)).2.lineEnv l).reserved) →
      (acquireDirection k l d v ((envReserve s l).2.setSlot k { (envReserve s l).2.slot k with exportedByUs := x })).Holds
        (fun p t => Acquired k l d v s p t ∧ (s.OwnsHeld → t.OwnsHeld) ∧
          ((t.slot k).exportedByUs = true → ((s.ask (.reserve l)).2.lineEnv l).reserved = false) ∧
          (p.code = .ok → (t.slot k).exportedByUs = !((s.ask (.reserve l)).2.lineEnv l).reserved))
        (fun _ _ => False) := by
    intro x hown hx
    refine (acquireDirection_acquired k l d v _ (by rw [State.slot_setSlot_self]; exact f.1.trans hl)
      (by rw [State.slot_setSlot_self]; exact f.2.2.1.trans hh)
      (by rw [State.slot_setSlot_self]; exact f.2.2.2.1.trans hd)
      (by rw [State.slot_setSlot_self]; exact f.2.2.2.2.1.trans he)).mono ?_ (by simp)
    rintro p t ⟨r, hex, hown'⟩
    rw [State.slot_setSlot_self] at hex
    simp only at hex
    exact ⟨r.of_onSlot ((b.onSlot k).trans (State.setSlot_onSlot _ k _)), fun h => hown' (hown h),
      fun h => by rw [hex, hx] at h; simpa using h, fun _ => hex.trans hx⟩
  rcases hc with ⟨⟨c, h1⟩, h2⟩ | ⟨h1, h2, h3⟩ | ⟨h1, h2, h3⟩
  · have e : envReserve s l = (.fail c, (envReserve s l).2) := by rw [← h1]
    unfold acquireReserve
    rw [e]
    refine ⟨⟨b.onSlot k, f.1.trans hl, rfl, .inr ⟨c, rfl⟩, by simp, by simp, by simp, fun _ => f.2.2.1.trans hh,
      ⟨fun h => ?_, fun h => ?_, fun h => ?_, fun h => ?_⟩⟩, fun h => h.byEnv b o, fun h => ?_, by simp⟩
    · rw [f.1, hl] at h; cases h
    · rw [f.2.2.1, hh] at h; cases h
    · rw [f.2.2.1, hh] at h; cases h
    · rw [f.2.2.2.2.1, he] at h; cases h
    · rw [f.2.1, hx] at h; cases h
  · have e : envReserve s l = (.busy, (envReserve s l).2) := by rw [← h1]
    unfold acquireReserve
    rw [e]
    exact later false (fun h => (h.byEnv b o).setSlot_unowned k rfl) (by simp [h3])
  · have e : envReserve s l = (.ok, (envReserve s l).2) := by rw [← h1]
    unfold acquireReserve
    rw [e]
    refine later true (fun h => ?_) (by simp [h3])
    have ha := h.byEnv (s.ask_byEnv (.reserve l)) (s.ask_keepsOwn (.reserve l))
    rw [h2]
    exact ha.take k ((s.ask_byEnv (.reserve l)).line k |>.trans hl) h3

/-- All that `LINE_ACQUIRE_BODY` can do to an empty slot (41_gpio_line.md R111, R117). -/
theorem lineAcquireBody_holds (k : Slot) (l : LineId) (d : Dir) (v : Bool) (s : State) (he : (s.slot k).Empty) :
    (lineAcquireBody k l d v s).Holds
      (fun p t => Acquired k l d v s p t ∧ (s.OwnsHeld → t.OwnsHeld)) (fun _ _ => False) := by
  unfold lineAcquireBody
  split
  · trivial
  split
  · trivial
  · refine (acquireReserve_holds k l d v (s.setSlot k { s.slot k with line := some l })
      (by rw [State.slot_setSlot_self]) (by rw [State.slot_setSlot_self]; exact he.exportedByUs)
      (by rw [State.slot_setSlot_self]; exact he.handle) (by rw [State.slot_setSlot_self]; exact he.dir)
      (by rw [State.slot_setSlot_self]; exact he.edge)).mono ?_ (by simp)
    rintro p t ⟨r, ho, _⟩
    exact ⟨r.of_onSlot (s.setSlot_onSlot k _), fun h => ho (h.setSlot_unowned k he.exportedByUs)⟩

/-! ### Wait, get and set -/

/-- A latch cleared or kept is within what the environment may do to the block. -/
theorem State.setLatch_byEnv (s : State) (k : Slot) (b : Bool) :
    ByEnv s (s.setSlot k { s.slot k with latch := (s.slot k).latch && b }) := by
  cases k
  · exact ⟨⟨⟨rfl, rfl, rfl, rfl, rfl, rfl, rfl, rfl⟩, rfl, s.drdy.setLatch_sameButLatch b, .refl _⟩, rfl, rfl, rfl,
      CallsGrow.of_eq rfl, le_rfl, id⟩
  · exact ⟨⟨⟨rfl, rfl, rfl, rfl, rfl, rfl, rfl, rfl⟩, rfl, .refl _, s.sync.setLatch_sameButLatch b⟩, rfl, rfl, rfl,
      CallsGrow.of_eq rfl, le_rfl, id⟩

theorem State.clearLatch_byEnv (s : State) (k : Slot) : ByEnv s (s.setSlot k { s.slot k with latch := false }) := by
  simpa using s.setLatch_byEnv k false

theorem State.setSlot_keepsOwn (s : State) (k : Slot) (x : LineSlot) : KeepsOwn s (s.setSlot k x) :=
  fun _ _ h => by rw [State.lineEnv_setSlot, h]

/-- The clear: a read and, unless it fails, the latch cleared (41_gpio_line.md R118). -/
theorem clearLatch_cases (k : Slot) (l : LineId) (s : State) :
    ByEnv s (clearLatch k l s).2 ∧ KeepsOwn s (clearLatch k l s).2 ∧
    (((∃ c, (clearLatch k l s).1 = .fail c) ∧ (clearLatch k l s).2 = (s.ask (.readValue l)).2) ∨
      ((clearLatch k l s).1 = .ok ∧
        (clearLatch k l s).2 = (s.ask (.readValue l)).2.setSlot k { (s.ask (.readValue l)).2.slot k with latch := false })) := by
  have b := s.ask_byEnv (.readValue l)
  have o := s.ask_keepsOwn (.readValue l)
  obtain ⟨h2, h1⟩ := envReadValue_cases s l
  unfold clearLatch
  generalize envReadValue s l = r at *
  obtain ⟨a, u⟩ := r
  simp only at h2
  subst h2
  rcases h1 with ⟨c, h1⟩ | h1 <;> simp only at h1 <;> subst h1
  · exact ⟨b, o, .inl ⟨⟨c, rfl⟩, rfl⟩⟩
  · exact ⟨b.trans (State.clearLatch_byEnv _ k), o.trans b (State.setSlot_keepsOwn _ k _), .inr ⟨rfl, rfl⟩⟩

/-- The codes of a wait (60_exceptions.md R201). -/
def ResultCode.ofWait (c : ResultCode) : Prop := c = .ok ∨ c = .timedOut ∨ ∃ e, c = .ioFailure e

/-- All that one turn of a wait can do (41_gpio_line.md R118 to R120): the block changes in nothing but latches; after
OK the slot's latch is clear; the wait blocks only with the latch clear. -/
theorem waitPoll_holds (k : Slot) (l : LineId) (s : State) :
    (waitPoll k l s).Holds
      (fun p t => ByEnv s t ∧ KeepsOwn s t ∧ p.output = .nothing ∧ p.code.ofWait ∧
        (p.code = .ok → (t.slot k).latch = false))
      (fun w t => ByEnv s t ∧ KeepsOwn s t ∧ w = .lineWait k ∧ (t.slot k).latch = false) := by
  obtain ⟨b, o⟩ := envWaitTurn_byEnv s k
  have ha := waitAnswerOf_cases (s.nextTurn.2.slot k).latch s.nextTurn.1.verdict
  have e : envWaitTurn s k = (waitAnswerOf (s.nextTurn.2.slot k).latch s.nextTurn.1.verdict, s.nextTurn.2) := rfl
  unfold waitPoll
  rw [e] at b o ⊢
  generalize s.nextTurn.2 = u at *
  rcases ha with ⟨c, h, _⟩ | ⟨h, _⟩ | ⟨h, _, _⟩ | ⟨h, hl⟩ <;> rw [h]
  · exact ⟨b, o, rfl, .inr (.inr ⟨_, rfl⟩), by simp⟩
  · obtain ⟨b', o', hc⟩ := clearLatch_cases k l u
    simp only
    generalize clearLatch k l u = r at *
    obtain ⟨a, w⟩ := r
    rcases hc with ⟨⟨c, h1⟩, _⟩ | ⟨h1, h2⟩ <;> simp only at h1 <;> subst h1
    · exact ⟨b.trans b', o.trans b o', rfl, .inr (.inr ⟨_, rfl⟩), by simp⟩
    · simp only at h2
      refine ⟨b.trans b', o.trans b o', rfl, .inl rfl, fun _ => ?_⟩
      rw [h2, State.slot_setSlot_self]
  · exact ⟨b, o, rfl, .inr (.inl rfl), by simp⟩
  · exact ⟨b, o, rfl, hl⟩

/-- All that `LINE_WAIT_BODY` can do (41_gpio_line.md R118 to R120). -/
theorem lineWaitBody_holds (k : Slot) (ms : U32) (s : State) :
    (lineWaitBody k ms s).Holds
      (fun p t => ByEnv s t ∧ KeepsOwn s t ∧ p.output = .nothing ∧
        (p.code.ofWait ∨ p.code = .notPermitted ∧ (s.slot k).handle = none) ∧
        (p.code = .ok → (t.slot k).latch = false))
      (fun w t => ByEnv s t ∧ KeepsOwn s t ∧ w = .lineWait k ∧ (t.slot k).latch = false ∧
        (s.slot k).handle ≠ none ∧ (s.slot k).detectsFalling = true) := by
  unfold lineWaitBody
  split
  · rename_i h
    exact ⟨.refl s, fun _ _ h => h, rfl, .inr ⟨rfl, h⟩, by simp⟩
  · rename_i hh
    split
    · rename_i hf
      split
      · trivial
      · rename_i l _
        obtain ⟨b, o, hc⟩ := clearLatch_cases k l s
        generalize clearLatch k l s = r at *
        obtain ⟨a, u⟩ := r
        rcases hc with ⟨⟨c, h1⟩, _⟩ | ⟨h1, _⟩ <;> simp only at h1 <;> subst h1
        · exact ⟨b, o, rfl, .inl (.inr (.inr ⟨_, rfl⟩)), by simp⟩
        · have b2 := b.trans (u.logCall_byEnv (.waitEdge k ms))
          have o2 : KeepsOwn s (u.logCall (.waitEdge k ms)) := fun m h1 h2 => o m h1 h2
          refine (waitPoll_holds k l (u.logCall (.waitEdge k ms))).mono ?_ ?_
          · rintro p t ⟨b', o', h1, h2, h3⟩
            exact ⟨b2.trans b', o2.trans b2 o', h1, .inl h2, h3⟩
          · rintro w t ⟨b', o', h1, h2⟩
            exact ⟨b2.trans b', o2.trans b2 o', h1, h2, hh, hf⟩
    · trivial

/-- All that a further turn of a blocked wait can do. -/
theorem lineWaitResume_holds (k : Slot) (s : State) :
    (lineWaitResume k s).Holds
      (fun p t => ByEnv s t ∧ KeepsOwn s t ∧ p.output = .nothing ∧ p.code.ofWait ∧
        (p.code = .ok → (t.slot k).latch = false))
      (fun w t => ByEnv s t ∧ KeepsOwn s t ∧ w = .lineWait k ∧ (t.slot k).latch = false) := by
  unfold lineWaitResume
  split
  · trivial
  · exact waitPoll_holds k _ s

/-- All that `LINE_GET_BODY` can do (41_gpio_line.md R122, R123): it reads the pin, and the block changes in nothing but
latches. -/
theorem lineGetBody_holds (k : Slot) (s : State) :
    (lineGetBody k s).Holds
      (fun p t => ByEnv s t ∧ KeepsOwn s t ∧
        ((∃ l, (s.slot k).line = some l ∧ p = ⟨.ok, .level (t.lineEnv l).pin⟩) ∨
          (∃ c, p = ⟨.ioFailure c, .nothing⟩) ∨ p = ⟨.notPermitted, .nothing⟩ ∧ (s.slot k).handle = none))
      (fun _ _ => False) := by
  unfold lineGetBody
  split
  · rename_i h
    exact ⟨.refl s, fun _ _ h => h, .inr (.inr ⟨rfl, h⟩)⟩
  · split
    · trivial
    · rename_i l hl
      obtain ⟨b, o⟩ := envReadValue_byEnv s l
      obtain ⟨_, h1⟩ := envReadValue_cases s l
      generalize envReadValue s l = r at *
      obtain ⟨a, u⟩ := r
      rcases h1 with ⟨c, h1⟩ | h1 <;> simp only at h1 <;> subst h1
      · exact ⟨b, o, .inr (.inl ⟨_, rfl⟩)⟩
      · simp only
        refine ⟨(b.trans u.drawBit_byEnv).trans (State.setLatch_byEnv _ k _), fun m h1 h2 => ?_,
          .inl ⟨l, hl, by simp⟩⟩
        rw [State.lineEnv_setSlot]
        exact o m h1 h2

/-- All that `LINE_SET_BODY` can do (41_gpio_line.md R124, R125): slot `k` changes in nothing but latch and level; after
OK the level and the pin are at the value driven. -/
theorem lineSetBody_holds (k : Slot) (v : Level) (s : State) :
    (lineSetBody k v s).Holds
      (fun p t => OnSlot k s t ∧ KeepsOwn s t ∧
        (s.slot k).SameButLatch { t.slot k with level := (s.slot k).level } ∧ p.output = .nothing ∧
        ((∃ l, (s.slot k).line = some l ∧ p.code = .ok ∧ (t.lineEnv l).pin = v ∧ (t.slot k).level = v) ∨
          (∃ c, p.code = .ioFailure c) ∨ p.code = .notPermitted ∧ (s.slot k).handle = none))
      (fun _ _ => False) := by
  unfold lineSetBody
  split
  · rename_i h
    exact ⟨.refl k s, fun _ _ h => h, .refl _, rfl, .inr (.inr ⟨rfl, h⟩)⟩
  · split
    · exact ⟨.refl k s, fun _ _ h => h, .refl _, rfl, .inr (.inl ⟨_, rfl⟩)⟩
    · split
      · trivial
      · rename_i l hl
        obtain ⟨b, o⟩ := envWriteValue_byEnv s l v
        have hc := envWriteValue_cases s l v
        generalize envWriteValue s l v = r at *
        obtain ⟨a, u⟩ := r
        have f := b.block.slot k
        have same : ∀ x : LineSlot, x = { u.slot k with level := x.level } →
            (s.slot k).SameButLatch { x with level := (s.slot k).level } := by
          intro x hx
          rw [hx]
          exact ⟨f.line, f.exportedByUs, f.handle, f.dir, f.edge, rfl, f.latch⟩
        have draw : OnSlot k s (drawLevel k u) ∧ KeepsOwn s (drawLevel k u) ∧
            (s.slot k).SameButLatch { (drawLevel k u).slot k with level := (s.slot k).level } := by
          refine ⟨((b.trans u.drawBit_byEnv).onSlot k).trans (State.setSlot_onSlot _ k _), fun m h1 h2 => ?_, same _ ?_⟩
          · simp only [drawLevel]
            rw [State.lineEnv_setSlot]
            exact o m h1 h2
          · simp only [drawLevel, State.slot_setSlot_self]
            cases k <;> rfl
        cases a with
        | ok =>
          simp only
          refine ⟨(b.onSlot k).trans (State.setSlot_onSlot _ k _), o.trans b (State.setSlot_keepsOwn _ k _), same _ ?_,
            rfl, .inl ⟨l, hl, rfl, ?_, ?_⟩⟩
          · rw [State.slot_setSlot_self]
          · rcases hc with ⟨_, hc⟩ | ⟨hc, _⟩
            · simp only at hc
              rw [State.lineEnv_setSlot, hc]
              simp
            · exact absurd rfl hc
          · rw [State.slot_setSlot_self]
        | short => exact ⟨draw.1, draw.2.1, draw.2.2, rfl, .inr (.inl ⟨_, rfl⟩)⟩
        | fail c => exact ⟨draw.1, draw.2.1, draw.2.2, rfl, .inr (.inl ⟨_, rfl⟩)⟩

/-! ### Release -/

/-- The calls of LINE.RELEASE change the block in nothing but latches. -/
theorem releaseCalls_byEnv (x : LineSlot) (s : State) : ByEnv s (releaseCalls x s) := by
  unfold releaseCalls
  split
  · exact .refl s
  · rename_i l _
    have hc : ByEnv s (if x.handle.isSome then (envCloseValue s l).2 else s) := by
      split
      · exact (envCloseValue_byEnv s l).1
      · exact .refl s
    simp only
    split
    · exact hc.trans (envUnreserve_cases _ l).1
    · exact hc

/-- They release nothing but the line of the slot, and that only if this block reserved it. -/
theorem releaseCalls_reserved (x : LineSlot) (s : State) (m : LineId) (hm : s.owns m = true)
    (h : x.line = some m → x.exportedByUs = false) (hr : (s.lineEnv m).reserved = true) :
    ((releaseCalls x s).lineEnv m).reserved = true := by
  unfold releaseCalls
  split
  · exact hr
  · rename_i l hl
    have hc : ByEnv s (if x.handle.isSome then (envCloseValue s l).2 else s) ∧
        KeepsOwn s (if x.handle.isSome then (envCloseValue s l).2 else s) := by
      split
      · exact envCloseValue_byEnv s l
      · exact ⟨.refl s, fun _ _ h => h⟩
    simp only
    generalize (if x.handle.isSome then (envCloseValue s l).2 else s) = u at *
    have hu := hc.2 m hm hr
    split
    · rename_i hx
      have hml : m ≠ l := fun e => by rw [h (e ▸ hl)] at hx; cases hx
      rcases (envUnreserve_cases u l).2 with ⟨_, e⟩ | ⟨_, e⟩ <;> rw [e]
      · exact u.ask_keepsOwn _ m ((hc.1.owns m).trans hm) hu
      · rw [State.unexport_reserved_other _ hml]
        exact u.ask_keepsOwn _ m ((hc.1.owns m).trans hm) hu
    · exact hu

/-- All that `LINE_RELEASE_BODY` does to the block (41_gpio_line.md R126): slot `k` is emptied, its level kept. -/
theorem lineReleaseBody_onSlot (k : Slot) (s : State) :
    OnSlot k s (lineReleaseBody k s) ∧ ((lineReleaseBody k s).slot k).Empty ∧
      ((lineReleaseBody k s).slot k).level = (s.slot k).level := by
  have b := releaseCalls_byEnv (s.slot k) s
  refine ⟨(b.onSlot k).trans (State.setSlot_onSlot _ k _), ?_, ?_⟩
  · simp only [lineReleaseBody, State.slot_setSlot_self]
    exact LineSlot.emptied_empty _
  · simp only [lineReleaseBody, State.slot_setSlot_self, LineSlot.emptied_level]
    exact b.level k

/-- LINE.RELEASE keeps the reservations consistent. -/
theorem lineReleaseBody_ownsHeld (k : Slot) (s : State) (h : s.OwnsHeld) : (lineReleaseBody k s).OwnsHeld := by
  have b := releaseCalls_byEnv (s.slot k) s
  have line := b.line (otherSlot k)
  have exp := b.exportedByUs (otherSlot k)
  constructor
  · intro m hm
    simp only [lineReleaseBody] at hm ⊢
    rw [State.lineEnv_setSlot]
    -- the other slot owns the line
    have ho : (s.slot (otherSlot k)).line = some m ∧ (s.slot (otherSlot k)).exportedByUs = true := by
      rw [← line, ← exp]
      cases k <;> simpa [State.owns, State.setSlot, State.slot, otherSlot] using hm
    have how : s.owns m = true := by
      cases k <;> simp_all [State.owns, State.slot, otherSlot]
    refine releaseCalls_reserved _ _ m how (fun hl => ?_) (h.reserved m how)
    cases hx : (s.slot k).exportedByUs
    · rfl
    · exfalso
      cases k <;> simp only [State.slot, otherSlot] at ho hl hx
      · exact h.once hx ho.2 (hl.trans ho.1.symm)
      · exact h.once ho.2 hx (ho.1.trans hl.symm)
  · cases k <;> simp [lineReleaseBody]

/-- A release of an empty slot makes no call and changes nothing (41_gpio_line.md R126, R127). -/
theorem lineReleaseBody_of_empty (k : Slot) (s : State) (h : (s.slot k).Empty) : lineReleaseBody k s = s := by
  simp only [lineReleaseBody, releaseCalls, h.line]
  rw [LineSlot.emptied_of_empty h]
  cases k <;> rfl

end Sys2Proof.Machine
end

