-- ==== Sys2Proof/Laws/SpiMaster.lean ====
section
/-! SUPPORT. What the bodies of the SPI master can do, one lemma each (42_spi_master.md). -/

namespace Sys2Proof.Machine

/-- `t` comes from `s` by calls and by changes of the SPI master. -/
structure OnSpi (s t : State) : Prop where
  controller : SameController s t
  drdy : SameSlot .drdy s t
  sync : SameSlot .sync s t
  history : History s t
  keepsOwn : KeepsOwn s t

theorem OnSpi.refl (s : State) : OnSpi s s := ⟨.refl s, .refl _, .refl _, .refl s, fun _ _ h => h⟩

theorem OnSpi.owns {s t : State} (h : OnSpi s t) (l : LineId) : t.owns l = s.owns l := by
  have a := h.drdy
  have b := h.sync
  simp only [SameSlot, State.slot] at a b
  simp [State.owns, a.line, a.exportedByUs, b.line, b.exportedByUs]

theorem OnSpi.trans {s t u : State} (h : OnSpi s t) (h' : OnSpi t u) : OnSpi s u :=
  ⟨h.controller.trans h'.controller, LineSlot.SameButLatch.trans h.drdy h'.drdy,
    LineSlot.SameButLatch.trans h.sync h'.sync, h.history.trans h'.history,
    fun l h1 h2 => h'.keepsOwn l ((h.owns l).trans h1) (h.keepsOwn l h1 h2)⟩

theorem ByEnv.onSpi {s t : State} (h : ByEnv s t) (o : KeepsOwn s t) : OnSpi s t :=
  ⟨h.block.controller, h.block.drdy, h.block.sync, h.history, o⟩

theorem State.setSpi_onSpi (s : State) (x : SpiState) : OnSpi s { s with spi := x } :=
  ⟨⟨rfl, rfl, rfl, rfl, rfl, rfl, rfl, rfl⟩, .refl _, .refl _, ⟨rfl, rfl, rfl, rfl, rfl, CallsGrow.of_eq rfl, ⟨[], by simp⟩, le_rfl, id⟩,
    fun _ _ h => h⟩

/-- All that the mode step can do (42_spi_master.md R142): the variant in force is the one requested, or none after a
rejected request; nothing of the block changes but latches. -/
theorem spiModeStep_cases (mode : U8) (noCs : Bool) (s : State) :
    ByEnv s (spiModeStep mode noCs s).2.2 ∧ KeepsOwn s (spiModeStep mode noCs s).2.2 ∧
      ((spiModeStep mode noCs s).2.1 = noCs ∨ (spiModeStep mode noCs s).2.1 = false) := by
  obtain ⟨b, o⟩ := envSpiSetMode_byEnv s mode noCs
  unfold spiModeStep
  generalize envSpiSetMode s mode noCs = r at *
  obtain ⟨a, u⟩ := r
  cases a with
  | ok => exact ⟨b, o, .inl rfl⟩
  | fail c => exact ⟨b, o, .inl rfl⟩
  | rejected =>
    simp only
    split
    · obtain ⟨b', o'⟩ := envSpiSetMode_byEnv u mode false
      exact ⟨b.trans b', o.trans b o', .inr rfl⟩
    · exact ⟨b, o, .inl rfl⟩

/-- What SPI.OPEN comes to (42_spi_master.md R141, R145): OK with the endpoint open and configured as asked, or an I/O
failure with the SPI master as it was. -/
structure SpiOpened (path : BusPath) (hz : U32) (mode : U8) (noCs : Bool) (s : State) (p : Response) (t : State) : Prop where
  onSpi : OnSpi s t
  output : p.output = .nothing
  code : p.code = .ok ∨ ∃ c, p.code = .ioFailure c
  ok : p.code = .ok → ∃ eff, (eff = noCs ∨ eff = false) ∧
    t.spi = { isOpen := true, path := path, mode := mode, noCs := eff, bitsPerWord := params.bitsPerWord, maxHz := hz }
  fail : p.code ≠ .ok → t.spi = s.spi

theorem SpiOpened.of_abandon (path : BusPath) (hz : U32) (mode : U8) (noCs : Bool) (s u : State) (c : Cause)
    (b : ByEnv s u) (o : KeepsOwn s u) :
    (spiAbandon c u).Holds (SpiOpened path hz mode noCs s) (fun _ _ => False) := by
  obtain ⟨b', o'⟩ := envSpiClose_byEnv u
  exact ⟨(b.trans b').onSpi (o.trans b o'), rfl, .inr ⟨c, rfl⟩, by simp, fun _ => (b.trans b').block.spi⟩

theorem spiConfigure_holds (path : BusPath) (hz : U32) (mode : U8) (noCs eff : Bool) (s u : State)
    (b : ByEnv s u) (o : KeepsOwn s u) (he : eff = noCs ∨ eff = false) :
    (spiConfigure path hz mode eff u).Holds (SpiOpened path hz mode noCs s) (fun _ _ => False) := by
  obtain ⟨b1, o1⟩ := envSpiSetBits_byEnv u params.bitsPerWord
  unfold spiConfigure
  generalize envSpiSetBits u params.bitsPerWord = r at *
  obtain ⟨a, v⟩ := r
  cases a with
  | fail c => exact .of_abandon path hz mode noCs s v c (b.trans b1) (o.trans b o1)
  | ok =>
    obtain ⟨b2, o2⟩ := envSpiSetSpeed_byEnv v hz
    simp only
    generalize envSpiSetSpeed v hz = r at *
    obtain ⟨a, w⟩ := r
    have bb := (b.trans b1).trans b2
    have oo := (o.trans b o1).trans (b.trans b1) o2
    cases a with
    | fail c => exact .of_abandon path hz mode noCs s w c bb oo
    | ok => exact ⟨(bb.onSpi oo).trans (State.setSpi_onSpi _ _), rfl, .inl rfl, fun _ => ⟨eff, he, rfl⟩, by simp⟩

/-- All that `SPI_OPEN_BODY` can do (42_spi_master.md R141, R145). -/
theorem spiOpenBody_holds (path : BusPath) (hz : U32) (mode : U8) (noCs : Bool) (s : State) :
    (spiOpenBody path hz mode noCs s).Holds (SpiOpened path hz mode noCs s) (fun _ _ => False) := by
  unfold spiOpenBody
  split
  · trivial
  · obtain ⟨b, o⟩ := envSpiOpen_byEnv s path
    generalize envSpiOpen s path = r at *
    obtain ⟨a, u⟩ := r
    cases a with
    | fail c => exact ⟨b.onSpi o, rfl, .inr ⟨c, rfl⟩, by simp, fun _ => b.block.spi⟩
    | ok =>
      obtain ⟨b1, o1, he⟩ := spiModeStep_cases mode noCs u
      simp only
      generalize spiModeStep mode noCs u = r at *
      obtain ⟨a, eff, v⟩ := r
      cases a with
      | rejected => exact .of_abandon path hz mode noCs s v .rejected (b.trans b1) (o.trans b o1)
      | fail c => exact .of_abandon path hz mode noCs s v c (b.trans b1) (o.trans b o1)
      | ok => exact spiConfigure_holds path hz mode noCs eff s v (b.trans b1) (o.trans b o1) he

/-- All that one exchange can do (42_spi_master.md R147, R148). -/
theorem spiExchange_cases (s : State) :
    ByEnv s (spiExchange s).2 ∧ KeepsOwn s (spiExchange s).2 ∧
    ((∃ rx, (spiExchange s).1 = .received rx) ∨ (∃ c, (spiExchange s).1 = .failed (.ioFailure c)) ∨
      (spiExchange s).1 = .failed .notPermitted ∧ s.spi.isOpen = false) := by
  unfold spiExchange
  split
  · rename_i h
    exact ⟨.refl s, fun _ _ h => h, .inr (.inr ⟨rfl, h⟩)⟩
  · obtain ⟨b, o⟩ := envSpiTransfer_byEnv s
    generalize envSpiTransfer s txBuffer = r at *
    obtain ⟨a, u⟩ := r
    cases a with
    | fail c => exact ⟨b, o, .inr (.inl ⟨c, rfl⟩)⟩
    | ok rx => exact ⟨b, o, .inl ⟨rx, rfl⟩⟩

/-- All that `SPI_XFER_BODY` can do (42_spi_master.md R147). -/
theorem spiXferBody_holds (len : U32) (s : State) :
    (spiXferBody len s).Holds
      (fun p t => ByEnv s t ∧ KeepsOwn s t ∧
        ((∃ rx, p = ⟨.ok, .bytes rx⟩) ∨ (∃ c, p = ⟨.ioFailure c, .nothing⟩) ∨ p = ⟨.notPermitted, .nothing⟩ ∧ s.spi.isOpen = false))
      (fun _ _ => False) := by
  unfold spiXferBody
  split
  · trivial
  · obtain ⟨b, o, h⟩ := spiExchange_cases s
    generalize spiExchange s = r at *
    obtain ⟨a, u⟩ := r
    rcases h with ⟨rx, h⟩ | ⟨c, h⟩ | ⟨h, hs⟩ <;> simp only at h <;> subst h
    · exact ⟨b, o, .inl ⟨rx, rfl⟩⟩
    · exact ⟨b, o, .inr (.inl ⟨c, rfl⟩)⟩
    · exact ⟨b, o, .inr (.inr ⟨rfl, hs⟩)⟩

/-- All that `SPI_CLOSE_BODY` does (42_spi_master.md R150): the handle closed, the configuration fields kept. -/
theorem spiCloseBody_onSpi (s : State) :
    OnSpi s (spiCloseBody s) ∧ (spiCloseBody s).spi = { s.spi with isOpen := false } := by
  unfold spiCloseBody
  split
  · obtain ⟨b, o⟩ := envSpiClose_byEnv s
    simp only
    refine ⟨(b.onSpi o).trans (State.setSpi_onSpi _ _), ?_⟩
    rw [b.block.spi]
  · rename_i h
    refine ⟨.refl s, ?_⟩
    have h' : s.spi.isOpen = false := by simpa using h
    rw [← h']

/-- With no handle open it makes no call and changes nothing (42_spi_master.md R150). -/
theorem spiCloseBody_of_closed (s : State) (h : s.spi.isOpen = false) : spiCloseBody s = s := by
  simp [spiCloseBody, h]

end Sys2Proof.Machine
end

