-- ==== Sys2Proof/Laws/Acquisition.lean ====
section
/-! SUPPORT. What the bodies of the acquisition controller can do, one lemma each (43_acquisition.md). -/

namespace Sys2Proof.Machine

/-! ### ACQ.CLOSE -/

/-- What ACQ.CLOSE leaves (43_acquisition.md R179, 10_state.md R50). -/
structure ClosedFrom (s t : State) : Prop where
  isOpen : t.isOpen = false
  started : t.started = false
  seq : t.seq = 0
  raw : t.raw = FrameBuf.zero
  spi : t.spi = { s.spi with isOpen := false }
  drdy : t.drdy.Empty
  sync : t.sync.Empty
  history : History s t
  diag : t.diag = s.diag
  owns : s.OwnsHeld → t.OwnsHeld

theorem OnSpi.ownsHeld {s t : State} (h : OnSpi s t) (o : s.OwnsHeld) : t.OwnsHeld := by
  refine ⟨fun l hl => h.keepsOwn l ((h.owns l).symm.trans hl) (o.reserved l ((h.owns l).symm.trans hl)), ?_⟩
  have a := h.drdy
  have b := h.sync
  simp only [SameSlot, State.slot] at a b
  rw [a.line, b.line, a.exportedByUs, b.exportedByUs]
  exact o.once

theorem drawLevel_fields (k : Slot) (s : State) :
    OnSlot k s (drawLevel k s) ∧ ((s.slot k).Empty → ((drawLevel k s).slot k).Empty) ∧
      (s.OwnsHeld → (drawLevel k s).OwnsHeld) := by
  refine ⟨(s.drawBit_byEnv.onSlot k).trans (State.setSlot_onSlot _ k _), fun h => ?_, fun h => ?_⟩
  · simp only [drawLevel, State.slot_setSlot_self]
    cases k <;> exact ⟨h.line, h.exportedByUs, h.handle, h.dir, h.edge, h.latch⟩
  · exact (h.byEnv s.drawBit_byEnv fun _ _ h => h).setSlot k rfl rfl

/-- All that `ACQ_CLOSE_BODY` does to the block (43_acquisition.md R179). -/
theorem acqCloseBody_closedFrom (s : State) : ClosedFrom s (acqCloseBody s) := by
  obtain ⟨c1, c2⟩ := spiCloseBody_onSpi s
  obtain ⟨r1, r2, _⟩ := lineReleaseBody_onSlot .drdy (spiCloseBody s)
  have o1 := lineReleaseBody_ownsHeld .drdy (spiCloseBody s)
  obtain ⟨r3, r4, _⟩ := lineReleaseBody_onSlot .sync (lineReleaseBody .drdy (spiCloseBody s))
  have o2 := lineReleaseBody_ownsHeld .sync (lineReleaseBody .drdy (spiCloseBody s))
  have hist := (c1.history.trans r1.history).trans r3.history
  have hspi := (r3.spi.trans r1.spi).trans c2
  have hdiag := ((r3.controller.diag).trans r1.controller.diag).trans c1.controller.diag
  have d := LineSlot.SameButLatch.empty (r3.other) r2
  have own : s.OwnsHeld → (lineReleaseBody .sync (lineReleaseBody .drdy (spiCloseBody s))).OwnsHeld :=
    fun h => o2 (o1 (c1.ownsHeld h))
  have sy := r4
  unfold acqCloseBody
  simp only [State.zeroRaw_eq]
  generalize lineReleaseBody .sync (lineReleaseBody .drdy (spiCloseBody s)) = u at *
  have base : ClosedFrom s { u with raw := FrameBuf.zero, seq := 0, started := false, isOpen := false } :=
    ⟨rfl, rfl, rfl, rfl, hspi, d, sy,
      ⟨hist.cp, hist.inflight, hist.out, hist.pending, hist.refused, hist.calls, hist.diag, hist.clock, hist.wf⟩, hdiag,
      fun h => ⟨(own h).reserved, (own h).once⟩⟩
  generalize ({ u with raw := FrameBuf.zero, seq := 0, started := false, isOpen := false } : State) = v at *
  have forget : ∀ (k : Slot) (w : State), ClosedFrom s w → ClosedFrom s (forgetLevel k s w) := by
    intro k w h
    unfold forgetLevel
    split
    · obtain ⟨q, he, ho⟩ := drawLevel_fields k w
      refine ⟨q.controller.isOpen.trans h.isOpen, q.controller.started.trans h.started, q.controller.seq.trans h.seq,
        q.controller.raw.trans h.raw, q.spi.trans h.spi, ?_, ?_, h.history.trans q.history,
        q.controller.diag.trans h.diag, fun o => ho (h.owns o)⟩
      · cases k
        · exact he h.drdy
        · exact LineSlot.SameButLatch.empty q.other h.drdy
      · cases k
        · exact LineSlot.SameButLatch.empty q.other h.sync
        · exact he h.sync
    · exact h
  have h2 := forget .sync _ (forget .drdy _ base)
  generalize forgetLevel .sync s (forgetLevel .drdy s v) = w at *
  unfold forgetConfig
  split
  · exact ⟨h2.isOpen, h2.started, h2.seq, h2.raw, h2.spi, h2.drdy, h2.sync,
      ⟨h2.history.cp, h2.history.inflight, h2.history.out, h2.history.pending, h2.history.refused, h2.history.calls,
        h2.history.diag, h2.history.clock, h2.history.wf⟩, h2.diag, fun o => ⟨(h2.owns o).reserved, (h2.owns o).once⟩⟩
  · exact h2

/-- On an instance that is closed, with empty slots and no handle, ACQ.CLOSE makes no call and leaves the same state but
for the raw shadow and the counter, which it zeroes (43_acquisition.md R180). -/
theorem acqCloseBody_of_closed (s : State) (ho : s.isOpen = false) (hp : s.spi.isOpen = false) (hd : s.drdy.Empty)
    (hs : s.sync.Empty) : acqCloseBody s = { s with raw := FrameBuf.zero, seq := 0, started := false } := by
  have e1 : lineReleaseBody .drdy s = s := lineReleaseBody_of_empty .drdy s hd
  have e2 : lineReleaseBody .sync s = s := lineReleaseBody_of_empty .sync s hs
  have f1 : (s.slot .drdy).line = none := hd.line
  have f2 : (s.slot .sync).line = none := hs.line
  unfold acqCloseBody
  rw [spiCloseBody_of_closed s hp, e1, e2]
  have e3 : forgetConfig s = id := by funext t; simp [forgetConfig, ho]
  have e4 : forgetLevel .drdy s = id := by funext t; simp only [forgetLevel, f1]; rfl
  have e5 : forgetLevel .sync s = id := by funext t; simp only [forgetLevel, f2]; rfl
  simp only [State.zeroRaw_eq, e3, e4, e5, id]
  obtain ⟨isOpen⟩ := s
  simp only at ho
  subst ho
  rfl

/-! ### ACQ.OPEN -/

/-- What the resource steps of ACQ.OPEN come to (43_acquisition.md R160): the controller itself is as it was, every slot
is coherent; after OK the SPI master is open as asked, DRDY is an open input, and SYNC an open output if it is wanted. -/
structure Resources (c : DeviceConfig) (d : LineId) (m : Option LineId) (s : State) (p : Response) (t : State) : Prop where
  controller : SameController s t
  history : History s t
  output : p.output = .nothing
  code : p.code = .ok ∨ ∃ e, p.code = .ioFailure e
  drdy : t.drdy.Coherent
  sync : t.sync.Coherent
  owns : s.OwnsHeld → t.OwnsHeld
  spi : p.code = .ok → ∃ eff, (eff = c.noCs ∨ eff = false) ∧ t.spi =
    { isOpen := true, path := defaultedPath c.busPath, mode := c.mode, noCs := eff,
      bitsPerWord := params.bitsPerWord, maxHz := c.clockHz }
  input : p.code = .ok → t.drdy.line = some d ∧ t.drdy.handle = some .input
  noSync : p.code = .ok → m = none → t.sync.Empty
  outp : p.code = .ok → ∀ l, m = some l → t.sync.line = some l ∧ t.sync.handle = some .output

theorem LineSlot.Empty.coherent {x : LineSlot} (h : x.Empty) : x.Coherent :=
  ⟨fun _ => h, fun e => absurd (h.handle.symm.trans e) (by simp), fun e => absurd (h.handle.symm.trans e) (by simp),
    fun e => absurd (h.edge.symm.trans e) (by simp)⟩

theorem OnSpi.ownsKeep {s t : State} (h : OnSpi s t) : s.OwnsHeld → t.OwnsHeld := h.ownsHeld

/-- All that the resource steps can do from a state with nothing in use (43_acquisition.md R160). -/
theorem acquireAll_holds (c : DeviceConfig) (d : LineId) (m : Option LineId) (s : State) (hd : s.drdy.Empty)
    (hs : s.sync.Empty) :
    (acquireAll c d m s).Holds (Resources c d m s) (fun _ _ => False) := by
  unfold acquireAll
  have step1 := spiOpenBody_holds (defaultedPath c.busPath) c.clockHz c.mode c.noCs s
  have step2 : ((spiOpenBody (defaultedPath c.busPath) c.clockHz c.mode c.noCs s).andThen fun s1 =>
      lineAcquireBody .drdy d .input false s1).Holds
      (fun p t => Resources c d none s p t ∧ t.sync.Empty) (fun _ _ => False) := by
    refine step1.andThen (fun o t h => ?_) (fun p t hp h => ?_) (fun w t h => h.elim)
    · have hd' : (t.slot .drdy).Empty := LineSlot.SameButLatch.empty h.onSpi.drdy hd
      have hs' : (t.slot .sync).Empty := LineSlot.SameButLatch.empty h.onSpi.sync hs
      refine (lineAcquireBody_holds .drdy d .input false t hd').mono ?_ (by simp)
      rintro p u ⟨r, ho⟩
      have hsync : u.sync.Empty := LineSlot.SameButLatch.empty r.onSlot.other hs'
      refine ⟨⟨h.onSpi.controller.trans r.onSlot.controller, h.onSpi.history.trans r.onSlot.history, r.output, r.code,
        r.coherent, hsync.coherent, fun k => ho (h.onSpi.ownsKeep k), fun _ => ?_, fun hp => ⟨r.line, (r.ok hp).1⟩,
        fun _ _ => hsync, fun _ l hl => absurd hl (by simp)⟩, hsync⟩
      rw [r.onSlot.spi]
      exact h.ok rfl
    · have hd' : (t.slot .drdy).Empty := LineSlot.SameButLatch.empty h.onSpi.drdy hd
      have hs' : (t.slot .sync).Empty := LineSlot.SameButLatch.empty h.onSpi.sync hs
      exact ⟨⟨h.onSpi.controller, h.onSpi.history, h.output, h.code, hd'.coherent, hs'.coherent, h.onSpi.ownsKeep,
        fun e => absurd e hp, fun e => absurd e hp, fun e => absurd e hp, fun e => absurd e hp⟩, hs'⟩
  refine step2.andThen (fun o t h => ?_) (fun p t hp h => ?_) (fun w t h => h.elim)
  · obtain ⟨h, he⟩ := h
    cases m with
    | none =>
      exact ⟨h.controller, h.history, rfl, .inl rfl, h.drdy, h.sync, h.owns, fun _ => h.spi rfl, fun _ => h.input rfl,
        fun _ _ => he, fun _ l hl => absurd hl (by simp)⟩
    | some l =>
      refine (lineAcquireBody_holds .sync l .output true t he).mono ?_ (by simp)
      rintro p u ⟨r, ho⟩
      have od := r.onSlot.other
      simp only [otherSlot, SameSlot, State.slot] at od
      refine ⟨h.controller.trans r.onSlot.controller, h.history.trans r.onSlot.history, r.output, r.code,
        od.coherent h.drdy, r.coherent, fun k => ho (h.owns k), fun _ => ?_, fun _ => ?_, fun _ e => absurd e (by simp),
        fun hp l' hl => ?_⟩
      · rw [r.onSlot.spi]
        exact h.spi rfl
      · rw [od.line, od.handle]
        exact h.input rfl
      · cases hl
        exact ⟨r.line, (r.ok hp).1⟩
  · obtain ⟨h, he⟩ := h
    exact ⟨h.controller, h.history, h.output, h.code, h.drdy, h.sync, h.owns, fun e => absurd e hp,
      fun e => absurd e hp, fun e => absurd e hp, fun e => absurd e hp⟩

/-- What `CHECK_LINES` lets through (43_acquisition.md R162). -/
theorem checkLines_lines {c : DeviceConfig} {d : LineId} {m : Option LineId} (h : checkLines c = .lines d m) :
    c.drdyLine = some d ∧ (c.syncEnable = false → m = none) ∧
      (c.syncEnable = true → ∃ l, c.syncLine = some l ∧ m = some l ∧ l ≠ d) := by
  unfold checkLines at h
  split at h
  · cases h
  · rename_i d' hd
    split at h
    · rename_i he
      split at h
      · cases h
      · rename_i l hl
        split at h
        · cases h
        · rename_i hne
          cases h
          exact ⟨hd, fun e => by rw [e] at he; exact absurd he (by simp), fun _ => ⟨l, hl, rfl, hne⟩⟩
    · rename_i he
      cases h
      exact ⟨hd, fun _ => rfl, fun e => absurd e he⟩

/-- The defaults leave no zero clock rate, no zero timeout and no absent path (43_acquisition.md R161). -/
theorem applyDefaults_defaulted (c : DeviceConfig) :
    (applyDefaults c).busPath ≠ none ∧ (applyDefaults c).clockHz ≠ 0 ∧ (applyDefaults c).timeoutMs ≠ 0 := by
  refine ⟨by simp [applyDefaults], ?_, ?_⟩
  · simp only [applyDefaults]
    split
    · decide
    · assumption
  · simp only [applyDefaults]
    split
    · decide
    · assumption

/-! ### The read-frame sequence -/

/-- `t` comes from `s` by a frame read: calls, and the commit or the diagnostic (43_acquisition.md R171). -/
structure ReadFrame (s t : State) : Prop where
  isOpen : t.isOpen = s.isOpen
  started : t.started = s.started
  cfg : t.cfg = s.cfg
  spi : t.spi = s.spi
  drdy : SameSlot .drdy s t
  sync : SameSlot .sync s t
  history : History s t
  keepsOwn : KeepsOwn s t

theorem ReadFrame.refl (s : State) : ReadFrame s s :=
  ⟨rfl, rfl, rfl, rfl, .refl _, .refl _, .refl s, fun _ _ h => h⟩

theorem ReadFrame.owns {s t : State} (h : ReadFrame s t) (l : LineId) : t.owns l = s.owns l := by
  have a := h.drdy
  have b := h.sync
  simp only [SameSlot, State.slot] at a b
  simp [State.owns, a.line, a.exportedByUs, b.line, b.exportedByUs]

theorem ReadFrame.trans {s t u : State} (h : ReadFrame s t) (h' : ReadFrame t u) : ReadFrame s u :=
  ⟨h'.isOpen.trans h.isOpen, h'.started.trans h.started, h'.cfg.trans h.cfg, h'.spi.trans h.spi,
    LineSlot.SameButLatch.trans h.drdy h'.drdy, LineSlot.SameButLatch.trans h.sync h'.sync, h.history.trans h'.history,
    fun l h1 h2 => h'.keepsOwn l ((h.owns l).trans h1) (h.keepsOwn l h1 h2)⟩

theorem ByEnv.readFrame {s t : State} (h : ByEnv s t) (o : KeepsOwn s t) : ReadFrame s t :=
  ⟨h.block.controller.isOpen, h.block.controller.started, h.block.controller.cfg, h.block.spi, h.block.drdy,
    h.block.sync, h.history, o⟩

/-- The warning touches the diagnostic trace alone (43_acquisition.md R172). -/
theorem warnOverrun_frame (t0 t1 : U64) (s : State) :
    ReadFrame s (warnOverrun t0 t1 s) ∧ (warnOverrun t0 t1 s).seq = s.seq ∧ (warnOverrun t0 t1 s).raw = s.raw ∧
      (warnOverrun t0 t1 s).env = s.env ∧
      (warnOverrun t0 t1 s).diag = if overran t0 t1 then s.diag ++ [.overrunWarning (t1 - t0)] else s.diag := by
  unfold warnOverrun
  split
  · refine ⟨⟨rfl, rfl, rfl, rfl, .refl _, .refl _, ⟨rfl, rfl, rfl, rfl, rfl, CallsGrow.of_eq rfl, ⟨_, rfl⟩, le_rfl, id⟩,
      fun _ _ h => h⟩, rfl, rfl, rfl, rfl⟩
  · exact ⟨.refl s, rfl, rfl, rfl, rfl⟩

/-- How a read ends (43_acquisition.md R175, R176, R183): with a Frame that carries the counter's value, which then
increases, and the raw shadow it was decoded from; or with an error, and counter and shadow as they were. -/
def ReadEnds (s : State) (p : Response) (t : State) : Prop :=
  (∃ f : Frame, p = ⟨.ok, .frame f⟩ ∧ f.seq = s.seq ∧ t.seq = s.seq + 1 ∧ f.ch = decodeFrame t.raw ∧
      (f.ts = 0 ∨ s.env.clock.toNat ≤ f.ts.toNat ∧ f.ts.toNat ≤ t.env.clock.toNat)) ∨
    (p.output = .nothing ∧ t.seq = s.seq ∧ t.raw = s.raw ∧ t.diag = s.diag ∧
      (p.code = .timedOut ∨ (∃ c, p.code = .ioFailure c) ∨
        p.code = .notPermitted ∧ (s.drdy.handle = none ∨ s.spi.isOpen = false)))

/-- Steps 2 to 7 (43_acquisition.md R171). -/
theorem readAfterEdge_holds (s : State) :
    (readAfterEdge s).Holds (fun p t => ReadFrame s t ∧ ReadEnds s p t) (fun _ _ => False) := by
  obtain ⟨b, o, hc⟩ := envClock_cases s
  unfold readAfterEdge
  generalize envClock s = c0 at *
  obtain ⟨t0, u⟩ := c0
  obtain ⟨b1, o1, he⟩ := spiExchange_cases u
  simp only
  generalize spiExchange u = r at *
  obtain ⟨a, v⟩ := r
  have bb := b.trans b1
  have oo := o.trans b o1
  have sq := bb.block.controller.seq
  rcases he with ⟨rx, he⟩ | ⟨c, he⟩ | ⟨he, hsp⟩ <;> simp only at he <;> subst he
  · obtain ⟨b2, o2, _⟩ := envClock_cases v
    simp only
    generalize envClock v = c1 at *
    obtain ⟨t1, w⟩ := c1
    have b3 := bb.trans b2
    obtain ⟨f, hseq, _, henv, _⟩ := warnOverrun_frame t0 t1 w
    have fr := (b3.readFrame (oo.trans bb o2)).trans f
    refine ⟨⟨fr.isOpen, fr.started, fr.cfg, fr.spi, fr.drdy, fr.sync,
      ⟨fr.history.cp, fr.history.inflight, fr.history.out, fr.history.pending, fr.history.refused, fr.history.calls,
        fr.history.diag, fr.history.clock, fr.history.wf⟩, fr.keepsOwn⟩,
      .inl ⟨_, rfl, hseq.trans b3.block.controller.seq, ?_, rfl, ?_⟩⟩
    · simp only [hseq]
      rw [b3.block.controller.seq]
    · rcases hc with hc | ⟨h1, h2⟩
      · exact .inl hc
      · refine .inr ⟨h1, ?_⟩
        have := (b1.trans b2).clock
        simp only at h2
        rw [h2] at this
        simpa [henv] using this
  · exact ⟨bb.readFrame oo, .inr ⟨rfl, sq, bb.block.controller.raw, bb.block.controller.diag, .inr (.inl ⟨c, rfl⟩)⟩⟩
  · refine ⟨bb.readFrame oo, .inr ⟨rfl, sq, bb.block.controller.raw, bb.block.controller.diag, .inr (.inr ⟨rfl, .inr ?_⟩)⟩⟩
    exact (congrArg SpiState.isOpen b.block.spi).symm.trans hsp

/-- A read that has not passed its wait has changed nothing but a latch. -/
theorem ReadEnds.of_byEnv {s u t : State} {p : Response} (b : ByEnv s u) (h : ReadEnds u p t) : ReadEnds s p t := by
  have c := b.block.controller
  rcases h with ⟨f, hp, h1, h2, h3, h4⟩ | ⟨h1, h2, h3, h4, h5⟩
  · refine .inl ⟨f, hp, h1.trans c.seq, by rw [h2, c.seq], h3, h4.imp id fun h => ⟨b.clock.trans h.1, h.2⟩⟩
  · refine .inr ⟨h1, h2.trans c.seq, h3.trans c.raw, h4.trans c.diag, h5.imp id (Or.imp id fun h => ⟨h.1, ?_⟩)⟩
    refine h.2.imp (fun e => ?_) (fun e => ?_)
    · exact (b.handle .drdy).symm.trans e
    · exact (congrArg SpiState.isOpen b.block.spi).symm.trans e

/-- All that `READ_BODY` can do (43_acquisition.md R171, R175, R176). -/
theorem readBody_holds (w : Inflight) (s : State) :
    (readBody w s).Holds (fun p t => ReadFrame s t ∧ ReadEnds s p t)
      (fun v t => v = w ∧ ByEnv s t ∧ KeepsOwn s t ∧ t.drdy.latch = false ∧ s.drdy.handle ≠ none ∧
        s.drdy.detectsFalling = true) := by
  unfold readBody
  have h1 := (lineWaitBody_holds .drdy s.cfg.timeoutMs s).blockedAs (w := w)
    (S := fun v t => v = w ∧ ByEnv s t ∧ KeepsOwn s t ∧ t.drdy.latch = false ∧ s.drdy.handle ≠ none ∧
        s.drdy.detectsFalling = true) (fun v t h => ⟨rfl, h.1, h.2.1, h.2.2.2.1, h.2.2.2.2.1, h.2.2.2.2.2⟩)
  refine h1.andThen (fun o t h => ?_) (fun p t hp h => ?_) (fun v t h => h)
  · refine (readAfterEdge_holds t).mono ?_ (by simp)
    rintro p u ⟨f, e⟩
    exact ⟨(h.1.readFrame h.2.1).trans f, e.of_byEnv h.1⟩
  · refine ⟨h.1.readFrame h.2.1, .inr ⟨h.2.2.1, h.1.block.controller.seq, h.1.block.controller.raw,
      h.1.block.controller.diag, ?_⟩⟩
    rcases h.2.2.2.1 with (hc | hc | hc) | ⟨hc, hn⟩
    · exact absurd hc hp
    · exact .inl hc
    · exact .inr (.inl hc)
    · exact .inr (.inr ⟨hc, .inl hn⟩)

/-- All that a read can do from its wait on. -/
theorem readResume_holds (w : Inflight) (s : State) :
    (readResume w s).Holds (fun p t => ReadFrame s t ∧ ReadEnds s p t)
      (fun v t => v = w ∧ ByEnv s t ∧ KeepsOwn s t ∧ t.drdy.latch = false) := by
  unfold readResume
  have h1 := (lineWaitResume_holds .drdy s).blockedAs (w := w)
    (S := fun v t => v = w ∧ ByEnv s t ∧ KeepsOwn s t ∧ t.drdy.latch = false) (fun v t h => ⟨rfl, h.1, h.2.1, h.2.2.2⟩)
  refine h1.andThen (fun o t h => ?_) (fun p t hp h => ?_) (fun v t h => h)
  · refine (readAfterEdge_holds t).mono ?_ (by simp)
    rintro p u ⟨f, e⟩
    exact ⟨(h.1.readFrame h.2.1).trans f, e.of_byEnv h.1⟩
  · refine ⟨h.1.readFrame h.2.1, .inr ⟨h.2.2.1, h.1.block.controller.seq, h.1.block.controller.raw,
      h.1.block.controller.diag, ?_⟩⟩
    rcases h.2.2.2.1 with hc | hc | hc
    · exact absurd hc hp
    · exact .inl hc
    · exact .inr (.inl hc)

/-! ### ACQ.START -/

/-- What a start may change: a frame read's effects, and SYNC's level (43_acquisition.md R165, R169). -/
structure StartFrame (s t : State) : Prop where
  isOpen : t.isOpen = s.isOpen
  started : t.started = s.started
  cfg : t.cfg = s.cfg
  spi : t.spi = s.spi
  drdy : SameSlot .drdy s t
  sync : s.sync.SameButLatch { t.sync with level := s.sync.level }
  history : History s t
  keepsOwn : KeepsOwn s t

theorem ReadFrame.startFrame {s t : State} (h : ReadFrame s t) : StartFrame s t := by
  have f := h.sync
  simp only [SameSlot, State.slot] at f
  exact ⟨h.isOpen, h.started, h.cfg, h.spi, h.drdy, ⟨f.line, f.exportedByUs, f.handle, f.dir, f.edge, rfl, f.latch⟩,
    h.history, h.keepsOwn⟩

theorem StartFrame.owns {s t : State} (h : StartFrame s t) (l : LineId) : t.owns l = s.owns l := by
  have a := h.drdy
  have b := h.sync
  simp only [SameSlot, State.slot] at a
  have b1 := b.line
  have b2 := b.exportedByUs
  simp only at b1 b2
  simp [State.owns, a.line, a.exportedByUs, b1, b2]

theorem StartFrame.trans {s t u : State} (h : StartFrame s t) (h' : StartFrame t u) : StartFrame s u := by
  have a := h.sync
  have b := h'.sync
  refine ⟨h'.isOpen.trans h.isOpen, h'.started.trans h.started, h'.cfg.trans h.cfg, h'.spi.trans h.spi,
    LineSlot.SameButLatch.trans h.drdy h'.drdy, ?_, h.history.trans h'.history,
    fun l h1 h2 => h'.keepsOwn l ((h.owns l).trans h1) (h.keepsOwn l h1 h2)⟩
  refine ⟨b.line.trans a.line, b.exportedByUs.trans a.exportedByUs, b.handle.trans a.handle, b.dir.trans a.dir,
    b.edge.trans a.edge, rfl, fun h1 h2 => ?_⟩
  cases h3 : t.sync.latch
  · have h4 := b.latch h3 h2
    have h5 := a.line
    have h6 := LineSlot.SameButLatch.detectsFalling a
    simp only at h5
    rw [h5] at h4
    exact ⟨h4.1, h6.symm.trans h4.2⟩
  · exact a.latch h1 h3

theorem OnSlot.startFrame {s t : State} (h : OnSlot .sync s t) (o : KeepsOwn s t)
    (f : s.sync.SameButLatch { t.sync with level := s.sync.level }) : StartFrame s t :=
  ⟨h.controller.isOpen, h.controller.started, h.controller.cfg, h.spi, h.other, f, h.history, o⟩

/-- The codes of a start (60_exceptions.md R201). -/
def ResultCode.ofStart (c : ResultCode) : Prop := c = .ok ∨ c = .notPermitted ∨ c = .timedOut ∨ ∃ e, c = .ioFailure e

/-- All that the sync pulse can do (43_acquisition.md R167): counter and shadow are untouched. -/
theorem syncPulse_holds (s : State) :
    (syncPulse s).Holds (fun p t => StartFrame s t ∧ t.seq = s.seq ∧ t.raw = s.raw ∧ p.output = .nothing ∧ p.code.ofStart)
      (fun _ _ => False) := by
  unfold syncPulse
  have code : ∀ (v : Level) (u : State) (p : Response) (t : State),
      ((∃ l, (u.slot .sync).line = some l ∧ p.code = .ok ∧ (t.lineEnv l).pin = v ∧ (t.slot .sync).level = v) ∨
          (∃ c, p.code = .ioFailure c) ∨ p.code = .notPermitted ∧ (u.slot .sync).handle = none) → p.code.ofStart := by
    rintro v u p t (⟨_, _, h, _⟩ | ⟨c, h⟩ | ⟨h, _⟩)
    · exact .inl h
    · exact .inr (.inr (.inr ⟨c, h⟩))
    · exact .inr (.inl h)
  refine (lineSetBody_holds .sync false s).andThen (fun o t h => ?_) (fun p t _ h => ?_) (fun _ _ h => h)
  · obtain ⟨q, ko, f, _, _⟩ := h
    obtain ⟨b, o'⟩ := envDelay_byEnv t params.syncPulseUs
    refine (lineSetBody_holds .sync true (envDelay t params.syncPulseUs)).mono ?_ (by simp)
    rintro p u ⟨q', ko', f', hout, hc⟩
    have fr := ((q.startFrame ko f).trans (b.readFrame o').startFrame).trans (q'.startFrame ko' f')
    exact ⟨fr, (q'.controller.seq.trans b.block.controller.seq).trans q.controller.seq,
      (q'.controller.raw.trans b.block.controller.raw).trans q.controller.raw, hout, code _ _ _ _ hc⟩
  · obtain ⟨q, ko, f, hout, hc⟩ := h
    exact ⟨q.startFrame ko f, q.controller.seq, q.controller.raw, hout, code _ _ _ _ hc⟩

/-- All that `n` settle reads can do (43_acquisition.md R168): after OK the counter has advanced by exactly `n`; a wait
that blocks leaves as many reads due as the counter still lacks. -/
theorem settleReads_holds (n : Nat) (s : State) :
    (settleReads n s).Holds
      (fun p t => StartFrame s t ∧ p.output = .nothing ∧ p.code.ofStart ∧
        (p.code = .ok → t.seq = s.seq + BitVec.ofNat 64 n) ∧
        (∃ j, j ≤ n ∧ t.seq = s.seq + BitVec.ofNat 64 j))
      (fun w t => StartFrame s t ∧ ∃ j r, w = .acqStart r ∧ j + r + 1 = n ∧ t.seq = s.seq + BitVec.ofNat 64 j ∧
        t.drdy.latch = false) := by
  induction n generalizing s with
  | zero =>
    exact ⟨(ReadFrame.refl s).startFrame, rfl, .inl rfl, fun _ => by simp, 0, le_rfl, by simp⟩
  | succ n ih =>
    unfold settleReads
    refine (readBody_holds (.acqStart n) s).andThen (fun o t h => ?_) (fun p t hp h => ?_) (fun w t h => ?_)
    · obtain ⟨f, e⟩ := h
      have hseq : t.seq = s.seq + 1 := by
        rcases e with ⟨_, _, _, h, _⟩ | ⟨_, _, _, _, h | ⟨c, h⟩ | ⟨h, _⟩⟩
        · exact h
        · cases h
        · cases h
        · cases h
      have add : ∀ j : Nat, t.seq + BitVec.ofNat 64 j = s.seq + BitVec.ofNat 64 (j + 1) := by
        intro j
        have : BitVec.ofNat 64 (j + 1) = 1 + BitVec.ofNat 64 j := by
          rw [Nat.add_comm, BitVec.ofNat_add]; rfl
        rw [hseq, this, BitVec.add_assoc]
      refine (ih t).mono ?_ ?_
      · rintro p u ⟨f', h1, h2, h3, j, hj, h4⟩
        exact ⟨f.startFrame.trans f', h1, h2, fun hp => (h3 hp).trans (add n), j + 1, by omega, h4.trans (add j)⟩
      · rintro w u ⟨f', j, r, h1, h2, h3, h4⟩
        exact ⟨f.startFrame.trans f', j + 1, r, h1, by omega, h3.trans (add j), h4⟩
    · obtain ⟨f, e⟩ := h
      rcases e with ⟨g, h, _⟩ | ⟨h1, h2, _, _, h3⟩
      · rw [h] at hp; exact absurd rfl hp
      · refine ⟨f.startFrame, h1, ?_, fun h => absurd h hp, 0, by omega, by simpa using h2⟩
        rcases h3 with h | h | ⟨h, _⟩
        · exact .inr (.inr (.inl h))
        · exact .inr (.inr (.inr h))
        · exact .inr (.inl h)
    · obtain ⟨h1, b, o, hl, _⟩ := h
      exact ⟨(b.readFrame o).startFrame, 0, n, h1, by omega, by simpa using b.block.controller.seq, hl⟩

end Sys2Proof.Machine
end

