-- ==== Sys2Proof/Laws/Encoding.lean ====
section
/-! SUPPORT. The header word: what a row's mask leaves free, and the decoder at each row (30_encoding.md R80, R83,
R85). -/

namespace Sys2Proof

/-- A word that hits a row is the row's pattern together with the bits that the mask leaves free. -/
theorem OpRow.word_of_hits {w m p : Header} (h : w &&& m = p) : w = p ||| (w &&& ~~~m) := by
  rw [← h]
  apply BitVec.eq_of_getLsbD_eq
  intro i hi
  simp [hi]
  cases w[i] <;> cases m[i] <;> rfl

/-- One field of a word, as the encoder writes it. -/
theorem and_bit_eq_bitAt (w : Header) (n : Nat) : w &&& (1#32 <<< n) = bitAt n (w.getLsbD n) := by
  have : (1#32 <<< n) = BitVec.twoPow 32 n := by simp [BitVec.twoPow]
  rw [this, BitVec.and_twoPow]
  simp [bitAt, BitVec.twoPow]

theorem field_slotField (w : Header) : (slotField w).field = bitAt 8 (w.getLsbD 8) := by
  simp only [slotField, Slot.field]
  cases w.getLsbD 8 <;> rfl

theorem field_dirField (w : Header) : (dirField w).field = bitAt 9 (w.getLsbD 9) := by
  simp only [dirField, Dir.field]
  cases w.getLsbD 9 <;> rfl

/-! ### The decoder at each row -/

theorem decode_lineAcquire {w : Header} (h : rowOf w = some .lineAcquire) (l : LineId) :
    decode w (.line l) = some (.lineAcquire (slotField w) (dirField w) (valueField w) l) := by unfold decode; rw [h]

theorem decode_lineWait {w : Header} (h : rowOf w = some .lineWait) (ms : U32) :
    decode w (.timeout ms) = some (.lineWait (slotField w) ms) := by unfold decode; rw [h]

theorem decode_lineGet {w : Header} (h : rowOf w = some .lineGet) :
    decode w .empty = some (.lineGet (slotField w)) := by unfold decode; rw [h]

theorem decode_lineSet {w : Header} (h : rowOf w = some .lineSet) :
    decode w .empty = some (.lineSet (slotField w) (valueField w)) := by unfold decode; rw [h]

theorem decode_lineRelease {w : Header} (h : rowOf w = some .lineRelease) :
    decode w .empty = some (.lineRelease (slotField w)) := by unfold decode; rw [h]

theorem decode_spiOpen {w : Header} (h : rowOf w = some .spiOpen) (path : BusPath) (hz : U32) (mode : U8)
    (noCs : Bool) : decode w (.endpoint path hz mode noCs) = some (.spiOpen path hz mode noCs) := by
  unfold decode; rw [h]

theorem decode_spiXfer {w : Header} (h : rowOf w = some .spiXfer) (len : U32) :
    decode w (.length len) = some (.spiXfer len) := by unfold decode; rw [h]

theorem decode_spiClose {w : Header} (h : rowOf w = some .spiClose) : decode w .empty = some .spiClose := by
  unfold decode; rw [h]

theorem decode_acqOpen_config {w : Header} (h : rowOf w = some .acqOpen) (c : DeviceConfig) :
    decode w (.config c) = if presenceField w then some (.acqOpen (some c)) else none := by unfold decode; rw [h]

theorem decode_acqOpen_empty {w : Header} (h : rowOf w = some .acqOpen) :
    decode w .empty = if presenceField w then none else some (.acqOpen none) := by unfold decode; rw [h]

theorem decode_acqStart {w : Header} (h : rowOf w = some .acqStart) : decode w .empty = some .acqStart := by
  unfold decode; rw [h]

theorem decode_acqRead {w : Header} (h : rowOf w = some .acqRead) :
    decode w .empty = some (.acqRead (presenceField w)) := by unfold decode; rw [h]

theorem decode_acqRaw {w : Header} (h : rowOf w = some .acqRaw) :
    decode w .empty = some (.acqRaw (presenceField w)) := by unfold decode; rw [h]

theorem decode_acqStop {w : Header} (h : rowOf w = some .acqStop) : decode w .empty = some .acqStop := by
  unfold decode; rw [h]

theorem decode_acqClose {w : Header} (h : rowOf w = some .acqClose) : decode w .empty = some .acqClose := by
  unfold decode; rw [h]

/-- A word with no row decodes to nothing, whatever its payload (30_encoding.md R87). -/
theorem decode_of_no_row {w : Header} (h : rowOf w = none) (p : Payload) : decode w p = none := by
  unfold decode; rw [h]

end Sys2Proof
end

