-- ==== Sys2Proof/Laws/Granted.lean ====
section
/-! SUPPORT. The underlying calls when the script says how they are answered: `Turned` is all that holds after calls whose
turns stand at the head of the script, and each call has one lemma for each answer that a claim may assume
(10_state.md R44, R45). -/

namespace Sys2Proof.Machine

/-- `t` comes from `s` by the calls `cs`, which left `rest` of the script. -/
structure Turned (s : State) (cs : List Call) (rest : List Turn) (t : State) : Prop where
  byEnv : ByEnv s t
  keepsOwn : KeepsOwn s t
  calls : t.calls = s.calls ++ cs
  script : t.env.script = rest

theorem Turned.trans {s t u : State} {cs cs' : List Call} {r r' : List Turn} (h : Turned s cs r t)
    (h' : Turned t cs' r' u) : Turned s (cs ++ cs') r' u :=
  ⟨h.byEnv.trans h'.byEnv, h.keepsOwn.trans h.byEnv h'.keepsOwn, by rw [h'.calls, h.calls, List.append_assoc], h'.script⟩

/-- The same, where the later state is reached by an update that the environment may make as well. -/
theorem Turned.update {s t u : State} {cs : List Call} {r : List Turn} (h : Turned s cs r t) (b : ByEnv t u)
    (o : KeepsOwn t u) (hc : u.calls = t.calls) (hs : u.env.script = t.env.script) : Turned s cs r u :=
  ⟨h.byEnv.trans b, h.keepsOwn.trans h.byEnv o, hc.trans h.calls, hs.trans h.script⟩

/-! ### What events leave of a line -/

theorem State.lineEnv_envStep_kept (s : State) (e : EnvEvent) (l : LineId) :
    ((s.envStep e).lineEnv l).dir = (s.lineEnv l).dir ∧ ((s.envStep e).lineEnv l).edge = (s.lineEnv l).edge := by
  have pin : ∀ (m : LineId) (v : Level), ((s.drivePin m v).lineEnv l).dir = (s.lineEnv l).dir ∧
      ((s.drivePin m v).lineEnv l).edge = (s.lineEnv l).edge := by
    intro m v
    by_cases h : l = m
    · subst h; simp
    · rw [State.lineEnv_drivePin_other _ _ h]; exact ⟨rfl, rfl⟩
  have res : ∀ (m : LineId) (b : Bool), ((s.setReserved m b).lineEnv l).dir = (s.lineEnv l).dir ∧
      ((s.setReserved m b).lineEnv l).edge = (s.lineEnv l).edge := by
    intro m b
    by_cases h : l = m
    · subst h; simp
    · rw [State.lineEnv_setReserved_other _ _ h]; exact ⟨rfl, rfl⟩
  cases e <;> simp only [State.envStep] <;> (try split) <;> first | exact ⟨rfl, rfl⟩ | exact pin _ _ | exact res _ _

/-- The environment does not move a pin that this block drives (10_state.md R33). -/
theorem State.lineEnv_envStep_pin (s : State) (e : EnvEvent) (l : LineId) (h : s.drives l = true) :
    ((s.envStep e).lineEnv l).pin = (s.lineEnv l).pin := by
  cases e with
  | pinFall m =>
    simp only [State.envStep]
    split
    · rfl
    · rename_i hm
      rw [State.lineEnv_drivePin_other _ _ (fun e => hm (by rw [← e]; exact h))]
  | pinRise m =>
    simp only [State.envStep]
    split
    · rfl
    · rename_i hm
      rw [State.lineEnv_drivePin_other _ _ (fun e => hm (by rw [← e]; exact h))]
  | otherReserve m => simp only [State.envStep]; rw [State.lineEnv_setReserved_pin]
  | otherRelease m => simp only [State.envStep]; split; exacts [rfl, State.lineEnv_setReserved_pin ..]

theorem foldl_envStep_pin (es : List EnvEvent) (s : State) (l : LineId) (h : s.drives l = true) :
    ((es.foldl State.envStep s).lineEnv l).pin = (s.lineEnv l).pin := by
  induction es generalizing s with
  | nil => rfl
  | cons e es ih => exact (ih _ (((s.envStep_byEnv e).drives l).trans h)).trans (s.lineEnv_envStep_pin e l h)

/-! ### The calls -/

/-- Any call whose turn is at the head of the script. -/
theorem State.ask_turned {s : State} {t : Turn} {rest : List Turn} (h : s.env.script = t :: rest) (c : Call)
    (hc : ∀ tx, c = .spiTransfer tx → tx = FrameBuf.zero := by simp) :
    ∃ u, s.ask c = (t, u) ∧ Turned s [c] rest u ∧ (∀ l, s.drives l = true → (u.lineEnv l).pin = (s.lineEnv l).pin) ∧
      (t.events = [] → ∀ l, u.lineEnv l = s.lineEnv l) := by
  obtain ⟨h1, h2⟩ := State.ask_script c h
  refine ⟨(s.ask c).2, by rw [← h1], ⟨s.ask_byEnv c hc, s.ask_keepsOwn c, s.ask_calls c, h2⟩, fun l hl => ?_,
    fun q l => by rw [State.ask_quiet c h q]; rfl⟩
  rw [State.ask, State.nextTurn_cons (s := s.logCall c) h]
  exact foldl_envStep_pin t.events _ l (by simpa [State.drives] using hl)

theorem failureOf_ok : failureOf .ok = none := rfl
theorem failureOf_fail (c : EnvCause) : failureOf (.fail c) = some (.env c) := rfl

theorem envReserve_fails {s : State} {t : Turn} {rest : List Turn} {c : EnvCause} (h : s.env.script = t :: rest)
    (v : t.verdict = .fail c) (l : LineId) :
    ∃ u, envReserve s l = (.fail (.env c), u) ∧ Turned s [.reserve l] rest u := by
  obtain ⟨u, e, q, _⟩ := State.ask_turned h (.reserve l)
  exact ⟨u, by simp only [envReserve, e, v, failureOf], q⟩

/-- A granted reservation, the environment taking no step of its own: the line is this block's exactly if it was free,
and it is reserved (41_gpio_line.md R112). -/
theorem envReserve_granted {s : State} {t : Turn} {rest : List Turn} (h : s.env.script = t :: rest)
    (v : t.verdict = .ok) (q : t.events = []) (l : LineId) :
    ∃ u, envReserve s l = (if (s.lineEnv l).reserved then .busy else .ok, u) ∧ Turned s [.reserve l] rest u ∧
      u.lineEnv l = { s.lineEnv l with reserved := true } ∧ ∀ m, m ≠ l → u.lineEnv m = s.lineEnv m := by
  obtain ⟨u, e, ht, _, hq⟩ := State.ask_turned h (.reserve l)
  have hl := hq q
  obtain ⟨b, o, _⟩ := envReserve_cases s l
  cases hr : (s.lineEnv l).reserved
  · refine ⟨u.setReserved l true, by simp [envReserve, e, v, failureOf, hl, hr], ?_, by simp [hl], fun m hm => ?_⟩
    · have b' : (envReserve s l).2 = u.setReserved l true := by simp [envReserve, e, v, failureOf, hl, hr]
      rw [b'] at b o
      exact ⟨b, o, ht.calls, ht.script⟩
    · rw [State.lineEnv_setReserved_other _ _ hm, hl]
  · refine ⟨u, by simp [envReserve, e, v, failureOf, hl, hr], ht, ?_, fun m _ => hl m⟩
    rw [hl, ← hr]

theorem envSetDirection_granted {s : State} {t : Turn} {rest : List Turn} (h : s.env.script = t :: rest)
    (v : t.verdict = .ok) (l : LineId) (d : Dir) :
    ∃ u, envSetDirection s l d = (.ok, u) ∧ Turned s [.setDirection l d] rest u ∧
      (t.events = [] → u.lineEnv l = { s.lineEnv l with dir := some d } ∧ ∀ m, m ≠ l → u.lineEnv m = s.lineEnv m) := by
  obtain ⟨u, e, ht, _, hq⟩ := State.ask_turned h (.setDirection l d)
  refine ⟨u.setLineEnv l { u.lineEnv l with dir := some d }, by simp [envSetDirection, e, v, failureOf],
    ht.update (State.setLineEnv_byEnv _ _ _) (State.setLineEnv_keepsOwn _ _ _ rfl) rfl rfl, fun q => ⟨?_, fun m hm => ?_⟩⟩
  · rw [State.lineEnv_setLineEnv_self, hq q]
  · rw [State.lineEnv_setLineEnv_other _ _ hm, hq q]

theorem envSetDirection_fails {s : State} {t : Turn} {rest : List Turn} {c : EnvCause} (h : s.env.script = t :: rest)
    (v : t.verdict = .fail c) (l : LineId) (d : Dir) :
    ∃ u, envSetDirection s l d = (.fail (.env c), u) ∧ Turned s [.setDirection l d] rest u ∧
      (t.events = [] → ∀ m, u.lineEnv m = s.lineEnv m) := by
  obtain ⟨u, e, ht, _, hq⟩ := State.ask_turned h (.setDirection l d)
  exact ⟨u, by simp only [envSetDirection, e, v, failureOf], ht, hq⟩

theorem envSetEdge_granted {s : State} {t : Turn} {rest : List Turn} (h : s.env.script = t :: rest)
    (v : t.verdict = .ok) (l : LineId) (x : EdgeMode) :
    ∃ u, envSetEdge s l x = (.ok, u) ∧ Turned s [.setEdge l x] rest u ∧
      (t.events = [] → u.lineEnv l = { s.lineEnv l with edge := some x } ∧ ∀ m, m ≠ l → u.lineEnv m = s.lineEnv m) := by
  obtain ⟨u, e, ht, _, hq⟩ := State.ask_turned h (.setEdge l x)
  refine ⟨u.setLineEnv l { u.lineEnv l with edge := some x }, by simp [envSetEdge, e, v, failureOf],
    ht.update (State.setLineEnv_byEnv _ _ _) (State.setLineEnv_keepsOwn _ _ _ rfl) rfl rfl, fun q => ⟨?_, fun m hm => ?_⟩⟩
  · rw [State.lineEnv_setLineEnv_self, hq q]
  · rw [State.lineEnv_setLineEnv_other _ _ hm, hq q]

theorem envSetEdge_fails {s : State} {t : Turn} {rest : List Turn} {c : EnvCause} (h : s.env.script = t :: rest)
    (v : t.verdict = .fail c) (l : LineId) (x : EdgeMode) :
    ∃ u, envSetEdge s l x = (.fail (.env c), u) ∧ Turned s [.setEdge l x] rest u ∧
      (t.events = [] → ∀ m, u.lineEnv m = s.lineEnv m) := by
  obtain ⟨u, e, ht, _, hq⟩ := State.ask_turned h (.setEdge l x)
  exact ⟨u, by simp only [envSetEdge, e, v, failureOf], ht, hq⟩

theorem envSetInitialLevel_granted {s : State} {t : Turn} {rest : List Turn} (h : s.env.script = t :: rest)
    (v : t.verdict = .ok) (l : LineId) (x : Level) :
    ∃ u, envSetInitialLevel s l x = (.ok, u) ∧ Turned s [.setInitialLevel l x] rest u ∧ (u.lineEnv l).pin = x ∧
      (t.events = [] → u.lineEnv l = { s.lineEnv l with pin := x } ∧ ∀ m, m ≠ l → u.lineEnv m = s.lineEnv m) := by
  obtain ⟨u, e, ht, _, hq⟩ := State.ask_turned h (.setInitialLevel l x)
  refine ⟨u.drivePin l x, by simp [envSetInitialLevel, e, v, failureOf],
    ht.update (State.drivePin_byEnv _ _ _) (State.drivePin_keepsOwn _ _ _) rfl rfl, by simp, fun q => ⟨?_, fun m hm => ?_⟩⟩
  · rw [State.lineEnv_drivePin_self, hq q]
  · rw [State.lineEnv_drivePin_other _ _ hm, hq q]

theorem envSetInitialLevel_fails {s : State} {t : Turn} {rest : List Turn} {c : EnvCause} (h : s.env.script = t :: rest)
    (v : t.verdict = .fail c) (l : LineId) (x : Level) :
    ∃ u, envSetInitialLevel s l x = (.fail (.env c), u) ∧ Turned s [.setInitialLevel l x] rest u ∧
      (t.events = [] → ∀ m, u.lineEnv m = s.lineEnv m) := by
  obtain ⟨u, e, ht, _, hq⟩ := State.ask_turned h (.setInitialLevel l x)
  exact ⟨u, by simp only [envSetInitialLevel, e, v, failureOf], ht, hq⟩

theorem envOpenValue_granted {s : State} {t : Turn} {rest : List Turn} (h : s.env.script = t :: rest)
    (v : t.verdict = .ok) (l : LineId) (a : Access) :
    ∃ u, envOpenValue s l a = (.ok, u) ∧ Turned s [.openValue l a] rest u ∧
      (∀ m, s.drives m = true → (u.lineEnv m).pin = (s.lineEnv m).pin) ∧
      (t.events = [] → ∀ m, u.lineEnv m = s.lineEnv m) := by
  obtain ⟨u, e, ht, hp, hq⟩ := State.ask_turned h (.openValue l a)
  exact ⟨u, by simp only [envOpenValue, e, v, ackOf, failureOf], ht, hp, hq⟩

theorem envOpenValue_fails {s : State} {t : Turn} {rest : List Turn} {c : EnvCause} (h : s.env.script = t :: rest)
    (v : t.verdict = .fail c) (l : LineId) (a : Access) :
    ∃ u, envOpenValue s l a = (.fail (.env c), u) ∧ Turned s [.openValue l a] rest u ∧
      (t.events = [] → ∀ m, u.lineEnv m = s.lineEnv m) := by
  obtain ⟨u, e, ht, _, hq⟩ := State.ask_turned h (.openValue l a)
  exact ⟨u, by simp only [envOpenValue, e, v, ackOf, failureOf], ht, hq⟩

theorem envReadValue_granted {s : State} {t : Turn} {rest : List Turn} (h : s.env.script = t :: rest)
    (v : t.verdict = .ok) (l : LineId) :
    ∃ u, envReadValue s l = (.ok (u.lineEnv l).pin, u) ∧ Turned s [.readValue l] rest u ∧
      (t.events = [] → u = { s with env := { s.env with script := rest }, calls := s.calls ++ [.readValue l] }) := by
  obtain ⟨u, e, ht, _⟩ := State.ask_turned h (.readValue l)
  refine ⟨u, by simp only [envReadValue, e, v, failureOf], ht, fun q => ?_⟩
  rw [← State.ask_quiet _ h q, e]

theorem envReadValue_fails {s : State} {t : Turn} {rest : List Turn} {c : EnvCause} (h : s.env.script = t :: rest)
    (v : t.verdict = .fail c) (l : LineId) :
    ∃ u, envReadValue s l = (.fail (.env c), u) ∧ Turned s [.readValue l] rest u ∧
      (∀ k, (s.slot k).latch = true → (u.slot k).latch = true) := by
  obtain ⟨u, e, ht, _⟩ := State.ask_turned h (.readValue l)
  refine ⟨u, by simp only [envReadValue, e, v, failureOf], ht, fun k hk => ?_⟩
  have : u = (s.ask (.readValue l)).2 := by rw [e]
  rw [this, State.ask, State.nextTurn_cons (s := s.logCall _) h]
  exact foldl_envStep_latch t.events _ k (by cases k <;> exact hk)

theorem envWriteValue_granted {s : State} {t : Turn} {rest : List Turn} (h : s.env.script = t :: rest)
    (v : t.verdict = .ok) (l : LineId) (x : Level) :
    ∃ u, envWriteValue s l x = (.ok, u) ∧ Turned s [.writeValue l x] rest u ∧ (u.lineEnv l).pin = x ∧
      (t.events = [] → ∀ m, m ≠ l → u.lineEnv m = s.lineEnv m) := by
  obtain ⟨u, e, ht, _, hq⟩ := State.ask_turned h (.writeValue l x)
  refine ⟨u.drivePin l x, by simp only [envWriteValue, e, v],
    ht.update (State.drivePin_byEnv _ _ _) (State.drivePin_keepsOwn _ _ _) rfl rfl, by simp, fun q m hm => ?_⟩
  rw [State.lineEnv_drivePin_other _ _ hm, hq q]

theorem envWriteValue_short {s : State} {t : Turn} {rest : List Turn} (h : s.env.script = t :: rest)
    (v : t.verdict = .short) (l : LineId) (x : Level) :
    ∃ u, envWriteValue s l x = (.short, u) ∧ Turned s [.writeValue l x] rest u := by
  obtain ⟨u, e, ht, _⟩ := State.ask_turned h (.writeValue l x)
  exact ⟨u.drawPin l, by simp only [envWriteValue, e, v],
    ht.update (State.drawPin_byEnv _ _) (State.drawPin_keepsOwn _ _) rfl rfl⟩

theorem envWriteValue_fails {s : State} {t : Turn} {rest : List Turn} {c : EnvCause} (h : s.env.script = t :: rest)
    (v : t.verdict = .fail c) (l : LineId) (x : Level) :
    ∃ u, envWriteValue s l x = (.fail (.env c), u) ∧ Turned s [.writeValue l x] rest u := by
  obtain ⟨u, e, ht, _⟩ := State.ask_turned h (.writeValue l x)
  exact ⟨u.drawPin l, by simp only [envWriteValue, e, v],
    ht.update (State.drawPin_byEnv _ _) (State.drawPin_keepsOwn _ _) rfl rfl⟩

/-- The turn of a wait whose turn is at the head of the script. -/
theorem envWaitTurn_turned {s : State} {t : Turn} {rest : List Turn} (h : s.env.script = t :: rest) (k : Slot) :
    ∃ u, envWaitTurn s k = (waitAnswerOf (u.slot k).latch t.verdict, u) ∧ Turned s [] rest u ∧
      (t.events = [] → u = { s with env := { s.env with script := rest } }) ∧
      u = t.events.foldl State.envStep { s with env := { s.env with script := rest } } := by
  obtain ⟨h1, h2⟩ := State.nextTurn_script h
  have e := State.nextTurn_cons h
  refine ⟨s.nextTurn.2, by simp only [envWaitTurn, h1],
    ⟨s.nextTurn_byEnv, s.nextTurn_keepsOwn, by rw [s.nextTurn_calls]; simp, h2⟩, fun q => by rw [e, q]; rfl, by rw [e]⟩

theorem envSpiOpen_granted {s : State} {t : Turn} {rest : List Turn} (h : s.env.script = t :: rest)
    (v : t.verdict = .ok) (p : BusPath) :
    ∃ u, envSpiOpen s p = (.ok, u) ∧ Turned s [.spiOpen p] rest u ∧ (t.events = [] → ∀ m, u.lineEnv m = s.lineEnv m) := by
  obtain ⟨u, e, ht, _, hq⟩ := State.ask_turned h (.spiOpen p)
  exact ⟨u, by simp only [envSpiOpen, e, v, ackOf, failureOf], ht, hq⟩

theorem envSpiSetMode_granted {s : State} {t : Turn} {rest : List Turn} (h : s.env.script = t :: rest)
    (v : t.verdict = .ok) (m : U8) (n : Bool) :
    ∃ u, envSpiSetMode s m n = (.ok, u) ∧ Turned s [.spiSetMode m n] rest u ∧
      (t.events = [] → ∀ l, u.lineEnv l = s.lineEnv l) := by
  obtain ⟨u, e, ht, _, hq⟩ := State.ask_turned h (.spiSetMode m n)
  exact ⟨u, by simp only [envSpiSetMode, e, v], ht, hq⟩

theorem envSpiSetMode_rejected {s : State} {t : Turn} {rest : List Turn} (h : s.env.script = t :: rest)
    (v : t.verdict = .rejected) (m : U8) (n : Bool) :
    ∃ u, envSpiSetMode s m n = (.rejected, u) ∧ Turned s [.spiSetMode m n] rest u := by
  obtain ⟨u, e, ht, _⟩ := State.ask_turned h (.spiSetMode m n)
  exact ⟨u, by simp only [envSpiSetMode, e, v], ht⟩

theorem envSpiSetMode_fails {s : State} {t : Turn} {rest : List Turn} {c : EnvCause} (h : s.env.script = t :: rest)
    (v : t.verdict = .fail c) (m : U8) (n : Bool) :
    ∃ u, envSpiSetMode s m n = (.fail (.env c), u) ∧ Turned s [.spiSetMode m n] rest u := by
  obtain ⟨u, e, ht, _⟩ := State.ask_turned h (.spiSetMode m n)
  exact ⟨u, by simp only [envSpiSetMode, e, v], ht⟩

theorem envSpiSetBits_granted {s : State} {t : Turn} {rest : List Turn} (h : s.env.script = t :: rest)
    (v : t.verdict = .ok) (b : U8) :
    ∃ u, envSpiSetBits s b = (.ok, u) ∧ Turned s [.spiSetBits b] rest u ∧
      (t.events = [] → ∀ l, u.lineEnv l = s.lineEnv l) := by
  obtain ⟨u, e, ht, _, hq⟩ := State.ask_turned h (.spiSetBits b)
  exact ⟨u, by simp only [envSpiSetBits, e, v, ackOf, failureOf], ht, hq⟩

theorem envSpiSetSpeed_granted {s : State} {t : Turn} {rest : List Turn} (h : s.env.script = t :: rest)
    (v : t.verdict = .ok) (hz : U32) :
    ∃ u, envSpiSetSpeed s hz = (.ok, u) ∧ Turned s [.spiSetSpeed hz] rest u ∧
      (t.events = [] → ∀ l, u.lineEnv l = s.lineEnv l) := by
  obtain ⟨u, e, ht, _, hq⟩ := State.ask_turned h (.spiSetSpeed hz)
  exact ⟨u, by simp only [envSpiSetSpeed, e, v, ackOf, failureOf], ht, hq⟩

theorem envSpiTransfer_granted {s : State} {t : Turn} {rest : List Turn} (h : s.env.script = t :: rest)
    (v : t.verdict = .ok) :
    ∃ u, envSpiTransfer s txBuffer = (.ok t.rx, u) ∧ Turned s [.spiTransfer FrameBuf.zero] rest u ∧
      (∀ l, s.drives l = true → (u.lineEnv l).pin = (s.lineEnv l).pin) := by
  obtain ⟨u, e, ht, hp, _⟩ := State.ask_turned h (.spiTransfer txBuffer) (by rintro _ ⟨⟩; rfl)
  exact ⟨u, by simp only [envSpiTransfer, e, v, failureOf], ht, hp⟩

theorem envSpiTransfer_fails {s : State} {t : Turn} {rest : List Turn} {c : EnvCause} (h : s.env.script = t :: rest)
    (v : t.verdict = .fail c) :
    ∃ u, envSpiTransfer s txBuffer = (.fail (.env c), u) ∧ Turned s [.spiTransfer FrameBuf.zero] rest u := by
  obtain ⟨u, e, ht, _⟩ := State.ask_turned h (.spiTransfer txBuffer) (by rintro _ ⟨⟩; rfl)
  exact ⟨u, by simp only [envSpiTransfer, e, v, failureOf], ht⟩

/-- A clock sample whose turn is at the head of the script. -/
theorem envClock_turned {s : State} {t : Turn} {rest : List Turn} (h : s.env.script = t :: rest) :
    ∃ u, envClock s = (clockSample s.env.clock t.time, u) ∧ Turned s [.clock] rest u ∧
      (∀ l, s.drives l = true → (u.lineEnv l).pin = (s.lineEnv l).pin) ∧
      u.env.clock = if clockSample s.env.clock t.time = 0 then s.env.clock else clockSample s.env.clock t.time := by
  obtain ⟨u, e, ht, hp, _⟩ := State.ask_turned h .clock
  have hc : u.env.clock = s.env.clock := by
    have := s.ask_clock .clock
    rwa [e] at this
  obtain ⟨b, o, _⟩ := envClock_cases s
  have e' : envClock s = (clockSample s.env.clock t.time,
      { u with env := { u.env with clock := if clockSample s.env.clock t.time = 0 then s.env.clock
                                            else clockSample s.env.clock t.time } }) := by
    simp only [envClock, e, hc]
  rw [e'] at b o
  exact ⟨_, e', ⟨b, o, ht.calls, ht.script⟩, hp, rfl⟩

theorem envDelay_turned {s : State} {t : Turn} {rest : List Turn} (h : s.env.script = t :: rest) (us : Nat) :
    Turned s [.delay us] rest (envDelay s us) ∧
      (∀ l, s.drives l = true → ((envDelay s us).lineEnv l).pin = (s.lineEnv l).pin) := by
  obtain ⟨u, e, ht, hp, _⟩ := State.ask_turned h (.delay us)
  have : envDelay s us = u := by simp only [envDelay, e]
  rw [this]
  exact ⟨ht, hp⟩

end Sys2Proof.Machine
end

