-- ==== Sys2Proof/Laws/PerInstr.lean ====
section
/-! SUPPORT. Statements about every instruction as syntax, one lemma for each constructor. -/

namespace Sys2Proof.Laws

/-- The header word of an instruction is not reserved: its opcode has a command, and every field the command does not use
and every bit of [31:12] is 0 (30_encoding.md R81, R87). -/
def HeaderIsUnreserved.Statement (i : Instr) : Prop := Machine.reservedHeader (encodeHeader i) = false

theorem HeaderIsUnreserved.lineAcquire (k : Slot) (d : Dir) (v : Bool) (l : LineId) :
    Statement (.lineAcquire k d v l) := by
  show Machine.reservedHeader (0x10#32 ||| k.field ||| d.field ||| bitAt 10 v) = false
  cases k <;> cases d <;> cases v <;> decide

theorem HeaderIsUnreserved.lineWait (k : Slot) (ms : U32) : Statement (.lineWait k ms) := by
  show Machine.reservedHeader (0x11#32 ||| k.field) = false
  cases k <;> decide

theorem HeaderIsUnreserved.lineGet (k : Slot) : Statement (.lineGet k) := by cases k <;> rfl

theorem HeaderIsUnreserved.lineSet (k : Slot) (v : Level) : Statement (.lineSet k v) := by
  cases k <;> cases v <;> rfl

theorem HeaderIsUnreserved.lineRelease (k : Slot) : Statement (.lineRelease k) := by cases k <;> rfl

theorem HeaderIsUnreserved.spiOpen (path : BusPath) (hz : U32) (mode : U8) (noCs : Bool) :
    Statement (.spiOpen path hz mode noCs) := by
  show Machine.reservedHeader 0x20#32 = false
  decide

theorem HeaderIsUnreserved.spiXfer (len : U32) : Statement (.spiXfer len) := by
  show Machine.reservedHeader 0x21#32 = false
  decide

theorem HeaderIsUnreserved.spiClose : Statement .spiClose := rfl

theorem HeaderIsUnreserved.acqOpen (cfg : Option DeviceConfig) : Statement (.acqOpen cfg) := by
  show Machine.reservedHeader (0x30#32 ||| bitAt 11 cfg.isSome) = false
  generalize cfg.isSome = b
  cases b <;> decide

theorem HeaderIsUnreserved.acqStart : Statement .acqStart := rfl

theorem HeaderIsUnreserved.acqRead (p : Bool) : Statement (.acqRead p) := by cases p <;> rfl

theorem HeaderIsUnreserved.acqRaw (p : Bool) : Statement (.acqRaw p) := by cases p <;> rfl

theorem HeaderIsUnreserved.acqStop : Statement .acqStop := rfl

theorem HeaderIsUnreserved.acqClose : Statement .acqClose := rfl

end Sys2Proof.Laws
end

