-- ==== Sys2Proof/Laws/Reads.lean ====
section
/-! SUPPORT. What the underlying calls of a frame read say about it: the clock is sampled twice by a read that completes
and at most once by one that fails (43_acquisition.md R171), a latch stays clear while the line does not fall, and a pin
that this block drives stays where it is (10_state.md R33). -/

namespace Sys2Proof.Machine

/-! ### Clock samples -/

/-- `n` of the underlying calls made between `s` and `t` are clock samples. -/
def Sampled (n : Nat) (s t : State) : Prop := ∃ cs, t.calls = s.calls ++ cs ∧ cs.count .clock = n

theorem Sampled.refl (s : State) : Sampled 0 s s := ⟨[], by simp, rfl⟩

theorem Sampled.of_eq {s t : State} (h : t.calls = s.calls) : Sampled 0 s t := ⟨[], by simp [h], rfl⟩

theorem Sampled.clock {s t : State} (h : t.calls = s.calls ++ [.clock]) : Sampled 1 s t := ⟨[.clock], h, rfl⟩

theorem Sampled.other {s t : State} (c : Call) (h : t.calls = s.calls ++ [c]) (hc : c ≠ .clock) : Sampled 0 s t :=
  ⟨[c], h, by simp [hc]⟩

theorem Sampled.trans {m n : Nat} {s t u : State} (h : Sampled m s t) (h' : Sampled n t u) : Sampled (m + n) s u := by
  obtain ⟨cs, h1, h2⟩ := h
  obtain ⟨cs', h3, h4⟩ := h'
  exact ⟨cs ++ cs', by rw [h3, h1, List.append_assoc], by rw [List.count_append, h2, h4]⟩

theorem clearLatch_sampled (k : Slot) (l : LineId) (s : State) : Sampled 0 s (clearLatch k l s).2 := by
  have h : (clearLatch k l s).2.calls = s.calls ++ [.readValue l] := by
    rcases (clearLatch_cases k l s).2.2 with ⟨_, h⟩ | ⟨_, h⟩ <;> rw [h] <;> simp [State.ask_calls]
  exact .other _ h (by simp)

theorem waitPoll_sampled (k : Slot) (l : LineId) (s : State) :
    (waitPoll k l s).Holds (fun _ t => Sampled 0 s t) (fun _ t => Sampled 0 s t) := by
  have h : Sampled 0 s (envWaitTurn s k).2 := .of_eq (State.nextTurn_calls s)
  unfold waitPoll
  generalize envWaitTurn s k = r at *
  obtain ⟨a, u⟩ := r
  cases a with
  | edge =>
    have h' := clearLatch_sampled k l u
    simp only
    generalize clearLatch k l u = q at *
    obtain ⟨b, v⟩ := q
    cases b <;> exact h.trans h'
  | timeout => exact h
  | fail c => exact h
  | silent => exact h

theorem lineWaitBody_sampled (k : Slot) (ms : U32) (s : State) :
    (lineWaitBody k ms s).Holds (fun _ t => Sampled 0 s t) (fun _ t => Sampled 0 s t) := by
  unfold lineWaitBody
  split
  · exact .refl s
  · split
    · split
      · trivial
      · rename_i l _
        have h := clearLatch_sampled k l s
        generalize clearLatch k l s = q at *
        obtain ⟨b, v⟩ := q
        cases b with
        | fail c => exact h
        | ok =>
          have e : Sampled 0 v (v.logCall (.waitEdge k ms)) := .other _ rfl (by simp)
          exact (waitPoll_sampled k l _).mono (fun _ _ g => (h.trans e).trans g) (fun _ _ g => (h.trans e).trans g)
    · trivial

theorem lineWaitResume_sampled (k : Slot) (s : State) :
    (lineWaitResume k s).Holds (fun _ t => Sampled 0 s t) (fun _ t => Sampled 0 s t) := by
  unfold lineWaitResume
  split
  · trivial
  · exact waitPoll_sampled k _ s

/-- The clock samples of a read by its end: two after OK, at most one after an error (43_acquisition.md R171). -/
def ReadSamples (s : State) (p : Response) (t : State) : Prop :=
  ∃ n, Sampled n s t ∧ (p.code = .ok → n = 2) ∧ (p.code ≠ .ok → n ≤ 1)

theorem spiExchange_sampled (s : State) : Sampled 0 s (spiExchange s).2 := by
  unfold spiExchange
  split
  · exact .refl s
  · have e := State.ask_calls s (.spiTransfer txBuffer)
    simp only [envSpiTransfer]
    generalize s.ask (.spiTransfer txBuffer) = q at *
    cases failureOf q.1.verdict <;> exact .other _ e (by simp)

theorem readAfterEdge_samples (s : State) : (readAfterEdge s).Holds (ReadSamples s) (fun _ _ => False) := by
  have h1 : Sampled 1 s (envClock s).2 := .clock (State.ask_calls s .clock)
  unfold readAfterEdge
  generalize envClock s = c0 at *
  obtain ⟨t0, u⟩ := c0
  have h2 := spiExchange_sampled u
  have he := (spiExchange_cases u).2.2
  simp only
  generalize spiExchange u = r at *
  obtain ⟨a, v⟩ := r
  have h2 := h1.trans h2
  rcases he with ⟨rx, he⟩ | ⟨c, he⟩ | ⟨he, _⟩ <;> simp only at he <;> subst he
  · have h3 : Sampled 1 v (envClock v).2 := .clock (State.ask_calls v .clock)
    simp only
    generalize envClock v = c1 at *
    obtain ⟨t1, w⟩ := c1
    have e : (warnOverrun t0 t1 w).calls = w.calls := by unfold warnOverrun; split <;> rfl
    exact ⟨_, (h2.trans h3).trans (.of_eq e), fun _ => rfl, fun h => absurd rfl h⟩
  · exact ⟨_, h2, fun h => (by cases h), fun _ => le_rfl⟩
  · exact ⟨_, h2, fun h => (by cases h), fun _ => le_rfl⟩

/-- After a wait, which samples nothing, a read samples as its rest does. -/
theorem readAfterWait_samples {s : State} {r : Ran} (w : Inflight)
    (h : r.Holds (fun _ t => Sampled 0 s t) (fun _ t => Sampled 0 s t)) :
    ((r.blockedAs w).andThen readAfterEdge).Holds (ReadSamples s) (fun _ t => Sampled 0 s t) := by
  refine (h.blockedAs (w := w) (fun _ _ g => g)).andThen (fun o t g => ?_) (fun p t hp g => ?_) (fun _ _ g => g)
  · refine (readAfterEdge_samples t).mono ?_ (by simp)
    rintro p u ⟨n, h1, h2⟩
    exact ⟨_, g.trans h1, by simpa using h2⟩
  · exact ⟨0, g, fun e => absurd e hp, fun _ => Nat.zero_le 1⟩

/-- The clock samples of `READ_BODY`. -/
theorem readBody_samples (w : Inflight) (s : State) :
    (readBody w s).Holds (ReadSamples s) (fun _ t => Sampled 0 s t) :=
  readAfterWait_samples w (lineWaitBody_sampled .drdy s.cfg.timeoutMs s)

/-- The clock samples of a read from its wait on. -/
theorem readResume_samples (w : Inflight) (s : State) :
    (readResume w s).Holds (ReadSamples s) (fun _ t => Sampled 0 s t) :=
  readAfterWait_samples w (lineWaitResume_sampled .drdy s)

theorem lineSetBody_sampled (k : Slot) (v : Level) (s : State) :
    (lineSetBody k v s).Holds (fun _ t => Sampled 0 s t) (fun _ _ => False) := by
  unfold lineSetBody
  split
  · exact .refl s
  · split
    · exact .refl s
    · split
      · trivial
      · rename_i l _
        have h : Sampled 0 s (envWriteValue s l v).2 := by
          refine .other (.writeValue l v) ?_ (by simp)
          have e := State.ask_calls s (.writeValue l v)
          simp only [envWriteValue]
          split <;> exact e
        have draw : ∀ u : State, Sampled 0 u (drawLevel k u) := fun u => .of_eq (by simp [drawLevel])
        generalize envWriteValue s l v = r at *
        obtain ⟨a, u⟩ := r
        cases a with
        | ok => exact h.trans (.of_eq (by simp))
        | short => exact h.trans (draw u)
        | fail c => exact h.trans (draw u)

/-- The sync pulse samples nothing (43_acquisition.md R167). -/
theorem syncPulse_sampled (s : State) : (syncPulse s).Holds (fun _ t => Sampled 0 s t) (fun _ _ => False) := by
  unfold syncPulse
  refine (lineSetBody_sampled .sync false s).andThen (fun o t h => ?_) (fun _ _ _ h => h) (by simp)
  have d : Sampled 0 t (envDelay t params.syncPulseUs) := .other _ (State.ask_calls t _) (by simp)
  exact (lineSetBody_sampled .sync true _).mono (fun _ _ g => (h.trans d).trans g) (by simp)

/-! ### A latch that stays clear -/

/-- A step of the environment that is no fall of the slot's line leaves a clear latch clear. -/
theorem State.envStep_quiet (s : State) (e : EnvEvent) (k : Slot) {l : LineId} (hl : (s.slot k).line = some l)
    (he : e ≠ .pinFall l) (h : (s.slot k).latch = false) : ((s.envStep e).slot k).latch = false := by
  cases e with
  | pinFall m =>
    have hm : m ≠ l := fun q => he (q ▸ rfl)
    simp only [State.envStep]
    split
    · exact h
    · cases k <;> simp_all [State.slot, State.drivePin, LineSlot.onDrive, LineSlot.watches, Ne.symm hm]
  | pinRise m =>
    simp only [State.envStep]
    split
    · exact h
    · cases k <;> simp_all [State.slot, State.drivePin, LineSlot.onDrive]
  | otherReserve m => cases k <;> exact h
  | otherRelease m => simp only [State.envStep]; split <;> cases k <;> exact h

theorem foldl_envStep_quiet (es : List EnvEvent) (s : State) (k : Slot) {l : LineId} (hl : (s.slot k).line = some l)
    (he : .pinFall l ∉ es) (h : (s.slot k).latch = false) : ((es.foldl State.envStep s).slot k).latch = false := by
  induction es generalizing s with
  | nil => exact h
  | cons e es ih =>
    have h1 := not_or.1 (fun q => he (List.mem_cons.2 q))
    exact ih _ (((s.envStep_byEnv e).line k).trans hl) h1.2 (s.envStep_quiet e k hl (Ne.symm h1.1) h)

/-! ### Pins that this block drives -/

/-- Every pin that this block drives in `s` is where it was. -/
def KeepsDriven (s t : State) : Prop := ∀ l, s.drives l = true → (t.lineEnv l).pin = (s.lineEnv l).pin

theorem KeepsDriven.refl (s : State) : KeepsDriven s s := fun _ _ => rfl

theorem KeepsDriven.trans {s t u : State} (h : KeepsDriven s t) (b : ByEnv s t) (h' : KeepsDriven t u) :
    KeepsDriven s u := fun l hl => (h' l ((b.drives l).trans hl)).trans (h l hl)

theorem State.nextTurn_keepsDriven (s : State) : KeepsDriven s s.nextTurn.2 := by
  intro l hl
  unfold State.nextTurn
  split
  · exact foldl_envStep_pin _ { s with env := { s.env with script := _ } } l hl
  · exact foldl_envStep_pin _ { s with env := { s.env with free := s.env.free + 1 } } l hl

theorem State.ask_keepsDriven (s : State) (c : Call) : KeepsDriven s (s.ask c).2 :=
  (s.logCall c).nextTurn_keepsDriven

theorem clearLatch_keepsDriven (k : Slot) (l : LineId) (s : State) : KeepsDriven s (clearLatch k l s).2 := by
  intro m hm
  rcases (clearLatch_cases k l s).2.2 with ⟨_, h⟩ | ⟨_, h⟩ <;> rw [h]
  · exact s.ask_keepsDriven _ m hm
  · rw [State.lineEnv_setSlot]; exact s.ask_keepsDriven _ m hm

theorem waitPoll_keepsDriven (k : Slot) (l : LineId) (s : State) :
    (waitPoll k l s).Holds (fun _ t => KeepsDriven s t) (fun _ t => KeepsDriven s t) := by
  have h : KeepsDriven s (envWaitTurn s k).2 := s.nextTurn_keepsDriven
  have b := (envWaitTurn_byEnv s k).1
  unfold waitPoll
  generalize envWaitTurn s k = r at *
  obtain ⟨a, u⟩ := r
  cases a with
  | edge =>
    have h' := clearLatch_keepsDriven k l u
    simp only
    generalize clearLatch k l u = q at *
    obtain ⟨c, v⟩ := q
    cases c <;> exact h.trans b h'
  | timeout => exact h
  | fail c => exact h
  | silent => exact h

theorem lineWaitBody_keepsDriven (k : Slot) (ms : U32) (s : State) :
    (lineWaitBody k ms s).Holds (fun _ t => KeepsDriven s t) (fun _ t => KeepsDriven s t) := by
  unfold lineWaitBody
  split
  · exact .refl s
  · split
    · split
      · trivial
      · rename_i l _
        have h := clearLatch_keepsDriven k l s
        have b := (clearLatch_cases k l s).1
        generalize clearLatch k l s = q at *
        obtain ⟨c, v⟩ := q
        cases c with
        | fail c => exact h
        | ok =>
          exact (waitPoll_keepsDriven k l (v.logCall (.waitEdge k ms))).mono (fun _ _ g => h.trans b g)
            (fun _ _ g => h.trans b g)
    · trivial

theorem lineWaitResume_keepsDriven (k : Slot) (s : State) :
    (lineWaitResume k s).Holds (fun _ t => KeepsDriven s t) (fun _ t => KeepsDriven s t) := by
  unfold lineWaitResume
  split
  · trivial
  · exact waitPoll_keepsDriven k _ s

theorem readAfterEdge_keepsDriven (s : State) :
    (readAfterEdge s).Holds (fun _ t => KeepsDriven s t) (fun _ _ => False) := by
  have clock : ∀ u : State, KeepsDriven u (envClock u).2 := fun u => u.ask_keepsDriven .clock
  have exchange : ∀ u : State, KeepsDriven u (spiExchange u).2 := by
    intro u
    unfold spiExchange
    split
    · exact .refl u
    · have e := u.ask_keepsDriven (.spiTransfer txBuffer)
      simp only [envSpiTransfer]
      generalize u.ask (.spiTransfer txBuffer) = q at *
      cases failureOf q.1.verdict <;> exact e
  have warn : ∀ (a b : U64) (w : State) (x : FrameBuf) (n : U64),
      KeepsDriven w { warnOverrun a b w with raw := x, seq := n } := by
    intro a b w x n l _
    show (({ warnOverrun a b w with raw := x, seq := n } : State).lineEnv l).pin = _
    unfold warnOverrun; split <;> rfl
  unfold readAfterEdge
  have h1 := clock s
  have b1 := (envClock_cases s).1
  generalize envClock s = c0 at *
  obtain ⟨t0, u⟩ := c0
  have h2 := exchange u
  have b2 := (spiExchange_cases u).1
  simp only
  generalize spiExchange u = r at *
  obtain ⟨a, v⟩ := r
  have h2 := h1.trans b1 h2
  cases a with
  | failed c => exact h2
  | received rx =>
    have h3 := clock v
    have b3 := (envClock_cases v).1
    simp only
    generalize envClock v = c1 at *
    obtain ⟨t1, w⟩ := c1
    exact (h2.trans (b1.trans b2) h3).trans ((b1.trans b2).trans b3) (warn t0 t1 w rx _)

/-- After a wait, which keeps the driven pins, a read keeps them. -/
theorem readAfterWait_keepsDriven {s : State} {r : Ran} (w : Inflight)
    (h : r.Holds (fun _ t => ByEnv s t ∧ KeepsDriven s t) (fun _ t => KeepsDriven s t)) :
    ((r.blockedAs w).andThen readAfterEdge).Holds (fun _ t => KeepsDriven s t) (fun _ t => KeepsDriven s t) :=
  (h.blockedAs (w := w) (fun _ _ g => g)).andThen
    (fun _ t g => (readAfterEdge_keepsDriven t).mono (fun _ _ k => g.2.trans g.1 k) (by simp)) (fun _ _ _ g => g.2)
    (fun _ _ g => g)

theorem readBody_keepsDriven (w : Inflight) (s : State) :
    (readBody w s).Holds (fun _ t => KeepsDriven s t) (fun _ t => KeepsDriven s t) :=
  readAfterWait_keepsDriven w (((lineWaitBody_holds .drdy s.cfg.timeoutMs s).and
    (lineWaitBody_keepsDriven .drdy s.cfg.timeoutMs s)).mono (fun _ _ g => ⟨g.1.1, g.2⟩) (fun _ _ g => g.2))

theorem readResume_keepsDriven (w : Inflight) (s : State) :
    (readResume w s).Holds (fun _ t => KeepsDriven s t) (fun _ t => KeepsDriven s t) :=
  readAfterWait_keepsDriven w (((lineWaitResume_holds .drdy s).and (lineWaitResume_keepsDriven .drdy s)).mono
    (fun _ _ g => ⟨g.1.1, g.2⟩) (fun _ _ g => g.2))

end Sys2Proof.Machine
end

