-- ==== Sys2Proof/Tests/Slice0.lean ====
section
/-! SUPPORT. Tests: the vectors of 95_test_vectors.md (their ids stand in the comments), and for every statement of
Certificates/Slice0/Obligations.lean that has hypotheses a concrete state and operands that meet them. -/

namespace Sys2Proof.Machine

/-! ### Small states -/

/-- A turn that grants its call. -/
def tTurn (v : Verdict := .ok) (es : List EnvEvent := []) (time : U64 := 0) (rx : FrameBuf := FrameBuf.zero) : Turn :=
  { events := es, verdict := v, rx := rx, time := time }

/-- `n` turns that grant their calls. -/
def tOk (n : Nat) : List Turn := List.replicate n tTurn

/-- Lines 7 (at 1) and 9 (at 0), reserved or not. -/
def tLines (r7 r9 : Bool) : List (LineId × LineEnv) :=
  [(7, { reserved := r7, pin := true, dir := none, edge := none }), (9, { reserved := r9, pin := false, dir := none, edge := none })]

/-- After reset, with both lines free. -/
def tIdle (script : List Turn) : State :=
  { State.reset with env := { EnvState.atReset with lines := tLines false false, script := script } }

/-- DRDY acquired on line 7 (the end state of G-AQ1), the latch as given. -/
def tDrdy (latch : Bool := false) : LineSlot :=
  { line := some 7, exportedByUs := true, handle := some .input, dir := some .input, edge := some .falling, level := false,
    latch := latch }

/-- SYNC acquired on line 9 at level 1 (the end state of G-AQ5). -/
def tSync : LineSlot :=
  { line := some 9, exportedByUs := true, handle := some .output, dir := some .output, edge := none, level := true,
    latch := false }

/-- Closed, both slots acquired and the SPI handle open, by host commands. -/
def tHeld (script : List Turn) : State :=
  { tIdle script with
    drdy := tDrdy, sync := tSync, spi := { SpiState.atReset with isOpen := true, bitsPerWord := 8 },
    env := { EnvState.atReset with lines := tLines true true, script := script } }

/-- Configuration c1 of 95_test_vectors.md with the defaults applied, its path "p". -/
def tConfig : DeviceConfig :=
  { busPath := some "p", clockHz := 1000000, mode := 0, noCs := false, drdyLine := some 7, syncLine := some 9,
    syncEnable := true, settleFrames := 2, timeoutMs := 2000 }

/-- `Opened` with c1. -/
def tOpened (script : List Turn) : State := { tHeld script with isOpen := true, cfg := tConfig }

/-- `Started` with c1, the counter at 5. -/
def tStarted (script : List Turn) : State := { tOpened script with started := true, seq := 5 }

/-- The state after a command. -/
def tRan (i : Instr) (s : State) : State :=
  match exec i s with
  | .next t => t
  | .fault _ => s
  | .refused _ => s

/-- The state after a step. -/
def tStep (s : State) : State :=
  match step s with
  | .next t => t
  | .fault _ => s
  | .refused _ => s

/-- The received bytes of A-RD1. -/
def tBytes : FrameBuf :=
  #v[0x00, 0x00, 0x01, 0xFF, 0xFF, 0xFF, 0x80, 0x00, 0x00, 0x7F, 0xFF, 0xFF, 0x12, 0x34, 0x56, 0x00, 0x00, 0x00, 0x00, 0x00,
    0x00, 0x00, 0x00, 0x00]

/-- A whole pulse of line 7. -/
def tPulse : List EnvEvent := [.pinRise 7, .pinFall 7]

/-- The turns of one read of line 7, sampled at `t0` and `t1`. -/
def tRead (t0 t1 : U64) (rx : FrameBuf := FrameBuf.zero) : ReadTurns :=
  { clear := tTurn, wait := tTurn .ok tPulse, again := tTurn, before := tTurn .ok [] t0, exchange := tTurn .ok [] 0 rx,
    after := tTurn .ok [] t1 }

/-! ### Ill-formed instructions are refused by the check -/

theorem test_wellFormed_edge_selector : Instr.wellFormed (.lineAcquire .drdy .input true 7) = false := by decide

theorem test_wellFormed_length : Instr.wellFormed (.spiXfer 12) = false ∧ Instr.wellFormed (.spiXfer 24) = true := by
  decide

theorem test_wellFormed_lines : Instr.wellFormed (.acqOpen (some { tConfig with syncLine := some 7 })) = false ∧
    Instr.wellFormed (.acqOpen (some tConfig)) = true := by
  decide

/-! ### Decoding: the words of 30_encoding.md R102 and of 95_test_vectors.md E-1 to E-21 -/

theorem test_decode_lineAcquire : decode 0x00000310#32 (.line 9) = some (.lineAcquire .sync .output false 9) ∧
    decode 0x00000410#32 (.line 7) = some (.lineAcquire .drdy .input true 7) := by
  decide

theorem test_decode_lineWait : decode 0x00000111#32 (.timeout 5) = some (.lineWait .sync 5) := by decide

theorem test_decode_lineGet : decode 0x00000012#32 .empty = some (.lineGet .drdy) ∧ decode 0x00000212#32 .empty = none := by
  decide

theorem test_decode_lineSet : decode 0x00000413#32 .empty = some (.lineSet .drdy true) := by decide

theorem test_decode_lineRelease : decode 0x00000114#32 .empty = some (.lineRelease .sync) := by decide

theorem test_decode_spi : decode 0x00000020#32 (.endpoint "p" 1000000 0 true) = some (.spiOpen "p" 1000000 0 true) ∧
    decode 0x00000021#32 (.length 24) = some (.spiXfer 24) ∧ decode 0x00000022#32 .empty = some .spiClose ∧
    decode 0x00000120#32 (.endpoint "p" 1000000 0 true) = none := by
  decide

theorem test_decode_acqOpen : decode 0x00000830#32 (.config tConfig) = some (.acqOpen (some tConfig)) ∧
    decode 0x00000030#32 .empty = some (.acqOpen none) := by
  decide

theorem test_decode_acq : decode 0x00000031#32 .empty = some .acqStart ∧ decode 0x00000831#32 .empty = none ∧
    decode 0x00000832#32 .empty = some (.acqRead true) ∧ decode 0x00000033#32 .empty = some (.acqRaw false) ∧
    decode 0x00000034#32 .empty = some .acqStop ∧ decode 0x00000035#32 .empty = some .acqClose := by
  decide

theorem test_decode_reserved :
    [0x15#32, 0x23#32, 0x36#32, 0xFF#32, 0x00#32, 0x1010#32, 0x80000035#32].map rowOf = List.replicate 7 none := by
  decide

theorem test_decodeTableWord : decodeTableWord 32 0x713 = none ∧ decodeTableWord 32 0x513 = some (.lineSet .sync true) := by
  decide

/-! ### Data: 95_test_vectors.md W1 to W4, section 3 and the record vector -/

theorem test_decode24 : decode24 0x00 0x00 0x01 = 1 ∧ decode24 0xFF 0xFF 0xFF = -1 ∧
    decode24 0x80 0x00 0x00 = -8388608 ∧ decode24 0x7F 0xFF 0xFF = 8388607 ∧ decode24 0x40 0x00 0x00 = 4194304 ∧
    decode24 0xED 0xCB 0xAA = -1193046 := by
  decide

/-- The Frame of A-RD1's channels. -/
def tChannels : Channels := #v[1, -1, -8388608, 8388607, 1193046, 0, 0, 0]

theorem test_record : (Frame.record { seq := 2, ts := 1000, ch := tChannels }).toList.take 36 =
    [0x02, 0, 0, 0, 0, 0, 0, 0, 0xE8, 0x03, 0, 0, 0, 0, 0, 0, 0x01, 0, 0, 0, 0xFF, 0xFF, 0xFF, 0xFF, 0, 0, 0x80, 0xFF,
      0xFF, 0xFF, 0x7F, 0, 0x56, 0x34, 0x12, 0] := by
  decide

/-- 30_encoding.md R90. -/
theorem test_code_numbers : ResultCode.number .busy = 5 ∧ ResultCode.number (.ioFailure .notOutput) = 6 := by decide

/-- 00_scope.md R10: the sizes, and `FRAME_BYTES` as the product. -/
theorem test_sizes : frameBytes = 24 ∧ frameBytes = numChannels * bytesPerSample ∧ sampleBits = 8 * bytesPerSample ∧
    exchangePeriods = 192 ∧ recordBytes = 8 + 8 + 4 * numChannels := by
  decide

/-! ### One step of each instruction -/

/-- G-AQ1. -/
theorem test_lineAcquire_input : (tRan (.lineAcquire .drdy .input false 7) (tIdle (tOk 4))).drdy = tDrdy ∧
    ((tRan (.lineAcquire .drdy .input false 7) (tIdle (tOk 4))).lineEnv 7).reserved = true := by
  decide

/-- G-AQ4: the edge step fails. -/
theorem test_lineAcquire_fails :
    (tRan (.lineAcquire .drdy .input false 7) (tIdle (tOk 2 ++ [tTurn (.fail 3)]))).drdy =
      { tDrdy with handle := none, edge := none } ∧
    (tRan (.lineAcquire .drdy .input false 7) (tIdle (tOk 2 ++ [tTurn (.fail 3)]))).out =
      some ⟨.ioFailure (.env 3), .nothing⟩ := by
  decide

/-- G-WT1. -/
theorem test_lineWait_edge :
    (tRan (.lineWait .drdy 2000) (tHeld [tTurn, tTurn .ok [.pinFall 7], tTurn])).out = some ⟨.ok, .nothing⟩ := by
  decide

/-- G-WT2: the early edge does not count. -/
theorem test_lineWait_stale :
    (tRan (.lineWait .drdy 2000) { tHeld [tTurn, tTurn .timeout] with drdy := tDrdy true }).out =
      some ⟨.timedOut, .nothing⟩ := by
  decide

/-- G-GT1. -/
theorem test_lineGet : (tRan (.lineGet .drdy) (tHeld (tOk 1))).out = some ⟨.ok, .level true⟩ := by decide

/-- G-ST1. -/
theorem test_lineSet : (tRan (.lineSet .sync false) (tHeld (tOk 1))).sync.level = false ∧
    ((tRan (.lineSet .sync false) (tHeld (tOk 1))).lineEnv 9).pin = false := by
  decide

/-- G-ST4. -/
theorem test_lineSet_short :
    (tRan (.lineSet .sync false) (tHeld [tTurn .short])).out = some ⟨.ioFailure .shortWrite, .nothing⟩ := by
  decide

/-- G-RL1. -/
theorem test_lineRelease : (tRan (.lineRelease .drdy) (tHeld (tOk 2))).calls = [.closeValue 7, .unreserve 7] ∧
    ((tRan (.lineRelease .drdy) (tHeld (tOk 2))).lineEnv 7).reserved = false := by
  decide

/-- G-RL5: the reservation leaks. -/
theorem test_lineRelease_leaks :
    ((tRan (.lineRelease .drdy) (tHeld [tTurn, tTurn (.fail 1)])).lineEnv 7).reserved = true ∧
    (tRan (.lineRelease .drdy) (tHeld [tTurn, tTurn (.fail 1)])).drdy.line = none := by
  decide

/-- S-OP3: the fallback. -/
theorem test_spiOpen_fallback : (tRan (.spiOpen "p" 1000000 0 true) (tIdle ([tTurn, tTurn .rejected] ++ tOk 3))).spi =
    { isOpen := true, path := "p", mode := 0, noCs := false, bitsPerWord := 8, maxHz := 1000000 } := by
  decide

/-- S-OP7: a failing bits step closes the endpoint. -/
theorem test_spiOpen_fails : (tRan (.spiOpen "p" 1000000 3 false) (tIdle (tOk 2 ++ [tTurn (.fail 1), tTurn]))).calls =
    [.spiOpen "p", .spiSetMode 3 false, .spiSetBits 8, .spiClose] := by
  decide

/-- S-XF1. -/
theorem test_spiXfer :
    (tRan (.spiXfer 24) (tHeld [tTurn .ok [] 0 tBytes])).out = some ⟨.ok, .bytes tBytes⟩ := by
  decide

/-- S-XF4. -/
theorem test_spiXfer_length : (tRan (.spiXfer 12) (tHeld (tOk 1))).refused = true ∧
    (tRan (.spiXfer 12) (tHeld (tOk 1))).calls = [] := by
  decide

/-- S-CL1. -/
theorem test_spiClose : (tRan .spiClose (tHeld (tOk 1))).spi.isOpen = false ∧
    (tRan .spiClose (tRan .spiClose (tHeld (tOk 2)))).calls = [.spiClose] := by
  decide

/-- A-OP1 and its calls, with c1. -/
theorem test_acqOpen : (tRan (.acqOpen (some tConfig)) (tIdle (tOk 12))).driverState = .opened ∧
    (tRan (.acqOpen (some tConfig)) (tIdle (tOk 12))).sync = tSync := by
  decide

/-- A-OP8: the initial level fails; everything is torn down. -/
theorem test_acqOpen_fails :
    ((tRan (.acqOpen (some tConfig)) (tIdle (tOk 10 ++ [tTurn (.fail 4)] ++ tOk 4))).calls).drop 11 =
      [.spiClose, .closeValue 7, .unreserve 7, .unreserve 9] ∧
    ((tRan (.acqOpen (some tConfig)) (tIdle (tOk 10 ++ [tTurn (.fail 4)] ++ tOk 4))).lineEnv 9).reserved = false := by
  decide

/-- A-ST4. -/
theorem test_acqStart :
    (tRan .acqStart (tOpened (tOk 3 ++ (tRead 100 200).list ++ (tRead 300 400 tBytes).list))).seq = 2 ∧
    (tRan .acqStart (tOpened (tOk 3 ++ (tRead 100 200).list ++ (tRead 300 400 tBytes).list))).raw = tBytes := by
  decide

/-- A-ST6: the second settle read times out. -/
theorem test_acqStart_fails :
    (tRan .acqStart (tOpened (tOk 3 ++ (tRead 100 200).list ++ [tTurn, tTurn .timeout]))).driverState = .opened ∧
    (tRan .acqStart (tOpened (tOk 3 ++ (tRead 100 200).list ++ [tTurn, tTurn .timeout]))).seq = 1 := by
  decide

/-- A-RD1. -/
theorem test_acqRead : (tRan (.acqRead true) (tStarted (tRead 1000 200000 tBytes).list)).out =
    some ⟨.ok, .frame { seq := 5, ts := 1000, ch := tChannels }⟩ := by
  decide

/-- A-RD4 and A-RD5: the warning needs more than 5,000,000 ns. -/
theorem test_acqRead_overrun : (tRan (.acqRead true) (tStarted (tRead 1000000 6000000).list)).diag = [] ∧
    (tRan (.acqRead true) (tStarted (tRead 1000000 6000001).list)).diag = [.overrunWarning 5000001] := by
  decide

/-- A-RW2. -/
theorem test_acqRaw : (tRan (.acqRaw true) { tOpened [] with raw := tBytes }).out = some ⟨.ok, .bytes tBytes⟩ := by decide

/-- A-SP1. -/
theorem test_acqStop : (tRan .acqStop (tStarted [])).driverState = .opened ∧ (tRan .acqStop (tStarted [])).seq = 5 := by
  decide

/-- A-CL1. -/
theorem test_acqClose : (tRan .acqClose { tStarted (tOk 5) with raw := tBytes }).calls =
      [.spiClose, .closeValue 7, .unreserve 7, .closeValue 9, .unreserve 9] ∧
    (tRan .acqClose { tStarted (tOk 5) with raw := tBytes }).raw = FrameBuf.zero := by
  decide

/-- A reserved word is refused by a step, and the next command is taken. -/
theorem test_step_reserved : (tStep { tIdle [] with pending := [⟨0x15, .empty⟩] }).refused = true ∧
    (tStep { tIdle [] with pending := [⟨0x15, .empty⟩] }).cp = 1 := by
  decide

/-! ### The hypotheses of every statement can be met -/

/-- A LINE.WAIT that is blocked. -/
def tWaiting (script : List Turn) : State := { tHeld script with inflight := some (.lineWait .drdy) }

/-- An ACQ.READ that is blocked. -/
def tReading (script : List Turn) : State := { tStarted script with inflight := some .acqRead }

/-- An ACQ.START that is blocked in its first settle read. -/
def tSettling (script : List Turn) : State :=
  { tOpened script with started := true, inflight := some (.acqStart 1) }

/-- A command handed over. -/
def tHanded (s : State) (i : Instr) : State := { s with pending := [encode i] }

theorem tLines_wf (r7 r9 : Bool) : LineTable.wf (tLines r7 r9) := by cases r7 <;> cases r9 <;> decide

theorem tDrdy_coherent : tDrdy.Coherent :=
  ⟨fun h => (by cases h), fun _ => ⟨rfl, rfl⟩, fun h => (by cases h), fun _ => rfl⟩

theorem tSync_coherent : tSync.Coherent :=
  ⟨fun h => (by cases h), fun h => (by cases h), fun _ => rfl, fun h => (by cases h)⟩

theorem tHeld_reserved (script : List Turn) (l : LineId) (h : (tHeld script).owns l = true) :
    ((tHeld script).lineEnv l).reserved = true := by
  have e : (some 7 == some l && true || some 9 == some l && true) = true := h
  simp only [Bool.and_true, Bool.or_eq_true, beq_iff_eq, Option.some.injEq] at e
  rcases e with rfl | rfl <;> rfl

theorem test_inv_held : (tHeld []).Inv :=
  ⟨fun h => (by cases h), fun _ => ⟨rfl, rfl⟩, fun h => (by cases h), fun _ => rfl, tDrdy_coherent, tSync_coherent,
    tHeld_reserved [], fun _ _ h => (by cases h), trivial, by decide⟩

theorem test_inv_waiting : (tWaiting (tOk 1)).Inv :=
  ⟨fun h => (by cases h), fun _ => ⟨rfl, rfl⟩, fun h => (by cases h), fun _ => rfl, tDrdy_coherent, tSync_coherent,
    tHeld_reserved (tOk 1), fun _ _ h => (by cases h), ⟨rfl, rfl⟩, by decide⟩

theorem test_inv_reading : (tReading (tOk 1)).Inv :=
  ⟨fun _ => rfl, fun h => (by cases h),
    fun _ => ⟨rfl, rfl, rfl, fun _ => ⟨rfl, rfl⟩, fun h => (by cases h), fun _ h => (by cases h), fun h => (by cases h), by decide,
      by decide⟩,
    fun _ => rfl, tDrdy_coherent, tSync_coherent, tHeld_reserved (tOk 1), fun _ _ h => (by cases h), rfl, by decide⟩

theorem test_inv_settling : (tSettling (tOk 1)).Inv :=
  ⟨fun _ => rfl, fun h => (by cases h),
    fun _ => ⟨rfl, rfl, rfl, fun _ => ⟨rfl, rfl⟩, fun h => (by cases h), fun _ h => (by cases h), fun h => (by cases h), by decide,
      by decide⟩,
    fun _ => rfl, tDrdy_coherent, tSync_coherent, tHeld_reserved (tOk 1), fun _ _ h => (by cases h), ⟨rfl, rfl⟩, by decide⟩

theorem tPulse_pulses (v : Verdict) : Pulses (tTurn v tPulse) 7 := ⟨[], [], rfl⟩

theorem tRead_delivers (t0 t1 : U64) (rx : FrameBuf) : (tRead t0 t1 rx).Delivers 7 :=
  ⟨rfl, fun _ h => (by cases h), tPulse_pulses .ok, rfl, rfl⟩

theorem tStarted_ready (script : List Turn) : (tStarted script).ReadyToRead 7 :=
  ⟨rfl, fun h => (by cases h), rfl, rfl, rfl⟩

theorem tOpened_ready (script : List Turn) : (tOpened script).ReadyToRead 7 :=
  ⟨rfl, fun h => (by cases h), rfl, rfl, rfl⟩

theorem witness_DecodeInvertsEncode : decode 0x00000413#32 .empty = some (.lineSet .drdy true) ∧
    encode (.lineSet .drdy true) = { header := 0x00000413#32, payload := .empty } := by
  decide

theorem witness_ReservedWordsMatchNoRow : rowOf 0x00000212#32 = none ∧ reservedHeader 0x00000212#32 = true ∧
    (⟨.lineGet, 0xFFFFFEFF, 0x00000012⟩ : OpRow) ∈ opRows ∧
    OpRow.hits ⟨.lineGet, 0xFFFFFEFF, 0x00000012⟩ 0x00000112#32 = true := by
  decide

theorem witness_StepRunsTheDecodedInstruction :
    ((tHanded (tHeld (tOk 1)) (.lineGet .drdy)).inflight = none ∧
      (tHanded (tHeld (tOk 1)) (.lineGet .drdy)).pending = [⟨0x00000012, .empty⟩] ∧
      decode 0x00000012 .empty = some (.lineGet .drdy)) ∧
    (tWaiting []).inflight = some (.lineWait .drdy) ∧ ((tIdle []).inflight = none ∧ (tIdle []).pending = []) := by
  decide

theorem witness_ReservedWordIsRefused : ({ tIdle [] with pending := [⟨0x80000035, .empty⟩] } : State).inflight = none ∧
    ({ tIdle [] with pending := [⟨0x80000035, .empty⟩] } : State).pending = ⟨0x80000035, .empty⟩ :: [] ∧
    reservedHeader 0x80000035 = true := by
  decide

theorem witness_EveryStepKeepsTheInvariant :
    ((tWaiting (tOk 1)).Inv ∧ step (tWaiting (tOk 1)) = .next (tStep (tWaiting (tOk 1)))) ∧
    ((tReading (tOk 1)).Inv ∧ step (tReading (tOk 1)) = .next (tStep (tReading (tOk 1)))) ∧
    ((tSettling (tOk 1)).Inv ∧ step (tSettling (tOk 1)) = .next (tStep (tSettling (tOk 1)))) :=
  ⟨⟨test_inv_waiting, rfl⟩, ⟨test_inv_reading, rfl⟩, test_inv_settling, rfl⟩

theorem witness_CommandsReturnTheirCodes :
    ((tIdle []).inflight = none ∧ exec (.lineGet .drdy) (tIdle []) = .next (tRan (.lineGet .drdy) (tIdle []))) ∧
    ((tReading (tOk 1)).inflight = some .acqRead ∧ Inflight.acqRead.belongsTo (.acqRead true) ∧
      step (tReading (tOk 1)) = .next (tStep (tReading (tOk 1)))) :=
  ⟨⟨rfl, rfl⟩, rfl, rfl, rfl⟩

theorem witness_RefusalIsStickyAndChangesNothingElse :
    (step (tHanded { tHeld [] with refused := true } .acqStop) =
        .next (tStep (tHanded { tHeld [] with refused := true } .acqStop)) ∧
      (tHanded { tHeld [] with refused := true } .acqStop).refused = true) ∧
    (step (tHanded (tHeld []) (.spiXfer 12)) = .next (tStep (tHanded (tHeld []) (.spiXfer 12))) ∧
      (tStep (tHanded (tHeld []) (.spiXfer 12))).cp = 0 + 1 ∧ (tStep (tHanded (tHeld []) (.spiXfer 12))).out = none) ∧
    ((tHeld []).inflight = none ∧ (tHeld []).refused = false ∧
      exec (.spiXfer 12) (tHeld []) = .next (tRan (.spiXfer 12) (tHeld [])) ∧
      (tRan (.spiXfer 12) (tHeld [])).refused = true) :=
  ⟨⟨rfl, rfl⟩, ⟨rfl, by decide, by decide⟩, rfl, rfl, rfl, by decide⟩

theorem witness_CommandIndexAdvancesByOne :
    (step (tHanded (tHeld []) .acqStop) = .next (tStep (tHanded (tHeld []) .acqStop)) ∧
      (tStep (tHanded (tHeld []) .acqStop)).cp = 1) ∧
    (step (tWaiting [tTurn .silent]) = .next (tStep (tWaiting [tTurn .silent])) ∧
      (tStep (tWaiting [tTurn .silent])).cp = 0) :=
  ⟨⟨rfl, by decide⟩, rfl, by decide⟩

theorem witness_DriverStateMoves :
    (exec (.acqOpen (some tConfig)) (tIdle (tOk 12)) = .next (tRan (.acqOpen (some tConfig)) (tIdle (tOk 12))) ∧
      (tRan (.acqOpen (some tConfig)) (tIdle (tOk 12))).driverState = .opened) ∧
    (exec .acqStop (tStarted []) = .next (tRan .acqStop (tStarted [])) ∧ (tRan .acqStop (tStarted [])).driverState = .opened) ∧
    (exec .acqClose (tStarted (tOk 5)) = .next (tRan .acqClose (tStarted (tOk 5))) ∧
      (tRan .acqClose (tStarted (tOk 5))).driverState = .closed) :=
  ⟨⟨rfl, by decide⟩, ⟨rfl, by decide⟩, rfl, by decide⟩

theorem witness_ConfigurationsAreImmutableWhileOpen :
    (step (tHanded (tStarted []) .acqStop) = .next (tStep (tHanded (tStarted []) .acqStop)) ∧
      (tHanded (tStarted []) .acqStop).isOpen = true ∧ (tStep (tHanded (tStarted []) .acqStop)).isOpen = true) ∧
    (exec (.acqOpen (some tConfig)) (tIdle (tOk 12)) = .next (tRan (.acqOpen (some tConfig)) (tIdle (tOk 12))) ∧
      (tIdle (tOk 12)).isOpen = false ∧ (tRan (.acqOpen (some tConfig)) (tIdle (tOk 12))).isOpen = true) ∧
    (step (tHanded (tHeld (tOk 1)) .spiClose) = .next (tStep (tHanded (tHeld (tOk 1)) .spiClose)) ∧
      (tHanded (tHeld (tOk 1)) .spiClose).spi.isOpen = true) :=
  ⟨⟨rfl, rfl, by decide⟩, ⟨rfl, rfl, by decide⟩, rfl, rfl⟩

theorem witness_TimestampsNeverDecrease :
    step (tHanded (tStarted (tRead 1000 2000).list) (.acqRead true)) =
      .next (tStep (tHanded (tStarted (tRead 1000 2000).list) (.acqRead true))) ∧
    (tStep (tHanded (tStarted (tRead 1000 2000).list) (.acqRead true))).cp = 0 + 1 ∧
    (tStep (tHanded (tStarted (tRead 1000 2000).list) (.acqRead true))).out =
      some ⟨.ok, .frame { seq := 5, ts := 1000, ch := Vector.replicate 8 0 }⟩ :=
  ⟨rfl, by decide, by decide⟩

theorem witness_TracesOnlyGrowAndTransmitZeros :
    step (tHanded (tHeld (tOk 1)) (.spiXfer 24)) = .next (tStep (tHanded (tHeld (tOk 1)) (.spiXfer 24))) ∧
    (tStep (tHanded (tHeld (tOk 1)) (.spiXfer 24))).calls = [.spiTransfer FrameBuf.zero] :=
  ⟨rfl, by decide⟩

theorem witness_PrimitivesAreRefusedWhileOpen : (tOpened []).isOpen = true := rfl

theorem witness_LineCommandsStayInTheirSlot :
    exec (.lineAcquire .drdy .input false 7) (tIdle (tOk 4)) =
      .next (tRan (.lineAcquire .drdy .input false 7) (tIdle (tOk 4))) ∧
    exec (.lineWait .drdy 5) (tHeld (tOk 3)) = .next (tRan (.lineWait .drdy 5) (tHeld (tOk 3))) ∧
    exec (.lineGet .drdy) (tHeld (tOk 1)) = .next (tRan (.lineGet .drdy) (tHeld (tOk 1))) ∧
    exec (.lineSet .sync false) (tHeld (tOk 1)) = .next (tRan (.lineSet .sync false) (tHeld (tOk 1))) ∧
    exec (.lineRelease .sync) (tHeld (tOk 2)) = .next (tRan (.lineRelease .sync) (tHeld (tOk 2))) :=
  ⟨rfl, rfl, rfl, rfl, rfl⟩

theorem witness_SpiCommandsLeaveTheRest :
    exec (.spiOpen "p" 1 0 false) (tIdle (tOk 4)) = .next (tRan (.spiOpen "p" 1 0 false) (tIdle (tOk 4))) ∧
    exec (.spiXfer 24) (tHeld (tOk 1)) = .next (tRan (.spiXfer 24) (tHeld (tOk 1))) ∧
    exec .spiClose (tHeld (tOk 1)) = .next (tRan .spiClose (tHeld (tOk 1))) :=
  ⟨rfl, rfl, rfl⟩

/-- Line 7 at level 1 and not driven, line 9 driven and at level 0. -/
theorem witness_FallingEdgeSetsTheLatch : (tHeld []).drives 7 = false ∧ ((tHeld []).lineEnv 7).pin = true ∧
    ((tHeld []).slot .drdy).line = some 7 ∧ ((tHeld []).slot .drdy).detectsFalling = true ∧
    ((tHeld []).slot .drdy).handle ≠ none ∧ ((tHeld []).slot .sync).line ≠ some 7 ∧
    ((tHeld []).slot .sync).detectsFalling = false ∧ (tHeld []).drives 9 = true ∧ ((tHeld []).lineEnv 9).pin = false := by
  decide

theorem witness_AnswersMeetTheirConstraints : (envReserve (tIdle (tOk 1)) 7).1 = .ok ∧
    (envReserve (tHeld (tOk 1)) 7).1 = .busy ∧
    (envWaitTurn (tHeld [tTurn .ok [.pinFall 7]]) .drdy).1 = .edge ∧
    (envWaitTurn (tHeld [tTurn .timeout]) .drdy).1 = .timeout ∧
    (tHeld [tTurn (.fail 2)]).nextTurn.1.verdict = .fail 2 ∧
    (envWaitTurn (tHeld [tTurn .silent]) .drdy).1 = .silent := by
  decide

theorem witness_AcquireInputCompletes : (tIdle (tOk 4)).isOpen = false ∧ ((tIdle (tOk 4)).slot .drdy).line = none ∧
    (tIdle (tOk 4)).env.script = [tTurn, tTurn, tTurn, tTurn] ∧ AllGranted [tTurn, tTurn, tTurn, tTurn] ∧
    (tTurn).events = [] := by
  decide

theorem witness_AcquireOutputCompletes : (tIdle (tOk 4)).isOpen = false ∧ ((tIdle (tOk 4)).slot .sync).line = none ∧
    (tIdle (tOk 4)).env.script = [tTurn, tTurn, tTurn, tTurn] ∧ AllGranted [tTurn, tTurn, tTurn, tTurn] ∧
    (tTurn).events = [] := by
  decide

/-- At the first step and at the last. -/
theorem witness_FailedAcquireKeepsTheStepsDone :
    (tIdle [tTurn (.fail 1)]).isOpen = false ∧ ((tIdle [tTurn (.fail 1)]).slot .drdy).Empty ∧
    (tIdle [tTurn (.fail 1)]).env.script = [] ++ tTurn (.fail 1) :: [] ∧
    ((tIdle (tOk 3 ++ [tTurn (.fail 1)])).slot .sync).Empty ∧
    (tIdle (tOk 3 ++ [tTurn (.fail 1)])).env.script = tOk 3 ++ tTurn (.fail 1) :: [] ∧ (tOk 3).length ≤ 3 ∧
    AllGranted (tOk 3) ∧ (∀ x ∈ tOk 3, x.events = []) ∧ (tTurn (.fail 1)).verdict = .fail 1 :=
  ⟨rfl, ⟨rfl, rfl, rfl, rfl, rfl, rfl⟩, rfl, ⟨rfl, rfl, rfl, rfl, rfl, rfl⟩, rfl, by decide, by decide, by decide, rfl⟩

theorem witness_LineCommandsCheckTheirSlot : (tHeld []).isOpen = false ∧ ((tHeld []).slot .drdy).line ≠ none ∧
    ((tIdle []).slot .drdy).handle = none ∧
    (((tHeld []).slot .sync).handle ≠ none ∧ ((tHeld []).slot .sync).detectsFalling = false) ∧
    ((tHeld []).slot .drdy).handle = some .input := by
  decide

/-- By a pulse, and from a level that was 1. -/
theorem witness_WaitCompletesOnAnEdge :
    ((tHeld [tTurn, tTurn .ok tPulse, tTurn]).isOpen = false ∧
      ((tHeld [tTurn, tTurn .ok tPulse, tTurn]).slot .drdy).line = some 7 ∧
      ((tHeld [tTurn, tTurn .ok tPulse, tTurn]).slot .drdy).handle ≠ none ∧
      ((tHeld [tTurn, tTurn .ok tPulse, tTurn]).slot .drdy).detectsFalling = true ∧
      (tHeld [tTurn, tTurn .ok tPulse, tTurn]).drives 7 = false ∧ (tTurn).verdict = .ok) ∧
    (∀ c, (tTurn .ok tPulse).verdict ≠ .fail c) ∧
    FallsIn (tHeld [tTurn, tTurn .ok tPulse, tTurn]) 7 tTurn (tTurn .ok tPulse) ∧
    FallsIn (tHeld [tTurn, tTurn .ok [.pinFall 7], tTurn]) 7 tTurn (tTurn .ok [.pinFall 7]) :=
  ⟨by decide, fun _ h => (by cases h), .inl (tPulse_pulses .ok), .inr ⟨rfl, rfl, [], rfl⟩⟩

theorem witness_StaleEdgeIsDiscarded :
    ({ tHeld [tTurn, tTurn .timeout] with drdy := tDrdy true } : State).isOpen = false ∧
    (tHeld [tTurn, tTurn .silent]).env.script = [tTurn, tTurn .silent] ∧ (tDrdy true).line = some 7 ∧
    (tDrdy true).handle ≠ none ∧ (tDrdy true).detectsFalling = true ∧ (tTurn).verdict = .ok ∧
    (tTurn .timeout).events = [] ∧ (tTurn .timeout).verdict = .timeout ∧ (tTurn .silent).verdict = .silent := by
  decide

/-- Each clause: an edge, a timeout, no answer, a failing wait, and an edge whose second clear fails. -/
theorem witness_BlockedWaitGoesOn :
    ((tWaiting [tTurn .ok tPulse, tTurn]).inflight = some (.lineWait .drdy) ∧
      ((tWaiting [tTurn .ok tPulse, tTurn]).slot .drdy).line = some 7 ∧
      ((tWaiting [tTurn .ok tPulse, tTurn]).slot .drdy).handle ≠ none ∧
      ((tWaiting [tTurn .ok tPulse, tTurn]).slot .drdy).detectsFalling = true ∧
      (tWaiting [tTurn .ok tPulse, tTurn]).drives 7 = false ∧
      (tWaiting [tTurn .ok tPulse, tTurn]).env.script = tTurn .ok tPulse :: [tTurn]) ∧
    (∀ c, (tTurn .ok tPulse).verdict ≠ .fail c) ∧ Pulses (tTurn .ok tPulse) 7 ∧
    (((tWaiting [tTurn .timeout]).slot .drdy).latch = false ∧ (tTurn .timeout).events = [] ∧
      (tTurn .timeout).verdict = .timeout) ∧
    ((tTurn .silent).events = [] ∧ (tTurn .silent).verdict = .silent) ∧
    ((tWaiting [tTurn (.fail 2) tPulse]).env.script = tTurn (.fail 2) tPulse :: [] ∧
      (tTurn (.fail 2) tPulse).verdict = .fail 2) ∧
    ((tWaiting [tTurn .ok tPulse, tTurn (.fail 3)]).env.script = tTurn .ok tPulse :: [tTurn (.fail 3)] ∧
      (tTurn (.fail 3)).verdict = .fail 3) :=
  ⟨by decide, fun _ h => (by cases h), tPulse_pulses .ok, by decide, by decide, by decide, by decide⟩

theorem witness_WaitFailsAtTheFailingCall :
    ((tHeld [tTurn (.fail 2), tTurn, tTurn]).isOpen = false ∧
      ((tHeld [tTurn (.fail 2), tTurn, tTurn]).slot .drdy).line = some 7 ∧
      ((tHeld [tTurn (.fail 2), tTurn, tTurn]).slot .drdy).handle ≠ none ∧
      ((tHeld [tTurn (.fail 2), tTurn, tTurn]).slot .drdy).detectsFalling = true ∧
      (tHeld [tTurn (.fail 2), tTurn, tTurn]).drives 7 = false ∧
      (tHeld [tTurn (.fail 2), tTurn, tTurn]).env.script = [tTurn (.fail 2), tTurn, tTurn]) ∧
    (tTurn (.fail 2)).verdict = .fail 2 ∧ (tTurn).verdict = .ok ∧
    FallsIn (tHeld [tTurn, tTurn .ok tPulse, tTurn (.fail 2)]) 7 tTurn (tTurn .ok tPulse) :=
  ⟨by decide, rfl, rfl, .inl (tPulse_pulses .ok)⟩

theorem witness_GetReturnsThePin : (tHeld (tOk 1)).isOpen = false ∧ ((tHeld (tOk 1)).slot .drdy).line = some 7 ∧
    ((tHeld (tOk 1)).slot .drdy).handle ≠ none ∧ (tHeld (tOk 1)).env.script = [tTurn] ∧ (tTurn).verdict = .ok ∧
    (tTurn).events = [] := by
  decide

theorem witness_GetAndSetFailures : (tHeld [tTurn (.fail 2)]).isOpen = false ∧
    ((tHeld [tTurn (.fail 2)]).slot .sync).line = some 9 ∧ ((tHeld [tTurn (.fail 2)]).slot .sync).handle = some .output ∧
    (tHeld [tTurn (.fail 2)]).env.script = [tTurn (.fail 2)] ∧ (tTurn (.fail 2)).verdict = .fail 2 ∧
    (tHeld [tTurn .short]).env.script = [tTurn .short] ∧ (tTurn .short).verdict = .short := by
  decide

theorem witness_SetDrivesTheLine : (tHeld (tOk 1)).isOpen = false ∧ ((tHeld (tOk 1)).slot .sync).line = some 9 ∧
    ((tHeld (tOk 1)).slot .sync).handle = some .output ∧ (tHeld (tOk 1)).env.script = [tTurn] ∧ (tTurn).verdict = .ok ∧
    (tTurn).events = [] := by
  decide

theorem witness_ReleaseEmptiesTheSlot : (tHeld []).isOpen = false ∧ (tIdle []).isOpen = false := ⟨rfl, rfl⟩

theorem tHeld_inv (script : List Turn) : (tHeld script).Inv :=
  ⟨fun h => (by cases h), fun _ => ⟨rfl, rfl⟩, fun h => (by cases h), fun _ => rfl, tDrdy_coherent, tSync_coherent,
    tHeld_reserved script, fun _ _ h => (by cases h), trivial, tLines_wf true true⟩

theorem witness_ReleaseAndTheReservation :
    (tHeld [tTurn, tTurn (.fail 2)]).Inv ∧
    ((tHeld [tTurn, tTurn (.fail 2)]).isOpen = false ∧ ((tHeld [tTurn, tTurn (.fail 2)]).slot .drdy).line = some 7 ∧
      ((tHeld [tTurn, tTurn (.fail 2)]).slot .drdy).handle ≠ none ∧
      ((tHeld [tTurn, tTurn (.fail 2)]).slot .drdy).exportedByUs = true ∧ (tTurn (.fail 2)).verdict = .fail 2 ∧
      (tTurn).verdict = .ok) ∧
    ({ tHeld (tOk 1) with drdy := { tDrdy with exportedByUs := false } } : State).drdy.exportedByUs = false ∧
    ({ tHeld (tOk 1) with drdy := { tDrdy with exportedByUs := false } } : State).env.script = [tTurn] ∧
    (tTurn).events = [] :=
  ⟨tHeld_inv _, by decide, rfl, rfl, rfl⟩

theorem witness_SpiOpenCompletes : (tIdle (tOk 4)).isOpen = false ∧ (tIdle (tOk 4)).spi.isOpen = false ∧
    (tIdle (tOk 4)).env.script = [tTurn, tTurn, tTurn, tTurn] ∧ AllGranted [tTurn, tTurn, tTurn, tTurn] := by
  decide

theorem witness_NoChipSelectIsRetriedOnce :
    (tIdle ([tTurn, tTurn .rejected] ++ tOk 3)).isOpen = false ∧
    (tIdle ([tTurn, tTurn .rejected] ++ tOk 3)).spi.isOpen = false ∧
    (tIdle ([tTurn, tTurn .rejected] ++ tOk 3)).env.script = tTurn :: tTurn .rejected :: tTurn :: [tTurn, tTurn] ∧
    AllGranted [tTurn, tTurn, tTurn] ∧ (tTurn).verdict = .ok ∧ (tTurn .rejected).verdict = .rejected ∧
    (tTurn (.fail 2)).verdict = .fail 2 := by
  decide

theorem witness_FailingSpiOpenClosesTheHandle : (tIdle [tTurn (.fail 2)]).spi.isOpen = false ∧
    exec (.spiOpen "p" 1 0 true) (tIdle [tTurn (.fail 2)]) = .next (tRan (.spiOpen "p" 1 0 true) (tIdle [tTurn (.fail 2)])) ∧
    (tRan (.spiOpen "p" 1 0 true) (tIdle [tTurn (.fail 2)])).out = some ⟨.ioFailure (.env 2), .nothing⟩ ∧
    (tRan (.spiOpen "p" 1 0 false) (tIdle (tOk 3 ++ [tTurn (.fail 2), tTurn]))).out =
      some ⟨.ioFailure (.env 2), .nothing⟩ :=
  ⟨rfl, rfl, by decide, by decide⟩

theorem witness_ExchangeReturnsTheBytes : (tHeld (tOk 1)).isOpen = false ∧ (tHeld (tOk 1)).spi.isOpen = true ∧
    (tHeld (tOk 1)).env.script = [tTurn] ∧ (tTurn).verdict = .ok := by
  decide

/-- The lengths next to 24 are refused. -/
theorem witness_ExchangeFailures : (tIdle []).isOpen = false ∧ (23 : U32) ≠ 24 ∧ (25 : U32) ≠ 24 ∧
    (tIdle []).spi.isOpen = false ∧ (tHeld [tTurn (.fail 2)]).spi.isOpen = true ∧
    (tHeld [tTurn (.fail 2)]).env.script = [tTurn (.fail 2)] ∧ (tTurn (.fail 2)).verdict = .fail 2 := by
  decide

theorem witness_SpiCloseNeverFails : (tHeld (tOk 1)).isOpen = false ∧ (tHeld (tOk 1)).spi.isOpen = true ∧
    (tIdle []).isOpen = false ∧ (tIdle []).spi.isOpen = false := by
  decide

theorem witness_AcquisitionOpensWithoutSync : (tIdle (tOk 8)).Unused ∧
    ({ tConfig with syncEnable := false } : DeviceConfig).drdyLine = some 7 ∧
    ({ tConfig with syncEnable := false } : DeviceConfig).syncEnable = false ∧
    (tIdle (tOk 8)).env.script = tOk 8 ++ [] ∧ (tOk 8).length = 8 ∧ AllGranted (tOk 8) ∧ ∀ x ∈ tOk 8, x.events = [] :=
  ⟨⟨rfl, rfl, rfl, rfl⟩, rfl, rfl, rfl, rfl, by decide, by decide⟩

theorem witness_AcquisitionOpensWithSync : (tIdle (tOk 12)).Unused ∧ tConfig.drdyLine = some 7 ∧
    tConfig.syncEnable = true ∧ tConfig.syncLine = some 9 ∧ (9 : LineId) ≠ 7 ∧
    (tIdle (tOk 12)).env.script = tOk 12 ++ [] ∧ (tOk 12).length = 12 ∧ AllGranted (tOk 12) ∧
    ∀ x ∈ tOk 12, x.events = [] :=
  ⟨⟨rfl, rfl, rfl, rfl⟩, rfl, rfl, rfl, by decide, rfl, rfl, by decide, by decide⟩

theorem witness_LinesAreCheckedFirst : (tIdle []).Unused ∧ DeviceConfig.blank.drdyLine = none ∧
    (tConfig.drdyLine = some 7 ∧ tConfig.syncEnable = true ∧
      ({ tConfig with syncLine := none } : DeviceConfig).syncLine = none ∧
      ({ tConfig with syncLine := some 7 } : DeviceConfig).syncLine = some 7) :=
  ⟨⟨rfl, rfl, rfl, rfl⟩, rfl, rfl, rfl, rfl, rfl⟩

theorem witness_ArgumentIsCheckedBeforeState : (tOpened []).isOpen = true ∧ (tOpened []).started = false ∧
    (tHeld []).isOpen = false ∧ ¬ (tHeld []).Unused :=
  ⟨rfl, rfl, rfl, fun h => (by cases h.spi)⟩

theorem tIdle_inv (script : List Turn) : (tIdle script).Inv :=
  ⟨fun h => (by cases h), fun _ => ⟨rfl, rfl⟩, fun h => (by cases h), fun h => (by cases h),
    ⟨fun _ => ⟨rfl, rfl, rfl, rfl, rfl, rfl⟩, fun h => (by cases h), fun h => (by cases h), fun h => (by cases h)⟩,
    ⟨fun _ => ⟨rfl, rfl, rfl, rfl, rfl, rfl⟩, fun h => (by cases h), fun h => (by cases h), fun h => (by cases h)⟩,
    fun _ h => (by cases h), fun h => (by cases h), trivial, tLines_wf false false⟩

theorem witness_FailingOpenTearsDown : (tIdle (tOk 10 ++ [tTurn (.fail 4)] ++ tOk 4)).Inv ∧
    (tIdle (tOk 10 ++ [tTurn (.fail 4)] ++ tOk 4)).isOpen = false ∧
    exec (.acqOpen (some tConfig)) (tIdle (tOk 10 ++ [tTurn (.fail 4)] ++ tOk 4)) =
      .next (tRan (.acqOpen (some tConfig)) (tIdle (tOk 10 ++ [tTurn (.fail 4)] ++ tOk 4))) ∧
    (tRan (.acqOpen (some tConfig)) (tIdle (tOk 10 ++ [tTurn (.fail 4)] ++ tOk 4))).out =
      some ⟨.ioFailure (.env 4), .nothing⟩ :=
  ⟨tIdle_inv _, rfl, rfl, by decide⟩

/-- At the first step of the SYNC acquisition and at the last. -/
theorem witness_FailedSyncAcquisitionReleasesAll :
    (tIdle (tOk 8 ++ [] ++ tTurn (.fail 4) :: tOk 3)).Unused ∧ (tIdle []).drdy.Empty ∧ (tIdle []).sync.Empty ∧
    tConfig.drdyLine = some 7 ∧ tConfig.syncEnable = true ∧ tConfig.syncLine = some 9 ∧
    (tIdle (tOk 8 ++ tOk 3 ++ tTurn (.fail 4) :: tOk 4)).Unused ∧
    ((tOk 8).length = 8 ∧ (tOk 3).length ≤ 3 ∧ AllGranted (tOk 8) ∧ AllGranted (tOk 3) ∧
      (∀ x ∈ tOk 8, x.events = []) ∧ (∀ x ∈ tOk 3, x.events = []) ∧ (tTurn (.fail 4)).events = [] ∧
      (tTurn (.fail 4)).verdict = .fail 4 ∧ ((tIdle []).lineEnv 7).reserved = false ∧
      ((tIdle []).lineEnv 9).reserved = false ∧ ((∀ x ∈ (tOk 4).take 4, x.verdict = .ok ∧ x.events = []) ∧ 4 ≤ (tOk 4).length)) :=
  ⟨⟨rfl, rfl, rfl, rfl⟩, ⟨rfl, rfl, rfl, rfl, rfl, rfl⟩, ⟨rfl, rfl, rfl, rfl, rfl, rfl⟩, rfl, rfl, rfl,
    ⟨rfl, rfl, rfl, rfl⟩, by decide⟩

theorem witness_StartWithoutSync : (tIdle []).isOpen = false ∧ ((tStarted []).isOpen = true ∧ (tStarted []).started = true) ∧
    (({ tOpened [] with cfg := { tConfig with syncEnable := false } } : State).isOpen = true ∧
      ({ tOpened [] with cfg := { tConfig with syncEnable := false } } : State).started = false ∧
      ({ tOpened [] with cfg := { tConfig with syncEnable := false } } : State).cfg.syncEnable = false) := by
  decide

theorem tOpened_pulse (script : List Turn) : (tOpened script).ReadyToPulse 9 := ⟨rfl, rfl, rfl, rfl, rfl⟩

theorem tSettling_ready (script : List Turn) : (tSettling script).ReadyToRead 7 :=
  ⟨rfl, fun h => (by cases h), rfl, rfl, rfl⟩

theorem tUnanswered : UnansweredRead 7 tTurn (tTurn .silent [.pinRise 7]) := ⟨rfl, by decide, rfl⟩

theorem tRead_deliversEach : ∀ r ∈ [tRead 100 200, tRead 300 400], r.Delivers 7 :=
  List.forall_mem_cons.2 ⟨tRead_delivers .., List.forall_mem_cons.2 ⟨tRead_delivers .., fun _ h => (by cases h)⟩⟩

/-- With two settle frames and with none. -/
theorem witness_StartPulsesAndSettles :
    ((tOpened (tTurn :: tTurn :: tTurn :: ([tRead 100 200, tRead 300 400].flatMap ReadTurns.list ++ []))).ReadyToPulse 9 ∧
      (tOpened []).sync.dir = some .output ∧
      AllGranted [tTurn, tTurn, tTurn] ∧ [tRead 100 200, tRead 300 400].length = (tOpened []).cfg.settleFrames.toNat) ∧
    (tOpened (tTurn :: tTurn :: tTurn :: ([tRead 100 200, tRead 300 400].flatMap ReadTurns.list ++ []))).ReadyToRead 7 ∧
    (∀ r ∈ [tRead 100 200, tRead 300 400], r.Delivers 7) ∧
    ({ tOpened (tOk 3) with cfg := { tConfig with settleFrames := 0 } } : State).ReadyToRead 7 ∧
    ([] : List ReadTurns).length = ({ tConfig with settleFrames := 0 } : DeviceConfig).settleFrames.toNat :=
  ⟨⟨tOpened_pulse _, rfl, by decide, rfl⟩, tOpened_ready _,
    tRead_deliversEach, ⟨rfl, by decide, by decide, rfl, rfl⟩, rfl⟩

/-- The clauses of the blocked start: blocked in the first of two settle reads and in the last; taken up with one more
read due and with none; blocked again in the same read and in the one after it. -/
theorem witness_StartPulsesAndSettles_blocked :
    ((tOpened (tTurn :: tTurn :: tTurn :: ([].flatMap ReadTurns.list ++ tTurn :: tTurn .silent [.pinRise 7] :: []))).ReadyToPulse 9 ∧
      (tOpened (tTurn :: tTurn :: tTurn :: ([].flatMap ReadTurns.list ++ tTurn :: tTurn .silent [.pinRise 7] :: []))).ReadyToRead 7 ∧
      (tOpened []).sync.dir = some .output ∧ UnansweredRead 7 tTurn (tTurn .silent [.pinRise 7]) ∧
      ([] : List ReadTurns).length < (tOpened []).cfg.settleFrames.toNat ∧
      [tRead 100 200].length < (tOpened []).cfg.settleFrames.toNat ∧
      ∀ r ∈ [tRead 100 200, tRead 300 400], r.Delivers 7) ∧
    ((tSettling ((tRead 100 200).list.drop 1 ++ (tRead 300 400).list)).ReadyToRead 7 ∧
      (tSettling []).isOpen = true ∧ (tSettling []).started = true ∧
      (tSettling []).inflight = some (.acqStart [tRead 300 400].length) ∧
      (tSettling ((tRead 100 200).list.drop 1 ++ (tRead 300 400).list)).env.script =
        (tRead 100 200).wait :: (tRead 100 200).again :: (tRead 100 200).before :: (tRead 100 200).exchange ::
          (tRead 100 200).after :: ([tRead 300 400].flatMap ReadTurns.list ++ []) ∧
      ({ tSettling [] with inflight := some (.acqStart 0) } : State).inflight =
        some (.acqStart ([] : List ReadTurns).length)) ∧
    ((tSettling []).drdy.latch = false ∧ ([] : List ReadTurns).length ≤ 1 ∧ [tRead 100 200].length ≤ 1 ∧
      ([] : List ReadTurns).flatMap ReadTurns.list ++ [tTurn, tTurn .silent [.pinRise 7]] =
        tTurn :: [tTurn .silent [.pinRise 7]] ∧
      [tRead 100 200].flatMap ReadTurns.list ++ [tTurn, tTurn .silent [.pinRise 7]] =
        tTurn :: ((tRead 100 200).list.drop 1 ++ [tTurn, tTurn .silent [.pinRise 7]])) :=
  ⟨⟨tOpened_pulse _, tOpened_ready _, rfl, tUnanswered, by decide, by decide, tRead_deliversEach⟩,
    ⟨tSettling_ready _, rfl, rfl, rfl, rfl, rfl⟩, rfl, by decide, by decide, rfl, rfl⟩

/-- A read that fails at each of its calls. -/
theorem tFailingReads : FailingRead 7 [tTurn (.fail 1)] (.ioFailure (.env 1)) ∧
    FailingRead 7 [tTurn, tTurn (.fail 2)] (.ioFailure (.env 2)) ∧
    FailingRead 7 [tTurn, tTurn .timeout [.pinRise 7]] .timedOut ∧
    FailingRead 7 [tTurn, tTurn .ok tPulse, tTurn (.fail 3)] (.ioFailure (.env 3)) ∧
    FailingRead 7 [tTurn, tTurn .ok tPulse, tTurn, tTurn, tTurn (.fail 4)] (.ioFailure (.env 4)) :=
  ⟨.clear _ 1 rfl, .wait _ _ 2 rfl rfl, .timeout _ _ rfl (by decide) rfl,
    .again _ _ _ 3 rfl (fun _ h => (by cases h)) (tPulse_pulses .ok) rfl,
    .exchange _ _ _ _ _ 4 rfl (fun _ h => (by cases h)) (tPulse_pulses .ok) rfl rfl⟩

/-- A failing write at either end of the pulse; a failing read as the last of two settle reads; a start blocked in its
first settle read of two that fails in it, or in the one after it. -/
theorem witness_FailingStartRevertsOnlyStarted :
    (((tOpened [tTurn (.fail 2)]).isOpen = true ∧ (tRan .acqStart (tOpened [tTurn (.fail 2)])).inflight = none ∧
        (tRan .acqStart (tOpened [tTurn (.fail 2)])).out = some ⟨.ioFailure (.env 2), .nothing⟩) ∧
      exec .acqStart (tOpened [tTurn (.fail 2)]) = .next (tRan .acqStart (tOpened [tTurn (.fail 2)])) ∧
      ((tSettling [tTurn .timeout]).isOpen = true ∧ (tStep (tSettling [tTurn .timeout])).inflight = none ∧
        (tStep (tSettling [tTurn .timeout])).out = some ⟨.timedOut, .nothing⟩ ∧
        (tSettling [tTurn .timeout]).inflight = some (.acqStart 1)) ∧
      step (tSettling [tTurn .timeout]) = .next (tStep (tSettling [tTurn .timeout]))) ∧
    ((tOpened [tTurn (.fail 2)]).ReadyToPulse 9 ∧ FailingWrite (tTurn (.fail 2)) (.ioFailure (.env 2)) ∧
      (tOpened [tTurn, tTurn, tTurn .short]).ReadyToPulse 9 ∧ FailingWrite (tTurn .short) (.ioFailure .shortWrite)) ∧
    ((tOpened (tTurn :: tTurn :: tTurn :: ([tRead 100 200].flatMap ReadTurns.list ++ ([tTurn (.fail 1)] ++ [])))).ReadyToPulse 9 ∧
      (tOpened (tTurn :: tTurn :: tTurn :: ([tRead 100 200].flatMap ReadTurns.list ++ ([tTurn (.fail 1)] ++ [])))).ReadyToRead 7 ∧
      [tRead 100 200].length < (tOpened []).cfg.settleFrames.toNat ∧ (∀ r ∈ [tRead 100 200], r.Delivers 7) ∧
      FailingRead 7 [tTurn (.fail 1)] (.ioFailure (.env 1))) ∧
    ((tSettling [tTurn .timeout [.pinRise 7]]).ReadyToRead 7 ∧ (tSettling []).drdy.latch = false ∧
      ([] : List ReadTurns).flatMap ReadTurns.list ++ [tTurn, tTurn .timeout [.pinRise 7]] =
        tTurn :: [tTurn .timeout [.pinRise 7]] ∧ FailingRead 7 [tTurn, tTurn .timeout [.pinRise 7]] .timedOut ∧
      [tRead 100 200].length ≤ 1 ∧
      [tRead 100 200].flatMap ReadTurns.list ++ [tTurn (.fail 1)] =
        tTurn :: ((tRead 100 200).list.drop 1 ++ [tTurn (.fail 1)])) :=
  ⟨⟨by decide, rfl, by decide, rfl⟩,
    ⟨tOpened_pulse _, .fail 2 rfl, tOpened_pulse _, .short rfl⟩,
    ⟨tOpened_pulse _, tOpened_ready _, by decide, List.forall_mem_cons.2 ⟨tRead_delivers .., fun _ h => (by cases h)⟩,
      tFailingReads.1⟩,
    ⟨rfl, by decide, by decide, rfl, rfl⟩, rfl, rfl, tFailingReads.2.2.1, le_rfl, rfl⟩

theorem witness_ReadDeliversAFrame : (tStarted ((tRead 1000 2000 tBytes).list ++ [])).started = true ∧
    (tStarted ((tRead 1000 2000 tBytes).list ++ [])).ReadyToRead 7 ∧ (tRead 1000 2000 tBytes).Delivers 7 ∧
    (tStarted ((tRead 1000 2000 tBytes).list ++ [])).env.script = (tRead 1000 2000 tBytes).list ++ [] :=
  ⟨rfl, tStarted_ready _, tRead_delivers .., rfl⟩

/-- Each clause; the wait's turn moves the line, but not by a fall. -/
theorem witness_BlockedReadDeliversAFrame : ((tStarted [tTurn, tTurn .silent [.pinRise 7]]).started = true ∧
      (tStarted [tTurn, tTurn .silent [.pinRise 7]]).ReadyToRead 7 ∧ UnansweredRead 7 tTurn (tTurn .silent [.pinRise 7])) ∧
    ((tReading [tTurn .silent [.pinRise 7]]).ReadyToRead 7 ∧ (tReading []).drdy.latch = false ∧
      .pinFall 7 ∉ (tTurn .silent [.pinRise 7]).events ∧ (tTurn .silent [.pinRise 7]).verdict = .silent) ∧
    (tReading ((tRead 1000 2000 tBytes).list.drop 1)).inflight = some .acqRead ∧
    (tReading ((tRead 1000 2000 tBytes).list.drop 1)).ReadyToRead 7 ∧ (tRead 1000 2000 tBytes).Delivers 7 ∧
    (tReading ((tRead 1000 2000 tBytes).list.drop 1)).env.script =
      (tRead 1000 2000 tBytes).wait :: (tRead 1000 2000 tBytes).again :: (tRead 1000 2000 tBytes).before ::
        (tRead 1000 2000 tBytes).exchange :: (tRead 1000 2000 tBytes).after :: [] :=
  ⟨⟨rfl, tStarted_ready _, tUnanswered⟩, ⟨⟨rfl, by decide, by decide, rfl, rfl⟩, rfl, by decide, rfl⟩, rfl, ⟨rfl, by decide, by decide, rfl, rfl⟩, tRead_delivers .., rfl⟩

/-- With exactly 5,000,000 ns between the samples, with one more, and with an invalid sample. -/
theorem witness_OverrunOnlyWarns : (tStarted (tRead 1000000 6000000).list).ReadyToRead 7 ∧
    (tRead 1000000 6000000).Delivers 7 ∧
    ((tRead 1000000 6000000).before.time ≠ 0 ∧
      (tStarted (tRead 1000000 6000000).list).env.clock.toNat ≤ (tRead 1000000 6000000).before.time.toNat ∧
      (tRead 1000000 6000000).before.time.toNat ≤ (tRead 1000000 6000000).after.time.toNat) ∧
    (tRead 1000000 6000001).before.time.toNat ≤ (tRead 1000000 6000001).after.time.toNat ∧
    (tRead 0 9000000).before.time = 0 ∧ (tRead 1000 0).after.time = 0 :=
  ⟨tStarted_ready _, tRead_delivers .., by decide, by decide, rfl, rfl⟩

/-- The failing clauses at the first call and at the last, and of a blocked read at the wait and at the exchange. -/
theorem witness_ReadCommitsAllOrNothing :
    (exec (.acqRead true) (tStarted (tRead 1000 2000).list) = .next (tRan (.acqRead true) (tStarted (tRead 1000 2000).list)) ∧
      (tReading [tTurn .timeout]).inflight = some .acqRead ∧
      step (tReading [tTurn .timeout]) = .next (tStep (tReading [tTurn .timeout]))) ∧
    ((tStarted [tTurn (.fail 1)]).ReadyToRead 7 ∧ FailingRead 7 [tTurn (.fail 1)] (.ioFailure (.env 1)) ∧
      FailingRead 7 [tTurn, tTurn .ok tPulse, tTurn, tTurn, tTurn (.fail 4)] (.ioFailure (.env 4))) ∧
    ((tReading [tTurn (.fail 2)]).ReadyToRead 7 ∧ (tReading [tTurn (.fail 2)]).drdy.latch = false ∧
      FailingRead 7 (tTurn :: [tTurn (.fail 2)]) (.ioFailure (.env 2)) ∧ [tTurn (.fail 2)] ≠ []) :=
  ⟨⟨rfl, rfl, rfl⟩, ⟨tStarted_ready _, tFailingReads.1, tFailingReads.2.2.2.2⟩,
    ⟨rfl, by decide, by decide, rfl, rfl⟩, rfl, tFailingReads.2.1, by simp⟩

theorem witness_CloseIsIdempotent :
    exec .acqClose (tStarted (tOk 5)) = .next (tRan .acqClose (tStarted (tOk 5))) ∧ (tIdle []).Inv ∧ (tIdle []).Unused :=
  ⟨rfl, tIdle_inv _, rfl, rfl, rfl, rfl⟩

end Sys2Proof.Machine
end

section
/-! SUPPORT. What one step can do: a step is the end of a body (`finish`), and one lemma says of every command, and of
every blocked command taken up again, what its body leaves of the block, of the host's port and of the histories. The
statements about the machine as a whole are read off from it. -/

namespace Sys2Proof.Machine

/-! ### A step is the end of a body -/

/-- The body that the dispatch runs for each command, behind its ownership check (41_gpio_line.md R110). -/
def commandBody (i : Instr) (s : State) : Ran :=
  match i with
  | .lineAcquire k d v l => hostOnly s (lineAcquireBody k l d v s)
  | .lineWait k ms => hostOnly s (lineWaitBody k ms s)
  | .lineGet k => hostOnly s (lineGetBody k s)
  | .lineSet k v => hostOnly s (lineSetBody k v s)
  | .lineRelease k => hostOnly s (.ok (lineReleaseBody k s))
  | .spiOpen path hz mode noCs => hostOnly s (spiOpenBody path hz mode noCs s)
  | .spiXfer len => hostOnly s (spiXferBody len s)
  | .spiClose => hostOnly s (.ok (spiCloseBody s))
  | .acqOpen cfg => acqOpenBody cfg s
  | .acqStart => acqStartBody s
  | .acqRead p => acqReadBody p s
  | .acqRaw p => acqRawBody p s
  | .acqStop => acqStopBody s
  | .acqClose => .ok (acqCloseBody s)

theorem exec_eq_finish (i : Instr) (s : State) : exec i s = .next (finish s (commandBody i s)) := by
  cases i <;> rfl

theorem exec_next {i : Instr} {s t : State} (h : exec i s = .next t) : t = finish s (commandBody i s) := by
  rw [exec_eq_finish] at h
  exact (Host.Outcome.next.inj h).symm

theorem step_of_inflight {s : State} {w : Inflight} (h : s.inflight = some w) :
    step s = .next (finish s (resumeBody w s)) := by
  simp only [step, h, resume]

theorem step_of_idle {s : State} (h : s.inflight = none) (hp : s.pending = []) : step s = .next s := by
  simp only [step, h, hp]

theorem step_of_instr {s : State} {c : Command} {rest : List Command} {i : Instr} (h : s.inflight = none)
    (hp : s.pending = c :: rest) (hi : c.instr = some i) : step s = exec i s.popCommand := by
  simp only [step, h, hp, hi]

theorem step_of_undecodable {s : State} {c : Command} {rest : List Command} (h : s.inflight = none)
    (hp : s.pending = c :: rest) (hi : c.instr = none) : step s = .next s.popCommand.refuse := by
  simp only [step, h, hp, hi]

/-- The four ways of a step (10_state.md R21, 00_scope.md R15, 30_encoding.md R87, 70_reset_and_hazards.md R231). -/
inductive StepFrom (s t : State) : Prop
  | idle (h : t = s)
  | resumed (w : Inflight) (hw : s.inflight = some w) (h : t = finish s (resumeBody w s))
  | ran (i : Instr) (hn : s.inflight = none) (h : t = finish s.popCommand (commandBody i s.popCommand))
  | undecoded (hn : s.inflight = none) (h : t = s.popCommand.refuse)

theorem step_cases {s t : State} (h : step s = .next t) : StepFrom s t := by
  cases hw : s.inflight with
  | some w =>
    rw [step_of_inflight hw] at h
    exact .resumed w hw (Host.Outcome.next.inj h).symm
  | none =>
    cases hp : s.pending with
    | nil =>
      rw [step_of_idle hw hp] at h
      exact .idle (Host.Outcome.next.inj h).symm
    | cons c rest =>
      cases hi : c.instr with
      | some i =>
        rw [step_of_instr hw hp hi] at h
        exact .ran i hw (exec_next h)
      | none =>
        rw [step_of_undecodable hw hp hi] at h
        exact .undecoded hw (Host.Outcome.next.inj h).symm

/-! ### What a body leaves of the controller and of the SPI master -/

/-- A Frame among the outputs carries 0, or a time between the clock's bounds before and after (10_state.md R34,
43_acquisition.md R183). -/
def Response.Stamped (p : Response) (s t : State) : Prop :=
  ∀ f, p.output = .frame f →
    f.ts = 0 ∨ (s.env.clock.toNat ≤ f.ts.toNat ∧ f.ts.toNat ≤ t.env.clock.toNat)

theorem Response.Stamped.of_nothing {p : Response} (h : p.output = .nothing) (s t : State) : p.Stamped s t := by
  intro f hf
  rw [h] at hf
  cases hf

theorem ReadEnds.stamped {s t : State} {p : Response} (h : ReadEnds s p t) : p.Stamped s t := by
  rcases h with ⟨f, hp, _, _, _, hts⟩ | ⟨hout, _⟩
  · intro g hg
    rw [hp] at hg
    cases hg
    exact hts
  · exact .of_nothing hout s t

/-- An open SPI handle keeps its configuration, or is closed (10_state.md R27, R28). -/
def SpiKept (s t : State) : Prop :=
  s.spi.isOpen = true → t.spi = s.spi ∨ t.spi = { s.spi with isOpen := false }

theorem SpiKept.of_eq {s t : State} (h : t.spi = s.spi) : SpiKept s t := fun _ => .inl h

/-- The controller's flags and configuration stay, and the histories only grow. -/
structure Unmoved (s t : State) : Prop where
  isOpen : t.isOpen = s.isOpen
  started : t.started = s.started
  cfg : t.cfg = s.cfg
  spi : SpiKept s t
  history : History s t

theorem Unmoved.refl (s : State) : Unmoved s s := ⟨rfl, rfl, rfl, .of_eq rfl, .refl s⟩

theorem OnSlot.unmoved {k : Slot} {s t : State} (h : OnSlot k s t) : Unmoved s t :=
  ⟨h.controller.isOpen, h.controller.started, h.controller.cfg, .of_eq h.spi, h.history⟩

theorem OnSpi.unmoved {s t : State} (h : OnSpi s t) (hs : SpiKept s t) : Unmoved s t :=
  ⟨h.controller.isOpen, h.controller.started, h.controller.cfg, hs, h.history⟩

theorem ReadFrame.unmoved {s t : State} (h : ReadFrame s t) : Unmoved s t :=
  ⟨h.isOpen, h.started, h.cfg, .of_eq h.spi, h.history⟩

theorem ByEnv.unmoved {s t : State} (h : ByEnv s t) : Unmoved s t := (h.onSlot .drdy).unmoved

/-- How command `i` moves the controller (10_state.md R23, R24, 43_acquisition.md R163, R169): every other command keeps
its flags and its configuration, and so do these where they fail or have nothing to do. -/
inductive Moved (s t : State) : Instr → Prop
  | kept (i : Instr) (isOpen : t.isOpen = s.isOpen) (started : t.started = s.started) (cfg : t.cfg = s.cfg) :
      Moved s t i
  | opened (c : DeviceConfig) (was : s.isOpen = false) (isOpen : t.isOpen = true) (started : t.started = false)
      (cfg : t.cfg = applyDefaults c) : Moved s t (.acqOpen (some c))
  | tornDown (c : DeviceConfig) (was : s.isOpen = false) (isOpen : t.isOpen = false) : Moved s t (.acqOpen (some c))
  | started (wasOpen : s.isOpen = true) (was : s.started = false) (isOpen : t.isOpen = true)
      (started : t.started = true) (cfg : t.cfg = s.cfg) : Moved s t .acqStart
  | stopped (isOpen : t.isOpen = s.isOpen) (started : t.started = false) (cfg : t.cfg = s.cfg) : Moved s t .acqStop
  | closed (isOpen : t.isOpen = false) : Moved s t .acqClose

/-- What the body of command `i` does, wherever it comes to. -/
structure Effect (i : Instr) (s t : State) : Prop where
  moved : Moved s t i
  spi : SpiKept s t
  history : History s t

theorem Unmoved.effect {s t : State} (h : Unmoved s t) (i : Instr) : Effect i s t :=
  ⟨.kept i h.isOpen h.started h.cfg, h.spi, h.history⟩

/-! ### The bodies from any state: LINE.ACQUIRE and ACQ.OPEN -/

theorem acquireReserve_onSlot (k : Slot) (l : LineId) (d : Dir) (v : Bool) (s : State) :
    (acquireReserve k l d v s).Holds (fun p t => OnSlot k s t ∧ p.output = .nothing) (fun _ _ => False) := by
  have b := (envReserve_cases s l).1
  have later : ∀ (u : State) (x : LineSlot), ByEnv s u → (acquireDirection k l d v (u.setSlot k x)).Holds
      (fun p t => OnSlot k s t ∧ p.output = .nothing) (fun _ _ => False) := by
    intro u x b
    refine (acquireDirection_holds k l d v (u.setSlot k x)).mono ?_ (by simp)
    rintro p t ⟨r, _⟩
    exact ⟨((b.onSlot k).trans (u.setSlot_onSlot k x)).trans r.onSlot, r.output⟩
  unfold acquireReserve
  generalize envReserve s l = r at *
  obtain ⟨a, u⟩ := r
  cases a with
  | fail c => exact ⟨b.onSlot k, rfl⟩
  | ok => exact later u _ b
  | busy => exact later u _ b

/-- LINE.ACQUIRE stays in its slot, whatever the slot held. -/
theorem lineAcquireBody_onSlot (k : Slot) (l : LineId) (d : Dir) (v : Bool) (s : State) :
    (lineAcquireBody k l d v s).Holds (fun p t => OnSlot k s t ∧ p.output = .nothing) (fun _ _ => False) := by
  unfold lineAcquireBody
  split
  · trivial
  split
  · trivial
  · refine (acquireReserve_onSlot k l d v _).mono ?_ (by simp)
    rintro p t ⟨q, ho⟩
    exact ⟨(s.setSlot_onSlot k _).trans q, ho⟩

/-- The resource steps of ACQ.OPEN leave the controller, whatever the slots held. -/
theorem acquireAll_controller (c : DeviceConfig) (d : LineId) (m : Option LineId) (s : State) :
    (acquireAll c d m s).Holds (fun p t => SameController s t ∧ History s t ∧ p.output = .nothing)
      (fun _ _ => False) := by
  have acquire : ∀ (k : Slot) (l : LineId) (d : Dir) (v : Bool) (u : State), SameController s u → History s u →
      (lineAcquireBody k l d v u).Holds (fun p t => SameController s t ∧ History s t ∧ p.output = .nothing)
        (fun _ _ => False) := by
    intro k l d v u hc hh
    refine (lineAcquireBody_onSlot k l d v u).mono ?_ (by simp)
    rintro p t ⟨q, ho⟩
    exact ⟨hc.trans q.controller, hh.trans q.history, ho⟩
  have master := (spiOpenBody_holds (defaultedPath c.busPath) c.clockHz c.mode c.noCs s).andThen
    (R := fun p t => SameController s t ∧ History s t ∧ p.output = .nothing) (S := fun _ _ => False)
    (fun _ u h => acquire .drdy d .input false u h.onSpi.controller h.onSpi.history)
    (fun p t _ h => ⟨h.onSpi.controller, h.onSpi.history, h.output⟩) (fun _ _ h => h)
  refine master.andThen (fun _ u h => ?_) (fun _ _ _ h => h) (fun _ _ h => h)
  obtain ⟨hc, hh, _⟩ := h
  cases m with
  | none => exact ⟨hc, hh, rfl⟩
  | some l => exact acquire .sync l .output true u hc hh

theorem commitOpen_history (c : DeviceConfig) (s : State) : History s (commitOpen c s) :=
  ⟨rfl, rfl, rfl, rfl, rfl, .of_eq rfl, ⟨[], by simp [commitOpen]⟩, le_rfl, id⟩

/-- All that ACQ.OPEN can do to the controller (43_acquisition.md R160 to R163). -/
theorem acqOpenBody_effect (cfg : Option DeviceConfig) (s : State) :
    (acqOpenBody cfg s).Holds (fun p t => Effect (.acqOpen cfg) s t ∧ p.output = .nothing) (fun _ _ => False) := by
  have stays : Effect (.acqOpen cfg) s s := (Unmoved.refl s).effect _
  cases cfg with
  | none => exact ⟨stays, rfl⟩
  | some c =>
    unfold acqOpenBody
    simp only
    split
    · exact ⟨stays, rfl⟩
    rename_i hclosed
    split
    · trivial
    rename_i hfree
    have closed : s.isOpen = false := by simpa using hclosed
    have spi : ∀ t, SpiKept s t := fun t h => absurd (by simp [State.leftovers, h]) hfree
    split
    · exact ⟨stays, rfl⟩
    · trivial
    · rename_i d m _
      have ends := (acquireAll_controller (applyDefaults c) d m s).onError (f := acqCloseBody)
        (R := fun p t => History s t ∧ p.output = .nothing ∧ (p.code ≠ .ok → t.isOpen = false)) (S := fun _ _ => False)
        (fun p t hp h => ⟨h.2.1, h.2.2, absurd hp⟩)
        (fun p t _ h => ⟨h.2.1.trans (acqCloseBody_closedFrom t).history, h.2.2,
          fun _ => (acqCloseBody_closedFrom t).isOpen⟩)
        (fun _ _ h => h)
      refine ends.andThen (fun o t h => ?_) (fun p t hp h => ?_) (fun _ _ h => h)
      · exact ⟨⟨.opened c closed rfl rfl rfl, spi _, h.1.trans (commitOpen_history _ t)⟩, rfl⟩
      · exact ⟨⟨.tornDown c closed (h.2.2 hp), spi t, h.1⟩, h.2.1⟩

/-! ### ACQ.START -/

/-- How a start ends (43_acquisition.md R169): with what a start may change, or with that and `started` cleared. -/
def StartEnds (s : State) (p : Response) (t : State) : Prop :=
  p.output = .nothing ∧ (StartFrame s t ∨ p.code ≠ .ok ∧ ∃ u, StartFrame s u ∧ t = revertStart u)

/-- How a start blocks: in a settle read, with what a start may change. -/
def StartBlocks (s : State) (w : Inflight) (t : State) : Prop := StartFrame s t ∧ ∃ n, w = .acqStart n

/-- Reads that settle after `r`, and the reversal if one of all these fails. -/
theorem settled_ends {s : State} {r : Ran} (n : Nat)
    (h : r.Holds (fun p t => StartFrame s t ∧ (p.code = .ok ∨ p.output = .nothing)) (StartBlocks s)) :
    ((r.andThen (settleReads n)).onError revertStart).Holds (StartEnds s) (StartBlocks s) := by
  have run : (r.andThen (settleReads n)).Holds (fun p t => StartFrame s t ∧ p.output = .nothing) (StartBlocks s) := by
    refine h.andThen (fun o t h => ?_) (fun p t hp h => ⟨h.1, h.2.resolve_left hp⟩) (fun _ _ h => h)
    refine (settleReads_holds n t).mono ?_ ?_
    · rintro p u ⟨f, hout, _⟩
      exact ⟨h.1.trans f, hout⟩
    · rintro w u ⟨f, _, m, hw, _⟩
      exact ⟨h.1.trans f, m, hw⟩
  exact run.onError (fun p t _ h => ⟨h.2, .inl h.1⟩) (fun p t hp h => ⟨h.2, .inr ⟨hp, t, h.1, rfl⟩⟩) (fun _ _ h => h)

theorem pulsedStart_ends (n : Nat) (s : State) :
    (((syncPulse s).andThen (settleReads n)).onError revertStart).Holds (StartEnds s) (StartBlocks s) :=
  settled_ends n ((syncPulse_holds s).mono (fun _ _ h => ⟨h.1, .inr h.2.2.2.1⟩) (fun _ _ h => h.elim))

theorem acqStartResume_ends (n : Nat) (s : State) : (acqStartResume n s).Holds (StartEnds s) (StartBlocks s) := by
  refine settled_ends n ((readResume_holds (.acqStart n) s).mono ?_ ?_)
  · rintro p t ⟨f, e⟩
    refine ⟨f.startFrame, ?_⟩
    rcases e with ⟨_, hp, _⟩ | ⟨hout, _⟩
    · exact .inl (by rw [hp])
    · exact .inr hout
  · rintro w t ⟨hw, b, o, _⟩
    exact ⟨(b.readFrame o).startFrame, n, hw⟩

theorem revertStart_history (s : State) : History s (revertStart s) :=
  ⟨rfl, rfl, rfl, rfl, rfl, .of_eq rfl, ⟨[], by simp [revertStart]⟩, le_rfl, id⟩

/-- The history of a run that begins with `started` set (43_acquisition.md R166). -/
theorem History.of_setStarted {s t : State} {b : Bool} (h : History { s with started := b } t) : History s t :=
  ⟨h.cp, h.inflight, h.out, h.pending, h.refused, h.calls, h.diag, h.clock, h.wf⟩

theorem State.setStarted_history (s : State) (b : Bool) : History s { s with started := b } :=
  .of_setStarted (.refl _)

/-- All that ACQ.START can do to the controller (43_acquisition.md R165 to R169). -/
theorem acqStartBody_effect (s : State) :
    (acqStartBody s).Holds (fun p t => Effect .acqStart s t ∧ p.output = .nothing) (fun _ t => Effect .acqStart s t) := by
  have stays : Effect .acqStart s s := (Unmoved.refl s).effect _
  unfold acqStartBody
  split
  · exact ⟨stays, rfl⟩
  rename_i hopen
  split
  · exact ⟨stays, rfl⟩
  rename_i hstarted
  have isOpen : s.isOpen = true := by simpa using hopen
  have stopped : s.started = false := by simpa using hstarted
  have started : ∀ t, StartFrame { s with started := true } t → Effect .acqStart s t := fun t f =>
    ⟨.started isOpen stopped (f.isOpen.trans isOpen) f.started f.cfg, .of_eq f.spi, f.history.of_setStarted⟩
  simp only
  split
  · exact ⟨started _ (ReadFrame.refl _).startFrame, rfl⟩
  · refine (pulsedStart_ends _ _).mono ?_ (fun w t h => started t h.1)
    rintro p t ⟨hout, f | ⟨_, u, f, rfl⟩⟩
    · exact ⟨started t f, hout⟩
    · exact ⟨⟨.kept _ f.isOpen stopped.symm f.cfg, .of_eq f.spi,
        f.history.of_setStarted.trans (revertStart_history u)⟩, hout⟩

/-! ### Every command, and every blocked command taken up again -/

/-- All that a command can do to the controller, to an open SPI handle and to the histories. -/
theorem commandBody_effect (i : Instr) (s : State) :
    (commandBody i s).Holds (fun p t => Effect i s t ∧ p.Stamped s t) (fun _ t => Effect i s t) := by
  cases i with
  | lineAcquire k d v l =>
    exact .hostOnly fun _ => (lineAcquireBody_onSlot k l d v s).mono
      (fun p t h => ⟨h.1.unmoved.effect _, .of_nothing h.2 s t⟩) (fun _ _ h => h.elim)
  | lineWait k ms =>
    exact .hostOnly fun _ => (lineWaitBody_holds k ms s).mono
      (fun p t h => ⟨h.1.unmoved.effect _, .of_nothing h.2.2.1 s t⟩) (fun _ _ h => h.1.unmoved.effect _)
  | lineGet k =>
    refine .hostOnly fun _ => (lineGetBody_holds k s).mono ?_ (fun _ _ h => h.elim)
    rintro p t ⟨b, _, ⟨l, _, rfl⟩ | ⟨c, rfl⟩ | ⟨rfl, _⟩⟩ <;> exact ⟨b.unmoved.effect _, by rintro f ⟨⟩⟩
  | lineSet k v =>
    exact .hostOnly fun _ => (lineSetBody_holds k v s).mono
      (fun p t h => ⟨h.1.unmoved.effect _, .of_nothing h.2.2.2.1 s t⟩) (fun _ _ h => h.elim)
  | lineRelease k =>
    exact .hostOnly fun _ => ⟨(lineReleaseBody_onSlot k s).1.unmoved.effect _, .of_nothing rfl _ _⟩
  | spiOpen path hz mode noCs =>
    refine .hostOnly fun _ => ?_
    cases hs : s.spi.isOpen with
    | true => simp [spiOpenBody, hs]
    | false =>
      have spi : ∀ t, SpiKept s t := fun t h => absurd (hs.symm.trans h) (by simp)
      exact (spiOpenBody_holds path hz mode noCs s).mono
        (fun p t h => ⟨(h.onSpi.unmoved (spi t)).effect _, .of_nothing h.output s t⟩) (fun _ _ h => h.elim)
  | spiXfer len =>
    refine .hostOnly fun _ => (spiXferBody_holds len s).mono ?_ (fun _ _ h => h.elim)
    rintro p t ⟨b, _, ⟨rx, rfl⟩ | ⟨c, rfl⟩ | ⟨rfl, _⟩⟩ <;> exact ⟨b.unmoved.effect _, by rintro f ⟨⟩⟩
  | spiClose =>
    obtain ⟨q, hs⟩ := spiCloseBody_onSpi s
    exact .hostOnly fun _ => ⟨(q.unmoved fun _ => .inr hs).effect _, .of_nothing rfl _ _⟩
  | acqOpen cfg =>
    exact (acqOpenBody_effect cfg s).mono (fun p t h => ⟨h.1, .of_nothing h.2 s t⟩) (fun _ _ h => h.elim)
  | acqStart =>
    exact (acqStartBody_effect s).mono (fun p t h => ⟨h.1, .of_nothing h.2 s t⟩) (fun _ _ h => h)
  | acqRead present =>
    have stays : Effect (.acqRead present) s s := (Unmoved.refl s).effect _
    simp only [commandBody, acqReadBody]
    split
    · exact ⟨stays, .of_nothing rfl _ _⟩
    split
    · exact ⟨stays, .of_nothing rfl _ _⟩
    · exact (readBody_holds .acqRead s).mono (fun p t h => ⟨h.1.unmoved.effect _, h.2.stamped⟩)
        (fun _ _ h => h.2.1.unmoved.effect _)
  | acqRaw present =>
    have stays : Effect (.acqRaw present) s s := (Unmoved.refl s).effect _
    simp only [commandBody, acqRawBody]
    split
    · exact ⟨stays, .of_nothing rfl _ _⟩
    · exact ⟨stays, by rintro f ⟨⟩⟩
  | acqStop =>
    exact ⟨⟨.stopped rfl rfl rfl, .of_eq rfl, s.setStarted_history false⟩, .of_nothing rfl _ _⟩
  | acqClose =>
    have c := acqCloseBody_closedFrom s
    exact ⟨⟨.closed c.isOpen, fun _ => .inr c.spi, c.history⟩, .of_nothing rfl _ _⟩

/-- What a blocked command does when it is taken up again (43_acquisition.md R169). -/
structure Resumed (w : Inflight) (s t : State) : Prop where
  isOpen : t.isOpen = s.isOpen
  started : t.started = s.started ∨ (t.started = false ∧ ∃ n, w = .acqStart n)
  cfg : t.cfg = s.cfg
  spi : SpiKept s t
  history : History s t

theorem Unmoved.resumed {s t : State} (h : Unmoved s t) (w : Inflight) : Resumed w s t :=
  ⟨h.isOpen, .inl h.started, h.cfg, h.spi, h.history⟩

theorem StartFrame.resumed {s t : State} (h : StartFrame s t) (w : Inflight) : Resumed w s t :=
  ⟨h.isOpen, .inl h.started, h.cfg, .of_eq h.spi, h.history⟩

theorem resumeBody_resumed (w : Inflight) (s : State) :
    (resumeBody w s).Holds (fun p t => Resumed w s t ∧ p.Stamped s t) (fun _ t => Resumed w s t) := by
  cases w with
  | lineWait k =>
    exact (lineWaitResume_holds k s).mono (fun p t h => ⟨h.1.unmoved.resumed _, .of_nothing h.2.2.1 s t⟩)
      (fun _ _ h => h.1.unmoved.resumed _)
  | acqRead =>
    exact (readResume_holds .acqRead s).mono (fun p t h => ⟨h.1.unmoved.resumed _, h.2.stamped⟩)
      (fun _ _ h => h.2.1.unmoved.resumed _)
  | acqStart n =>
    refine (acqStartResume_ends n s).mono ?_ (fun _ _ h => h.1.resumed _)
    rintro p t ⟨hout, f | ⟨_, u, f, rfl⟩⟩
    · exact ⟨f.resumed _, .of_nothing hout s t⟩
    · exact ⟨⟨f.isOpen, .inr ⟨rfl, n, rfl⟩, f.cfg, .of_eq f.spi, f.history.trans (revertStart_history u)⟩,
        .of_nothing hout _ _⟩

/-! ### How a step ends -/

/-- What every body keeps, in a form that does not speak of the host's coming commands. -/
structure Kept (s t : State) : Prop where
  cp : t.cp = s.cp
  refused : t.refused = s.refused
  calls : CallsGrow s t
  diag : ∃ ds, t.diag = s.diag ++ ds
  clock : s.env.clock.toNat ≤ t.env.clock.toNat
  cfg : s.isOpen = true → t.isOpen = true → t.cfg = s.cfg
  spi : SpiKept s t

theorem History.kept {s t : State} (h : History s t) (hc : s.isOpen = true → t.isOpen = true → t.cfg = s.cfg)
    (hs : SpiKept s t) : Kept s t :=
  ⟨h.cp, h.refused, h.calls, h.diag, h.clock, hc, hs⟩

theorem Moved.cfg_of_open {i : Instr} {s t : State} (h : Moved s t i) (hs : s.isOpen = true) (ht : t.isOpen = true) :
    t.cfg = s.cfg := by
  cases h with
  | kept _ _ _ cfg => exact cfg
  | opened _ was => rw [hs] at was; cases was
  | tornDown _ was => rw [hs] at was; cases was
  | started _ _ _ _ cfg => exact cfg
  | stopped _ _ cfg => exact cfg
  | closed isOpen => rw [ht] at isOpen; cases isOpen

theorem Effect.kept {i : Instr} {s t : State} (h : Effect i s t) : Kept s t :=
  h.history.kept h.moved.cfg_of_open h.spi

theorem Resumed.kept {w : Inflight} {s t : State} (h : Resumed w s t) : Kept s t :=
  h.history.kept (fun _ _ => h.cfg) h.spi

theorem Kept.refl (s : State) : Kept s s := (History.refl s).kept (fun _ _ => rfl) (.of_eq rfl)

/-- Taking the host's next command touches nothing of what is kept. -/
theorem Kept.of_popCommand {s t : State} (h : Kept s.popCommand t) : Kept s t :=
  ⟨h.cp, h.refused, h.calls, h.diag, h.clock, h.cfg, h.spi⟩

/-- The ends of a step (00_scope.md R15): idle, refused, completed, or blocked. -/
inductive StepEnds (s t : State) : Prop
  | idle (h : t = s)
  | refused (u : State) (keeps : Kept s u) (h : t = u.refuse)
  | completed (u : State) (p : Response) (keeps : Kept s u) (stamped : p.Stamped s u) (h : t = u.complete p)
  | blocked (u : State) (w : Inflight) (keeps : Kept s u) (h : t = { u with inflight := some w })

theorem stepEnds_of_holds {s b : State} {r : Ran} (hb : Kept s b)
    (h : r.Holds (fun p t => Kept s t ∧ p.Stamped s t) (fun _ t => Kept s t)) : StepEnds s (finish b r) := by
  rcases finish_of_holds (s := b) h with ⟨p, t, e, hk, hp⟩ | e | ⟨w, t, e, hk⟩
  · exact .completed t p hk hp e
  · exact .refused b hb e
  · exact .blocked t w hk e

/-- Every step ends in one of the four ways, and keeps what every body keeps. -/
theorem step_ends {s t : State} (h : step s = .next t) : StepEnds s t := by
  cases step_cases h with
  | idle h => exact .idle h
  | resumed w _ h =>
    rw [h]
    exact stepEnds_of_holds (.refl s)
      ((resumeBody_resumed w s).mono (fun _ _ h => ⟨h.1.kept, h.2⟩) (fun _ _ h => h.kept))
  | ran i _ h =>
    rw [h]
    exact stepEnds_of_holds (Kept.of_popCommand (.refl _))
      ((commandBody_effect i s.popCommand).mono (fun _ _ h => ⟨h.1.kept.of_popCommand, h.2⟩)
        (fun _ _ h => h.kept.of_popCommand))
  | undecoded _ h => exact .refused _ (Kept.of_popCommand (.refl _)) h

end Sys2Proof.Machine
end

section
/-! SUPPORT. The statements about the machine as a whole, from the inversion lemmas of a step; and the two about the
environment's steps and answers. -/

namespace Sys2Proof.Machine

/-! ### The step and its command -/

/-- Settles O4: each clause is one way of a step. -/
theorem stepRunsTheDecodedInstruction : Obligations.StepRunsTheDecodedInstruction := by
  refine ⟨fun s c rest i h hp hi => ?_, fun s w h => step_of_inflight h, fun s h hp => step_of_idle h hp⟩
  have pop : s.popCommand = { s with pending := rest } := by simp only [State.popCommand, hp, List.tail_cons]
  rw [step_of_instr h hp hi, pop]

/-! ### The machine as a whole -/

/-- A command that begins unrefused and ends with the mark was refused. -/
theorem exec_refused {i : Instr} {s t : State} (h : exec i s = .next t) (hs : s.refused = false)
    (ht : t.refused = true) : t = s.refuse := by
  have unmarked : ∀ u, Effect i s u → u.refused ≠ true := fun u hu => by simp [hu.history.refused, hs]
  rw [exec_next h] at ht ⊢
  rcases finish_of_holds (s := s) (commandBody_effect i s) with ⟨p, u, e, hu, _⟩ | e | ⟨w, u, e, hu⟩
  · exact absurd (by simpa [e] using ht) (unmarked u hu)
  · exact e
  · exact absurd (by simpa [e] using ht) (unmarked u hu)

/-- Settles O10: a step sets the mark in a refusal and nowhere else. -/
theorem refusalIsStickyAndChangesNothingElse : Obligations.RefusalIsStickyAndChangesNothingElse := by
  refine ⟨fun s t h => ?_, fun i s t hn hs h ht => ?_⟩
  · cases step_ends h with
    | idle h => subst h; exact ⟨id, fun hcp => by omega, .inl⟩
    | refused u k h => subst h; exact ⟨fun _ => rfl, fun _ _ => rfl, fun _ => .inr ⟨by simp [k.cp], rfl⟩⟩
    | completed u p k _ h => subst h; simp [k.refused]
    | blocked u w k h => subst h; simp [k.refused, k.cp]
  · rw [exec_refused h hs ht]
    simp only [State.refuse, hn]

/-- Settles O11: refused and completed commands advance the index, blocked ones and the idle step do not. -/
theorem commandIndexAdvancesByOne : Obligations.CommandIndexAdvancesByOne := by
  refine ⟨rfl, fun s t h => ?_⟩
  cases step_ends h with
  | idle h => exact .inr ⟨by rw [h], .inr h⟩
  | refused u k h => subst h; exact .inl ⟨by simp [k.cp], rfl⟩
  | completed u p k _ h => subst h; exact .inl ⟨by simp [k.cp], rfl⟩
  | blocked u w k h => subst h; exact .inr ⟨k.cp, .inl (by simp)⟩

theorem State.driverState_congr {s t : State} (ho : t.isOpen = s.isOpen) (hs : t.started = s.started) :
    t.driverState = s.driverState := by
  simp only [State.driverState, ho, hs]

theorem State.driverState_of_closed {s : State} (h : s.isOpen = false) : s.driverState = .closed := by
  simp [State.driverState, h]

theorem State.driverState_of_opened {s : State} (h : s.isOpen = true) (hs : s.started = false) :
    s.driverState = .opened := by
  simp [State.driverState, h, hs]

theorem State.driverState_of_started {s : State} (h : s.isOpen = true) (hs : s.started = true) :
    s.driverState = .started := by
  simp [State.driverState, h, hs]

/-- Clearing `started` takes `Started` to `Opened` and keeps the other two states. -/
theorem State.driverState_of_cleared {s t : State} (ho : t.isOpen = s.isOpen) (ht : t.started = false) :
    t.driverState = s.driverState ∨ s.driverState = .started ∧ t.driverState = .opened := by
  cases h : s.isOpen with
  | false => exact .inl ((driverState_of_closed (ho.trans h)).trans (driverState_of_closed h).symm)
  | true =>
    have opened := driverState_of_opened (ho.trans h) ht
    cases hs : s.started with
    | false => exact .inl (opened.trans (driverState_of_opened h hs).symm)
    | true => exact .inr ⟨driverState_of_started h hs, opened⟩

theorem Moved.congr {i : Instr} {s u v : State} (h : Moved s u i) (ho : v.isOpen = u.isOpen)
    (hs : v.started = u.started) (hc : v.cfg = u.cfg) : Moved s v i := by
  cases h with
  | kept _ a b c => exact .kept _ (ho.trans a) (hs.trans b) (hc.trans c)
  | opened c was a b d => exact .opened c was (ho.trans a) (hs.trans b) (hc.trans d)
  | tornDown c was a => exact .tornDown c was (ho.trans a)
  | started wo was a b c => exact .started wo was (ho.trans a) (hs.trans b) (hc.trans c)
  | stopped a b c => exact .stopped (ho.trans a) (hs.trans b) (hc.trans c)
  | closed a => exact .closed (ho.trans a)

/-- What a body does to the controller is seen in the state after the command; a refusal does nothing to it. -/
theorem exec_moved {i : Instr} {s t : State} (h : exec i s = .next t) : Moved s t i := by
  rw [exec_next h]
  rcases finish_of_holds (s := s) (commandBody_effect i s) with ⟨p, u, e, hu, _⟩ | e | ⟨w, u, e, hu⟩ <;> rw [e]
  · exact hu.moved.congr rfl rfl rfl
  · exact .kept _ rfl rfl rfl
  · exact hu.moved.congr rfl rfl rfl

/-- Settles O12: the moves of a command are those of `Moved`, and a resumed command can only clear `started`. -/
theorem driverStateMoves : Obligations.DriverStateMoves := by
  refine ⟨fun i s t h => ?_, fun w s t hw h => ?_⟩
  · cases exec_moved h with
    | kept _ ho hs _ => exact .inl (State.driverState_congr ho hs)
    | opened c was ho hs _ =>
      exact .inr (.inl ⟨⟨c, rfl⟩, State.driverState_of_closed was, State.driverState_of_opened ho hs⟩)
    | tornDown c was ho => exact .inl ((State.driverState_of_closed ho).trans (State.driverState_of_closed was).symm)
    | started wo was ho hs _ =>
      exact .inr (.inr (.inl ⟨rfl, State.driverState_of_opened wo was, State.driverState_of_started ho hs⟩))
    | stopped ho hs _ =>
      exact (State.driverState_of_cleared ho hs).imp id fun m => .inr (.inr (.inl ⟨rfl, m⟩))
    | closed ho => exact .inr (.inr (.inr (.inr ⟨rfl, State.driverState_of_closed ho⟩)))
  · have moves : ∀ {u v : State}, Resumed w s u → v.isOpen = u.isOpen → v.started = u.started →
        v.driverState = s.driverState ∨
          (∃ n, w = .acqStart n) ∧ s.driverState = .started ∧ v.driverState = .opened := by
      intro u v hu ho hs
      rcases hu.started with e | ⟨e, n⟩
      · exact .inl (State.driverState_congr (ho.trans hu.isOpen) (hs.trans e))
      · exact (State.driverState_of_cleared (ho.trans hu.isOpen) (hs.trans e)).imp id fun m => ⟨n, m⟩
    rw [step_of_inflight hw] at h
    cases h
    rcases finish_of_holds (s := s) (resumeBody_resumed w s) with ⟨p, u, e, hu, _⟩ | e | ⟨w', u, e, hu⟩ <;> rw [e]
    · exact moves hu rfl rfl
    · exact .inl rfl
    · exact moves hu rfl rfl

/-- Settles O13: only ACQ.OPEN opens the controller, and no step changes a configuration in force. -/
theorem configurationsAreImmutableWhileOpen : Obligations.ConfigurationsAreImmutableWhileOpen := by
  refine ⟨fun s t h => ?_, fun i s t h hs ht => ?_, fun s t h => ?_⟩
  · cases step_ends h with
    | idle h => exact fun _ _ => by rw [h]
    | refused u k h => subst h; exact k.cfg
    | completed u p k _ h => subst h; exact k.cfg
    | blocked u w k h => subst h; exact k.cfg
  · cases exec_moved h with
    | kept _ ho => rw [ho, hs] at ht; cases ht
    | opened c _ _ _ hc => exact ⟨c, rfl, hc⟩
    | tornDown _ _ ho => rw [ho] at ht; cases ht
    | started wo => rw [hs] at wo; cases wo
    | stopped ho => rw [ho, hs] at ht; cases ht
    | closed ho => rw [ho] at ht; cases ht
  · cases step_ends h with
    | idle h => exact fun _ => .inl (by rw [h])
    | refused u k h => subst h; exact k.spi
    | completed u p k _ h => subst h; exact k.spi
    | blocked u w k h => subst h; exact k.spi

/-- Settles O14: a Frame is returned by a completed command alone, stamped within the bounds. -/
theorem timestampsNeverDecrease : Obligations.TimestampsNeverDecrease := by
  intro s t h
  cases step_ends h with
  | idle h => subst h; exact ⟨le_rfl, fun hcp => by omega⟩
  | refused u k h => subst h; exact ⟨k.clock, fun _ f hf => by cases hf⟩
  | completed u p k stamped h => subst h; exact ⟨k.clock, fun _ f hf => stamped f (by cases hf; rfl)⟩
  | blocked u w k h => subst h; exact ⟨k.clock, fun hcp => absurd (hcp.symm.trans k.cp) (by omega)⟩

/-- Settles O15: every body only appends to the two traces. -/
theorem tracesOnlyGrowAndTransmitZeros : Obligations.TracesOnlyGrowAndTransmitZeros := by
  intro s t h
  cases step_ends h with
  | idle h => subst h; exact ⟨⟨[], by simp⟩, CallsGrow.refl t⟩
  | refused u k h => subst h; exact ⟨k.diag, k.calls⟩
  | completed u p k _ h => subst h; exact ⟨k.diag, k.calls⟩
  | blocked u w k h => subst h; exact ⟨k.diag, k.calls⟩

/-! ### The environment -/

/-- A drive of a pin changes the latches as the edge detector says (10_state.md R31). -/
theorem State.drivePin_latch (s : State) (l : LineId) (v : Level) (k : Slot) :
    ∃ b, ((s.drivePin l v).slot k).latch = ((s.slot k).latch || ((s.slot k).watches l &&
      ((!v && (s.lineEnv l).pin) && ((s.slot k).acquired || b)))) := by
  cases k
  · exact ⟨_, rfl⟩
  · exact ⟨_, rfl⟩

theorem State.envStep_pinFall {s : State} {l : LineId} (h : s.drives l = false) :
    s.envStep (.pinFall l) = s.drivePin l false := by
  simp [State.envStep, h]

theorem State.envStep_pinRise {s : State} {l : LineId} (h : s.drives l = false) :
    s.envStep (.pinRise l) = s.drivePin l true := by
  simp [State.envStep, h]

theorem State.envStep_pin_of_drives {s : State} {l : LineId} (h : s.drives l = true) :
    s.envStep (.pinFall l) = s ∧ s.envStep (.pinRise l) = s := by
  simp [State.envStep, h]

/-- A fall that a slot does not detect keeps its latch. -/
theorem State.envStep_pinFall_latch_of_undetected {s : State} {l : LineId} {k : Slot}
    (h : (s.slot k).line ≠ some l ∨ (s.slot k).detectsFalling = false ∨ (s.lineEnv l).pin = false) :
    ((s.envStep (.pinFall l)).slot k).latch = (s.slot k).latch := by
  cases hd : s.drives l with
  | true => rw [(State.envStep_pin_of_drives hd).1]
  | false =>
    obtain ⟨b, e⟩ := s.drivePin_latch l false k
    rw [State.envStep_pinFall hd, e]
    rcases h with h | h | h <;> simp [LineSlot.watches, h]

theorem State.envStep_pinRise_latch (s : State) (l : LineId) (k : Slot) :
    ((s.envStep (.pinRise l)).slot k).latch = (s.slot k).latch := by
  cases hd : s.drives l with
  | true => rw [(State.envStep_pin_of_drives hd).2]
  | false =>
    obtain ⟨b, e⟩ := s.drivePin_latch l true k
    rw [State.envStep_pinRise hd, e]
    simp

theorem State.setReserved_slot (s : State) (l : LineId) (b : Bool) (k : Slot) :
    (s.setReserved l b).slot k = s.slot k := by
  cases k <;> rfl

/-- Settles O20, from what a drive of the pin does to a latch. -/
theorem fallingEdgeSetsTheLatch : Obligations.FallingEdgeSetsTheLatch := by
  intro s l k
  refine ⟨fun hd hp hl hf hh => ?_, State.envStep_pinFall_latch_of_undetected, s.envStep_pinRise_latch l k,
    congrArg LineSlot.latch (s.setReserved_slot l true k), ?_, fun hd => ?_, State.envStep_pin_of_drives⟩
  · obtain ⟨b, e⟩ := s.drivePin_latch l false k
    have acquired : (s.slot k).acquired = true := Option.isSome_iff_ne_none.2 hh
    rw [State.envStep_pinFall hd, e]
    simp [LineSlot.watches, hl, hf, hp, acquired]
  · simp only [State.envStep]
    split
    · rfl
    · rw [State.setReserved_slot]
  · rw [State.envStep_pinFall hd, State.envStep_pinRise hd]
    simp

theorem waitAnswerOf_eq_silent_iff (latch : Bool) (v : Verdict) :
    waitAnswerOf latch v = .silent ↔ latch = false ∧ v ≠ .timeout ∧ ∀ c, v ≠ .fail c := by
  cases latch <;> cases v <;> simp [waitAnswerOf]

/-- Settles O21, from the cases of the two answers. -/
theorem answersMeetTheirConstraints : Obligations.AnswersMeetTheirConstraints := by
  refine ⟨fun s l => ?_, fun s k => ⟨?_, ?_, fun c h => ?_, waitAnswerOf_eq_silent_iff _ _⟩⟩
  · rcases (envReserve_cases s l).2.2 with ⟨⟨c, h⟩, _⟩ | ⟨h, hs, hr⟩ | ⟨h, hs, hr⟩ <;> rw [h]
    · simp
    · rw [hs]
      exact ⟨by simp, fun _ => ⟨hr, hr⟩⟩
    · rw [hs]
      exact ⟨fun _ => ⟨hr, by simp⟩, by simp⟩
  · rcases waitAnswerOf_cases (s.nextTurn.2.slot k).latch s.nextTurn.1.verdict with
      ⟨c, h, _⟩ | ⟨_, hl⟩ | ⟨h, _⟩ | ⟨h, _⟩ <;> simp_all [envWaitTurn]
  · rcases waitAnswerOf_cases (s.nextTurn.2.slot k).latch s.nextTurn.1.verdict with
      ⟨c, h, _⟩ | ⟨h, _⟩ | ⟨_, hl, _⟩ | ⟨h, _⟩ <;> simp_all [envWaitTurn]
  · simp only [envWaitTurn, h, waitAnswerOf]

end Sys2Proof.Machine
end

section
/-! SUPPORT. The invariant of the block: `Sound` is the invariant without its clause about a blocked command; each way a
body may change the block keeps it, and a body blocks only where a command can be blocked. -/

namespace Sys2Proof.Machine

/-! ### The invariant apart from a blocked command -/

/-- `State.Inv` without its clause about the blocked command (10_state.md R22, R25 to R32, R44). -/
structure State.Sound (s : State) : Prop where
  startedOpen : s.started = true → s.isOpen = true
  closed : s.isOpen = false → s.seq = 0 ∧ s.raw = FrameBuf.zero
  held : s.isOpen = true → s.Held
  bits : s.spi.isOpen = true → s.spi.bitsPerWord = 8
  drdy : s.drdy.Coherent
  sync : s.sync.Coherent
  owns : s.OwnsHeld
  lines : LineTable.wf s.env.lines

theorem State.inv_iff (s : State) : s.Inv ↔ s.Sound ∧ s.InflightLegal :=
  ⟨fun h => ⟨⟨h.startedOpen, h.closed, h.held, h.bits, h.drdy, h.sync, ⟨h.reserved, h.once⟩, h.lines⟩, h.inflight⟩,
    fun ⟨h, hi⟩ => ⟨h.startedOpen, h.closed, h.held, h.bits, h.drdy, h.sync, h.owns.reserved, h.owns.once, hi, h.lines⟩⟩

/-- A command may be blocked as `w` in state `s` (00_scope.md R15(d)). -/
def Inflight.LegalIn (w : Inflight) (s : State) : Prop := ({ s with inflight := some w } : State).InflightLegal

theorem Inflight.lineWait_legalIn (k : Slot) (s : State) :
    (Inflight.lineWait k).LegalIn s ↔ s.isOpen = false ∧ (s.slot k).handle = some .input := by
  cases k <;> exact Iff.rfl

theorem Inflight.acqRead_legalIn (s : State) : Inflight.acqRead.LegalIn s ↔ s.started = true := Iff.rfl

theorem Inflight.acqStart_legalIn (n : Nat) (s : State) :
    (Inflight.acqStart n).LegalIn s ↔ s.started = true ∧ s.cfg.syncEnable = true := Iff.rfl

theorem State.InflightLegal.legalIn {s : State} {w : Inflight} (h : s.InflightLegal) (hw : s.inflight = some w) :
    w.LegalIn s := by
  unfold Inflight.LegalIn
  rw [← hw]
  exact h

/-- What of the state `Held` speaks of. -/
theorem State.Held.congr {s t : State} (h : s.Held) (cfg : t.cfg = s.cfg) (spi : t.spi = s.spi)
    (drdyHandle : t.drdy.handle = s.drdy.handle) (drdyLine : t.drdy.line = s.drdy.line)
    (syncHandle : t.sync.handle = s.sync.handle) (syncLine : t.sync.line = s.sync.line) : t.Held := by
  constructor
  all_goals simp only [cfg, spi, drdyHandle, drdyLine, syncHandle, syncLine]
  exacts [h.spi, h.drdy, h.drdyLine, h.sync, h.noSync, h.differ, h.path, h.clock, h.timeout]

/-- The host's port and the refusal mark are no part of what `Sound` speaks of. -/
theorem State.Sound.of_port {s : State} (h : s.Sound) (cp : Nat) (pending : List Command) (inflight : Option Inflight)
    (out : Option Response) (refused : Bool) :
    ({ s with cp := cp, pending := pending, inflight := inflight, out := out, refused := refused } : State).Sound :=
  ⟨h.startedOpen, h.closed, fun ho => (h.held ho).congr rfl rfl rfl rfl rfl rfl, h.bits, h.drdy,
    h.sync, ⟨h.owns.reserved, h.owns.once⟩, h.lines⟩

/-- The invariant after a command, from `Sound` where its body ends and legality where it blocks. -/
theorem State.Sound.finish {s : State} {r : Ran} (hs : s.Sound)
    (h : r.Holds (fun _ t => t.Sound) (fun w t => t.Sound ∧ w.LegalIn t)) : (finish s r).Inv := by
  rw [State.inv_iff]
  rcases finish_of_holds (s := s) h with ⟨p, t, e, ht⟩ | e | ⟨w, t, e, ht, hw⟩ <;> rw [e]
  · exact ⟨ht.of_port _ _ _ _ _, trivial⟩
  · exact ⟨hs.of_port _ _ _ _ _, trivial⟩
  · exact ⟨ht.of_port _ _ _ _ _, hw⟩

/-! ### What keeps it -/

/-- A slot's level is no part of its coherence. -/
theorem LineSlot.Coherent.of_level {x : LineSlot} {v : Level} (h : ({ x with level := v } : LineSlot).Coherent) :
    x.Coherent :=
  ⟨fun hl => ⟨(h.empty hl).line, (h.empty hl).exportedByUs, (h.empty hl).handle, (h.empty hl).dir, (h.empty hl).edge,
    (h.empty hl).latch⟩, h.input, h.output, h.edge⟩

/-- Reservations stay consistent where both slots keep line and reservation flag, and what was owned stays reserved. -/
theorem State.OwnsHeld.of_slots {s t : State} (h : s.OwnsHeld) (o : KeepsOwn s t)
    (line : ∀ k, (t.slot k).line = (s.slot k).line)
    (exported : ∀ k, (t.slot k).exportedByUs = (s.slot k).exportedByUs) : t.OwnsHeld := by
  have lineDrdy : t.drdy.line = s.drdy.line := line .drdy
  have lineSync : t.sync.line = s.sync.line := line .sync
  have exportedDrdy : t.drdy.exportedByUs = s.drdy.exportedByUs := exported .drdy
  have exportedSync : t.sync.exportedByUs = s.sync.exportedByUs := exported .sync
  have owns : ∀ l, t.owns l = s.owns l := fun l => by
    simp only [State.owns, lineDrdy, lineSync, exportedDrdy, exportedSync]
  refine ⟨fun l hl => ?_, ?_⟩
  · rw [owns] at hl
    exact o l hl (h.reserved l hl)
  · rw [lineDrdy, lineSync, exportedDrdy, exportedSync]
    exact h.once

theorem StartFrame.ownsHeld {s t : State} (h : StartFrame s t) (o : s.OwnsHeld) : t.OwnsHeld :=
  o.of_slots h.keepsOwn (fun k => by cases k; exacts [h.drdy.line, h.sync.line])
    (fun k => by cases k; exacts [h.drdy.exportedByUs, h.sync.exportedByUs])

/-- A command that changes no more of slot `k` than latch and level. -/
theorem OnSlot.ownsHeld {k : Slot} {s t : State} (q : OnSlot k s t) (o : KeepsOwn s t)
    (same : (s.slot k).SameButLatch { t.slot k with level := (s.slot k).level }) (h : s.OwnsHeld) : t.OwnsHeld := by
  have other := q.other
  cases k with
  | drdy =>
    exact h.of_slots o (fun k => by cases k; exacts [same.line, other.line])
      (fun k => by cases k; exacts [same.exportedByUs, other.exportedByUs])
  | sync =>
    exact h.of_slots o (fun k => by cases k; exacts [other.line, same.line])
      (fun k => by cases k; exacts [other.exportedByUs, same.exportedByUs])

/-- What the controller holds is kept by calls, by frame reads, and by the level of SYNC. -/
theorem State.Held.startFrame {s t : State} (h : s.Held) (f : StartFrame s t) : t.Held :=
  h.congr f.cfg f.spi f.drdy.handle f.drdy.line f.sync.handle f.sync.line

/-- Calls, frame reads while open, and the level of SYNC. -/
theorem State.Sound.startFrame {s t : State} (h : s.Sound) (f : StartFrame s t)
    (hc : s.isOpen = false → t.seq = s.seq ∧ t.raw = s.raw) : t.Sound where
  startedOpen ht := by rw [f.isOpen]; exact h.startedOpen (f.started.symm.trans ht)
  closed ht := by
    have closed := f.isOpen.symm.trans ht
    rw [(hc closed).1, (hc closed).2]
    exact h.closed closed
  held ht := (h.held (f.isOpen.symm.trans ht)).startFrame f
  bits := by rw [f.spi]; exact h.bits
  drdy := LineSlot.SameButLatch.coherent f.drdy h.drdy
  sync := (f.sync.coherent h.sync).of_level
  owns := f.ownsHeld h.owns
  lines := f.history.wf h.lines

theorem State.Sound.byEnv {s t : State} (h : s.Sound) (b : ByEnv s t) (o : KeepsOwn s t) : t.Sound :=
  h.startFrame (b.readFrame o).startFrame fun _ => ⟨b.block.controller.seq, b.block.controller.raw⟩

/-- Changes of one slot while the controller is closed. -/
theorem State.Sound.onSlot {k : Slot} {s t : State} (h : s.Sound) (closed : s.isOpen = false) (q : OnSlot k s t)
    (hk : (t.slot k).Coherent) (ho : t.OwnsHeld) : t.Sound := by
  have isOpen := q.controller.isOpen.trans closed
  have slots : t.drdy.Coherent ∧ t.sync.Coherent := by
    cases k with
    | drdy => exact ⟨hk, LineSlot.SameButLatch.coherent q.other h.sync⟩
    | sync => exact ⟨LineSlot.SameButLatch.coherent q.other h.drdy, hk⟩
  refine ⟨fun ht => ?_, fun _ => ?_, fun ht => ?_, ?_, slots.1, slots.2, ho, q.history.wf h.lines⟩
  · rw [q.controller.isOpen]
    exact h.startedOpen (q.controller.started.symm.trans ht)
  · rw [q.controller.seq, q.controller.raw]
    exact h.closed closed
  · rw [isOpen] at ht; cases ht
  · rw [q.spi]; exact h.bits

/-- Changes of the SPI master while the controller is closed. -/
theorem State.Sound.onSpi {s t : State} (h : s.Sound) (closed : s.isOpen = false) (q : OnSpi s t)
    (hb : t.spi.isOpen = true → t.spi.bitsPerWord = 8) : t.Sound := by
  have isOpen := q.controller.isOpen.trans closed
  refine ⟨fun ht => ?_, fun _ => ?_, fun ht => ?_, hb, LineSlot.SameButLatch.coherent q.drdy h.drdy,
    LineSlot.SameButLatch.coherent q.sync h.sync, q.ownsHeld h.owns, q.history.wf h.lines⟩
  · rw [q.controller.isOpen]
    exact h.startedOpen (q.controller.started.symm.trans ht)
  · rw [q.controller.seq, q.controller.raw]
    exact h.closed closed
  · rw [isOpen] at ht; cases ht

/-- What ACQ.CLOSE leaves is sound, whatever it tore down (43_acquisition.md R179). -/
theorem ClosedFrom.sound {s t : State} (h : ClosedFrom s t) (ho : s.OwnsHeld) (hw : LineTable.wf s.env.lines) :
    t.Sound where
  startedOpen ht := by rw [h.started] at ht; cases ht
  closed _ := ⟨h.seq, h.raw⟩
  held ht := by rw [h.isOpen] at ht; cases ht
  bits ht := by rw [h.spi] at ht; cases ht
  drdy := h.drdy.coherent
  sync := h.sync.coherent
  owns := h.owns ho
  lines := h.history.wf hw

/-- `started` may change while it keeps implying `open`. -/
theorem State.Sound.setStarted {s : State} (h : s.Sound) (b : Bool) (hb : b = true → s.isOpen = true) :
    ({ s with started := b } : State).Sound :=
  ⟨hb, h.closed, fun ho => (h.held ho).congr rfl rfl rfl rfl rfl rfl, h.bits, h.drdy,
    h.sync, ⟨h.owns.reserved, h.owns.once⟩, h.lines⟩

/-- The commit of a successful ACQ.OPEN: the resources are those its configuration asks for (43_acquisition.md R160 to
R162). -/
theorem Resources.commitOpen_sound {c : DeviceConfig} {d : LineId} {m : Option LineId} {s t : State} {p : Response}
    (h : Resources (applyDefaults c) d m s p t) (hp : p.code = .ok) (hl : checkLines (applyDefaults c) = .lines d m)
    (ho : s.OwnsHeld) (hw : LineTable.wf s.env.lines) : (commitOpen (applyDefaults c) t).Sound := by
  obtain ⟨hdrdy, hnone, hsome⟩ := checkLines_lines hl
  obtain ⟨hpath, hclock, htimeout⟩ := applyDefaults_defaulted c
  obtain ⟨eff, _, hspi⟩ := h.spi hp
  obtain ⟨line, handle⟩ := h.input hp
  have held : (commitOpen (applyDefaults c) t).Held := by
    refine ⟨by simp [commitOpen, hspi], handle, line.trans hdrdy.symm, fun he => ?_,
      fun he => (h.noSync hp (hnone he)).line, fun he => ?_, hpath, hclock, htimeout⟩
    · obtain ⟨l, hsl, hm, _⟩ := hsome he
      obtain ⟨syncLine, syncHandle⟩ := h.outp hp l hm
      exact ⟨syncHandle, syncLine.trans hsl.symm⟩
    · obtain ⟨l, hsl, _, hne⟩ := hsome he
      exact fun e => hne (Option.some.inj (hsl.symm.trans (e.trans hdrdy)))
  have owns := h.owns ho
  exact ⟨fun ht => (by cases ht), fun ht => (by cases ht), fun _ => held, fun _ => by simp only [commitOpen, hspi]; rfl,
    h.drdy, h.sync, ⟨owns.reserved, owns.once⟩, h.history.wf hw⟩

/-! ### Every body -/

/-- A coherent slot with a handle that detects falling edges is an open input (10_state.md R30). -/
theorem LineSlot.Coherent.input_of_detectsFalling {x : LineSlot} (h : x.Coherent) (hh : x.handle ≠ none)
    (hf : x.detectsFalling = true) : x.handle = some .input := by
  have dir : x.dir = some .input := by simp [LineSlot.detectsFalling] at hf; exact hf.1
  cases hx : x.handle with
  | none => exact absurd hx hh
  | some a =>
    cases a with
    | input => rfl
    | output => rw [h.output hx] at dir; cases dir

theorem State.Sound.coherent {s : State} (h : s.Sound) (k : Slot) : (s.slot k).Coherent := by
  cases k
  · exact h.drdy
  · exact h.sync

/-- LINE.ACQUIRE: a slot that holds a line is refused, and any other is empty (10_state.md R30). -/
theorem lineAcquireBody_sound {s : State} (h : s.Sound) (closed : s.isOpen = false) (k : Slot) (l : LineId) (d : Dir)
    (v : Bool) : (lineAcquireBody k l d v s).Holds (fun _ t => t.Sound) (fun _ _ => False) := by
  cases hl : (s.slot k).line with
  | some m => simp [lineAcquireBody, hl]
  | none =>
    refine (lineAcquireBody_holds k l d v s ((h.coherent k).empty hl)).mono ?_ (by simp)
    rintro p t ⟨a, ho⟩
    exact h.onSlot closed a.onSlot a.coherent (ho h.owns)

/-- LINE.WAIT blocks only on an open input (41_gpio_line.md R118). -/
theorem lineWaitBody_sound {s : State} (h : s.Sound) (closed : s.isOpen = false) (k : Slot) (ms : U32) :
    (lineWaitBody k ms s).Holds (fun _ t => t.Sound) (fun w t => t.Sound ∧ w.LegalIn t) := by
  refine (lineWaitBody_holds k ms s).mono (fun p t ht => h.byEnv ht.1 ht.2.1) ?_
  rintro w t ⟨b, o, rfl, _, hh, hf⟩
  rw [Inflight.lineWait_legalIn, b.handle k]
  exact ⟨h.byEnv b o, b.block.controller.isOpen.trans closed, (h.coherent k).input_of_detectsFalling hh hf⟩

/-- ACQ.OPEN: everything torn down, or everything held (43_acquisition.md R160, R163). -/
theorem acqOpenBody_sound {s : State} (h : s.Sound) (cfg : Option DeviceConfig) :
    (acqOpenBody cfg s).Holds (fun _ t => t.Sound) (fun _ _ => False) := by
  cases cfg with
  | none => exact h
  | some c =>
    unfold acqOpenBody
    simp only
    split
    · exact h
    split
    · trivial
    rename_i hfree
    split
    · exact h
    · trivial
    · rename_i d m hl
      have unused : s.drdy.line = none ∧ s.sync.line = none := by
        simp only [State.leftovers, Bool.or_eq_true, not_or, Option.isSome_iff_ne_none, not_not] at hfree
        exact ⟨hfree.1.2, hfree.2⟩
      have ends := (acquireAll_holds (applyDefaults c) d m s (h.drdy.empty unused.1) (h.sync.empty unused.2)).onError
        (f := acqCloseBody)
        (R := fun p t => (p.code = .ok → Resources (applyDefaults c) d m s p t) ∧ (p.code ≠ .ok → t.Sound))
        (S := fun _ _ => False)
        (fun p t hp r => ⟨fun _ => r, absurd hp⟩)
        (fun p t hp r => ⟨fun e => absurd e hp,
          fun _ => (acqCloseBody_closedFrom t).sound (r.owns h.owns) (r.history.wf h.lines)⟩)
        (fun _ _ f => f)
      exact ends.andThen (fun o t r => (r.1 rfl).commitOpen_sound rfl hl h.owns h.lines) (fun p t hp r => r.2 hp)
        (fun _ _ f => f)

/-- A start that ends, or blocks, from an open and started controller (43_acquisition.md R169). -/
theorem State.Sound.ofStart {s : State} (h : s.Sound) (isOpen : s.isOpen = true) (started : s.started = true)
    (sync : s.cfg.syncEnable = true) {r : Ran} (hr : r.Holds (StartEnds s) (StartBlocks s)) :
    r.Holds (fun _ t => t.Sound) (fun w t => t.Sound ∧ w.LegalIn t) := by
  have sound : ∀ t, StartFrame s t → t.Sound := fun t f =>
    h.startFrame f fun closed => absurd (isOpen.symm.trans closed) (by simp)
  refine hr.mono ?_ ?_
  · rintro p t ⟨_, f | ⟨_, u, f, rfl⟩⟩
    · exact sound t f
    · exact (sound u f).setStarted false (by simp)
  · rintro w t ⟨f, n, rfl⟩
    rw [Inflight.acqStart_legalIn, f.started, f.cfg]
    exact ⟨sound t f, started, sync⟩

theorem acqStartBody_sound {s : State} (h : s.Sound) :
    (acqStartBody s).Holds (fun _ t => t.Sound) (fun w t => t.Sound ∧ w.LegalIn t) := by
  unfold acqStartBody
  split
  · exact h
  rename_i hopen
  have isOpen : s.isOpen = true := by simpa using hopen
  have begun := h.setStarted true fun _ => isOpen
  split
  · exact h
  simp only
  split
  · exact begun
  · rename_i hsync
    exact begun.ofStart isOpen rfl (by simpa using hsync) (pulsedStart_ends _ _)

/-- A frame read, from the start of ACQ.READ or from its wait on, while the controller is started. -/
theorem State.Sound.ofRead {s : State} (h : s.Sound) (started : s.started = true) {r : Ran}
    (hr : r.Holds (fun _ t => ReadFrame s t) (fun w t => w = .acqRead ∧ ByEnv s t ∧ KeepsOwn s t)) :
    r.Holds (fun _ t => t.Sound) (fun w t => t.Sound ∧ w.LegalIn t) := by
  refine hr.mono (fun p t f => h.startFrame f.startFrame fun closed => ?_) ?_
  · exact absurd ((h.startedOpen started).symm.trans closed) (by simp)
  · rintro w t ⟨rfl, b, o⟩
    rw [Inflight.acqRead_legalIn]
    exact ⟨h.byEnv b o, b.block.controller.started.trans started⟩

/-- Every command keeps the invariant, and blocks only where a command can be blocked. -/
theorem commandBody_sound {s : State} (h : s.Sound) (i : Instr) :
    (commandBody i s).Holds (fun _ t => t.Sound) (fun w t => t.Sound ∧ w.LegalIn t) := by
  cases i with
  | lineAcquire k d v l =>
    exact .hostOnly fun closed => (lineAcquireBody_sound h closed k l d v).mono (fun _ _ ht => ht) (fun _ _ f => f.elim)
  | lineWait k ms => exact .hostOnly fun closed => lineWaitBody_sound h closed k ms
  | lineGet k =>
    exact .hostOnly fun _ => (lineGetBody_holds k s).mono (fun _ _ ht => h.byEnv ht.1 ht.2.1) (fun _ _ f => f.elim)
  | lineSet k v =>
    refine .hostOnly fun closed => (lineSetBody_holds k v s).mono ?_ (fun _ _ f => f.elim)
    rintro p t ⟨q, o, same, _⟩
    exact h.onSlot closed q (same.coherent (h.coherent k)).of_level (q.ownsHeld o same h.owns)
  | lineRelease k =>
    obtain ⟨q, empty, _⟩ := lineReleaseBody_onSlot k s
    exact .hostOnly fun closed => h.onSlot closed q empty.coherent (lineReleaseBody_ownsHeld k s h.owns)
  | spiOpen path hz mode noCs =>
    refine .hostOnly fun closed => (spiOpenBody_holds path hz mode noCs s).mono (fun p t ht => ?_) (fun _ _ f => f.elim)
    refine h.onSpi closed ht.onSpi ?_
    by_cases hp : p.code = .ok
    · obtain ⟨eff, _, hspi⟩ := ht.ok hp
      rw [hspi]
      exact fun _ => rfl
    · rw [ht.fail hp]
      exact h.bits
  | spiXfer len =>
    exact .hostOnly fun _ => (spiXferBody_holds len s).mono (fun _ _ ht => h.byEnv ht.1 ht.2.1) (fun _ _ f => f.elim)
  | spiClose =>
    obtain ⟨q, hspi⟩ := spiCloseBody_onSpi s
    exact .hostOnly fun closed => h.onSpi closed q (by rw [hspi]; simp)
  | acqOpen cfg => exact (acqOpenBody_sound h cfg).mono (fun _ _ ht => ht) (fun _ _ f => f.elim)
  | acqStart => exact acqStartBody_sound h
  | acqRead present =>
    simp only [commandBody, acqReadBody]
    split
    · exact h
    split
    · exact h
    · rename_i hs
      exact h.ofRead (by simpa using hs)
        ((readBody_holds .acqRead s).mono (fun _ _ ht => ht.1) (fun _ _ ht => ⟨ht.1, ht.2.1, ht.2.2.1⟩))
  | acqRaw present =>
    simp only [commandBody, acqRawBody]
    split
    · exact h
    · exact h
  | acqStop => exact h.setStarted false (by simp)
  | acqClose => exact (acqCloseBody_closedFrom s).sound h.owns h.lines

/-- A blocked command taken up again keeps the invariant. -/
theorem resumeBody_sound {s : State} (h : s.Sound) {w : Inflight} (hw : w.LegalIn s) :
    (resumeBody w s).Holds (fun _ t => t.Sound) (fun v t => t.Sound ∧ v.LegalIn t) := by
  cases w with
  | lineWait k =>
    obtain ⟨closed, handle⟩ := (Inflight.lineWait_legalIn k s).1 hw
    refine (lineWaitResume_holds k s).mono (fun _ _ ht => h.byEnv ht.1 ht.2.1) ?_
    rintro w t ⟨b, o, rfl, _⟩
    rw [Inflight.lineWait_legalIn, b.handle k]
    exact ⟨h.byEnv b o, b.block.controller.isOpen.trans closed, handle⟩
  | acqRead =>
    exact h.ofRead ((Inflight.acqRead_legalIn s).1 hw)
      ((readResume_holds .acqRead s).mono (fun _ _ ht => ht.1) (fun _ _ ht => ⟨ht.1, ht.2.1, ht.2.2.1⟩))
  | acqStart n =>
    obtain ⟨started, sync⟩ := (Inflight.acqStart_legalIn n s).1 hw
    exact h.ofStart (h.startedOpen started) started sync (acqStartResume_ends n s)

/-! ### The statements -/

/-- Settles O8: the four ways of a step, each from `Sound` and from what may be blocked. -/
theorem everyStepKeepsTheInvariant : Obligations.EveryStepKeepsTheInvariant := by
  intro s t hi h
  obtain ⟨sound, legal⟩ := s.inv_iff.1 hi
  have popped : s.popCommand.Sound := sound.of_port _ _ _ _ _
  cases step_cases h with
  | idle h => rw [h]; exact hi
  | resumed w hw h => rw [h]; exact sound.finish (resumeBody_sound sound (legal.legalIn hw))
  | ran i _ h => rw [h]; exact popped.finish (commandBody_sound popped i)
  | undecoded _ h => rw [h]; exact popped.finish (r := .refused) trivial

/-- Settles O7: the slots are empty, nothing is open, reserved or blocked. -/
theorem resetMeetsTheInvariant : Obligations.ResetMeetsTheInvariant := by
  have empty : LineSlot.atReset.Empty := ⟨rfl, rfl, rfl, rfl, rfl, rfl⟩
  exact {
    startedOpen := fun h => absurd h (by decide)
    closed := fun _ => ⟨rfl, rfl⟩
    held := fun h => absurd h (by decide)
    bits := fun h => absurd h (by decide)
    drdy := empty.coherent
    sync := empty.coherent
    reserved := fun l h => absurd (show false = true from h) (by decide)
    once := fun h => absurd h (by decide)
    inflight := trivial
    lines := List.Pairwise.nil }

end Sys2Proof.Machine
end

section
/-! SUPPORT. The frame read when the script says how its calls are answered: the clear and the turn of the wait for any
slot, then the read itself. A read whose first clear is granted goes on as a read that is taken up again in its wait, so
what is said of the one is said of the other. -/

namespace Sys2Proof.Machine

/-! ### The clear -/

/-- A granted clear: the read of the line, and the latch clear after it (41_gpio_line.md R118). -/
theorem clearLatch_granted {s : State} {t : Turn} {rest : List Turn} (h : s.env.script = t :: rest)
    (v : t.verdict = .ok) (k : Slot) (l : LineId) :
    ∃ u, clearLatch k l s = (.ok, u) ∧ Turned s [.readValue l] rest u ∧ (u.slot k).latch = false := by
  obtain ⟨u, e, ht, _⟩ := envReadValue_granted h v l
  refine ⟨u.setSlot k { u.slot k with latch := false }, by simp only [clearLatch, e], ?_, by
    rw [State.slot_setSlot_self]⟩
  exact ht.update (u.clearLatch_byEnv k) (u.setSlot_keepsOwn k _) (by simp) (by simp)

theorem clearLatch_fails {s : State} {t : Turn} {rest : List Turn} {c : EnvCause} (h : s.env.script = t :: rest)
    (v : t.verdict = .fail c) (k : Slot) (l : LineId) :
    ∃ u, clearLatch k l s = (.fail (.env c), u) ∧ Turned s [.readValue l] rest u := by
  obtain ⟨u, e, ht, _⟩ := envReadValue_fails h v l
  exact ⟨u, by simp only [clearLatch, e], ht⟩

/-! ### The turn of the wait -/

/-- A turn in which the slot's line does not fall leaves a clear latch clear. -/
theorem envWaitTurn_quiet {s : State} {t : Turn} {rest : List Turn} (h : s.env.script = t :: rest) {k : Slot}
    {l : LineId} (hl : (s.slot k).line = some l) (latch : (s.slot k).latch = false) (quiet : .pinFall l ∉ t.events) :
    ∃ u, envWaitTurn s k = (waitAnswerOf false t.verdict, u) ∧ Turned s [] rest u ∧ (u.slot k).latch = false := by
  obtain ⟨u, e, ht, _, hu⟩ := envWaitTurn_turned h k
  have hq : (u.slot k).latch = false := by
    rw [hu]
    exact foldl_envStep_quiet t.events _ k (by cases k <;> exact hl) quiet (by cases k <;> exact latch)
  exact ⟨u, by rw [e, hq], ht, hq⟩

/-- A turn with a whole falling edge of the slot's line ends the wait, unless its verdict is a failure
(41_gpio_line.md R119; log 4). -/
theorem envWaitTurn_pulsed {s : State} {t : Turn} {rest : List Turn} (h : s.env.script = t :: rest) {k : Slot}
    {l : LineId} (hl : (s.slot k).line = some l) (falling : (s.slot k).detectsFalling = true)
    (handle : (s.slot k).handle ≠ none) (undriven : s.drives l = false) (falls : Pulses t l)
    (v : ∀ c, t.verdict ≠ .fail c) :
    ∃ u, envWaitTurn s k = (.edge, u) ∧ Turned s [] rest u := by
  obtain ⟨u, e, ht, _, hu⟩ := envWaitTurn_turned h k
  obtain ⟨es, es', hev⟩ := falls
  have hs : (u.slot k).latch = true := by
    rw [hu, hev]
    exact foldl_envStep_falls es es' _ k l (by cases k <;> exact hl) (by cases k <;> exact falling)
      (Option.isSome_iff_ne_none.2 (by cases k <;> exact handle)) undriven
  refine ⟨u, ?_, ht⟩
  rcases waitAnswerOf_cases true t.verdict with ⟨c, _, hc⟩ | ⟨he, _⟩ | ⟨_, hf, _⟩ | ⟨_, hf⟩
  · exact absurd hc (v c)
  · rw [e, hs, he]
  · cases hf
  · cases hf

theorem envWaitTurn_fails {s : State} {t : Turn} {rest : List Turn} {c : EnvCause} (h : s.env.script = t :: rest)
    (v : t.verdict = .fail c) (k : Slot) :
    ∃ u, envWaitTurn s k = (.fail (.env c), u) ∧ Turned s [] rest u := by
  obtain ⟨u, e, ht, _⟩ := envWaitTurn_turned h k
  exact ⟨u, by rw [e, v]; rfl, ht⟩

/-! ### What the read needs -/

theorem State.ReadyToRead.byEnv {s t : State} {l : LineId} (h : s.ReadyToRead l) (b : ByEnv s t) : t.ReadyToRead l :=
  ⟨(b.line .drdy).trans h.line, fun e => h.handle ((b.handle .drdy).symm.trans e),
    (b.block.drdy.detectsFalling).trans h.falling, (b.drives l).trans h.undriven,
    (congrArg SpiState.isOpen b.block.spi).trans h.spi⟩

theorem State.ReadyToRead.waitTurn_pulsed {s : State} {l : LineId} (hr : s.ReadyToRead l) {b : Turn} {rest : List Turn}
    (h : s.env.script = b :: rest) (hb : ∀ c, b.verdict ≠ .fail c) (falls : Pulses b l) :
    ∃ u, envWaitTurn s .drdy = (.edge, u) ∧ Turned s [] rest u :=
  envWaitTurn_pulsed (k := .drdy) h hr.line hr.falling hr.handle hr.undriven falls hb

/-! ### The exchange -/

theorem spiExchange_fails {s : State} {t : Turn} {rest : List Turn} {c : EnvCause} (h : s.env.script = t :: rest)
    (v : t.verdict = .fail c) (hs : s.spi.isOpen = true) :
    ∃ u, spiExchange s = (.failed (.ioFailure (.env c)), u) ∧ Turned s [.spiTransfer FrameBuf.zero] rest u := by
  obtain ⟨u, e, ht⟩ := envSpiTransfer_fails h v
  exact ⟨u, by simp [spiExchange, hs, e], ht⟩

/-- A failing exchange ends the read between its two clock samples (43_acquisition.md R171). -/
theorem readAfterEdge_exchange_fails {s : State} {y z : Turn} {rest : List Turn} {c : EnvCause}
    (h : s.env.script = y :: z :: rest) (v : z.verdict = .fail c) (hs : s.spi.isOpen = true) :
    ∃ t, readAfterEdge s = .error (.ioFailure (.env c)) t ∧ Turned s [.clock, .spiTransfer FrameBuf.zero] rest t := by
  obtain ⟨u, e, hu, _⟩ := envClock_turned h
  obtain ⟨t, e', ht⟩ := spiExchange_fails hu.script v ((congrArg SpiState.isOpen hu.byEnv.block.spi).trans hs)
  exact ⟨t, by simp only [readAfterEdge, e, e'], hu.trans ht⟩

/-! ### The read from its wait on -/

/-- A read whose first clear is granted records its wait and goes on as one taken up again in it
(43_acquisition.md R171; log 36). -/
theorem readBody_cleared {s : State} {l : LineId} {a : Turn} {rest : List Turn} (w : Inflight) (hr : s.ReadyToRead l)
    (h : s.env.script = a :: rest) (ha : a.verdict = .ok) :
    ∃ u, readBody w s = readResume w u ∧ Turned s [.readValue l, .waitEdge .drdy s.cfg.timeoutMs] rest u ∧
      u.drdy.latch = false := by
  obtain ⟨u, e, hu, hl⟩ := clearLatch_granted h ha .drdy l
  have hw : Turned s [.readValue l, .waitEdge .drdy s.cfg.timeoutMs] rest
      (u.logCall (.waitEdge .drdy s.cfg.timeoutMs)) :=
    hu.trans ⟨u.logCall_byEnv _, fun _ _ h => h, rfl, hu.script⟩
  refine ⟨_, ?_, hw, hl⟩
  simp only [readBody, readResume, lineWaitBody, lineWaitResume, State.slot_drdy, hr.handle, hr.falling, hr.line,
    (hr.byEnv hw.byEnv).line, e, if_false, if_true]

/-- The first clear fails, and the read with it. -/
theorem readBody_clear_fails {s : State} {l : LineId} {a : Turn} {rest : List Turn} {c : EnvCause} (w : Inflight)
    (hr : s.ReadyToRead l) (h : s.env.script = a :: rest) (ha : a.verdict = .fail c) :
    ∃ t, readBody w s = .error (.ioFailure (.env c)) t ∧ Turned s [.readValue l] rest t := by
  obtain ⟨t, e, ht⟩ := clearLatch_fails h ha .drdy l
  refine ⟨t, ?_, ht⟩
  simp only [readBody, lineWaitBody, State.slot_drdy, hr.handle, hr.falling, hr.line, e, if_false, if_true]
  rfl

theorem readResume_of_line {s : State} {l : LineId} (w : Inflight) (h : s.drdy.line = some l) :
    readResume w s = ((waitPoll .drdy l s).blockedAs w).andThen readAfterEdge := by
  simp only [readResume, lineWaitResume, State.slot_drdy, h]

/-- The turns of a read that fails in its wait or later: `FailingRead` without the turn of the first clear. -/
inductive FailingFromWait (l : LineId) : List Turn → ResultCode → Prop where
  | wait (b : Turn) (c : EnvCause) (hb : b.verdict = .fail c) : FailingFromWait l [b] (.ioFailure (.env c))
  | timeout (b : Turn) (quiet : .pinFall l ∉ b.events) (hb : b.verdict = .timeout) : FailingFromWait l [b] .timedOut
  | again (b x : Turn) (c : EnvCause) (hb : ∀ e, b.verdict ≠ .fail e) (falls : Pulses b l) (hx : x.verdict = .fail c) :
      FailingFromWait l [b, x] (.ioFailure (.env c))
  | exchange (b x y z : Turn) (c : EnvCause) (hb : ∀ e, b.verdict ≠ .fail e) (falls : Pulses b l)
      (hx : x.verdict = .ok) (hz : z.verdict = .fail c) : FailingFromWait l [b, x, y, z] (.ioFailure (.env c))

/-- A failing read fails in its first clear, or clears and fails from its wait on. -/
theorem FailingRead.split {l : LineId} {a : Turn} {more : List Turn} {c : ResultCode}
    (h : FailingRead l (a :: more) c) :
    (more = [] ∧ ∃ e, a.verdict = .fail e ∧ c = .ioFailure (.env e)) ∨
      (a.verdict = .ok ∧ FailingFromWait l more c) := by
  cases h with
  | clear _ e ha => exact .inl ⟨rfl, e, ha, rfl⟩
  | wait _ b e ha hb => exact .inr ⟨ha, .wait b e hb⟩
  | timeout _ b ha quiet hb => exact .inr ⟨ha, .timeout b quiet hb⟩
  | again _ b x e ha hb falls hx => exact .inr ⟨ha, .again b x e hb falls hx⟩
  | exchange _ b x y z e ha hb falls hx hz => exact .inr ⟨ha, .exchange b x y z e hb falls hx hz⟩

/-- The calls of a read of line `l` from its wait on, when `n` turns were taken: the turn of the wait is no call of its
own (log 36). -/
def callsFromWait (l : LineId) (ms : U32) (n : Nat) : List Call := ((readCalls l ms).take (n + 1)).drop 2

theorem readCalls_take_eq {l : LineId} {ms : U32} {n : Nat} (hn : 0 < n) :
    (readCalls l ms).take (n + 1) = [.readValue l, .waitEdge .drdy ms] ++ callsFromWait l ms n := by
  obtain ⟨m, rfl⟩ := Nat.exists_eq_add_of_lt hn
  rw [Nat.zero_add]
  rfl

/-- A read that fails in its wait or later returns the code of the call that fails, and makes no call after it. -/
theorem readResume_fails {s : State} {l : LineId} {ts rest : List Turn} {c : ResultCode} (w : Inflight) (ms : U32)
    (hr : s.ReadyToRead l) (hl : s.drdy.latch = false) (hf : FailingFromWait l ts c) (h : s.env.script = ts ++ rest) :
    ∃ t, readResume w s = .error c t ∧ Turned s (callsFromWait l ms ts.length) rest t := by
  rw [readResume_of_line w hr.line]
  cases hf with
  | wait b e hb =>
    obtain ⟨u, eu, hu⟩ := envWaitTurn_fails h hb .drdy
    exact ⟨u, by simp only [waitPoll, eu]; rfl, hu⟩
  | timeout b quiet hb =>
    obtain ⟨u, eu, hu, _⟩ := envWaitTurn_quiet (k := .drdy) h hr.line hl quiet
    exact ⟨u, by simp only [waitPoll, eu, hb]; rfl, hu⟩
  | again b x e hb falls hx =>
    obtain ⟨u, eu, hu⟩ := hr.waitTurn_pulsed h hb falls
    obtain ⟨v, ev, hv⟩ := clearLatch_fails hu.script hx .drdy l
    exact ⟨v, by simp only [waitPoll, eu, ev]; rfl, hu.trans hv⟩
  | exchange b x y z e hb falls hx hz =>
    obtain ⟨u, eu, hu⟩ := hr.waitTurn_pulsed h hb falls
    obtain ⟨v, ev, hv, _⟩ := clearLatch_granted hu.script hx .drdy l
    have huv := hu.trans hv
    obtain ⟨t, et, ht⟩ := readAfterEdge_exchange_fails huv.script hz (hr.byEnv huv.byEnv).spi
    exact ⟨t, by simp only [waitPoll, eu, ev]; exact et, huv.trans ht⟩

/-- A failing read returns the code of the call that fails, and makes no call after it
(43_acquisition.md R171, R176). -/
theorem readBody_fails {s : State} {l : LineId} {ts rest : List Turn} {c : ResultCode} (w : Inflight)
    (hr : s.ReadyToRead l) (hf : FailingRead l ts c) (h : s.env.script = ts ++ rest) :
    ∃ t, readBody w s = .error c t ∧ Turned s ((readCalls l s.cfg.timeoutMs).take ts.length) rest t := by
  cases ts with
  | nil => cases hf
  | cons a more =>
    rcases hf.split with ⟨rfl, e, ha, rfl⟩ | ⟨ha, hw⟩
    · exact readBody_clear_fails w hr h ha
    · obtain ⟨u, eu, hu, hl⟩ := readBody_cleared w hr h ha
      obtain ⟨t, et, ht⟩ := readResume_fails w s.cfg.timeoutMs (hr.byEnv hu.byEnv) hl hw hu.script
      have hn : 0 < more.length := by cases hw <;> simp
      refine ⟨t, eu.trans et, ?_⟩
      rw [List.length_cons, readCalls_take_eq hn]
      exact hu.trans ht

end Sys2Proof.Machine
end

section
/-! SUPPORT. The statements of 20_memory.md: the commit of a frame read, and the copy of the raw shadow. -/

namespace Sys2Proof.Machine

/-! ### The commit -/

/-- The ways a command ends write the host's port, and the mark stays as it was. -/
theorem SameBlock.of_port {s t : State} (h : SameBlock s t) (cp : Nat) (inflight : Option Inflight)
    (out : Option Response) {refused : Bool} (hm : refused = s.refused) :
    SameBlock s { t with cp := cp, inflight := inflight, out := out, refused := refused } :=
  have c := h.controller
  ⟨⟨c.isOpen, c.started, c.cfg, c.seq, c.raw, c.diag, hm, c.pending⟩, h.spi, h.drdy, h.sync⟩

/-- A Frame with the old counter and the decode of the new raw shadow was returned, and the counter advanced: "all". -/
def Committed (s t : State) : Prop :=
  t.inflight = none ∧ ∃ f : Frame, t.out = some ⟨.ok, .frame f⟩ ∧ f.seq = s.seq ∧ t.seq = s.seq + 1 ∧
    f.ch = decodeFrame t.raw

/-- No Frame was returned, and the block changed in nothing but latches and the mark: "nothing". -/
def Uncommitted (s t : State) : Prop :=
  SameBlock s { t with refused := s.refused } ∧ (t.inflight = none → ∀ f, t.out ≠ some ⟨.ok, .frame f⟩)

theorem Uncommitted.refused (s : State) : Uncommitted s s.refuse :=
  ⟨(SameBlock.refl s).of_port _ _ _ rfl, fun _ _ h => by cases h⟩

theorem Uncommitted.blocked {s t : State} (h : SameBlock s t) (w : Inflight) :
    Uncommitted s { t with inflight := some w } :=
  ⟨h.of_port _ _ _ rfl, fun e => by cases e⟩

theorem Uncommitted.failed {s t : State} (h : SameBlock s t) {p : Response} (hp : p.output = .nothing) :
    Uncommitted s (t.complete p) := by
  refine ⟨h.of_port _ _ _ rfl, fun _ f e => ?_⟩
  rw [Option.some.inj e] at hp
  cases hp

/-- A read that changed neither counter, shadow nor diagnostics changed nothing of the block but latches. -/
theorem ReadFrame.sameBlock {s t : State} (h : ReadFrame s t) (seq : t.seq = s.seq) (raw : t.raw = s.raw)
    (diag : t.diag = s.diag) : SameBlock s t :=
  ⟨⟨h.isOpen, h.started, h.cfg, seq, raw, diag, h.history.refused, h.history.pending⟩, h.spi, h.drdy, h.sync⟩

/-- The end of a read commits all or nothing (20_memory.md R69, 43_acquisition.md R175, R176). -/
theorem ReadEnds.committed_or {s t : State} {p : Response} (h : ReadEnds s p t) (hf : ReadFrame s t) :
    Committed s (t.complete p) ∨ Uncommitted s (t.complete p) := by
  rcases h with ⟨f, rfl, hseq, hcount, hch, _⟩ | ⟨hout, hseq, hraw, hdiag, _⟩
  · exact .inl ⟨rfl, f, rfl, hseq, hcount, hch⟩
  · exact .inr (.failed (hf.sameBlock hseq hraw hdiag) hout)

theorem finish_committed_or {s : State} {r : Ran}
    (h : r.Holds (fun p t => ReadFrame s t ∧ ReadEnds s p t) (fun _ t => SameBlock s t)) :
    Committed s (finish s r) ∨ Uncommitted s (finish s r) := by
  rcases finish_of_holds (s := s) h with ⟨p, t, e, hf, he⟩ | e | ⟨w, t, e, hb⟩ <;> rw [e]
  · exact he.committed_or hf
  · exact .inr (.refused s)
  · exact .inr (.blocked hb w)

theorem readBody_committed_or (s : State) :
    Committed s (finish s (readBody .acqRead s)) ∨ Uncommitted s (finish s (readBody .acqRead s)) :=
  finish_committed_or ((readBody_holds .acqRead s).mono (fun _ _ h => h) (fun _ _ h => h.2.1.block))

theorem readResume_committed_or (s : State) :
    Committed s (finish s (readResume .acqRead s)) ∨ Uncommitted s (finish s (readResume .acqRead s)) :=
  finish_committed_or ((readResume_holds .acqRead s).mono (fun _ _ h => h) (fun _ _ h => h.2.1.block))

theorem acqReadBody_of_started {s : State} (h : s.started = true) : acqReadBody true s = readBody .acqRead s := by
  simp [acqReadBody, h]

theorem acqReadBody_of_not_started {s : State} (h : s.started = false) :
    acqReadBody true s = .error .notPermitted s := by
  simp [acqReadBody, h]

/-- ACQ.READ from any state: NOT_PERMITTED unless the controller is started, and a read if it is
(43_acquisition.md R170). -/
theorem acqReadBody_committed_or (s : State) :
    Committed s (finish s (acqReadBody true s)) ∨ Uncommitted s (finish s (acqReadBody true s)) := by
  cases h : s.started with
  | false =>
    rw [acqReadBody_of_not_started h]
    exact .inr (.failed (.refl s) rfl)
  | true =>
    rw [acqReadBody_of_started h]
    exact readBody_committed_or s

/-! ### A failing read -/

/-- A read that failed after granted calls has completed with its code, and changed nothing of the block but latches. -/
theorem Turned.failed {s t : State} {cs : List Call} {rest : List Turn} (h : Turned s cs rest t) (c : ResultCode) :
    Completed s (finish s (.error c t)) ⟨c, .nothing⟩ ∧ SameBlock s (finish s (.error c t)) ∧
      (finish s (.error c t)).env.script = rest ∧ (finish s (.error c t)).calls = s.calls ++ cs :=
  ⟨⟨rfl, rfl, congrArg (· + 1) h.byEnv.cp⟩, h.byEnv.block.of_port _ _ _ h.byEnv.block.controller.refused, h.script,
    h.calls⟩

/-! ### The statements -/

/-- Settles O54: how a read ends from any state, then the failing read from its first call and from its wait. -/
theorem readCommitsAllOrNothing : Obligations.ReadCommitsAllOrNothing := by
  refine ⟨fun s t h => ?_, fun d s ts rest c hs hr hf h => ?_, fun d s a more rest c hw hr hl hf hne h => ?_⟩
  · rcases h with h | ⟨hw, h⟩
    · rw [exec_next h]
      exact acqReadBody_committed_or s
    · rw [step_of_inflight hw] at h
      rw [← Host.Outcome.next.inj h]
      exact readResume_committed_or s
  · obtain ⟨t, e, ht⟩ := readBody_fails .acqRead hr hf h
    refine ⟨_, exec_eq_finish _ s, ?_⟩
    rw [commandBody, acqReadBody_of_started hs, e]
    exact ht.failed c
  · rcases hf.split with ⟨hnil, _⟩ | ⟨_, hf⟩
    · exact absurd hnil hne
    · obtain ⟨t, e, ht⟩ := readResume_fails .acqRead s.cfg.timeoutMs hr hl hf h
      refine ⟨_, step_of_inflight hw, ?_⟩
      rw [resumeBody, e]
      exact ht.failed c

/-- Settles O55: the bytes read one by one are the shadow. -/
theorem rawCopiesTheShadow : Obligations.RawCopiesTheShadow := by
  intro s
  have body : acqRawBody true s = .okWith (.bytes s.raw) s := by simp [acqRawBody, State.ofFn_rawRead]
  rw [exec_eq_finish, commandBody, body]
  rfl

end Sys2Proof.Machine
end

section
/-! SUPPORT. Decode and encode as inverses (30_encoding.md R80, R83 to R85): a word that matches a row is the row's
pattern with the word's own fields, and the words that the encoder writes match their row. -/

namespace Sys2Proof

/-! ### The row a word matches -/

theorem hits_of_rowOf {w : Header} {o : Op} (h : rowOf w = some o) : ∃ r ∈ opRows, r.op = o ∧ r.hits w = true := by
  obtain ⟨r, hr, ho⟩ := Option.map_eq_some_iff.mp h
  exact ⟨r, List.mem_of_find?_eq_some hr, ho, List.find?_some (p := fun r : OpRow => r.hits w) hr⟩

theorem rowOf_eq_none_iff (w : Header) : rowOf w = none ↔ ∀ r ∈ opRows, r.hits w = false := by
  simp [rowOf, List.find?_eq_none]

/-! ### What each mask leaves free (30_encoding.md R85) -/

theorem and_acquireFields (w : Header) :
    w &&& ~~~0xFFFFF8FF#32 = (slotField w).field ||| (dirField w).field ||| bitAt 10 (valueField w) := by
  have bits : ~~~0xFFFFF8FF#32 = (1#32 <<< 8) ||| (1#32 <<< 9) ||| (1#32 <<< 10) := by decide
  simp only [bits, BitVec.and_or_distrib_left, and_bit_eq_bitAt, field_slotField, field_dirField, valueField]

theorem and_setFields (w : Header) : w &&& ~~~0xFFFFFAFF#32 = (slotField w).field ||| bitAt 10 (valueField w) := by
  have bits : ~~~0xFFFFFAFF#32 = (1#32 <<< 8) ||| (1#32 <<< 10) := by decide
  simp only [bits, BitVec.and_or_distrib_left, and_bit_eq_bitAt, field_slotField, valueField]

theorem and_slotField (w : Header) : w &&& ~~~0xFFFFFEFF#32 = (slotField w).field := by
  have bit : ~~~0xFFFFFEFF#32 = 1#32 <<< 8 := by decide
  rw [bit, and_bit_eq_bitAt, field_slotField]

theorem and_presenceField (w : Header) : w &&& ~~~0xFFFFF7FF#32 = bitAt 11 (presenceField w) := by
  have bit : ~~~0xFFFFF7FF#32 = 1#32 <<< 11 := by decide
  rw [bit, and_bit_eq_bitAt, presenceField]

theorem and_noField (w : Header) : w &&& ~~~0xFFFFFFFF#32 = 0#32 := by
  have none : ~~~0xFFFFFFFF#32 = 0#32 := by decide
  rw [none, BitVec.and_zero]

/-- The words of a row, as the encoder writes them from the word's own fields. -/
def rowWord (o : Op) (w : Header) : Header :=
  match o with
  | .lineAcquire => 0x10#32 ||| (slotField w).field ||| (dirField w).field ||| bitAt 10 (valueField w)
  | .lineWait => 0x11#32 ||| (slotField w).field
  | .lineGet => 0x12#32 ||| (slotField w).field
  | .lineSet => 0x13#32 ||| (slotField w).field ||| bitAt 10 (valueField w)
  | .lineRelease => 0x14#32 ||| (slotField w).field
  | .spiOpen => 0x20#32
  | .spiXfer => 0x21#32
  | .spiClose => 0x22#32
  | .acqOpen => 0x30#32 ||| bitAt 11 (presenceField w)
  | .acqStart => 0x31#32
  | .acqRead => 0x32#32 ||| bitAt 11 (presenceField w)
  | .acqRaw => 0x33#32 ||| bitAt 11 (presenceField w)
  | .acqStop => 0x34#32
  | .acqClose => 0x35#32

/-- A row's pattern, with the fields its mask leaves free, is what the encoder writes. -/
theorem pattern_or_fields {r : OpRow} (hr : r ∈ opRows) (w : Header) :
    r.pattern ||| (w &&& ~~~r.mask) = rowWord r.op w := by
  simp only [opRows, List.mem_cons, List.not_mem_nil, or_false] at hr
  rcases hr with rfl | rfl | rfl | rfl | rfl | rfl | rfl | rfl | rfl | rfl | rfl | rfl | rfl | rfl <;>
    simp only [rowWord, and_acquireFields, and_setFields, and_slotField, and_presenceField, and_noField,
      BitVec.ofNat_eq_ofNat, BitVec.or_assoc, BitVec.or_zero]

theorem word_of_rowOf {w : Header} {o : Op} (h : rowOf w = some o) : w = rowWord o w := by
  obtain ⟨r, hr, rfl, hit⟩ := hits_of_rowOf h
  calc w = r.pattern ||| (w &&& ~~~r.mask) := OpRow.word_of_hits (by simpa [OpRow.hits] using hit)
    _ = rowWord r.op w := pattern_or_fields hr w

/-! ### Decode and encode -/

/-- What a row reads from a payload of its shape (30_encoding.md R83, R84). -/
inductive RowReads (w : Header) : Op → Payload → Instr → Prop
  | lineAcquire (l : LineId) :
      RowReads w .lineAcquire (.line l) (.lineAcquire (slotField w) (dirField w) (valueField w) l)
  | lineWait (ms : U32) : RowReads w .lineWait (.timeout ms) (.lineWait (slotField w) ms)
  | lineGet : RowReads w .lineGet .empty (.lineGet (slotField w))
  | lineSet : RowReads w .lineSet .empty (.lineSet (slotField w) (valueField w))
  | lineRelease : RowReads w .lineRelease .empty (.lineRelease (slotField w))
  | spiOpen (path : BusPath) (hz : U32) (mode : U8) (noCs : Bool) :
      RowReads w .spiOpen (.endpoint path hz mode noCs) (.spiOpen path hz mode noCs)
  | spiXfer (len : U32) : RowReads w .spiXfer (.length len) (.spiXfer len)
  | spiClose : RowReads w .spiClose .empty .spiClose
  | acqOpenConfig (c : DeviceConfig) (present : presenceField w = true) :
      RowReads w .acqOpen (.config c) (.acqOpen (some c))
  | acqOpenEmpty (absent : presenceField w = false) : RowReads w .acqOpen .empty (.acqOpen none)
  | acqStart : RowReads w .acqStart .empty .acqStart
  | acqRead : RowReads w .acqRead .empty (.acqRead (presenceField w))
  | acqRaw : RowReads w .acqRaw .empty (.acqRaw (presenceField w))
  | acqStop : RowReads w .acqStop .empty .acqStop
  | acqClose : RowReads w .acqClose .empty .acqClose

theorem rowReads_of_decode {w : Header} {p : Payload} {i : Instr} (h : decode w p = some i) :
    ∃ o, rowOf w = some o ∧ RowReads w o p i := by
  generalize row : rowOf w = r
  cases r with
  | none => rw [decode_of_no_row row] at h; cases h
  | some o =>
    refine ⟨o, rfl, ?_⟩
    unfold decode at h
    rw [row] at h
    cases o <;> cases p
    case acqOpen.config c =>
      obtain ⟨present, e⟩ := Option.ite_none_right_eq_some.mp h
      cases e
      exact .acqOpenConfig c present
    case acqOpen.empty =>
      obtain ⟨absent, e⟩ := Option.ite_none_left_eq_some.mp h
      cases e
      exact .acqOpenEmpty (Bool.eq_false_of_not_eq_true absent)
    -- Any other payload is of the row's one shape, or decodes to nothing.
    all_goals cases h <;> constructor

/-- What a row reads encodes to the row's word and to the payload. -/
theorem RowReads.encode_eq {w : Header} {o : Op} {p : Payload} {i : Instr} (h : RowReads w o p i) :
    encode i = { header := rowWord o w, payload := p } := by
  cases h with
  | acqOpenConfig c present => simp only [encode, encodeHeader, encodePayload, rowWord, present, Option.isSome_some]
  | acqOpenEmpty absent => simp only [encode, encodeHeader, encodePayload, rowWord, absent, Option.isSome_none]
  | _ => rfl

theorem encode_of_decode {w : Header} {p : Payload} {i : Instr} (h : decode w p = some i) :
    encode i = { header := w, payload := p } := by
  obtain ⟨o, row, reads⟩ := rowReads_of_decode h
  rw [reads.encode_eq, ← word_of_rowOf row]

/-! ### The words the encoder writes, where the payload is an operand beside the fields -/

theorem acquireWord_row (k : Slot) (d : Dir) (v : Bool) :
    rowOf (0x10#32 ||| k.field ||| d.field ||| bitAt 10 v) = some .lineAcquire := by
  cases k <;> cases d <;> cases v <;> rfl

theorem acquireWord_fields (k : Slot) (d : Dir) (v : Bool) :
    slotField (0x10#32 ||| k.field ||| d.field ||| bitAt 10 v) = k ∧
      dirField (0x10#32 ||| k.field ||| d.field ||| bitAt 10 v) = d ∧
      valueField (0x10#32 ||| k.field ||| d.field ||| bitAt 10 v) = v := by
  cases k <;> cases d <;> cases v <;> decide

theorem waitWord_row (k : Slot) : rowOf (0x11#32 ||| k.field) = some .lineWait := by cases k <;> rfl

theorem waitWord_slot (k : Slot) : slotField (0x11#32 ||| k.field) = k := by cases k <;> rfl

theorem decode_encode (i : Instr) : decode (encodeHeader i) (encodePayload i) = some i := by
  cases i with
  | lineAcquire k d v l =>
    obtain ⟨slot, dir, value⟩ := acquireWord_fields k d v
    simp only [encodeHeader, encodePayload, decode_lineAcquire (acquireWord_row k d v), slot, dir, value]
  | lineWait k ms => simp only [encodeHeader, encodePayload, decode_lineWait (waitWord_row k), waitWord_slot]
  | lineSet k v => cases k <;> cases v <;> rfl
  | lineGet k => cases k <;> rfl
  | lineRelease k => cases k <;> rfl
  | spiOpen path hz mode noCs => exact decode_spiOpen (w := 0x20#32) rfl path hz mode noCs
  | spiXfer len => exact decode_spiXfer (w := 0x21#32) rfl len
  | acqOpen cfg =>
    cases cfg with
    | none => rfl
    | some c => exact (decode_acqOpen_config (w := 0x30#32 ||| bitAt 11 true) rfl c).trans (if_pos rfl)
  | acqRead p => cases p <;> rfl
  | acqRaw p => cases p <;> rfl
  | spiClose | acqStart | acqStop | acqClose => rfl

/-- Settles O1: the fields of a word that matches a row are all of the word, and the words of an instruction's encoding
match its row. -/
theorem decodeInvertsEncode : Obligations.DecodeInvertsEncode := by
  intro w p i
  constructor
  · exact encode_of_decode
  · intro h
    obtain ⟨rfl, rfl⟩ := Command.mk.inj h
    exact decode_encode i

end Sys2Proof
end

section
/-! SUPPORT. The reserved words (30_encoding.md R81, R87): a header word taken apart into its opcode, its fields and
bits [31:12], and what a row asks of each. -/

namespace Sys2Proof

open Machine

/-! ### The parts of a header word (30_encoding.md R80) -/

/-- Two header words are equal exactly if opcode, fields and bits [31:12] are. -/
theorem header_eq_iff {w v : Header} :
    w = v ↔ w.extractLsb' 0 8 = v.extractLsb' 0 8 ∧ w.extractLsb' 8 4 = v.extractLsb' 8 4 ∧
      w.extractLsb' 12 20 = v.extractLsb' 12 20 := by
  have parts (x : Header) : x.extractLsb' 12 20 ++ x.extractLsb' 8 4 ++ x.extractLsb' 0 8 = x := by
    rw [BitVec.extractLsb'_append_extractLsb'_eq_extractLsb' (start₁ := 8) (len₁ := 4) rfl,
      BitVec.extractLsb'_append_extractLsb'_eq_extractLsb' (start₁ := 0) (len₁ := 8) rfl]
    exact BitVec.extractLsb'_eq_self
  constructor
  · rintro rfl
    exact ⟨rfl, rfl, rfl⟩
  · rintro ⟨opcode, fields, rest⟩
    rw [← parts w, ← parts v, opcode, fields, rest]

/-- The opcode of a row. -/
def OpRow.opcode (r : OpRow) : BitVec 8 := r.pattern.extractLsb' 0 8

/-- The fields a row uses: those that its mask leaves free. -/
def OpRow.fields (r : OpRow) : BitVec 4 := ~~~(r.mask.extractLsb' 8 4)

/-- Every row's mask covers the opcode and bits [31:12], and its pattern is 0 but for the opcode. -/
theorem opRows_shape : ∀ r ∈ opRows, r.mask.extractLsb' 0 8 = BitVec.allOnes 8 ∧
    r.mask.extractLsb' 12 20 = BitVec.allOnes 20 ∧ r.pattern.extractLsb' 8 4 = 0 ∧
    r.pattern.extractLsb' 12 20 = 0 := by
  decide

/-- A word hits a row exactly if it has the row's opcode, and 0 in the fields that the row does not use and in
bits [31:12]. -/
theorem OpRow.hits_iff {r : OpRow} (hr : r ∈ opRows) (w : Header) :
    r.hits w = true ↔
      r.opcode = w.extractLsb' 0 8 ∧ w.extractLsb' 8 4 &&& ~~~r.fields = 0 ∧ w.extractLsb' 12 20 = 0 := by
  obtain ⟨maskLow, maskHigh, patternFields, patternHigh⟩ := opRows_shape r hr
  simp only [OpRow.hits, beq_iff_eq, header_eq_iff, BitVec.extractLsb'_and, maskLow, maskHigh, patternFields,
    patternHigh, BitVec.and_allOnes, OpRow.opcode, OpRow.fields, BitVec.not_not,
    eq_comm (a := w.extractLsb' 0 8)]

/-- No two rows have one opcode. -/
theorem eq_of_opcode_eq : ∀ a ∈ opRows, ∀ b ∈ opRows, a.opcode = b.opcode → a = b := by decide

/-! ### The reserved words -/

/-- The opcodes with a command, and the fields that each uses, are those of the rows. -/
theorem usedFields_eq_some_iff (op : BitVec 8) (used : BitVec 4) :
    usedFields op = some used ↔ ∃ r ∈ opRows, r.opcode = op ∧ r.fields = used := by
  constructor
  · intro h
    unfold usedFields at h
    -- One opcode of the table after the other.
    iterate 14
      obtain ⟨rfl, ⟨⟩⟩ | ⟨_, h⟩ := ite_eq_iff.mp h
      · decide
    cases h
  · rintro ⟨r, hr, rfl, rfl⟩
    have table : ∀ r ∈ opRows, usedFields r.opcode = some r.fields := by decide
    exact table r hr

theorem reservedHeader_eq_false_iff (w : Header) :
    reservedHeader w = false ↔ ∃ used, usedFields (w.extractLsb' 0 8) = some used ∧
      w.extractLsb' 8 4 &&& ~~~used = 0 ∧ w.extractLsb' 12 20 = 0 := by
  unfold reservedHeader
  cases usedFields (w.extractLsb' 0 8) <;> simp

theorem exists_row_iff (w : Header) : (∃ r ∈ opRows, r.hits w = true) ↔ reservedHeader w = false := by
  rw [reservedHeader_eq_false_iff]
  constructor
  · rintro ⟨r, hr, hit⟩
    obtain ⟨opcode, fields, rest⟩ := (r.hits_iff hr w).mp hit
    exact ⟨r.fields, (usedFields_eq_some_iff _ _).mpr ⟨r, hr, opcode, rfl⟩, fields, rest⟩
  · rintro ⟨used, h, fields, rest⟩
    obtain ⟨r, hr, opcode, rfl⟩ := (usedFields_eq_some_iff _ _).mp h
    exact ⟨r, hr, (r.hits_iff hr w).mpr ⟨opcode, fields, rest⟩⟩

theorem rowOf_eq_none_iff_reserved (w : Header) : rowOf w = none ↔ reservedHeader w = true := by
  rw [← not_iff_not, Bool.not_eq_true, ← exists_row_iff, rowOf_eq_none_iff]
  simp

theorem decode_of_reserved {w : Header} (h : reservedHeader w = true) (p : Payload) : decode w p = none :=
  decode_of_no_row ((rowOf_eq_none_iff_reserved w).mpr h) p

/-- A word that matches a row decodes with some payload: one of the row's shape (30_encoding.md R83). -/
theorem exists_decode_of_rowOf {w : Header} {o : Op} (h : rowOf w = some o) : ∃ p i, decode w p = some i := by
  cases o with
  | lineAcquire => exact ⟨_, _, decode_lineAcquire h default⟩
  | lineWait => exact ⟨_, _, decode_lineWait h 0⟩
  | lineGet => exact ⟨_, _, decode_lineGet h⟩
  | lineSet => exact ⟨_, _, decode_lineSet h⟩
  | lineRelease => exact ⟨_, _, decode_lineRelease h⟩
  | spiOpen => exact ⟨_, _, decode_spiOpen h "" 0 0 false⟩
  | spiXfer => exact ⟨_, _, decode_spiXfer h 0⟩
  | spiClose => exact ⟨_, _, decode_spiClose h⟩
  | acqOpen =>
    cases present : presenceField w with
    | true => exact ⟨_, _, (decode_acqOpen_config h .blank).trans (if_pos present)⟩
    | false => exact ⟨_, _, (decode_acqOpen_empty h).trans (if_neg (Bool.eq_false_iff.mp present))⟩
  | acqStart => exact ⟨_, _, decode_acqStart h⟩
  | acqRead => exact ⟨_, _, decode_acqRead h⟩
  | acqRaw => exact ⟨_, _, decode_acqRaw h⟩
  | acqStop => exact ⟨_, _, decode_acqStop h⟩
  | acqClose => exact ⟨_, _, decode_acqClose h⟩

theorem reserved_of_never_decodes {w : Header} (h : ∀ p, decode w p = none) : reservedHeader w = true := by
  rw [← rowOf_eq_none_iff_reserved, Option.eq_none_iff_forall_ne_some]
  intro o row
  obtain ⟨p, i, e⟩ := exists_decode_of_rowOf row
  rw [h p] at e
  cases e

/-- Settles O2: a row asks of a word exactly what makes it not reserved, and its opcode tells it from the others. -/
theorem reservedWordsMatchNoRow : Obligations.ReservedWordsMatchNoRow := by
  refine ⟨fun w => ⟨rowOf_eq_none_iff_reserved w, decode_of_reserved, reserved_of_never_decodes⟩, ?_⟩
  intro w a b ha hb hitA hitB
  obtain ⟨opcodeA, _, _⟩ := (a.hits_iff ha w).mp hitA
  obtain ⟨opcodeB, _, _⟩ := (b.hits_iff hb w).mp hitB
  exact eq_of_opcode_eq a ha b hb (opcodeA.trans opcodeB.symm)

/-- Settles O5: a reserved word does not decode, and the step refuses what does not decode. -/
theorem reservedWordIsRefused : Obligations.ReservedWordIsRefused := by
  intro s c rest idle pending reserved
  have pop : s.popCommand = { s with pending := rest } := by rw [State.popCommand, pending, List.tail_cons]
  rw [step_of_undecodable idle pending (decode_of_reserved reserved c.payload), pop, State.refuse, ← idle]

/-- Settles O3: each word is in one of the rows, with its fields read off. -/
theorem wordsOfTheSpecDecode : Obligations.WordsOfTheSpecDecode := by
  unfold Obligations.WordsOfTheSpecDecode
  decide

end Sys2Proof
end

section
/-! SUPPORT. The checks of the line unit's commands: what a body comes to when a check of its slot stops it before the
first underlying call (30_encoding.md R86, 41_gpio_line.md R111, R118, R122, R124, R125). -/

namespace Sys2Proof.Machine

/-! ### The bodies at their checks -/

theorem lineAcquireBody_of_reservedEdge (k : Slot) (l : LineId) (s : State) :
    lineAcquireBody k l .input true s = .refused := if_pos ⟨rfl, rfl⟩

theorem lineAcquireBody_of_occupied {k : Slot} {s : State} (h : (s.slot k).line ≠ none) (l : LineId) (d : Dir)
    (v : Bool) : lineAcquireBody k l d v s = .refused := by
  simp only [lineAcquireBody, Option.isSome_iff_ne_none.mpr h, if_true, ite_self]

theorem lineWaitBody_of_no_handle {k : Slot} {s : State} (h : (s.slot k).handle = none) (ms : U32) :
    lineWaitBody k ms s = .error .notPermitted s := if_pos h

theorem lineGetBody_of_no_handle {k : Slot} {s : State} (h : (s.slot k).handle = none) :
    lineGetBody k s = .error .notPermitted s := if_pos h

theorem lineSetBody_of_no_handle {k : Slot} {s : State} (h : (s.slot k).handle = none) (v : Level) :
    lineSetBody k v s = .error .notPermitted s := if_pos h

theorem lineWaitBody_of_not_falling {k : Slot} {s : State} (h : (s.slot k).handle ≠ none)
    (hf : (s.slot k).detectsFalling = false) (ms : U32) : lineWaitBody k ms s = .refused := by
  simp only [lineWaitBody, h, hf, Bool.false_eq_true, if_false]

theorem lineSetBody_of_input {k : Slot} {s : State} (h : (s.slot k).handle = some .input) (v : Level) :
    lineSetBody k v s = .ioFailure .notOutput s := by
  simp only [lineSetBody, h, reduceCtorEq, if_true, if_false]

/-! ### The statement -/

theorem hostOnly_of_closed {s : State} (h : s.isOpen = false) (r : Ran) : hostOnly s r = r := by
  simp only [hostOnly, h, Bool.false_eq_true, if_false]

/-- Settles O25: with the controller closed each command is the end of its body, and each check ends the body at the
state the command began in. -/
theorem lineCommandsCheckTheirSlot : Obligations.LineCommandsCheckTheirSlot := by
  intro k d v l ms s closed
  simp only [exec_eq_finish, commandBody, hostOnly_of_closed closed]
  refine ⟨?_, fun occupied => ?_, fun noHandle => ⟨?_, ?_, ?_⟩, fun handle notFalling => ?_, fun input => ?_⟩
  · rw [lineAcquireBody_of_reservedEdge, finish]
  · rw [lineAcquireBody_of_occupied occupied, finish]
  · rw [lineWaitBody_of_no_handle noHandle, Ran.error, finish]
  · rw [lineGetBody_of_no_handle noHandle, Ran.error, finish]
  · rw [lineSetBody_of_no_handle noHandle, Ran.error, finish]
  · rw [lineWaitBody_of_not_falling handle notFalling, finish]
  · rw [lineSetBody_of_input input, Ran.ioFailure, Ran.error, finish]

end Sys2Proof.Machine
end

section
/-! SUPPORT. The end of a line unit's command: what it writes of the host's port and of the mark, and that no frame
relation speaks of either. With it the frame of the commands on every path (41_gpio_line.md R111 to R126), and the
ownership check that no primitive passes while the controller is open (R110). -/

namespace Sys2Proof.Machine

/-! ### The host's port -/

/-- What the end of a command may write: the mark, `cp`, the response and the blocked command. -/
def State.withPort (u : State) (mark : Bool) (cp : Nat) (out : Option Response) (w : Option Inflight) : State :=
  { u with refused := mark, cp := cp, out := out, inflight := w }

section
variable (mark : Bool) (cp : Nat) (out : Option Response) (w : Option Inflight)

theorem State.slot_withPort (u : State) (k : Slot) : (u.withPort mark cp out w).slot k = u.slot k := by
  cases k <;> rfl

/-- With the mark of the state before the command put back, the controller's frame does not see the port. -/
theorem SameController.withPort {s u : State} (h : SameController s u) :
    SameController s { u.withPort mark cp out w with refused := s.refused } :=
  ⟨h.isOpen, h.started, h.cfg, h.seq, h.raw, h.diag, rfl, h.pending⟩

theorem SameBlock.withPort {s u : State} (h : SameBlock s u) :
    SameBlock s { u.withPort mark cp out w with refused := s.refused } :=
  ⟨h.controller.withPort _ _ _ _, h.spi, h.drdy, h.sync⟩

end

/-- Every command ends in the state its body reached, or in the one it began in, but for the port. -/
theorem exec_ends {i : Instr} {s t : State} {P : State → Prop} (hs : P s)
    (hb : (commandBody i s).Holds (fun _ u => P u) (fun _ u => P u)) (h : exec i s = .next t) :
    ∃ u mark cp out w, P u ∧ t = u.withPort mark cp out w := by
  rw [exec_next h]
  rcases finish_of_holds (s := s) hb with ⟨p, u, e, hu⟩ | e | ⟨w, u, e, hu⟩
  · exact ⟨u, u.refused, u.cp + 1, some p, none, hu, e⟩
  · exact ⟨s, true, s.cp + 1, none, none, hs, e⟩
  · exact ⟨u, u.refused, u.cp, u.out, some w, hu, e⟩

/-! ### How a body ends its command -/

theorem finish_ok (s t : State) : finish s (.ok t) = t.complete ⟨.ok, .nothing⟩ := rfl
theorem finish_okWith (s t : State) (o : Output) : finish s (.okWith o t) = t.complete ⟨.ok, o⟩ := rfl
theorem finish_error (s t : State) (c : ResultCode) : finish s (.error c t) = t.complete ⟨c, .nothing⟩ := rfl
theorem finish_ioFailure (s t : State) (c : Cause) :
    finish s (.ioFailure c t) = t.complete ⟨.ioFailure c, .nothing⟩ := rfl
theorem finish_blocked (s t : State) (w : Inflight) : finish s (.blocked w t) = { t with inflight := some w } := rfl

/-! ### A completed command -/

@[simp] theorem State.slot_complete (s : State) (r : Response) (k : Slot) : (s.complete r).slot k = s.slot k := by
  cases k <;> rfl

theorem Completed.of_history {s t : State} (h : History s t) (r : Response) : Completed s (t.complete r) r :=
  ⟨rfl, rfl, congrArg (· + 1) h.cp⟩

theorem SameController.complete {s t : State} (h : SameController s t) (r : Response) :
    SameController s (t.complete r) :=
  ⟨h.isOpen, h.started, h.cfg, h.seq, h.raw, h.diag, h.refused, h.pending⟩

theorem SameSlot.complete {k : Slot} {s t : State} (h : SameSlot k s t) (r : Response) :
    SameSlot k s (t.complete r) := by
  rw [SameSlot, State.slot_complete]
  exact h

theorem SameBlock.complete {s t : State} (h : SameBlock s t) (r : Response) : SameBlock s (t.complete r) :=
  ⟨h.controller.complete r, h.spi, h.drdy, h.sync⟩

/-- With the controller closed a primitive ends as its body does (41_gpio_line.md R110). -/
theorem exec_of_closed {i : Instr} {s : State} {r : Ran} (h : commandBody i s = hostOnly s r)
    (closed : s.isOpen = false) : exec i s = .next (finish s r) := by
  rw [exec_eq_finish, h, hostOnly_of_closed closed]

/-! ### The frame of the line unit's commands -/

/-- The commands of the line unit on slot `k`. -/
def IsLineCommand (k : Slot) (i : Instr) : Prop :=
  (∃ d v l, i = .lineAcquire k d v l) ∨ (∃ ms, i = .lineWait k ms) ∨ i = .lineGet k ∨ (∃ v, i = .lineSet k v) ∨
    i = .lineRelease k

/-- A line command stays in its slot, whatever that held and whatever the environment answers. -/
theorem commandBody_onSlot {k : Slot} {i : Instr} (h : IsLineCommand k i) (s : State) :
    (commandBody i s).Holds (fun _ t => OnSlot k s t) (fun _ t => OnSlot k s t) := by
  rcases h with ⟨d, v, l, rfl⟩ | ⟨ms, rfl⟩ | rfl | ⟨v, rfl⟩ | rfl <;> refine .hostOnly fun _ => ?_
  · exact (lineAcquireBody_onSlot k l d v s).mono (fun _ _ h => h.1) (fun _ _ h => h.elim)
  · exact (lineWaitBody_holds k ms s).mono (fun _ _ h => h.1.onSlot k) (fun _ _ h => h.1.onSlot k)
  · exact (lineGetBody_holds k s).mono (fun _ _ h => h.1.onSlot k) (fun _ _ h => h.elim)
  · exact (lineSetBody_holds k v s).mono (fun _ _ h => h.1) (fun _ _ h => h.elim)
  · exact (lineReleaseBody_onSlot k s).1

/-- LINE.WAIT leaves the block but for the latches (41_gpio_line.md R120). -/
theorem lineWait_sameBlock (k : Slot) (ms : U32) (s : State) :
    (commandBody (.lineWait k ms) s).Holds (fun _ t => SameBlock s t) (fun _ t => SameBlock s t) :=
  .hostOnly fun _ => (lineWaitBody_holds k ms s).mono (fun _ _ h => h.1.block) (fun _ _ h => h.1.block)

/-- LINE.GET leaves the block but for the latches (41_gpio_line.md R123). -/
theorem lineGet_sameBlock (k : Slot) (s : State) :
    (commandBody (.lineGet k) s).Holds (fun _ t => SameBlock s t) (fun _ t => SameBlock s t) :=
  .hostOnly fun _ => (lineGetBody_holds k s).mono (fun _ _ h => h.1.block) (fun _ _ h => h.elim)

/-- LINE.SET changes in its slot nothing but latch and level (41_gpio_line.md R124). -/
theorem lineSet_sameButLevel (k : Slot) (v : Level) (s : State) :
    (commandBody (.lineSet k v) s).Holds
      (fun _ t => (s.slot k).SameButLatch { t.slot k with level := (s.slot k).level })
      (fun _ t => (s.slot k).SameButLatch { t.slot k with level := (s.slot k).level }) :=
  .hostOnly fun _ => (lineSetBody_holds k v s).mono (fun _ _ ⟨_, _, same, _⟩ => same) (fun _ _ h => h.elim)

/-- Settles O17: each body keeps its frame, and the end of the command is outside every frame. -/
theorem lineCommandsStayInTheirSlot : Obligations.LineCommandsStayInTheirSlot := by
  intro k s t
  refine ⟨fun i hi h => ?_, fun ms h => ?_, fun h => ?_, fun v h => ?_⟩
  · obtain ⟨u, mark, cp, out, w, hu, rfl⟩ := exec_ends (.refl k s) (commandBody_onSlot hi s) h
    refine ⟨hu.controller.withPort _ _ _ _, hu.spi, ?_⟩
    rw [SameSlot, State.slot_withPort]
    exact hu.other
  · obtain ⟨u, mark, cp, out, w, hu, rfl⟩ := exec_ends (.refl s) (lineWait_sameBlock k ms s) h
    exact hu.withPort _ _ _ _
  · obtain ⟨u, mark, cp, out, w, hu, rfl⟩ := exec_ends (.refl s) (lineGet_sameBlock k s) h
    exact hu.withPort _ _ _ _
  · obtain ⟨u, mark, cp, out, w, hu, rfl⟩ := exec_ends (.refl _) (lineSet_sameButLevel k v s) h
    rw [State.slot_withPort]
    exact hu

/-! ### The ownership check -/

theorem hostOnly_of_open {s : State} (h : s.isOpen = true) (r : Ran) : hostOnly s r = .refused := if_pos h

/-- Settles O16: the check stands before each of the eight bodies. -/
theorem primitivesAreRefusedWhileOpen : Obligations.PrimitivesAreRefusedWhileOpen := by
  intro s opened k d v l ms len hz path mode noCs
  simp only [exec_eq_finish, commandBody, hostOnly_of_open opened, finish, and_self]

end Sys2Proof.Machine
end

section
/-! SUPPORT. LINE.ACQUIRE when the script says how its calls are answered (41_gpio_line.md R111 to R117): one lemma for
each step when it is granted, and one that carries a failure at any step back to the first. -/

namespace Sys2Proof.Machine

/-! ### A slot with its latch clear -/

/-- The slot with its latch clear: all of a slot that calls leave as it was. -/
def LineSlot.cleared (x : LineSlot) : LineSlot := { x with latch := false }

theorem LineSlot.SameButLatch.cleared {x y : LineSlot} (h : x.SameButLatch y) : y.cleared = x.cleared := by
  simp only [LineSlot.cleared, h.line, h.exportedByUs, h.handle, h.dir, h.edge, h.level]

theorem ByEnv.cleared {s t : State} (h : ByEnv s t) (k : Slot) : (t.slot k).cleared = (s.slot k).cleared :=
  (h.block.slot k).cleared

/-! ### Granted calls and changes of one slot -/

/-- The reservation that slot `k` claims is held (10_state.md R32). -/
def Backed (k : Slot) (s : State) : Prop :=
  ∀ l, (s.slot k).line = some l → (s.slot k).exportedByUs = true → (s.lineEnv l).reserved = true

theorem State.owns_of_slot {s : State} {k : Slot} {l : LineId} (hl : (s.slot k).line = some l)
    (hx : (s.slot k).exportedByUs = true) : s.owns l = true := by
  cases k <;> simp only [State.slot] at hl hx <;> simp [State.owns, hl, hx]

theorem Backed.byEnv {k : Slot} {s t : State} (h : Backed k s) (b : ByEnv s t) (o : KeepsOwn s t) : Backed k t := by
  intro l hl hx
  rw [b.line] at hl
  rw [b.exportedByUs] at hx
  exact o l (State.owns_of_slot hl hx) (h l hl hx)

theorem Backed.setSlot {k : Slot} {s : State} (h : Backed k s) {x : LineSlot} (hl : x.line = (s.slot k).line)
    (hx : x.exportedByUs = (s.slot k).exportedByUs) : Backed k (s.setSlot k x) := by
  intro l
  rw [State.slot_setSlot_self, State.lineEnv_setSlot, hl, hx]
  exact h l

/-- `t` comes from `s` by the calls `cs`, which left `rest` of the script, and by changes of slot `k`. -/
structure SlotTurned (k : Slot) (s : State) (cs : List Call) (rest : List Turn) (t : State) : Prop where
  onSlot : OnSlot k s t
  backed : Backed k s → Backed k t
  calls : t.calls = s.calls ++ cs
  script : t.env.script = rest

theorem SlotTurned.trans {k : Slot} {s t u : State} {cs cs' : List Call} {r r' : List Turn}
    (h : SlotTurned k s cs r t) (h' : SlotTurned k t cs' r' u) : SlotTurned k s (cs ++ cs') r' u :=
  ⟨h.onSlot.trans h'.onSlot, fun b => h'.backed (h.backed b), by rw [h'.calls, h.calls, List.append_assoc], h'.script⟩

theorem Turned.slotTurned {s t : State} {cs : List Call} {r : List Turn} (h : Turned s cs r t) (k : Slot) :
    SlotTurned k s cs r t :=
  ⟨h.byEnv.onSlot k, fun b => b.byEnv h.byEnv h.keepsOwn, h.calls, h.script⟩

/-- The calls and then a change of the slot that keeps its line and its reservation flag. -/
theorem Turned.setSlot {s u : State} {cs : List Call} {r : List Turn} (h : Turned s cs r u) (k : Slot) {x : LineSlot}
    (hl : x.line = (u.slot k).line) (hx : x.exportedByUs = (u.slot k).exportedByUs) :
    SlotTurned k s cs r (u.setSlot k x) :=
  ⟨(h.byEnv.onSlot k).trans (u.setSlot_onSlot k x), fun b => (b.byEnv h.byEnv h.keepsOwn).setSlot hl hx,
    by simp only [State.setSlot_calls, h.calls], by simp only [State.setSlot_env, h.script]⟩

/-! ### What step 3 sets (41_gpio_line.md R114, R115) -/

/-- The underlying call of step 3. -/
def settingCall (l : LineId) (d : Dir) (v : Level) : Call :=
  match d with
  | .input => .setEdge l .falling
  | .output => .setInitialLevel l v

/-- What step 3 makes of the slot. -/
def LineSlot.withSetting (x : LineSlot) (d : Dir) (v : Level) : LineSlot :=
  match d with
  | .input => { x with edge := some .falling }
  | .output => { x with level := v }

/-- What step 3 makes of the line. -/
def lineWithSetting (d : Dir) (v : Level) (e : LineEnv) : LineEnv :=
  match d with
  | .input => { e with edge := some .falling }
  | .output => { e with pin := v }

theorem acquireCalls_eq (l : LineId) (d : Dir) (v : Level) :
    acquireCalls l d v = [.reserve l, .setDirection l d, settingCall l d v, .openValue l (accessOf d)] := by
  cases d <;> rfl

/-! ### The steps, granted -/

section
variable {s : State} {a : Turn} {rest : List Turn}

/-- Step 1, the environment taking no step of its own (41_gpio_line.md R112). -/
theorem acquireReserve_granted (h : s.env.script = a :: rest) (ha : a.verdict = .ok) (q : a.events = []) {k : Slot}
    {l : LineId} (hl : (s.slot k).line = some l) (d : Dir) (v : Bool) :
    ∃ t, acquireReserve k l d v s = acquireDirection k l d v t ∧ SlotTurned k s [.reserve l] rest t ∧
      (t.slot k).cleared = { (s.slot k).cleared with exportedByUs := !(s.lineEnv l).reserved } ∧
      t.lineEnv l = { s.lineEnv l with reserved := true } ∧ ∀ m, m ≠ l → t.lineEnv m = s.lineEnv m := by
  obtain ⟨u, e, hu, he, ho⟩ := envReserve_granted h ha q l
  refine ⟨u.setSlot k { u.slot k with exportedByUs := !(s.lineEnv l).reserved }, ?_,
    ⟨?_, fun _ m hm _ => ?_, ?_, ?_⟩, ?_, by rw [State.lineEnv_setSlot, he], fun m hm => by rw [State.lineEnv_setSlot, ho m hm]⟩
  · cases hr : (s.lineEnv l).reserved <;> simp [acquireReserve, e, hr]
  · exact (hu.byEnv.onSlot k).trans (u.setSlot_onSlot k _)
  · have hml : m = l := by
      rw [State.slot_setSlot_self] at hm
      exact Option.some.inj (hm.symm.trans ((hu.byEnv.line k).trans hl))
    rw [State.lineEnv_setSlot, hml, he]
  · simp only [State.setSlot_calls, hu.calls]
  · simp only [State.setSlot_env, hu.script]
  · rw [State.slot_setSlot_self, ← hu.byEnv.cleared k]
    rfl

/-- Step 2 (41_gpio_line.md R113). -/
theorem acquireDirection_granted (h : s.env.script = a :: rest) (ha : a.verdict = .ok) (k : Slot) (l : LineId)
    (d : Dir) (v : Bool) :
    ∃ t, acquireDirection k l d v s = acquireSetting k l d v t ∧ SlotTurned k s [.setDirection l d] rest t ∧
      (t.slot k).cleared = { (s.slot k).cleared with dir := some d } ∧
      (a.events = [] → t.lineEnv l = { s.lineEnv l with dir := some d } ∧ ∀ m, m ≠ l → t.lineEnv m = s.lineEnv m) := by
  obtain ⟨u, e, hu, hq⟩ := envSetDirection_granted h ha l d
  refine ⟨u.setSlot k { u.slot k with dir := some d }, by simp only [acquireDirection, e], hu.setSlot k rfl rfl, ?_, ?_⟩
  · rw [State.slot_setSlot_self, ← hu.byEnv.cleared k]
    rfl
  · simpa only [State.lineEnv_setSlot] using hq

/-- Step 3 (41_gpio_line.md R114, R115). -/
theorem acquireSetting_granted (h : s.env.script = a :: rest) (ha : a.verdict = .ok) (k : Slot) (l : LineId) (d : Dir)
    (v : Bool) :
    ∃ t, acquireSetting k l d v s = acquireHandle k l d t ∧ SlotTurned k s [settingCall l d v] rest t ∧
      (t.slot k).cleared = (s.slot k).cleared.withSetting d v ∧ (d = .output → (t.lineEnv l).pin = v) ∧
      (a.events = [] → t.lineEnv l = lineWithSetting d v (s.lineEnv l) ∧ ∀ m, m ≠ l → t.lineEnv m = s.lineEnv m) := by
  cases d with
  | input =>
    obtain ⟨u, e, hu, hq⟩ := envSetEdge_granted h ha l .falling
    refine ⟨u.setSlot k { u.slot k with edge := some .falling }, by simp only [acquireSetting, e],
      hu.setSlot k rfl rfl, ?_, nofun, ?_⟩
    · rw [State.slot_setSlot_self, ← hu.byEnv.cleared k]
      rfl
    · simpa only [State.lineEnv_setSlot, lineWithSetting] using hq
  | output =>
    obtain ⟨u, e, hu, hp, hq⟩ := envSetInitialLevel_granted h ha l v
    refine ⟨u.setSlot k { u.slot k with level := v }, by simp only [acquireSetting, e],
      hu.setSlot k rfl rfl, ?_, fun _ => by rw [State.lineEnv_setSlot, hp], ?_⟩
    · rw [State.slot_setSlot_self, ← hu.byEnv.cleared k]
      rfl
    · simpa only [State.lineEnv_setSlot, lineWithSetting] using hq

theorem State.drives_of_slot {k : Slot} {l : LineId} (hl : (s.slot k).line = some l)
    (hd : (s.slot k).dir = some .output) : s.drives l = true := by
  cases k <;> simp only [State.slot] at hl hd <;> simp [State.drives, hl, hd]

/-- Step 4 and the end (41_gpio_line.md R116): the latch is clear, and a line held as an output keeps its pin. -/
theorem acquireHandle_granted (h : s.env.script = a :: rest) (ha : a.verdict = .ok) (k : Slot) (l : LineId) (d : Dir) :
    ∃ t, acquireHandle k l d s = .ok t ∧ SlotTurned k s [.openValue l (accessOf d)] rest t ∧
      t.slot k = { (s.slot k).cleared with handle := some (accessOf d) } ∧
      ((s.slot k).line = some l → (s.slot k).dir = some .output → (t.lineEnv l).pin = (s.lineEnv l).pin) ∧
      (a.events = [] → ∀ m, t.lineEnv m = s.lineEnv m) := by
  obtain ⟨u, e, hu, hp, hq⟩ := envOpenValue_granted h ha l (accessOf d)
  refine ⟨u.setSlot k { u.slot k with handle := some (accessOf d), latch := false }, by simp only [acquireHandle, e],
    hu.setSlot k rfl rfl, ?_, fun hl hd => ?_, ?_⟩
  · rw [State.slot_setSlot_self, ← hu.byEnv.cleared k]
    rfl
  · rw [State.lineEnv_setSlot]
    exact hp l (State.drives_of_slot hl hd)
  · simpa only [State.lineEnv_setSlot] using hq

end

/-! ### The command, granted -/

/-- Slot `k` holds line `l`, before the first call (41_gpio_line.md R111). -/
def State.holding (s : State) (k : Slot) (l : LineId) : State := s.setSlot k { s.slot k with line := some l }

theorem State.holding_slot (s : State) (k : Slot) (l : LineId) :
    (s.holding k l).slot k = { s.slot k with line := some l } := s.slot_setSlot_self k _

theorem State.holding_env (s : State) (k : Slot) (l : LineId) : (s.holding k l).env = s.env := s.setSlot_env k _

theorem State.holding_calls (s : State) (k : Slot) (l : LineId) : (s.holding k l).calls = s.calls := s.setSlot_calls k _

theorem State.holding_lineEnv (s : State) (k : Slot) (l m : LineId) : (s.holding k l).lineEnv m = s.lineEnv m :=
  s.lineEnv_setSlot k _ m

theorem State.holding_onSlot (s : State) (k : Slot) (l : LineId) : OnSlot k s (s.holding k l) := s.setSlot_onSlot k _

/-- Past its two refusals the command runs its steps from the slot that holds the line (41_gpio_line.md R111). -/
theorem lineAcquireBody_of_free {s : State} {k : Slot} {d : Dir} {v : Bool} (hl : (s.slot k).line = none)
    (hv : d = .input → v = false) (l : LineId) :
    lineAcquireBody k l d v s = acquireReserve k l d v (s.holding k l) := by
  have selector : ¬ (d = .input ∧ v = true) := fun h => Bool.false_ne_true ((hv h.1).symm.trans h.2)
  simp only [lineAcquireBody, selector, hl, Option.isSome_none, Bool.false_eq_true, if_false,
    State.holding]

/-- The slot after a granted LINE.ACQUIRE, by whether the line was free (41_gpio_line.md R111). -/
def LineSlot.acquiredAs (x : LineSlot) (l : LineId) (d : Dir) (v : Level) (free : Bool) : LineSlot :=
  { ({ x.cleared with line := some l, exportedByUs := free, dir := some d } : LineSlot).withSetting d v with
    handle := some (accessOf d) }

/-- The line after a granted LINE.ACQUIRE. -/
def lineAcquiredAs (d : Dir) (v : Level) (e : LineEnv) : LineEnv :=
  lineWithSetting d v { e with reserved := true, dir := some d }

theorem LineSlot.withSetting_output (x : LineSlot) (v : Level) :
    (x.withSetting .output v).line = x.line ∧ (x.withSetting .output v).dir = x.dir := ⟨rfl, rfl⟩

/-- LINE.ACQUIRE with every call granted, and no step of the environment before the reservation is answered. -/
theorem lineAcquireBody_granted {k : Slot} {l : LineId} {d : Dir} {v : Bool} {s : State} {t1 t2 t3 t4 : Turn}
    {rest : List Turn} (hl : (s.slot k).line = none) (hv : d = .input → v = false)
    (h : s.env.script = t1 :: t2 :: t3 :: t4 :: rest) (g : AllGranted [t1, t2, t3, t4]) (q : t1.events = []) :
    ∃ t, lineAcquireBody k l d v s = .ok t ∧ OnSlot k s t ∧ t.env.script = rest ∧
      t.calls = s.calls ++ acquireCalls l d v ∧
      t.slot k = (s.slot k).acquiredAs l d v (!(s.lineEnv l).reserved) ∧ (d = .output → (t.lineEnv l).pin = v) ∧
      ((t2.events = [] ∧ t3.events = [] ∧ t4.events = []) →
        t.lineEnv l = lineAcquiredAs d v (s.lineEnv l) ∧ ∀ m, m ≠ l → t.lineEnv m = s.lineEnv m) := by
  rw [lineAcquireBody_of_free hl hv]
  have line : ((s.holding k l).slot k).line = some l := congrArg LineSlot.line (s.holding_slot k l)
  obtain ⟨s1, r1, h1, c1, l1, o1⟩ :=
    acquireReserve_granted (by rw [State.holding_env]; exact h) (g t1 (by simp)) q line d v
  obtain ⟨s2, r2, h2, c2, q2⟩ := acquireDirection_granted h1.script (g t2 (by simp)) k l d v
  obtain ⟨s3, r3, h3, c3, p3, q3⟩ := acquireSetting_granted h2.script (g t3 (by simp)) k l d v
  obtain ⟨s4, r4, h4, c4, p4, q4⟩ := acquireHandle_granted h3.script (g t4 (by simp)) k l d
  have all := ((h1.trans h2).trans h3).trans h4
  have slot : (s3.slot k).cleared = ({ (s.slot k).cleared with
      line := some l, exportedByUs := !(s.lineEnv l).reserved, dir := some d } : LineSlot).withSetting d v := by
    rw [c3, c2, c1, State.holding_slot, State.holding_lineEnv]
    rfl
  refine ⟨s4, by rw [r1, r2, r3, r4], (s.holding_onSlot k l).trans all.onSlot, all.script, ?_, ?_, ?_, ?_⟩
  · rw [all.calls, acquireCalls_eq, State.holding_calls]
    rfl
  · rw [c4, slot, LineSlot.acquiredAs]
  · rintro rfl
    obtain ⟨hline, hdir⟩ := LineSlot.withSetting_output
      { (s.slot k).cleared with line := some l, exportedByUs := !(s.lineEnv l).reserved, dir := some .output } v
    rw [← slot] at hline hdir
    exact (p4 hline hdir).trans (p3 rfl)
  · rintro ⟨e2, e3, e4⟩
    refine ⟨?_, fun m hm => ?_⟩
    · rw [q4 e4, (q3 e3).1, (q2 e2).1, l1, State.holding_lineEnv, lineAcquiredAs]
    · rw [q4 e4, (q3 e3).2 m hm, (q2 e2).2 m hm, o1 m hm, State.holding_lineEnv]

/-! ### The command, failing at a step -/

/-- What steps 1 to 3 make of the slot, by whether the line was free (41_gpio_line.md R112 to R115). -/
def acquireSteps (d : Dir) (v : Level) (free : Bool) : List (LineSlot → LineSlot) :=
  [fun x => { x with exportedByUs := free }, fun x => { x with dir := some d }, fun x => x.withSetting d v]

/-- The run fails with the environment's cause `c` at the call of number `n` among `calls`, slot `k` having gone through
the first `n` of `steps`. -/
def FailsAt (r : Ran) (k : Slot) (s : State) (c : EnvCause) (calls : List Call) (steps : List (LineSlot → LineSlot))
    (n : Nat) (rest : List Turn) : Prop :=
  ∃ u, r = .ioFailure (.env c) u ∧ SlotTurned k s (calls.take (n + 1)) rest u ∧
    (u.slot k).cleared = (steps.take n).foldl (fun x f => f x) (s.slot k).cleared

theorem FailsAt.now {r : Ran} {k : Slot} {s u : State} {c : EnvCause} {call : Call} {rest : List Turn}
    (hr : r = .ioFailure (.env c) u) (hu : Turned s [call] rest u) (calls : List Call)
    (steps : List (LineSlot → LineSlot)) : FailsAt r k s c (call :: calls) steps 0 rest :=
  ⟨u, hr, hu.slotTurned k, hu.byEnv.cleared k⟩

theorem FailsAt.later {r r' : Ran} {k : Slot} {s t : State} {c : EnvCause} {call : Call} {calls : List Call}
    {f : LineSlot → LineSlot} {steps : List (LineSlot → LineSlot)} {n : Nat} {rest rest' : List Turn} (hr : r = r')
    (ht : SlotTurned k s [call] rest' t) (hf : (t.slot k).cleared = f (s.slot k).cleared)
    (h : FailsAt r' k t c calls steps n rest) : FailsAt r k s c (call :: calls) (f :: steps) (n + 1) rest := by
  obtain ⟨u, hu, hc, hs⟩ := h
  exact ⟨u, hr.trans hu, ht.trans hc, by rw [hs, hf, List.take_succ_cons, List.foldl_cons]⟩

section
variable {s : State} {bad : Turn} {rest : List Turn} {c : EnvCause} (hb : bad.verdict = .fail c) (k : Slot)
  (l : LineId) (d : Dir) (v : Bool)
include hb

theorem acquireHandle_fails (h : s.env.script = bad :: rest) :
    FailsAt (acquireHandle k l d s) k s c [.openValue l (accessOf d)] [] 0 rest := by
  obtain ⟨u, e, hu, _⟩ := envOpenValue_fails h hb l (accessOf d)
  exact .now (by simp only [acquireHandle, e]) hu _ _

theorem acquireSetting_fails {done : List Turn} (h : s.env.script = done ++ bad :: rest) (hn : done.length ≤ 1)
    (g : AllGranted done) :
    FailsAt (acquireSetting k l d v s) k s c [settingCall l d v, .openValue l (accessOf d)]
      [fun x => x.withSetting d v] done.length rest := by
  match done with
  | [] =>
    cases d with
    | input =>
      obtain ⟨u, e, hu, _⟩ := envSetEdge_fails h hb l .falling
      exact .now (by simp only [acquireSetting, e]) hu _ _
    | output =>
      obtain ⟨u, e, hu, _⟩ := envSetInitialLevel_fails h hb l v
      exact .now (by simp only [acquireSetting, e]) hu _ _
  | [a] =>
    obtain ⟨t, e, ht, hs, _⟩ := acquireSetting_granted h (g a (by simp)) k l d v
    exact .later e ht hs (acquireHandle_fails hb k l d ht.script)

theorem acquireDirection_fails {done : List Turn} (h : s.env.script = done ++ bad :: rest) (hn : done.length ≤ 2)
    (g : AllGranted done) :
    FailsAt (acquireDirection k l d v s) k s c [.setDirection l d, settingCall l d v, .openValue l (accessOf d)]
      [fun x => { x with dir := some d }, fun x => x.withSetting d v] done.length rest := by
  match done with
  | [] =>
    obtain ⟨u, e, hu, _⟩ := envSetDirection_fails h hb l d
    exact .now (by simp only [acquireDirection, e]) hu _ _
  | a :: done =>
    obtain ⟨t, e, ht, hs, _⟩ := acquireDirection_granted h (g a (by simp)) k l d v
    exact .later e ht hs (acquireSetting_fails hb k l d v ht.script (Nat.le_of_succ_le_succ hn)
      fun x hx => g x (List.mem_cons_of_mem a hx))

/-- All steps, the environment taking no step of its own before the one that fails. -/
theorem acquireReserve_fails {done : List Turn} (h : s.env.script = done ++ bad :: rest) (hn : done.length ≤ 3)
    (g : AllGranted done) (q : ∀ x ∈ done, x.events = []) (hl : (s.slot k).line = some l) :
    FailsAt (acquireReserve k l d v s) k s c (acquireCalls l d v) (acquireSteps d v !(s.lineEnv l).reserved)
      done.length rest := by
  rw [acquireCalls_eq]
  match done with
  | [] =>
    obtain ⟨u, e, hu⟩ := envReserve_fails h hb l
    exact .now (by simp only [acquireReserve, e]) hu _ _
  | a :: done =>
    obtain ⟨t, e, ht, hs, _⟩ := acquireReserve_granted h (g a (by simp)) (q a (by simp)) hl d v
    exact .later e ht hs (acquireDirection_fails hb k l d v ht.script (Nat.le_of_succ_le_succ hn)
      fun x hx => g x (List.mem_cons_of_mem a hx))

end

/-- The first `n` of steps 1 to 3, on an empty slot that has taken the line (41_gpio_line.md R117). -/
theorem foldl_acquireSteps {x : LineSlot} (hx : x.Empty) (l : LineId) (d : Dir) (v free : Bool) {n : Nat}
    (hn : n ≤ 3) :
    ((acquireSteps d v free).take n).foldl (fun x f => f x) ({ x with line := some l } : LineSlot).cleared =
      { line := some l, exportedByUs := decide (1 ≤ n) && free, handle := none, dir := if 2 ≤ n then some d else none,
        edge := if n = 3 ∧ d = .input then some .falling else none,
        level := if n = 3 ∧ d = .output then v else x.level, latch := false } := by
  interval_cases n <;> cases d <;>
    simp [acquireSteps, LineSlot.withSetting, LineSlot.cleared, hx.exportedByUs, hx.handle, hx.dir, hx.edge]

/-! ### The statements -/

/-- Settles O22: the four granted steps, for an input. -/
theorem acquireInputCompletes : Obligations.AcquireInputCompletes := by
  intro k l s t1 t2 t3 t4 rest closed hl h g q
  obtain ⟨t, e, on, script, calls, slot, _, quiet⟩ :=
    lineAcquireBody_granted (l := l) hl (fun _ : Dir.input = .input => rfl) h g q
  rw [exec_of_closed (i := .lineAcquire k _ _ l) rfl closed]
  refine ⟨_, by rw [e, finish_ok], .of_history on.history _, ?_,
    on.controller.complete _, on.spi, on.other.complete _, script, calls, quiet⟩
  rw [State.slot_complete, slot]
  rfl

/-- Settles O23: the four granted steps, for an output. -/
theorem acquireOutputCompletes : Obligations.AcquireOutputCompletes := by
  intro k l v s t1 t2 t3 t4 rest closed hl h g q
  obtain ⟨t, e, on, script, calls, slot, pin, quiet⟩ :=
    lineAcquireBody_granted (d := .output) (v := v) (l := l) hl nofun h g q
  rw [exec_of_closed (i := .lineAcquire k _ _ l) rfl closed]
  refine ⟨_, by rw [e, finish_ok], .of_history on.history _, ?_, pin rfl,
    on.controller.complete _, on.spi, on.other.complete _, script, calls, quiet⟩
  rw [State.slot_complete, slot]
  rfl

/-- Settles O24: the slot is as the steps before the failing one made it, and a claimed reservation is held. -/
theorem failedAcquireKeepsTheStepsDone : Obligations.FailedAcquireKeepsTheStepsDone := by
  intro k d v l s done bad rest c closed empty hv h hn g q hb
  obtain ⟨u, e, hu, hs⟩ := acquireReserve_fails hb k l d v (by rw [State.holding_env]; exact h) hn g q
    (congrArg LineSlot.line (s.holding_slot k l))
  rw [State.holding_slot, State.holding_lineEnv] at hs
  have slot := hs.trans (foldl_acquireSteps empty l d v _ hn)
  have on := (s.holding_onSlot k l).trans hu.onSlot
  have backed : Backed k (s.holding k l) := fun m _ hx => by
    rw [State.holding_slot] at hx
    exact absurd (empty.exportedByUs.symm.trans hx) Bool.false_ne_true
  have line : (u.slot k).line = some l := congrArg LineSlot.line slot
  have body : lineAcquireBody k l d v s = .ioFailure (.env c) u := (lineAcquireBody_of_free empty.line hv l).trans e
  rw [exec_of_closed (i := .lineAcquire k d v l) rfl closed]
  refine ⟨_, by rw [body, finish_ioFailure], .of_history on.history _, ?_⟩
  rw [State.slot_complete]
  exact ⟨line, congrArg LineSlot.handle slot, congrArg LineSlot.exportedByUs slot,
    congrArg LineSlot.dir slot, congrArg LineSlot.edge slot, congrArg LineSlot.level slot, hu.backed backed l line,
    on.controller.complete _, on.spi, on.other.complete _,
    by simpa only [State.complete_calls, State.holding_calls] using hu.calls⟩

end Sys2Proof.Machine
end

section
/-! SUPPORT. LINE.WAIT when the script says how its calls are answered (41_gpio_line.md R118 to R121). A wait whose
first clear is granted goes on as one that is taken up again in its wait, so each way in which a turn ends the wait is
said once, of `waitPoll`. -/

namespace Sys2Proof.Machine

/-! ### The clears -/

theorem clearLatch_lineEnv_of_quiet {s : State} {a : Turn} {rest : List Turn} (h : s.env.script = a :: rest)
    (q : a.events = []) (k : Slot) (l m : LineId) : (clearLatch k l s).2.lineEnv m = s.lineEnv m := by
  have asked : (s.ask (.readValue l)).2.lineEnv m = s.lineEnv m := by
    rw [State.ask_quiet _ h q]
    rfl
  rcases (clearLatch_cases k l s).2.2 with ⟨_, e⟩ | ⟨_, e⟩
  · rw [e, asked]
  · rw [e, State.lineEnv_setSlot, asked]

/-- A failing clear leaves a latch that is set (41_gpio_line.md R120). -/
theorem clearLatch_fails_latch {s : State} {a : Turn} {rest : List Turn} {c : EnvCause} (h : s.env.script = a :: rest)
    (ha : a.verdict = .fail c) {k : Slot} (latch : (s.slot k).latch = true) (l : LineId) :
    ∃ u, clearLatch k l s = (.fail (.env c), u) ∧ Turned s [.readValue l] rest u ∧ (u.slot k).latch = true := by
  obtain ⟨u, e, hu, keeps⟩ := envReadValue_fails h ha l
  exact ⟨u, by simp only [clearLatch, e], hu, keeps k latch⟩

/-! ### What a wait needs -/

/-- Slot `k` holds line `l` as an open falling-edge input (41_gpio_line.md R118). -/
structure State.WaitsOn (s : State) (k : Slot) (l : LineId) : Prop where
  line : (s.slot k).line = some l
  handle : (s.slot k).handle ≠ none
  falling : (s.slot k).detectsFalling = true

theorem State.WaitsOn.byEnv {s t : State} {k : Slot} {l : LineId} (h : s.WaitsOn k l) (b : ByEnv s t) :
    t.WaitsOn k l :=
  ⟨(b.line k).trans h.line, fun e => h.handle ((b.handle k).symm.trans e),
    (b.block.slot k).detectsFalling.trans h.falling⟩

/-- Line `l` falls in the next turn `b`: by a whole pulse, or from a pin at 1 (10_state.md R31). -/
def FallsNext (s : State) (l : LineId) (b : Turn) : Prop :=
  Pulses b l ∨ ((s.lineEnv l).pin = true ∧ ∃ es, b.events = .pinFall l :: es)

/-! ### The turn of a wait -/

/-- A wait whose latch is set is answered by an edge, unless the verdict is a failure (log 4). -/
theorem waitAnswerOf_latched {v : Verdict} (hv : ∀ c, v ≠ .fail c) : waitAnswerOf true v = .edge := by
  rcases waitAnswerOf_cases true v with ⟨c, _, hc⟩ | ⟨edge, _⟩ | ⟨_, clear, _⟩ | ⟨_, clear⟩
  · exact absurd hc (hv c)
  · exact edge
  · cases clear
  · cases clear

/-- A turn in which the line falls ends the wait, unless its verdict is a failure (41_gpio_line.md R119; log 4). -/
theorem envWaitTurn_falls {s : State} {b : Turn} {rest : List Turn} (h : s.env.script = b :: rest) {k : Slot}
    {l : LineId} (hw : s.WaitsOn k l) (undriven : s.drives l = false) (falls : FallsNext s l b)
    (hb : ∀ c, b.verdict ≠ .fail c) :
    ∃ u, envWaitTurn s k = (.edge, u) ∧ Turned s [] rest u ∧ (u.slot k).latch = true := by
  have ends : ∃ u, envWaitTurn s k = (.edge, u) ∧ Turned s [] rest u := by
    rcases falls with pulse | ⟨pin, es, he⟩
    · exact envWaitTurn_pulsed h hw.line hw.falling hw.handle undriven pulse hb
    · obtain ⟨u, e, hu, _, hev⟩ := envWaitTurn_turned h k
      have falls := (fallingEdgeSetsTheLatch { s with env := { s.env with script := rest } } l k).1 undriven pin
        (by cases k <;> exact hw.line) (by cases k <;> exact hw.falling) (by cases k <;> exact hw.handle)
      have latch : (u.slot k).latch = true := by
        rw [hev, he, List.foldl_cons]
        exact foldl_envStep_latch es _ k falls
      exact ⟨u, by rw [e, latch, waitAnswerOf_latched hb], hu⟩
  obtain ⟨u, e, hu⟩ := ends
  have latch := (answersMeetTheirConstraints.2 s k).1
  rw [e] at latch
  exact ⟨u, e, hu, latch rfl⟩

section
variable {s : State} {b : Turn} {rest : List Turn} {k : Slot} {l : LineId}

theorem waitPoll_fails (h : s.env.script = b :: rest) {c : EnvCause} (hb : b.verdict = .fail c) (k : Slot)
    (l : LineId) :
    ∃ u, waitPoll k l s = .ioFailure (.env c) u ∧ Turned s [] rest u := by
  obtain ⟨u, e, hu⟩ := envWaitTurn_fails h hb k
  exact ⟨u, by simp only [waitPoll, e], hu⟩

theorem waitPoll_timesOut (h : s.env.script = b :: rest) (hl : (s.slot k).line = some l)
    (latch : (s.slot k).latch = false) (q : b.events = []) (hb : b.verdict = .timeout) :
    ∃ u, waitPoll k l s = .error .timedOut u ∧ Turned s [] rest u ∧ (u.slot k).latch = false := by
  obtain ⟨u, e, hu, hq⟩ := envWaitTurn_quiet h hl latch (by simp [q])
  exact ⟨u, by simp [waitPoll, e, hb, waitAnswerOf], hu, hq⟩

theorem waitPoll_blocks (h : s.env.script = b :: rest) (hl : (s.slot k).line = some l)
    (latch : (s.slot k).latch = false) (q : b.events = []) (hb : b.verdict = .silent) :
    ∃ u, waitPoll k l s = .blocked (.lineWait k) u ∧ Turned s [] rest u ∧ (u.slot k).latch = false := by
  obtain ⟨u, e, hu, hq⟩ := envWaitTurn_quiet h hl latch (by simp [q])
  exact ⟨u, by simp [waitPoll, e, hb, waitAnswerOf], hu, hq⟩

variable {x : Turn} (h : s.env.script = b :: x :: rest) (hw : s.WaitsOn k l) (undriven : s.drives l = false)
  (falls : FallsNext s l b) (hb : ∀ c, b.verdict ≠ .fail c)
include h hw undriven falls hb

/-- The line falls and the second clear is granted. -/
theorem waitPoll_completes (hx : x.verdict = .ok) :
    ∃ u, waitPoll k l s = .ok u ∧ Turned s [.readValue l] rest u ∧ (u.slot k).latch = false := by
  obtain ⟨u, e, hu, _⟩ := envWaitTurn_falls h hw undriven falls hb
  obtain ⟨t, et, ht, latch⟩ := clearLatch_granted hu.script hx k l
  exact ⟨t, by simp only [waitPoll, e, et], hu.trans ht, latch⟩

/-- The line falls and the second clear fails. -/
theorem waitPoll_secondClear_fails {c : EnvCause} (hx : x.verdict = .fail c) :
    ∃ u, waitPoll k l s = .ioFailure (.env c) u ∧ Turned s [.readValue l] rest u ∧ (u.slot k).latch = true := by
  obtain ⟨u, e, hu, latch⟩ := envWaitTurn_falls h hw undriven falls hb
  obtain ⟨t, et, ht, latch⟩ := clearLatch_fails_latch hu.script hx latch l
  exact ⟨t, by simp only [waitPoll, e, et], hu.trans ht, latch⟩

end

/-! ### The command up to its wait -/

section
variable {s : State} {a : Turn} {rest : List Turn} {k : Slot} {l : LineId} (h : s.env.script = a :: rest)
  (hw : s.WaitsOn k l)
include h hw

/-- The first clear is granted: whatever the latch was, the wait begins with it clear. -/
theorem lineWaitBody_cleared (ha : a.verdict = .ok) (ms : U32) :
    ∃ u, lineWaitBody k ms s = waitPoll k l u ∧ Turned s [.readValue l, .waitEdge k ms] rest u ∧
      (u.slot k).latch = false ∧ (a.events = [] → ∀ m, u.lineEnv m = s.lineEnv m) := by
  obtain ⟨u, e, hu, latch⟩ := clearLatch_granted h ha k l
  refine ⟨u.logCall (.waitEdge k ms), ?_, hu.trans ⟨u.logCall_byEnv _, fun _ _ h => h, rfl, hu.script⟩,
    by cases k <;> exact latch, fun q m => ?_⟩
  · simp only [lineWaitBody, hw.handle, hw.falling, hw.line, e, if_false, if_true]
  · have quiet := clearLatch_lineEnv_of_quiet h q k l m
    rwa [e] at quiet

theorem lineWaitBody_clear_fails {c : EnvCause} (ha : a.verdict = .fail c) (ms : U32) :
    ∃ u, lineWaitBody k ms s = .ioFailure (.env c) u ∧ Turned s [.readValue l] rest u := by
  obtain ⟨u, e, hu⟩ := clearLatch_fails h ha k l
  exact ⟨u, by simp only [lineWaitBody, hw.handle, hw.falling, hw.line, e, if_false, if_true], hu⟩

end

/-- A fall in the wait's turn, seen from the state in which the wait begins. -/
theorem FallsIn.next {s u : State} {l : LineId} {a b : Turn} (h : FallsIn s l a b)
    (quiet : a.events = [] → ∀ m, u.lineEnv m = s.lineEnv m) : FallsNext u l b :=
  h.imp id fun ⟨q, pin, es, he⟩ => ⟨by rw [quiet q, pin], es, he⟩

/-! ### The ends of a command whose body changes nothing but latches -/

theorem Turned.completed {s u : State} {cs : List Call} {rest : List Turn} (h : Turned s cs rest u) (r : Response) :
    Completed s (u.complete r) r := .of_history h.byEnv.history r

theorem Turned.sameBlock {s u : State} {cs : List Call} {rest : List Turn} (h : Turned s cs rest u) (r : Response) :
    SameBlock s (u.complete r) := h.byEnv.block.complete r

theorem SameBlock.blocked {s u : State} (h : SameBlock s u) (w : Option Inflight) :
    SameBlock s { u with inflight := w } :=
  ⟨⟨h.controller.isOpen, h.controller.started, h.controller.cfg, h.controller.seq, h.controller.raw, h.controller.diag,
    h.controller.refused, h.controller.pending⟩, h.spi, h.drdy, h.sync⟩

theorem State.slot_blocked (u : State) (w : Option Inflight) (k : Slot) :
    ({ u with inflight := w } : State).slot k = u.slot k := by
  cases k <;> rfl

/-- Settles O26: the clear, the fall, the clear. -/
theorem waitCompletesOnAnEdge : Obligations.WaitCompletesOnAnEdge := by
  intro k ms l s t1 t2 t3 rest closed hl hh hf undriven h h1 h2 falls h3
  have hw : s.WaitsOn k l := ⟨hl, hh, hf⟩
  obtain ⟨u, e, hu, _, quiet⟩ := lineWaitBody_cleared h hw h1 ms
  obtain ⟨t, et, ht, latch⟩ := waitPoll_completes hu.script (hw.byEnv hu.byEnv) ((hu.byEnv.drives l).trans undriven)
    (falls.next quiet) h2 h3
  have all := hu.trans ht
  refine ⟨t.complete ⟨.ok, .nothing⟩, ?_, all.completed _, all.sameBlock _, ?_, all.script, all.calls⟩
  · rw [exec_of_closed (i := .lineWait k ms) rfl closed, e, et, finish_ok]
  · rw [State.slot_complete, latch]

/-- Settles O27: the wait begins with the latch clear, so a turn without event leaves it clear. -/
theorem staleEdgeIsDiscarded : Obligations.StaleEdgeIsDiscarded := by
  intro k ms l s t1 t2 rest closed hl hh hf h h1 q
  obtain ⟨u, e, hu, clear, _⟩ := lineWaitBody_cleared h ⟨hl, hh, hf⟩ h1 ms
  have line := (hu.byEnv.line k).trans hl
  refine ⟨fun h2 => ?_, fun h2 => ?_⟩
  · obtain ⟨t, et, ht, latch⟩ := waitPoll_timesOut hu.script line clear q h2
    have all := hu.trans ht
    refine ⟨t.complete ⟨.timedOut, .nothing⟩, ?_, all.completed _, all.sameBlock _, ?_, all.script, all.calls⟩
    · rw [exec_of_closed (i := .lineWait k ms) rfl closed, e, et, finish_error]
    · rw [State.slot_complete, latch]
  · obtain ⟨t, et, ht, latch⟩ := waitPoll_blocks hu.script line clear q h2
    have all := hu.trans ht
    refine ⟨{ t with inflight := some (.lineWait k) }, ?_, rfl, all.byEnv.cp, all.byEnv.out,
      all.byEnv.block.blocked _, ?_, all.script, all.calls⟩
    · rw [exec_of_closed (i := .lineWait k ms) rfl closed, e, et, finish_blocked]
    · rw [State.slot_blocked, latch]

/-- A LINE.WAIT that is taken up again is one more turn of its wait. -/
theorem step_of_lineWait {s : State} {k : Slot} {l : LineId} (h : s.inflight = some (.lineWait k))
    (hl : (s.slot k).line = some l) : step s = .next (finish s (waitPoll k l s)) := by
  rw [step_of_inflight h, resumeBody, lineWaitResume, hl]

/-- Settles O28: the ways of a wait's turn, from a blocked wait. -/
theorem blockedWaitGoesOn : Obligations.BlockedWaitGoesOn := by
  intro k l s t1 rest hi hl hh hf undriven h
  have hw : s.WaitsOn k l := ⟨hl, hh, hf⟩
  rw [step_of_lineWait hi hl]
  refine ⟨fun t2 rest' hr h1 pulse h2 => ?_, fun clear q h1 => ?_, fun clear q h1 => ?_, fun c h1 => ?_,
    fun t2 rest' c hr h1 pulse h2 => ?_⟩
  · subst hr
    obtain ⟨t, e, ht, latch⟩ := waitPoll_completes h hw undriven (.inl pulse) h1 h2
    refine ⟨_, by rw [e, finish_ok], ht.completed _, ht.sameBlock _, ?_, ht.script, ht.calls⟩
    rw [State.slot_complete, latch]
  · obtain ⟨t, e, ht, _⟩ := waitPoll_timesOut h hl clear q h1
    exact ⟨_, by rw [e, finish_error], ht.completed _, ht.sameBlock _, by simpa using ht.calls⟩
  · obtain ⟨t, e, ht, _⟩ := waitPoll_blocks h hl clear q h1
    exact ⟨{ t with inflight := some (.lineWait k) }, by rw [e, finish_blocked], hi.symm, ht.byEnv.cp, ht.byEnv.out,
      ht.byEnv.block.blocked _, by simpa using ht.calls⟩
  · obtain ⟨t, e, ht⟩ := waitPoll_fails h h1 k l
    exact ⟨_, by rw [e, finish_ioFailure], ht.completed _, ht.sameBlock _, ht.script,
      by simpa using ht.calls⟩
  · subst hr
    obtain ⟨t, e, ht, latch⟩ := waitPoll_secondClear_fails h hw undriven (.inl pulse) h1 h2
    refine ⟨_, by rw [e, finish_ioFailure], ht.completed _, ht.sameBlock _, ?_, ht.script, ht.calls⟩
    rw [State.slot_complete, latch]

/-- Settles O29: each of the three calls fails after the ones before it were granted. -/
theorem waitFailsAtTheFailingCall : Obligations.WaitFailsAtTheFailingCall := by
  intro k ms l s t1 t2 t3 rest c closed hl hh hf undriven h
  have hw : s.WaitsOn k l := ⟨hl, hh, hf⟩
  rw [exec_of_closed (i := .lineWait k ms) rfl closed]
  refine ⟨fun h1 => ?_, fun h1 h2 => ?_, fun h1 h2 falls h3 => ?_⟩
  · obtain ⟨t, e, ht⟩ := lineWaitBody_clear_fails h hw h1 ms
    exact ⟨_, by rw [e, finish_ioFailure], ht.completed _, ht.sameBlock _, ht.calls⟩
  · obtain ⟨u, e, hu, _⟩ := lineWaitBody_cleared h hw h1 ms
    obtain ⟨t, et, ht⟩ := waitPoll_fails hu.script h2 k l
    have all := hu.trans ht
    exact ⟨_, by rw [e, et, finish_ioFailure], all.completed _, all.sameBlock _, all.calls⟩
  · obtain ⟨u, e, hu, _, quiet⟩ := lineWaitBody_cleared h hw h1 ms
    obtain ⟨t, et, ht, latch⟩ := waitPoll_secondClear_fails hu.script (hw.byEnv hu.byEnv)
      ((hu.byEnv.drives l).trans undriven) (falls.next quiet) (by simp [h2]) h3
    have all := hu.trans ht
    refine ⟨_, by rw [e, et, finish_ioFailure], all.completed _, all.sameBlock _, ?_, all.calls⟩
    rw [State.slot_complete, latch]

end Sys2Proof.Machine
end

section
/-! SUPPORT. LINE.GET and LINE.SET when the script says how their call is answered (41_gpio_line.md R122 to R125). -/

namespace Sys2Proof.Machine

/-- The level that a short or failed write leaves is a draw (41_gpio_line.md R124). -/
theorem drawLevel_slotTurned {s u : State} {cs : List Call} {rest : List Turn} (hu : Turned s cs rest u) (k : Slot) :
    SlotTurned k s cs rest (drawLevel k u) :=
  (hu.update u.drawBit_byEnv (fun _ _ r => r) rfl rfl).setSlot k rfl rfl

section
variable {s : State} {a : Turn} {rest : List Turn} {k : Slot} {l : LineId} (h : s.env.script = a :: rest)
  (hl : (s.slot k).line = some l)
include h hl

/-! ### LINE.GET -/

/-- A granted read returns the pin; with no step of the environment the latch is kept or cleared, and no more
(41_gpio_line.md R122, R123). -/
theorem lineGetBody_granted (hh : (s.slot k).handle ≠ none) (ha : a.verdict = .ok) :
    ∃ t, lineGetBody k s = .okWith (.level (t.lineEnv l).pin) t ∧ Turned s [.readValue l] rest t ∧
      (a.events = [] → (∀ m, t.lineEnv m = s.lineEnv m) ∧
        ((t.slot k).latch = (s.slot k).latch ∨ (t.slot k).latch = false) ∧
        (t.slot (otherSlot k)).latch = (s.slot (otherSlot k)).latch) := by
  obtain ⟨u, e, hu, quiet⟩ := envReadValue_granted h ha l
  have drawn : Turned s [.readValue l] rest u.drawBit.2 := hu.update u.drawBit_byEnv (fun _ _ r => r) rfl rfl
  refine ⟨u.drawBit.2.setSlot k { u.drawBit.2.slot k with latch := (u.drawBit.2.slot k).latch && u.drawBit.1 }, ?_,
    drawn.update (State.setLatch_byEnv _ k _) (State.setSlot_keepsOwn _ k _) (by simp) (by simp),
    fun q => ⟨fun m => ?_, ?_, ?_⟩⟩
  · simp only [lineGetBody, hh, hl, e, if_false, State.lineEnv_setSlot, State.lineEnv_drawBit]
  · rw [State.lineEnv_setSlot, State.lineEnv_drawBit, quiet q]
    rfl
  · have kept : (u.drawBit.2.slot k).latch = (s.slot k).latch := by rw [quiet q]; cases k <;> rfl
    rw [State.slot_setSlot_self, kept]
    cases u.drawBit.1
    · exact .inr (Bool.and_false _)
    · exact .inl (Bool.and_true _)
  · rw [State.slot_setSlot_other, quiet q]
    cases k <;> rfl

theorem lineGetBody_fails (hh : (s.slot k).handle ≠ none) {c : EnvCause} (ha : a.verdict = .fail c) :
    ∃ t, lineGetBody k s = .ioFailure (.env c) t ∧ Turned s [.readValue l] rest t := by
  obtain ⟨u, e, hu, _⟩ := envReadValue_fails h ha l
  exact ⟨u, by simp only [lineGetBody, hh, hl, e, if_false], hu⟩

/-! ### LINE.SET -/

variable (hh : (s.slot k).handle = some .output) (v : Level)
include hh

/-- A write that falls short or fails returns its code (41_gpio_line.md R124, R125). -/
theorem lineSetBody_fails {c : ResultCode} (ha : FailingWrite a c) :
    ∃ t, lineSetBody k v s = .error c t ∧ SlotTurned k s [.writeValue l v] rest t := by
  cases ha with
  | short ha =>
    obtain ⟨u, e, hu⟩ := envWriteValue_short h ha l v
    exact ⟨drawLevel k u, by simp [lineSetBody, hh, hl, e, Ran.ioFailure], drawLevel_slotTurned hu k⟩
  | fail c ha =>
    obtain ⟨u, e, hu⟩ := envWriteValue_fails h ha l v
    exact ⟨drawLevel k u, by simp [lineSetBody, hh, hl, e, Ran.ioFailure], drawLevel_slotTurned hu k⟩

theorem lineSetBody_granted (ha : a.verdict = .ok) :
    ∃ t, lineSetBody k v s = .ok t ∧ SlotTurned k s [.writeValue l v] rest t ∧ (t.lineEnv l).pin = v ∧
      (t.slot k).level = v ∧ (a.events = [] → ∀ m, m ≠ l → t.lineEnv m = s.lineEnv m) := by
  obtain ⟨u, e, hu, pin, quiet⟩ := envWriteValue_granted h ha l v
  refine ⟨u.setSlot k { u.slot k with level := v }, by simp [lineSetBody, hh, hl, e], hu.setSlot k rfl rfl, ?_, ?_, ?_⟩
  · rw [State.lineEnv_setSlot, pin]
  · rw [State.slot_setSlot_self]
  · simpa only [State.lineEnv_setSlot] using quiet

end

/-! ### The statements -/

/-- Settles O30: the read is granted. -/
theorem getReturnsThePin : Obligations.GetReturnsThePin := by
  intro k l s t1 rest closed hl hh h h1
  obtain ⟨t, e, ht, quiet⟩ := lineGetBody_granted h hl hh h1
  rw [exec_of_closed (i := .lineGet k) rfl closed]
  refine ⟨_, by rw [e, finish_okWith], ht.completed _, ht.sameBlock _, ht.script, ht.calls, fun q => ?_⟩
  simpa only [State.slot_complete, State.lineEnv_complete] using quiet q

/-- Settles O31: the read fails, or the write falls short or fails. -/
theorem getAndSetFailures : Obligations.GetAndSetFailures := by
  intro k v l s t1 rest closed hl h
  have failing : (s.slot k).handle = some .output → ∀ c, FailingWrite t1 c →
      ∃ t, exec (.lineSet k v) s = .next t ∧ Completed s t ⟨c, .nothing⟩ ∧ t.calls = s.calls ++ [.writeValue l v] := by
    intro hh c h1
    obtain ⟨t, e, ht⟩ := lineSetBody_fails h hl hh v h1
    rw [exec_of_closed (i := .lineSet k v) rfl closed]
    exact ⟨_, by rw [e, finish_error], .of_history ht.onSlot.history _, ht.calls⟩
  refine ⟨fun hh c h1 => ?_, fun hh => ⟨fun h1 => failing hh _ (.short h1), fun c h1 => failing hh _ (.fail c h1)⟩⟩
  obtain ⟨t, e, ht⟩ := lineGetBody_fails h hl hh h1
  rw [exec_of_closed (i := .lineGet k) rfl closed]
  exact ⟨_, by rw [e, finish_ioFailure], ht.completed _, ht.sameBlock _, ht.calls⟩

/-- Settles O32: the write is granted; what stays of the slot is the frame of the command. -/
theorem setDrivesTheLine : Obligations.SetDrivesTheLine := by
  intro k v l s t1 rest closed hl hh h h1
  obtain ⟨t, e, ht, pin, level, quiet⟩ := lineSetBody_granted h hl hh v h1
  have frame := lineSetBody_holds k v s
  rw [e] at frame
  obtain ⟨_, _, same, _⟩ := frame
  rw [exec_of_closed (i := .lineSet k v) rfl closed]
  refine ⟨_, by rw [e, finish_ok], .of_history ht.onSlot.history _, pin, ?_, ?_, ht.onSlot.controller.complete _,
    ht.onSlot.spi, ht.onSlot.other.complete _, ht.script, ht.calls, quiet⟩
  · rw [State.slot_complete, level]
  · rw [State.slot_complete]
    exact same

end Sys2Proof.Machine
end

section
/-! SUPPORT. LINE.RELEASE (41_gpio_line.md R126 to R128): the calls it makes of any slot, and what becomes of the line's
reservation. -/

namespace Sys2Proof.Machine

/-! ### Its calls -/

theorem envUnreserve_calls (s : State) (l : LineId) : (envUnreserve s l).2.calls = s.calls ++ [.unreserve l] := by
  rcases (envUnreserve_cases s l).2 with ⟨_, e⟩ | ⟨_, e⟩ <;> rw [e] <;> exact s.ask_calls _

theorem releaseCalls_of_no_line {x : LineSlot} (hl : x.line = none) (s : State) : releaseCalls x s = s := by
  simp only [releaseCalls, hl]

theorem releaseCalls_of_line {x : LineSlot} {l : LineId} (hl : x.line = some l) (s : State) :
    releaseCalls x s =
      if x.exportedByUs then (envUnreserve (if x.handle.isSome then (envCloseValue s l).2 else s) l).2
      else if x.handle.isSome then (envCloseValue s l).2 else s := by
  simp only [releaseCalls, hl]

theorem releaseCalls_of_own {x : LineSlot} {l : LineId} (hl : x.line = some l) (hh : x.handle ≠ none)
    (hx : x.exportedByUs = true) (s : State) : releaseCalls x s = (envUnreserve (envCloseValue s l).2 l).2 := by
  rw [releaseCalls_of_line hl, if_pos hx, if_pos (Option.isSome_iff_ne_none.2 hh)]

theorem releaseCalls_of_shared {x : LineSlot} {l : LineId} (hl : x.line = some l) (hh : x.handle ≠ none)
    (hx : x.exportedByUs = false) (s : State) : releaseCalls x s = (envCloseValue s l).2 := by
  rw [releaseCalls_of_line hl, if_neg (Bool.eq_false_iff.1 hx), if_pos (Option.isSome_iff_ne_none.2 hh)]

/-- Whatever the environment answers, the calls are those of the rule (41_gpio_line.md R126, R127). -/
theorem releaseCalls_calls (x : LineSlot) (s : State) : (releaseCalls x s).calls = s.calls ++ releaseCallList x := by
  cases hl : x.line with
  | none => simp [releaseCalls_of_no_line hl, releaseCallList, hl]
  | some l =>
    have close : (envCloseValue s l).2.calls = s.calls ++ [.closeValue l] := s.ask_calls _
    rw [releaseCalls_of_line hl]
    cases hh : x.handle.isSome <;> cases hx : x.exportedByUs <;>
      simp [releaseCallList, hl, hh, hx, envUnreserve_calls, close]

theorem lineReleaseBody_calls (k : Slot) (s : State) :
    (lineReleaseBody k s).calls = s.calls ++ releaseCallList (s.slot k) := by
  rw [lineReleaseBody, State.setSlot_calls, releaseCalls_calls]

theorem lineReleaseBody_env (k : Slot) (s : State) : (lineReleaseBody k s).env = (releaseCalls (s.slot k) s).env := by
  rw [lineReleaseBody, State.setSlot_env]

theorem lineReleaseBody_lineEnv (k : Slot) (s : State) (m : LineId) :
    (lineReleaseBody k s).lineEnv m = (releaseCalls (s.slot k) s).lineEnv m := by
  rw [lineReleaseBody, State.lineEnv_setSlot]

theorem exec_lineRelease {s : State} (closed : s.isOpen = false) (k : Slot) :
    exec (.lineRelease k) s = .next ((lineReleaseBody k s).complete ⟨.ok, .nothing⟩) :=
  exec_of_closed (i := .lineRelease k) rfl closed

/-- A release of an empty slot only completes (41_gpio_line.md R127). -/
theorem exec_lineRelease_of_empty {s : State} (closed : s.isOpen = false) {k : Slot} (empty : (s.slot k).Empty) :
    exec (.lineRelease k) s = .next (s.complete ⟨.ok, .nothing⟩) := by
  rw [exec_lineRelease closed, lineReleaseBody_of_empty k s empty]

/-- Settles O33: the calls are those of the slot as it was, and the slot is emptied after them. -/
theorem releaseEmptiesTheSlot : Obligations.ReleaseEmptiesTheSlot := by
  intro k s closed
  obtain ⟨on, empty, _⟩ := lineReleaseBody_onSlot k s
  refine ⟨_, exec_lineRelease closed k, .of_history on.history _, ?_, lineReleaseBody_calls k s,
    on.controller.complete _, on.spi, on.other.complete _⟩
  rw [State.slot_complete]
  exact empty

/-! ### The reservation -/

section
variable {s : State} {b : Turn} {rest : List Turn} (h : s.env.script = b :: rest) (l : LineId)
include h

theorem envUnreserve_script : (envUnreserve s l).2.env.script = rest := by
  rcases (envUnreserve_cases s l).2 with ⟨_, e⟩ | ⟨_, e⟩ <;> rw [e] <;> exact (s.ask_script _ h).2

theorem envCloseValue_lineEnv_of_quiet (q : b.events = []) (m : LineId) :
    (envCloseValue s l).2.lineEnv m = s.lineEnv m := by
  have quiet : (envCloseValue s l).2 = _ := s.ask_quiet (.closeValue l) h q
  rw [quiet]
  rfl

/-- After a failed unreserve a reservation of this block stays (41_gpio_line.md R127). -/
theorem envUnreserve_fails_reserved {c : EnvCause} (hb : b.verdict = .fail c) (owned : s.owns l = true)
    (held : (s.lineEnv l).reserved = true) : ((envUnreserve s l).2.lineEnv l).reserved = true := by
  have state : (envUnreserve s l).2 = (s.ask (.unreserve l)).2 := by
    simp only [envUnreserve, (s.ask_script _ h).1, hb, failureOf]
  rw [state]
  exact s.ask_keepsOwn _ l owned held

/-- After a granted one the line is free (10_state.md R44). -/
theorem envUnreserve_granted_reserved (hb : b.verdict = .ok) : ((envUnreserve s l).2.lineEnv l).reserved = false := by
  have state : (envUnreserve s l).2 = (s.ask (.unreserve l)).2.unexport l := by
    simp only [envUnreserve, (s.ask_script _ h).1, hb, failureOf]
  rw [state, State.unexport_reserved_self]

end

/-- Settles O34: an own reservation goes by the answer of the unreserve, a shared one sees only the handle closed. -/
theorem releaseAndTheReservation : Obligations.ReleaseAndTheReservation := by
  refine ⟨fun k l s t1 t2 rest inv closed hl hh hx h => ?_, fun k l s t1 rest closed hl hh hx h q => ?_⟩
  · have calls := releaseCalls_of_own hl hh hx s
    obtain ⟨b, keeps⟩ := envCloseValue_byEnv s l
    have h' : (envCloseValue s l).2.env.script = t2 :: rest := (s.ask_script _ h).2
    have owned := State.owns_of_slot hl hx
    obtain ⟨on, empty, _⟩ := lineReleaseBody_onSlot k s
    have closed' : ((lineReleaseBody k s).complete ⟨.ok, .nothing⟩).isOpen = false := on.controller.isOpen.trans closed
    have emptied : (((lineReleaseBody k s).complete ⟨.ok, .nothing⟩).slot k).Empty := by rwa [State.slot_complete]
    refine ⟨_, exec_lineRelease closed k, emptied, ?_, fun c h2 => ?_, fun h2 => ?_,
      exec_lineRelease_of_empty closed' emptied⟩
    · rw [State.complete_env, lineReleaseBody_env, calls, envUnreserve_script h']
    · rw [State.lineEnv_complete, lineReleaseBody_lineEnv, calls]
      exact envUnreserve_fails_reserved h' l h2 ((b.owns l).trans owned) (keeps l owned (inv.reserved l owned))
    · rw [State.lineEnv_complete, lineReleaseBody_lineEnv, calls, envUnreserve_granted_reserved h' l h2]
  · refine ⟨_, exec_lineRelease closed k, fun m => ?_, ?_⟩
    · rw [State.lineEnv_complete, lineReleaseBody_lineEnv, releaseCalls_of_shared hl hh hx]
      exact envCloseValue_lineEnv_of_quiet h l q m
    · rw [State.complete_calls, lineReleaseBody_calls]
      simp [releaseCallList, hl, hx, Option.isSome_iff_ne_none.2 hh]

end Sys2Proof.Machine
end

section
/-! SUPPORT. The SPI master's commands but for the steps of SPI.OPEN: the frame of all three on every path, the exchange
and its checks (42_spi_master.md R147, R148), the close (R150). -/

namespace Sys2Proof.Machine

/-! ### The frame -/

/-- SPI.OPEN stays in the SPI master, whatever the environment answers (42_spi_master.md R141, R145). -/
theorem spiOpen_onSpi (path : BusPath) (hz : U32) (mode : U8) (noCs : Bool) (s : State) :
    (commandBody (.spiOpen path hz mode noCs) s).Holds (fun _ t => OnSpi s t) (fun _ t => OnSpi s t) :=
  .hostOnly fun _ => (spiOpenBody_holds path hz mode noCs s).mono (fun _ _ h => h.onSpi) (fun _ _ h => h.elim)

/-- SPI.XFER leaves the block but for the latches (42_spi_master.md R147, R148). -/
theorem spiXfer_sameBlock (len : U32) (s : State) :
    (commandBody (.spiXfer len) s).Holds (fun _ t => SameBlock s t) (fun _ t => SameBlock s t) :=
  .hostOnly fun _ => (spiXferBody_holds len s).mono (fun _ _ h => h.1.block) (fun _ _ h => h.elim)

/-- SPI.CLOSE stays in the SPI master (42_spi_master.md R150). -/
theorem spiClose_onSpi (s : State) :
    (commandBody .spiClose s).Holds (fun _ t => OnSpi s t) (fun _ t => OnSpi s t) :=
  .hostOnly fun _ => (spiCloseBody_onSpi s).1

/-- A command whose body stays in the SPI master keeps the controller and, but for their latches, the slots. -/
theorem exec_frame_of_onSpi {i : Instr} {s t : State}
    (hb : (commandBody i s).Holds (fun _ u => OnSpi s u) (fun _ u => OnSpi s u)) (h : exec i s = .next t) :
    SameController s { t with refused := s.refused } ∧ SameSlot .drdy s t ∧ SameSlot .sync s t := by
  obtain ⟨u, mark, cp, out, w, hu, rfl⟩ := exec_ends (.refl s) hb h
  exact ⟨hu.controller.withPort _ _ _ _, hu.drdy, hu.sync⟩

/-- Settles O18: each body keeps its frame, and the end of the command is outside every frame. -/
theorem spiCommandsLeaveTheRest : Obligations.SpiCommandsLeaveTheRest := by
  intro s t
  refine ⟨fun path hz mode noCs h => exec_frame_of_onSpi (spiOpen_onSpi path hz mode noCs s) h, fun len h => ?_,
    fun h => exec_frame_of_onSpi (spiClose_onSpi s) h⟩
  obtain ⟨u, mark, cp, out, w, hu, rfl⟩ := exec_ends (.refl s) (spiXfer_sameBlock len s) h
  exact hu.withPort _ _ _ _

/-! ### SPI.XFER -/

theorem spiExchange_of_closed {s : State} (hs : s.spi.isOpen = false) :
    spiExchange s = (.failed .notPermitted, s) := if_pos hs

/-- A granted exchange receives the turn's bytes and transmits zeros (42_spi_master.md R148). -/
theorem spiExchange_granted {s : State} {a : Turn} {rest : List Turn} (h : s.env.script = a :: rest)
    (ha : a.verdict = .ok) (hs : s.spi.isOpen = true) :
    ∃ u, spiExchange s = (.received a.rx, u) ∧ Turned s [.spiTransfer FrameBuf.zero] rest u := by
  obtain ⟨u, e, hu, _⟩ := envSpiTransfer_granted h ha
  exact ⟨u, by simp [spiExchange, hs, e], hu⟩

theorem spiXferBody_of_length {len : U32} (h : len ≠ 24) (s : State) : spiXferBody len s = .refused :=
  if_pos fun e => h (BitVec.eq_of_toNat_eq e)

theorem spiXferBody_of_received {s u : State} {rx : FrameBuf} (e : spiExchange s = (.received rx, u)) :
    spiXferBody 24 s = .okWith (.bytes rx) u := by
  rw [spiXferBody, if_neg (by decide), e]

theorem spiXferBody_of_failed {s u : State} {c : ResultCode} (e : spiExchange s = (.failed c, u)) :
    spiXferBody 24 s = .error c u := by
  rw [spiXferBody, if_neg (by decide), e]

/-- Settles O38: the exchange is granted. -/
theorem exchangeReturnsTheBytes : Obligations.ExchangeReturnsTheBytes := by
  intro s t1 rest closed hs h h1
  obtain ⟨u, e, hu⟩ := spiExchange_granted h h1 hs
  rw [exec_of_closed (i := .spiXfer 24) rfl closed, spiXferBody_of_received e, finish_okWith]
  exact ⟨_, rfl, hu.completed _, hu.sameBlock _, hu.script, hu.calls⟩

/-- An SPI handle that is open is not opened again (42_spi_master.md R141). -/
theorem spiOpenBody_of_open {s : State} (hs : s.spi.isOpen = true) (path : BusPath) (hz : U32) (mode : U8)
    (noCs : Bool) : spiOpenBody path hz mode noCs s = .refused := if_pos hs

/-- Settles O39: the two refusals and the missing handle end the body before any call; a failed transfer is the only
call. -/
theorem exchangeFailures : Obligations.ExchangeFailures := by
  intro s closed
  have xfer (len : U32) := exec_of_closed (i := .spiXfer len) rfl closed
  refine ⟨fun len hlen => ?_, fun hs => ?_, fun t1 rest c hs h h1 => ?_, fun hs path hz mode noCs => ?_⟩
  · rw [xfer, spiXferBody_of_length hlen, finish]
  · rw [xfer, spiXferBody_of_failed (spiExchange_of_closed hs), finish_error]
  · obtain ⟨u, e, hu⟩ := spiExchange_fails h h1 hs
    rw [xfer, spiXferBody_of_failed e, finish_error]
    exact ⟨_, rfl, hu.completed _, hu.sameBlock _⟩
  · rw [exec_of_closed (i := .spiOpen path hz mode noCs) rfl closed, spiOpenBody_of_open hs, finish]

/-! ### SPI.CLOSE -/

theorem envSpiClose_calls (s : State) : (envSpiClose s).2.calls = s.calls ++ [.spiClose] := s.ask_calls _

/-- Its one call is the close of an open handle (42_spi_master.md R150). -/
theorem spiCloseBody_calls (s : State) :
    (spiCloseBody s).calls = s.calls ++ (if s.spi.isOpen then [.spiClose] else []) := by
  cases hs : s.spi.isOpen with
  | true => simp [spiCloseBody, hs, envSpiClose_calls]
  | false => simp [spiCloseBody_of_closed s hs]

/-- Settles O40: the body has no failing end. -/
theorem spiCloseNeverFails : Obligations.SpiCloseNeverFails := by
  intro s closed
  rw [exec_of_closed (i := .spiClose) rfl closed, finish_ok]
  obtain ⟨on, spi⟩ := spiCloseBody_onSpi s
  refine ⟨⟨_, rfl, .of_history on.history _, spi, on.controller.complete _, on.drdy.complete _, on.sync.complete _,
    spiCloseBody_calls s⟩, fun hs => ?_⟩
  rw [spiCloseBody_of_closed s hs]

end Sys2Proof.Machine
end

section
/-! SUPPORT. SPI.OPEN step by step (42_spi_master.md R141 to R146): the mode step for each way its turns may go, the
close of a failed configuration, and the calls of every failing end. -/

namespace Sys2Proof.Machine

/-! ### The mode step -/

/-- The cause with which an answer of the mode step ends SPI.OPEN (42_spi_master.md R141, R142). -/
def ModeAnswer.cause (a : ModeAnswer) : Option Cause :=
  match a with
  | .ok => none
  | .rejected => some .rejected
  | .fail c => some c

section
variable {s : State} {a : Turn} {rest : List Turn} (h : s.env.script = a :: rest) (mode : U8)
include h

theorem spiModeStep_granted (ha : a.verdict = .ok) (noCs : Bool) :
    ∃ u, spiModeStep mode noCs s = (.ok, noCs, u) ∧ Turned s [.spiSetMode mode noCs] rest u := by
  obtain ⟨u, e, hu, _⟩ := envSpiSetMode_granted h ha mode noCs
  exact ⟨u, by rw [spiModeStep, e], hu⟩

/-- A failure is never retried (42_spi_master.md R142). -/
theorem spiModeStep_fails {c : EnvCause} (ha : a.verdict = .fail c) (noCs : Bool) :
    ∃ u, spiModeStep mode noCs s = (.fail (.env c), noCs, u) ∧ Turned s [.spiSetMode mode noCs] rest u := by
  obtain ⟨u, e, hu⟩ := envSpiSetMode_fails h ha mode noCs
  exact ⟨u, by rw [spiModeStep, e], hu⟩

/-- Without the variant there is nothing to retry without (42_spi_master.md R142). -/
theorem spiModeStep_rejected (ha : a.verdict = .rejected) :
    ∃ u, spiModeStep mode false s = (.rejected, false, u) ∧ Turned s [.spiSetMode mode false] rest u := by
  obtain ⟨u, e, hu⟩ := envSpiSetMode_rejected h ha mode false
  exact ⟨u, by rw [spiModeStep, e]; rfl, hu⟩

/-- A rejected variant is retried once without it, and the second answer counts (42_spi_master.md R142). -/
theorem spiModeStep_retried (ha : a.verdict = .rejected) :
    ∃ u, spiModeStep mode true s = ((envSpiSetMode u mode false).1, false, (envSpiSetMode u mode false).2) ∧
      Turned s [.spiSetMode mode true] rest u := by
  obtain ⟨u, e, hu⟩ := envSpiSetMode_rejected h ha mode true
  exact ⟨u, by rw [spiModeStep, e]; rfl, hu⟩

end

section
variable {s : State} {a b : Turn} {rest : List Turn} (h : s.env.script = a :: b :: rest) (mode : U8)
  (ha : a.verdict = .rejected)
include h ha

theorem spiModeStep_retry_granted (hb : b.verdict = .ok) :
    ∃ v, spiModeStep mode true s = (.ok, false, v) ∧
      Turned s [.spiSetMode mode true, .spiSetMode mode false] rest v := by
  obtain ⟨u, e, hu⟩ := spiModeStep_retried h mode ha
  obtain ⟨v, ev, hv, _⟩ := envSpiSetMode_granted hu.script hb mode false
  exact ⟨v, by rw [e, ev], hu.trans hv⟩

theorem spiModeStep_retry_rejected (hb : b.verdict = .rejected) :
    ∃ v, spiModeStep mode true s = (.rejected, false, v) ∧
      Turned s [.spiSetMode mode true, .spiSetMode mode false] rest v := by
  obtain ⟨u, e, hu⟩ := spiModeStep_retried h mode ha
  obtain ⟨v, ev, hv⟩ := envSpiSetMode_rejected hu.script hb mode false
  exact ⟨v, by rw [e, ev], hu.trans hv⟩

end

/-! ### The configuration -/

/-- The SPI master as SPI.OPEN configures it, `eff` the variant in force (42_spi_master.md R141, R143, R144). -/
def SpiState.configured (path : BusPath) (hz : U32) (mode : U8) (eff : Bool) : SpiState :=
  { isOpen := true, path := path, mode := mode, noCs := eff, bitsPerWord := 8, maxHz := hz }

theorem spiConfigure_granted {s : State} {a b : Turn} {rest : List Turn} (h : s.env.script = a :: b :: rest)
    (ha : a.verdict = .ok) (hb : b.verdict = .ok) (path : BusPath) (hz : U32) (mode : U8) (eff : Bool) :
    ∃ u, spiConfigure path hz mode eff s = .ok { u with spi := .configured path hz mode eff } ∧
      Turned s [.spiSetBits 8, .spiSetSpeed hz] rest u := by
  obtain ⟨u, e, hu, _⟩ := envSpiSetBits_granted h ha params.bitsPerWord
  obtain ⟨v, ev, hv, _⟩ := envSpiSetSpeed_granted hu.script hb hz
  exact ⟨v, by simp only [spiConfigure, e, ev]; rfl, hu.trans hv⟩

/-- A failed configuration ends with the close, whose answer is ignored (42_spi_master.md R145). -/
theorem finish_spiAbandon (s u : State) (c : Cause) :
    finish s (spiAbandon c u) = (envSpiClose u).2.complete ⟨.ioFailure c, .nothing⟩ := rfl

/-! ### SPI.OPEN from its mode step on -/

section
variable {s u v : State} {path : BusPath} {mode : U8} {noCs eff : Bool} (closed : s.spi.isOpen = false)
  (eu : envSpiOpen s path = (.ok, u))
include closed eu

theorem spiOpenBody_of_mode_ok (ev : spiModeStep mode noCs u = (.ok, eff, v)) (hz : U32) :
    spiOpenBody path hz mode noCs s = spiConfigure path hz mode eff v := by
  simp only [spiOpenBody, closed, eu, ev, Bool.false_eq_true, if_false]

theorem spiOpenBody_of_mode_cause {a : ModeAnswer} {c : Cause} (ev : spiModeStep mode noCs u = (a, eff, v))
    (ha : a.cause = some c) (hz : U32) : spiOpenBody path hz mode noCs s = spiAbandon c v := by
  cases a with
  | ok => cases ha
  | rejected =>
    cases ha
    simp only [spiOpenBody, closed, eu, ev, Bool.false_eq_true, if_false]
  | fail c =>
    cases ha
    simp only [spiOpenBody, closed, eu, ev, Bool.false_eq_true, if_false]

variable (host : s.isOpen = false) {rest rest' : List Turn} (hu : Turned s [.spiOpen path] rest u) {cs : List Call}
include host hu

/-- With the bits and the speed granted as well, the handle is open with the variant in force. -/
theorem exec_spiOpen_of_mode_ok (ev : spiModeStep mode noCs u = (.ok, eff, v)) {b c : Turn}
    (hv : Turned u cs (b :: c :: rest') v) (hb : b.verdict = .ok) (hc : c.verdict = .ok) (hz : U32) :
    ∃ t, exec (.spiOpen path hz mode noCs) s = .next t ∧ Completed s t ⟨.ok, .nothing⟩ ∧
      t.spi = .configured path hz mode eff ∧ SameController s t ∧ SameSlot .drdy s t ∧ SameSlot .sync s t ∧
      t.env.script = rest' ∧ t.calls = s.calls ++ .spiOpen path :: cs ++ [.spiSetBits 8, .spiSetSpeed hz] := by
  obtain ⟨w, ew, hw⟩ := spiConfigure_granted hv.script hb hc path hz mode eff
  have all := (hu.trans hv).trans hw
  have on := (all.byEnv.onSpi all.keepsOwn).trans (w.setSpi_onSpi (.configured path hz mode eff))
  rw [exec_of_closed (i := .spiOpen path hz mode noCs) rfl host, spiOpenBody_of_mode_ok closed eu ev, ew, finish_ok]
  refine ⟨_, rfl, .of_history on.history _, rfl, on.controller.complete _, on.drdy.complete _, on.sync.complete _,
    all.script, ?_⟩
  rw [List.append_assoc]
  exact all.calls

/-- A mode step that gives a cause ends the command with it, the endpoint closed, whatever the close is answered. -/
theorem exec_spiOpen_of_mode_cause {a : ModeAnswer} {c : Cause} (ev : spiModeStep mode noCs u = (a, eff, v))
    (ha : a.cause = some c) (hv : Turned u cs rest' v) (hz : U32) :
    ∃ t, exec (.spiOpen path hz mode noCs) s = .next t ∧ Completed s t ⟨.ioFailure c, .nothing⟩ ∧
      t.spi = s.spi ∧ t.calls = s.calls ++ .spiOpen path :: cs ++ [.spiClose] := by
  have b := (hu.trans hv).byEnv.trans (envSpiClose_byEnv v).1
  rw [exec_of_closed (i := .spiOpen path hz mode noCs) rfl host, spiOpenBody_of_mode_cause closed eu ev ha,
    finish_spiAbandon]
  refine ⟨_, rfl, .of_history b.history _, b.block.spi, ?_⟩
  rw [State.complete_calls, envSpiClose_calls, (hu.trans hv).calls, List.singleton_append]

end

/-- Settles O35: the open and the mode step are granted, then the bits and the speed. -/
theorem spiOpenCompletes : Obligations.SpiOpenCompletes := by
  intro path hz mode noCs s t1 t2 t3 t4 rest host closed h granted
  simp only [AllGranted, List.forall_mem_cons] at granted
  obtain ⟨h1, h2, h3, h4, _⟩ := granted
  obtain ⟨u, eu, hu, _⟩ := envSpiOpen_granted h h1 path
  obtain ⟨v, ev, hv⟩ := spiModeStep_granted hu.script mode h2 noCs
  obtain ⟨t, e, done, spi, controller, drdy, sync, script, calls⟩ :=
    exec_spiOpen_of_mode_ok closed eu host hu ev hv h3 h4 hz
  exact ⟨t, e, done, spi, controller, drdy, sync, script, by simpa [spiOpenCalls] using calls⟩

/-- Settles O36: after a granted open, each way of the mode step's turns gives its answer and the variant in force. -/
theorem noChipSelectIsRetriedOnce : Obligations.NoChipSelectIsRetriedOnce := by
  intro path hz mode s t1 t2 t3 rest host closed h h1
  obtain ⟨u, eu, hu, _⟩ := envSpiOpen_granted h h1 path
  refine ⟨fun t4 t5 rest' hrest h2 granted => ?_, fun h2 h3 => ?_, fun h2 => ?_, fun noCs c h2 => ?_⟩
  · subst hrest
    simp only [AllGranted, List.forall_mem_cons] at granted
    obtain ⟨h3, h4, h5, _⟩ := granted
    obtain ⟨v, ev, hv⟩ := spiModeStep_retry_granted hu.script mode h2 h3
    obtain ⟨t, e, done, spi, _, _, _, _, calls⟩ := exec_spiOpen_of_mode_ok closed eu host hu ev hv h4 h5 hz
    exact ⟨t, e, done, spi, by simpa using calls⟩
  · obtain ⟨v, ev, hv⟩ := spiModeStep_retry_rejected hu.script mode h2 h3
    simpa using exec_spiOpen_of_mode_cause closed eu host hu ev rfl hv hz
  · obtain ⟨v, ev, hv⟩ := spiModeStep_rejected hu.script mode h2
    simpa using exec_spiOpen_of_mode_cause closed eu host hu ev rfl hv hz
  · obtain ⟨v, ev, hv⟩ := spiModeStep_fails hu.script mode h2 noCs
    simpa using exec_spiOpen_of_mode_cause closed eu host hu ev rfl hv hz

/-! ### The calls of a failing SPI.OPEN -/

/-- Between `s` and `t` calls were only added, and none of them is the close. -/
def Unclosed (s t : State) : Prop := ∃ cs, t.calls = s.calls ++ cs ∧ .spiClose ∉ cs

theorem State.ask_unclosed (s : State) {c : Call} (hc : c ≠ .spiClose := by simp) : Unclosed s (s.ask c).2 :=
  ⟨[c], s.ask_calls c, by simpa using hc.symm⟩

theorem Unclosed.trans {s t u : State} (h : Unclosed s t) (h' : Unclosed t u) : Unclosed s u := by
  obtain ⟨cs, hcs, no⟩ := h
  obtain ⟨cs', hcs', no'⟩ := h'
  exact ⟨cs ++ cs', by rw [hcs', hcs, List.append_assoc], by simp [no, no']⟩

theorem envSpiSetMode_unclosed (s : State) (mode : U8) (noCs : Bool) : Unclosed s (envSpiSetMode s mode noCs).2 := by
  rw [envSpiSetMode_state]
  exact s.ask_unclosed

theorem spiModeStep_unclosed (mode : U8) (noCs : Bool) (s : State) : Unclosed s (spiModeStep mode noCs s).2.2 := by
  have first := envSpiSetMode_unclosed s mode noCs
  unfold spiModeStep
  generalize envSpiSetMode s mode noCs = r at *
  obtain ⟨a, u⟩ := r
  cases a with
  | ok => exact first
  | fail c => exact first
  | rejected =>
    cases noCs with
    | true => exact first.trans (envSpiSetMode_unclosed u mode false)
    | false => exact first

/-- A failing end whose last call is the close, and no call since `s` before it (42_spi_master.md R145). -/
def EndsClosing (s : State) (p : Response) (t : State) : Prop :=
  p.code ≠ .ok → ∃ u, Unclosed s u ∧ t.calls = u.calls ++ [.spiClose]

theorem spiAbandon_endsClosing {s u : State} (h : Unclosed s u) (c : Cause) :
    (spiAbandon c u).Holds (EndsClosing s) (fun _ _ => False) := fun _ => ⟨u, h, envSpiClose_calls u⟩

theorem spiConfigure_endsClosing {s u : State} (h : Unclosed s u) (path : BusPath) (hz : U32) (mode : U8)
    (eff : Bool) : (spiConfigure path hz mode eff u).Holds (EndsClosing s) (fun _ _ => False) := by
  have bits : Unclosed s (envSpiSetBits u params.bitsPerWord).2 := h.trans u.ask_unclosed
  unfold spiConfigure
  generalize envSpiSetBits u params.bitsPerWord = r at *
  obtain ⟨a, v⟩ := r
  cases a with
  | fail c => exact spiAbandon_endsClosing bits c
  | ok =>
    have speed : Unclosed s (envSpiSetSpeed v hz).2 := bits.trans v.ask_unclosed
    simp only
    generalize envSpiSetSpeed v hz = r at *
    obtain ⟨a, w⟩ := r
    cases a with
    | fail c => exact spiAbandon_endsClosing speed c
    | ok => exact fun hp => absurd rfl hp

/-- Whatever the environment answers, a failing SPI.OPEN fails at the open, its one call, or ends with the close
(42_spi_master.md R145). -/
theorem spiOpenBody_endsClosing (path : BusPath) (hz : U32) (mode : U8) (noCs : Bool) (s : State) :
    (spiOpenBody path hz mode noCs s).Holds
      (fun p t => t.calls = s.calls ++ [.spiOpen path] ∨
        ∃ u, u.calls = s.calls ++ [.spiOpen path] ∧ EndsClosing u p t) (fun _ _ => False) := by
  have opened : (envSpiOpen s path).2.calls = s.calls ++ [.spiOpen path] := s.ask_calls _
  unfold spiOpenBody
  split
  · trivial
  · generalize envSpiOpen s path = r at *
    obtain ⟨a, u⟩ := r
    cases a with
    | fail c => exact .inl opened
    | ok =>
      have step := spiModeStep_unclosed mode noCs u
      refine Ran.Holds.mono (P := EndsClosing u) ?_ (fun _ _ h => .inr ⟨u, opened, h⟩) (fun _ _ h => h)
      simp only
      generalize spiModeStep mode noCs u = r at *
      obtain ⟨a, eff, v⟩ := r
      cases a with
      | rejected => exact spiAbandon_endsClosing step .rejected
      | fail c => exact spiAbandon_endsClosing step c
      | ok => exact spiConfigure_endsClosing step path hz mode eff

/-- Settles O37: a refused command gives no response, and a failing one is an end of the body. -/
theorem failingSpiOpenClosesTheHandle : Obligations.FailingSpiOpenClosesTheHandle := by
  intro path hz mode noCs s t r closed h hout hr
  have holds : (commandBody (.spiOpen path hz mode noCs) s).Holds _ _ :=
    .hostOnly fun _ => (spiOpenBody_holds path hz mode noCs s).and (spiOpenBody_endsClosing path hz mode noCs s)
  rcases finish_of_holds (s := s) holds with ⟨p, u, e, opened, calls⟩ | e | ⟨w, u, e, stuck, _⟩
  · rw [exec_next h, e] at hout ⊢
    cases hout
    have spi : u.spi = s.spi := opened.fail hr
    refine ⟨spi, (congrArg SpiState.isOpen spi).trans closed, opened.code.resolve_left hr, calls.imp id ?_⟩
    rintro ⟨v, hv, ends⟩
    obtain ⟨x, ⟨cs, hcs, no⟩, last⟩ := ends hr
    exact ⟨cs, by rw [State.complete_calls, last, hcs, hv], no⟩
  · rw [exec_next h, e] at hout
    cases hout
  · exact stuck.elim

end Sys2Proof.Machine
end

section
/-! SUPPORT. The data of the acquisition controller: the defaults of the configuration (43_acquisition.md R161), the
sample decode as a sign extension (R173, R174), and the bytes of a record (R184). -/

namespace Sys2Proof.Machine

/-! ### The defaults -/

/-- Settles O43: an absent path and an empty one are the two that are replaced. -/
theorem defaultsAreThreeSubstitutions : Obligations.DefaultsAreThreeSubstitutions := by
  intro c
  refine ⟨?_, rfl, rfl, rfl, rfl, rfl, rfl, rfl, rfl⟩
  simp only [applyDefaults]
  cases c.busPath with
  | none => rfl
  | some path =>
    by_cases empty : path = ""
    · simp [defaultedPath, empty]
    · simp [defaultedPath, empty]

/-! ### The sample decode -/

/-- The bits of `SIGN_FILL` are those above the sample (43_acquisition.md R173). -/
theorem signFill_getLsbD : ∀ i < 32, (0xFF000000#32).getLsbD i = decide (24 ≤ i) := by decide

/-- ORing in `SIGN_FILL` exactly if the top bit is set extends the sign. -/
theorem orSignFill_eq_signExtend (x : BitVec 24) :
    (if x.getLsbD 23 then x.setWidth 32 ||| 0xFF000000#32 else x.setWidth 32) = x.signExtend 32 := by
  apply BitVec.eq_of_getLsbD_eq
  intro i hi
  have msb : x.msb = x.getLsbD 23 := rfl
  rw [BitVec.getLsbD_signExtend, msb]
  have fill := signFill_getLsbD i hi
  by_cases low : i < 24
  · cases x.getLsbD 23 <;>
      simp only [if_true, if_false, Bool.false_eq_true, BitVec.getLsbD_or, BitVec.getLsbD_setWidth, fill] <;>
      simp [hi, low]
  · cases x.getLsbD 23 <;>
      simp only [if_true, if_false, Bool.false_eq_true, BitVec.getLsbD_or, BitVec.getLsbD_setWidth, fill] <;>
      simp [hi, low, Nat.le_of_not_lt low]

/-- The field of a sample as a number, its first byte the most significant (20_memory.md R62). -/
theorem bigEndian_toNat (b0 b1 b2 : Byte) :
    (b0 ++ b1 ++ b2 : BitVec 24).toNat = b0.toNat * 65536 + b1.toNat * 256 + b2.toNat := by
  rw [BitVec.toNat_append, BitVec.toNat_append, ← Nat.shiftLeft_add_eq_or_of_lt b1.isLt,
    ← Nat.shiftLeft_add_eq_or_of_lt b2.isLt, Nat.shiftLeft_eq, Nat.shiftLeft_eq]
  omega

/-- The signed value of a sample agrees with its pattern modulo 2^24. -/
theorem toInt_emod_sampleWidth (x : BitVec 24) : x.toInt % 2 ^ 24 = x.toNat := by
  have reduced : x.toInt % ((2 ^ 24 : Nat) : Int) = (x.toNat : Int) % ((2 ^ 24 : Nat) : Int) := by
    rw [BitVec.toInt_eq_toNat_bmod, Int.bmod_emod]
  have small := x.isLt
  omega

/-- Settles O59: the decode is the sign extension, whose value is that of the 24-bit field. -/
theorem decodeIsSignExtension : Obligations.DecodeIsSignExtension := by
  refine ⟨fun b0 b1 b2 => ?_, fun rx c h => Vector.getElem_ofFn h⟩
  have extended : decode24 b0 b1 b2 = (b0 ++ b1 ++ b2 : BitVec 24).signExtend 32 := by
    rw [decode24_eq, orSignFill_eq_signExtend]
  have value : (decode24 b0 b1 b2).toInt = (b0 ++ b1 ++ b2 : BitVec 24).toInt := by
    rw [extended, BitVec.toInt_signExtend_of_le (by decide)]
  refine ⟨extended, ?_, ?_, ?_⟩
  · rw [value]
    exact BitVec.le_toInt _
  · rw [value]
    exact BitVec.toInt_lt
  · rw [value, toInt_emod_sampleWidth, bigEndian_toNat]

/-! ### The record -/

theorem littleEndian_length {w : Nat} (x : BitVec w) (n : Nat) : (littleEndian x n).length = n := by
  simp [littleEndian]

theorem littleEndian_getElem? {w : Nat} (x : BitVec w) {n i : Nat} (h : i < n) :
    (littleEndian x n)[i]? = some (x.extractLsb' (8 * i) 8) := by
  simp [littleEndian, h]

/-- Byte `i` of word `c` among words laid out one after the other, `n` bytes each. -/
theorem flatMap_littleEndian_getElem? {w n : Nat} (xs : List (BitVec w)) {c i : Nat} (hc : c < xs.length)
    (hi : i < n) :
    (xs.flatMap fun x => littleEndian x n)[n * c + i]? = some (xs[c].extractLsb' (8 * i) 8) := by
  induction xs generalizing c with
  | nil => simp at hc
  | cons x xs ih =>
    rw [List.flatMap_cons]
    cases c with
    | zero =>
      rw [Nat.mul_zero, Nat.zero_add, List.getElem?_append_left (by rwa [littleEndian_length])]
      exact littleEndian_getElem? x hi
    | succ c =>
      rw [List.getElem?_append_right (by rw [littleEndian_length, Nat.mul_succ]; omega), littleEndian_length,
        show n * (c + 1) + i - n = n * c + i by rw [Nat.mul_succ]; omega]
      exact ih (Nat.lt_of_succ_lt_succ hc)

/-- The bytes of a record: the counter, the time, the channels (43_acquisition.md R184). -/
theorem Frame.record_getElem? (f : Frame) (j : Nat) :
    f.record[j]? = (littleEndian f.seq 8 ++ (littleEndian f.ts 8 ++
      f.ch.toList.flatMap fun c => littleEndian c 4))[j]? := by
  simp [Frame.record]

/-- Settles O60: each field's bytes stand after the bytes of the fields before it. -/
theorem recordLayout : Obligations.RecordLayout := by
  intro f
  refine ⟨Vector.length_toList, fun i hi => ?_, fun i hi => ?_, fun c hc i hi => ?_⟩
  · rw [f.record_getElem?, List.getElem?_append_left (by rwa [littleEndian_length]), littleEndian_getElem? _ hi]
  · rw [f.record_getElem?, List.getElem?_append_right (by simp [littleEndian_length]), littleEndian_length,
      Nat.add_sub_cancel_left, List.getElem?_append_left (by rwa [littleEndian_length]), littleEndian_getElem? _ hi]
  · have place : 16 + 4 * c + i - 8 - 8 = 4 * c + i := by omega
    rw [f.record_getElem?, List.getElem?_append_right (by rw [littleEndian_length]; omega), littleEndian_length,
      List.getElem?_append_right (by rw [littleEndian_length]; omega), littleEndian_length, place,
      flatMap_littleEndian_getElem? _ (by rwa [Vector.length_toList]) hi]
    rfl

end Sys2Proof.Machine
end

section
/-! SUPPORT. The controller's commands that end before any resource step, and ACQ.CLOSE: the checks in their order
(43_acquisition.md R160 to R165, R170, R177), ACQ.STOP (R178), and the calls and the idempotence of the close
(R179, R180). -/

namespace Sys2Proof.Machine

/-! ### The checks of ACQ.OPEN -/

/-- A state in which nothing is in use holds nothing that host commands left. -/
theorem State.Unused.leftovers {s : State} (h : s.Unused) : s.leftovers = false := by
  simp [State.leftovers, h.spi, h.drdy, h.sync]

theorem State.leftovers_of_used {s : State} (closed : s.isOpen = false) (h : ¬ s.Unused) : s.leftovers = true := by
  by_contra hn
  simp only [State.leftovers, Bool.or_eq_true, not_or, Bool.not_eq_true, Option.isSome_eq_false_iff,
    Option.isNone_iff_eq_none] at hn
  obtain ⟨⟨spi, drdy⟩, sync⟩ := hn
  exact h ⟨closed, spi, drdy, sync⟩

theorem acqOpenBody_of_open {s : State} (h : s.isOpen = true) (c : DeviceConfig) :
    acqOpenBody (some c) s = .error .alreadyOpen s := if_pos h

theorem acqOpenBody_of_used {s : State} (closed : s.isOpen = false) (h : ¬ s.Unused) (c : DeviceConfig) :
    acqOpenBody (some c) s = .refused := by
  simp only [acqOpenBody, closed, State.leftovers_of_used closed h, Bool.false_eq_true, if_false, if_true]

section
variable {s : State} (h : s.Unused) (c : DeviceConfig)
include h

theorem acqOpenBody_of_missing (hl : checkLines (applyDefaults c) = .missing) :
    acqOpenBody (some c) s = .error .invalidArgument s := by
  simp only [acqOpenBody, h.isOpen, h.leftovers, hl, Bool.false_eq_true, if_false]

theorem acqOpenBody_of_clash (hl : checkLines (applyDefaults c) = .clash) : acqOpenBody (some c) s = .refused := by
  simp only [acqOpenBody, h.isOpen, h.leftovers, hl, Bool.false_eq_true, if_false]

/-- Past its checks ACQ.OPEN runs the resource steps, tears down after a failure, and commits (43_acquisition.md R160,
R163). -/
theorem acqOpenBody_of_lines {d : LineId} {m : Option LineId} (hl : checkLines (applyDefaults c) = .lines d m) :
    acqOpenBody (some c) s = ((acquireAll (applyDefaults c) d m s).onError acqCloseBody).andThen
      fun t => .ok (commitOpen (applyDefaults c) t) := by
  simp only [acqOpenBody, h.isOpen, h.leftovers, hl, Bool.false_eq_true, if_false]

end

/-! ### What `CHECK_LINES` finds (43_acquisition.md R162) -/

section
variable {c : DeviceConfig}

theorem checkLines_of_no_drdy (hd : c.drdyLine = none) : checkLines (applyDefaults c) = .missing := by
  simp [checkLines, applyDefaults, hd]

variable {d : LineId} (hd : c.drdyLine = some d)
include hd

theorem checkLines_of_no_sync (he : c.syncEnable = true) (hs : c.syncLine = none) :
    checkLines (applyDefaults c) = .missing := by
  simp [checkLines, applyDefaults, hd, he, hs]

theorem checkLines_of_one_line (he : c.syncEnable = true) (hs : c.syncLine = some d) :
    checkLines (applyDefaults c) = .clash := by
  simp [checkLines, applyDefaults, hd, he, hs]

theorem checkLines_of_disabled (he : c.syncEnable = false) : checkLines (applyDefaults c) = .lines d none := by
  simp [checkLines, applyDefaults, hd, he]

theorem checkLines_of_enabled {m : LineId} (he : c.syncEnable = true) (hs : c.syncLine = some m) (hne : m ≠ d) :
    checkLines (applyDefaults c) = .lines d (some m) := by
  simp [checkLines, applyDefaults, hd, he, hs, hne]

end

/-- Settles O44: each way `CHECK_LINES` stops the command stops it in the state it began in. -/
theorem linesAreCheckedFirst : Obligations.LinesAreCheckedFirst := by
  intro c s unused
  simp only [exec_eq_finish, commandBody]
  refine ⟨fun hd => ?_, fun d hd he hs => ?_, fun d hd he hs => ?_⟩
  · rw [acqOpenBody_of_missing unused c (checkLines_of_no_drdy hd), finish_error]
  · rw [acqOpenBody_of_missing unused c (checkLines_of_no_sync hd he hs), finish_error]
  · rw [acqOpenBody_of_clash unused c (checkLines_of_one_line hd he hs), finish]

/-! ### The order of the checks -/

theorem acqOpenBody_of_absent (s : State) : acqOpenBody none s = .error .invalidArgument s := rfl
theorem acqReadBody_of_absent (s : State) : acqReadBody false s = .error .invalidArgument s := rfl
theorem acqRawBody_of_absent (s : State) : acqRawBody false s = .error .invalidArgument s := rfl

/-- Settles O45: the argument is looked at before the state, and the state before anything is called. -/
theorem argumentIsCheckedBeforeState : Obligations.ArgumentIsCheckedBeforeState := by
  intro s c
  simp only [exec_eq_finish, commandBody]
  refine ⟨?_, ?_, ?_, fun opened => ?_, fun stopped => ?_, fun closed used => ?_⟩
  · rw [acqOpenBody_of_absent, finish_error]
  · rw [acqReadBody_of_absent, finish_error]
  · rw [acqRawBody_of_absent, finish_error]
  · rw [acqOpenBody_of_open opened, finish_error]
  · rw [acqReadBody_of_not_started stopped, finish_error]
  · rw [acqOpenBody_of_used closed used, finish]

/-! ### ACQ.START without the pulse, ACQ.STOP -/

theorem acqStartBody_of_closed {s : State} (h : s.isOpen = false) : acqStartBody s = .error .notPermitted s := if_pos h

theorem acqStartBody_of_started {s : State} (h : s.isOpen = true) (hs : s.started = true) :
    acqStartBody s = .ok s := by
  simp only [acqStartBody, h, hs, Bool.true_eq_false, if_false, if_true]

theorem acqStartBody_of_disabled {s : State} (h : s.isOpen = true) (hs : s.started = false)
    (he : s.cfg.syncEnable = false) : acqStartBody s = .ok { s with started := true } := by
  simp only [acqStartBody, h, hs, he, Bool.true_eq_false, Bool.false_eq_true, if_false, if_true]

/-- With sync enabled ACQ.START pulses and settles with `started` set, and reverts after a failure
(43_acquisition.md R166 to R169). -/
theorem acqStartBody_of_enabled {s : State} (h : s.isOpen = true) (hs : s.started = false)
    (he : s.cfg.syncEnable = true) :
    acqStartBody s =
      ((syncPulse { s with started := true }).andThen (settleReads s.cfg.settleFrames.toNat)).onError revertStart := by
  simp only [acqStartBody, h, hs, he, Bool.true_eq_false, Bool.false_eq_true, if_false]

/-- Settles O48: the three ways of ACQ.START that make no call. -/
theorem startWithoutSync : Obligations.StartWithoutSync := by
  intro s
  simp only [exec_eq_finish, commandBody]
  refine ⟨fun closed => ?_, fun opened started => ?_, fun opened stopped disabled => ?_⟩
  · rw [acqStartBody_of_closed closed, finish_error]
  · rw [acqStartBody_of_started opened started, finish_ok]
  · rw [acqStartBody_of_disabled opened stopped disabled, finish_ok]

/-- Settles O56: the body is the one assignment. -/
theorem stopKeepsTheResources : Obligations.StopKeepsTheResources := by
  intro s
  rw [exec_eq_finish, commandBody, acqStopBody, finish_ok]

/-! ### ACQ.CLOSE -/

theorem drawLevel_calls (k : Slot) (s : State) : (drawLevel k s).calls = s.calls := by
  rw [drawLevel, State.setSlot_calls, State.drawBit_calls]

theorem forgetLevel_calls (k : Slot) (before s : State) : (forgetLevel k before s).calls = s.calls := by
  unfold forgetLevel
  split
  · exact drawLevel_calls k s
  · rfl

theorem forgetConfig_calls (before s : State) : (forgetConfig before s).calls = s.calls := by
  unfold forgetConfig
  split <;> rfl

/-- The calls of a release see of the slot only what no call changes. -/
theorem LineSlot.SameButLatch.releaseCallList {x y : LineSlot} (h : x.SameButLatch y) :
    releaseCallList y = releaseCallList x := by
  simp only [Sys2Proof.Machine.releaseCallList, h.line, h.handle, h.exportedByUs]

/-- The calls of ACQ.CLOSE are those of the three closes, in their order (43_acquisition.md R179). -/
theorem acqCloseBody_calls (s : State) :
    (acqCloseBody s).calls = s.calls ++ (if s.spi.isOpen then [.spiClose] else []) ++ releaseCallList s.drdy ++
      releaseCallList s.sync := by
  obtain ⟨spi, _⟩ := spiCloseBody_onSpi s
  obtain ⟨drdy, _⟩ := lineReleaseBody_onSlot .drdy (spiCloseBody s)
  have hd : releaseCallList ((spiCloseBody s).slot .drdy) = releaseCallList s.drdy :=
    LineSlot.SameButLatch.releaseCallList spi.drdy
  have hs : releaseCallList ((lineReleaseBody .drdy (spiCloseBody s)).slot .sync) = releaseCallList s.sync :=
    LineSlot.SameButLatch.releaseCallList (LineSlot.SameButLatch.trans spi.sync drdy.other)
  simp only [acqCloseBody, forgetConfig_calls, forgetLevel_calls, State.zeroRaw_eq, lineReleaseBody_calls, hd, hs,
    spiCloseBody_calls]

theorem exec_acqClose (s : State) : exec .acqClose s = .next ((acqCloseBody s).complete ⟨.ok, .nothing⟩) := rfl

/-- Settles O57: what the close leaves is said of its body, whatever the environment answers. -/
theorem closeRestoresTheResetState : Obligations.CloseRestoresTheResetState := by
  intro s
  have closed := acqCloseBody_closedFrom s
  exact ⟨_, exec_acqClose s, .of_history closed.history _, State.driverState_of_closed closed.isOpen, closed.isOpen,
    closed.started, closed.seq, closed.raw, closed.spi, closed.drdy, closed.sync, closed.diag, closed.history.refused,
    closed.history.pending, acqCloseBody_calls s⟩

/-- A close of what is closed, zeroed and empty already changes nothing (43_acquisition.md R180). -/
theorem exec_acqClose_of_closed {s : State} (isOpen : s.isOpen = false) (started : s.started = false)
    (seq : s.seq = 0) (raw : s.raw = FrameBuf.zero) (spi : s.spi.isOpen = false) (drdy : s.drdy.Empty)
    (sync : s.sync.Empty) : exec .acqClose s = .next (s.complete ⟨.ok, .nothing⟩) := by
  have same : ({ s with raw := FrameBuf.zero, seq := 0, started := false } : State) = s := by
    rw [← raw, ← seq, ← started]
  rw [exec_acqClose, acqCloseBody_of_closed s isOpen spi drdy sync, same]

/-- Settles O58: a state after a close, and an unused state that meets the invariant, are closed, zeroed and empty. -/
theorem closeIsIdempotent : Obligations.CloseIsIdempotent := by
  refine ⟨fun s t h => ?_, fun s inv unused => ?_⟩
  · have closed := acqCloseBody_closedFrom s
    rw [exec_acqClose] at h
    cases h
    exact exec_acqClose_of_closed closed.isOpen closed.started closed.seq closed.raw
      (congrArg SpiState.isOpen closed.spi) closed.drdy closed.sync
  · obtain ⟨seq, raw⟩ := inv.closed unused.isOpen
    have stopped : s.started = false := by
      cases started : s.started with
      | false => rfl
      | true => exact unused.isOpen.symm.trans (inv.startedOpen started) |>.symm
    exact exec_acqClose_of_closed unused.isOpen stopped seq raw unused.spi (inv.drdy.empty unused.drdy)
      (inv.sync.empty unused.sync)

end Sys2Proof.Machine
end

section
/-! SUPPORT. The frame read that the environment delivers, from its first call and from its wait on
(43_acquisition.md R171, R175): what it returns, what it commits and warns of, and the calls it makes. -/

namespace Sys2Proof.Machine

/-! ### The wait leaves the clock's bound -/

theorem clearLatch_clock (k : Slot) (l : LineId) (s : State) : (clearLatch k l s).2.env.clock = s.env.clock := by
  rcases (clearLatch_cases k l s).2.2 with ⟨_, e⟩ | ⟨_, e⟩ <;> rw [e]
  · exact s.ask_clock _
  · rw [State.setSlot_env]
    exact s.ask_clock _

theorem waitPoll_clock (k : Slot) (l : LineId) (s : State) :
    (waitPoll k l s).Holds (fun _ t => t.env.clock = s.env.clock) (fun _ _ => True) := by
  have turn : (envWaitTurn s k).2.env.clock = s.env.clock := s.nextTurn_clock
  unfold waitPoll
  generalize envWaitTurn s k = r at *
  obtain ⟨a, u⟩ := r
  cases a with
  | edge =>
    have clear := (clearLatch_clock k l u).trans turn
    simp only
    generalize clearLatch k l u = q at *
    obtain ⟨b, v⟩ := q
    cases b <;> exact clear
  | timeout => exact turn
  | fail c => exact turn
  | silent => trivial

/-- A wait that ends in OK samples nothing, so the clock's bound is as it was. -/
theorem waitPoll_ok_clock {k : Slot} {l : LineId} {s t : State} (e : waitPoll k l s = .ok t) :
    t.env.clock = s.env.clock := by
  have holds := waitPoll_clock k l s
  rwa [e] at holds

theorem lineWaitBody_clock (k : Slot) (ms : U32) (s : State) :
    (lineWaitBody k ms s).Holds (fun _ t => t.env.clock = s.env.clock) (fun _ _ => True) := by
  unfold lineWaitBody
  split
  · rfl
  split
  · split
    · trivial
    · rename_i l _
      have clear := clearLatch_clock k l s
      generalize clearLatch k l s = q at *
      obtain ⟨b, v⟩ := q
      cases b with
      | fail c => exact clear
      | ok => exact (waitPoll_clock k l _).mono (fun _ _ h => h.trans clear) (fun _ _ _ => trivial)
  · trivial

theorem spiExchange_clock (s : State) : (spiExchange s).2.env.clock = s.env.clock := by
  unfold spiExchange
  split
  · rfl
  · have asked := s.ask_clock (.spiTransfer txBuffer)
    rw [← envSpiTransfer_state] at asked
    generalize envSpiTransfer s txBuffer = q at *
    obtain ⟨a, u⟩ := q
    cases a <;> exact asked

/-! ### Up to the edge -/

theorem State.ReadyToRead.waitsOn {s : State} {d : LineId} (h : s.ReadyToRead d) : s.WaitsOn .drdy d :=
  ⟨h.line, h.handle, h.falling⟩

section
variable {s : State} {d : LineId} {r : ReadTurns} {rest : List Turn} (w : Inflight) (hr : s.ReadyToRead d)
  (hd : r.Delivers d)
include hr hd

/-- The wait of a delivered read ends at its edge, and the read goes on after it (43_acquisition.md R171). -/
theorem readResume_edge (h : s.env.script = r.wait :: r.again :: rest) :
    ∃ u, readResume w s = readAfterEdge u ∧ Turned s [.readValue d] rest u ∧ u.env.clock = s.env.clock := by
  obtain ⟨u, e, hu, _⟩ := waitPoll_completes h hr.waitsOn hr.undriven (.inl hd.falls) hd.wait hd.again
  exact ⟨u, by rw [readResume_of_line w hr.line, e]; rfl, hu, waitPoll_ok_clock e⟩

theorem readBody_edge (h : s.env.script = r.clear :: r.wait :: r.again :: rest) :
    ∃ u, readBody w s = readAfterEdge u ∧
      Turned s [.readValue d, .waitEdge .drdy s.cfg.timeoutMs, .readValue d] rest u ∧
      u.env.clock = s.env.clock := by
  obtain ⟨u, e, hu, _⟩ := lineWaitBody_cleared h hr.waitsOn hd.clear s.cfg.timeoutMs
  have hru := hr.byEnv hu.byEnv
  obtain ⟨v, ev, hv, _⟩ := waitPoll_completes hu.script hru.waitsOn hru.undriven (.inl hd.falls) hd.wait hd.again
  have clock := lineWaitBody_clock .drdy s.cfg.timeoutMs s
  rw [e, ev] at clock
  exact ⟨v, by rw [readBody, e, ev]; rfl, hu.trans hv, clock⟩

end

/-! ### After the edge -/

/-- The first clock sample of a read from `s` (43_acquisition.md R171, 10_state.md R34). -/
def ReadTurns.firstSample (r : ReadTurns) (s : State) : U64 := clockSample s.env.clock r.before.time

/-- The second one, at least the first unless that was invalid. -/
def ReadTurns.secondSample (r : ReadTurns) (s : State) : U64 :=
  clockSample (if r.firstSample s = 0 then s.env.clock else r.firstSample s) r.after.time

/-- The Frame of a delivered read from `s` (43_acquisition.md R171). -/
def ReadTurns.frameFrom (r : ReadTurns) (s : State) : Frame :=
  { seq := s.seq, ts := r.firstSample s, ch := decodeFrame r.exchange.rx }

/-- The diagnostics after a delivered read from `s` (43_acquisition.md R172). -/
def ReadTurns.diagFrom (r : ReadTurns) (s : State) : List DiagEvent :=
  if overran (r.firstSample s) (r.secondSample s)
    then s.diag ++ [.overrunWarning (r.secondSample s - r.firstSample s)] else s.diag

/-- What a delivered read depends on of the state is as it was. -/
theorem ReadTurns.from_congr (r : ReadTurns) {s u : State} (clock : u.env.clock = s.env.clock) (seq : u.seq = s.seq)
    (diag : u.diag = s.diag) : r.frameFrom u = r.frameFrom s ∧ r.diagFrom u = r.diagFrom s := by
  have first : r.firstSample u = r.firstSample s := by rw [firstSample, clock, ← firstSample]
  have second : r.secondSample u = r.secondSample s := by rw [secondSample, first, clock, ← secondSample]
  exact ⟨by rw [frameFrom, seq, first, ← frameFrom], by rw [diagFrom, first, second, diag, ← diagFrom]⟩

theorem warnOverrun_calls (t0 t1 : U64) (s : State) : (warnOverrun t0 t1 s).calls = s.calls := by
  unfold warnOverrun
  split <;> rfl

/-- With the exchange granted the read samples, exchanges, samples, and commits (43_acquisition.md R171, R175). -/
theorem readAfterEdge_granted {s : State} {r : ReadTurns} {rest : List Turn}
    (h : s.env.script = r.before :: r.exchange :: r.after :: rest) (hx : r.exchange.verdict = .ok)
    (hs : s.spi.isOpen = true) :
    ∃ t, readAfterEdge s = .okWith (.frame (r.frameFrom s)) t ∧ t.seq = s.seq + 1 ∧ t.raw = r.exchange.rx ∧
      t.diag = r.diagFrom s ∧ t.env.script = rest ∧
      t.calls = s.calls ++ [.clock, .spiTransfer FrameBuf.zero, .clock] := by
  obtain ⟨u, eu, hu, _, clock⟩ := envClock_turned h
  obtain ⟨v, ev, hv⟩ := spiExchange_granted hu.script hx ((congrArg SpiState.isOpen hu.byEnv.block.spi).trans hs)
  have bound : v.env.clock = u.env.clock := by
    have kept := spiExchange_clock u
    rwa [ev] at kept
  obtain ⟨w, ew, hw, _⟩ := envClock_turned hv.script
  rw [bound, clock] at ew
  have all := (hu.trans hv).trans hw
  obtain ⟨_, seq, _, env, diag⟩ := warnOverrun_frame (r.firstSample s) (r.secondSample s) w
  have counter := seq.trans all.byEnv.block.controller.seq
  refine ⟨{ warnOverrun (r.firstSample s) (r.secondSample s) w with
      raw := r.exchange.rx, seq := (warnOverrun (r.firstSample s) (r.secondSample s) w).seq + 1 }, ?_,
    by simp only [counter], rfl, ?_, ?_, ?_⟩
  · simp only [readAfterEdge, eu, ev, ew, commitFrame, ReadTurns.frameFrom, ReadTurns.firstSample, ← counter]
    rfl
  · simp only [diag, ReadTurns.diagFrom, all.byEnv.block.controller.diag]
  · simp only [env, all.script]
  · simp only [warnOverrun_calls, all.calls, List.cons_append, List.nil_append]

/-! ### Reads that were delivered -/

/-- `t` comes from `s` by the frame reads `reads`, all delivered, which made the calls `cs` and left `rest` of the
script: each advanced the counter, and the last one's bytes are the raw shadow (43_acquisition.md R175, R182). -/
structure ReadsDone (s : State) (reads : List ReadTurns) (cs : List Call) (rest : List Turn) (t : State) : Prop where
  frame : ReadFrame s t
  driven : KeepsDriven s t
  seq : t.seq = s.seq + BitVec.ofNat 64 reads.length
  raw : t.raw = shadowAfter s reads
  script : t.env.script = rest
  calls : t.calls = s.calls ++ cs

/-- A run that returns a Frame and makes of the state what a delivered read does. -/
theorem ReadsDone.of_read {s u : State} {r : ReadTurns} {run : Ran} {cs cs' : List Call} {rest rest' : List Turn}
    (hu : Turned s cs rest' u) (clock : u.env.clock = s.env.clock) (e : run = readAfterEdge u)
    (frame : run.Holds (fun p t => ReadFrame s t ∧ ReadEnds s p t) (fun _ _ => True))
    (driven : run.Holds (fun _ t => KeepsDriven s t) (fun _ _ => True))
    (h : u.env.script = r.before :: r.exchange :: r.after :: rest) (hx : r.exchange.verdict = .ok)
    (hs : s.spi.isOpen = true) (hcs : cs' = cs ++ [.clock, .spiTransfer FrameBuf.zero, .clock]) :
    ∃ t, run = .okWith (.frame (r.frameFrom s)) t ∧ ReadsDone s [r] cs' rest t ∧ t.diag = r.diagFrom s := by
  have c := hu.byEnv.block.controller
  obtain ⟨t, et, seq, raw, diag, script, calls⟩ :=
    readAfterEdge_granted h hx ((congrArg SpiState.isOpen hu.byEnv.block.spi).trans hs)
  obtain ⟨sameFrame, sameDiag⟩ := r.from_congr clock c.seq c.diag
  rw [e, et] at frame driven
  refine ⟨t, by rw [e, et, sameFrame], ⟨frame.1, driven, ?_, raw, script, ?_⟩, diag.trans sameDiag⟩
  · rw [seq, c.seq]
    rfl
  · rw [calls, hu.calls, hcs, List.append_assoc]

section
variable {s : State} {d : LineId} {r : ReadTurns} {rest : List Turn} (w : Inflight) (hr : s.ReadyToRead d)
  (hd : r.Delivers d)
include hr hd

/-- A delivered read, from its first call (43_acquisition.md R171, R175). -/
theorem readBody_delivered (h : s.env.script = r.list ++ rest) :
    ∃ t, readBody w s = .okWith (.frame (r.frameFrom s)) t ∧ ReadsDone s [r] (readCalls d s.cfg.timeoutMs) rest t ∧
      t.diag = r.diagFrom s := by
  obtain ⟨u, e, hu, clock⟩ := readBody_edge (rest := r.before :: r.exchange :: r.after :: rest) w hr hd h
  exact ReadsDone.of_read hu clock e ((readBody_holds w s).mono (fun _ _ h => h) (fun _ _ _ => trivial))
    ((readBody_keepsDriven w s).mono (fun _ _ h => h) (fun _ _ _ => trivial)) hu.script hd.exchange hr.spi rfl

/-- A delivered read, taken up again in its wait: the first clear and the wait are not called again (log 36). -/
theorem readResume_delivered (ms : U32)
    (h : s.env.script = r.wait :: r.again :: r.before :: r.exchange :: r.after :: rest) :
    ∃ t, readResume w s = .okWith (.frame (r.frameFrom s)) t ∧ ReadsDone s [r] ((readCalls d ms).drop 2) rest t ∧
      t.diag = r.diagFrom s := by
  obtain ⟨u, e, hu, clock⟩ := readResume_edge w hr hd h
  exact ReadsDone.of_read hu clock e ((readResume_holds w s).mono (fun _ _ h => h) (fun _ _ _ => trivial))
    ((readResume_keepsDriven w s).mono (fun _ _ h => h) (fun _ _ _ => trivial)) hu.script hd.exchange hr.spi rfl

end

/-! ### Reads that block -/

section
variable {s : State} {d : LineId} {b : Turn} {rest : List Turn} (w : Inflight) (hr : s.ReadyToRead d)
include hr

/-- A wait that is not answered, its latch clear, blocks the read (41_gpio_line.md R119, 00_scope.md R15). -/
theorem readResume_blocks (latch : s.drdy.latch = false) (quiet : .pinFall d ∉ b.events) (silent : b.verdict = .silent)
    (h : s.env.script = b :: rest) :
    ∃ t, readResume w s = .blocked w t ∧ Turned s [] rest t ∧ t.drdy.latch = false := by
  obtain ⟨t, e, ht, clear⟩ := envWaitTurn_quiet (k := .drdy) h hr.line latch quiet
  refine ⟨t, ?_, ht, clear⟩
  rw [readResume_of_line w hr.line, waitPoll, e, silent]
  rfl

/-- A read whose wait is not answered has made two calls (43_acquisition.md R171). -/
theorem readBody_blocks {a : Turn} (hu : UnansweredRead d a b) (h : s.env.script = a :: b :: rest) :
    ∃ t, readBody w s = .blocked w t ∧ Turned s ((readCalls d s.cfg.timeoutMs).take 2) rest t ∧
      t.drdy.latch = false := by
  obtain ⟨u, e, cleared, latch⟩ := readBody_cleared w hr h hu.clear
  obtain ⟨t, et, ht, latch⟩ := readResume_blocks w (hr.byEnv cleared.byEnv) latch hu.quiet hu.silent cleared.script
  exact ⟨t, e.trans et, cleared.trans ht, latch⟩

end

theorem Turned.blockedAs {s t : State} {cs : List Call} {rest : List Turn} (h : Turned s cs rest t) (w : Inflight) :
    BlockedAs w s { t with inflight := some w } := ⟨rfl, h.byEnv.cp, h.byEnv.out⟩

/-! ### The statements -/

/-- Settles O51: the read is delivered from its first call. -/
theorem readDeliversAFrame : Obligations.ReadDeliversAFrame := by
  intro d s r rest started hr hd h
  obtain ⟨t, e, done, _⟩ := readBody_delivered .acqRead hr hd h
  have f := done.frame
  rw [exec_eq_finish, commandBody, acqReadBody_of_started started, e, finish_okWith]
  exact ⟨_, rfl, .of_history f.history _, done.seq, done.raw, f.isOpen, f.started.trans started, f.cfg, f.spi,
    f.drdy.complete _, f.sync.complete _, f.history.refused, f.history.pending, done.script, done.calls⟩

/-- Settles O52: the wait is not answered, not answered again, or answered. -/
theorem blockedReadDeliversAFrame : Obligations.BlockedReadDeliversAFrame := by
  refine ⟨fun d s a b rest started hr hu h => ?_, fun d s b rest hw hr latch quiet silent h => ?_,
    fun d s r rest hw hr hd h => ?_⟩
  · obtain ⟨t, e, ht, latch⟩ := readBody_blocks .acqRead hr hu h
    rw [exec_eq_finish, commandBody, acqReadBody_of_started started, e, finish_blocked]
    exact ⟨_, rfl, ht.blockedAs _, ht.byEnv.block.blocked _, latch, ht.script, ht.calls⟩
  · obtain ⟨t, e, ht, latch⟩ := readResume_blocks .acqRead hr latch quiet silent h
    rw [step_of_inflight hw, resumeBody, e, finish_blocked]
    exact ⟨_, rfl, ht.blockedAs _, ht.byEnv.block.blocked _, latch, ht.script, by simpa using ht.calls⟩
  · obtain ⟨t, e, done, _⟩ := readResume_delivered .acqRead hr hd s.cfg.timeoutMs h
    have f := done.frame
    rw [step_of_inflight hw, resumeBody, e, finish_okWith]
    exact ⟨_, rfl, .of_history f.history _, done.seq, done.raw, f.isOpen, f.started, f.cfg, f.spi,
      f.drdy.complete _, f.sync.complete _, f.history.refused, f.history.pending, done.script, done.calls⟩

/-! ### The overrun warning -/

theorem clockSample_zero (least : U64) : clockSample least 0 = 0 := if_pos rfl

theorem clockSample_of_le {least time : U64} (h : least.toNat ≤ time.toNat) : clockSample least time = time := by
  by_cases zero : time = 0
  · rw [zero, clockSample_zero]
  · simp only [clockSample, zero, Nat.not_lt_of_le h, if_false]

/-- Between valid samples in order the condition is the bound of 5,000,000 ns alone (43_acquisition.md R172). -/
theorem overran_of_valid {t0 t1 : U64} (h0 : t0 ≠ 0) (h : t0.toNat ≤ t1.toNat) :
    overran t0 t1 = decide (5000000 < (t1 - t0).toNat) := by
  have h1 : t1 ≠ 0 := by
    rintro rfl
    exact h0 (BitVec.eq_of_toNat_eq (Nat.le_zero.1 h))
  have bound : params.overrunUs * 1000 = 5000000 := rfl
  simp only [overran, h0, h1, h, bound, ne_eq, not_false_eq_true, decide_true, Bool.true_and]

theorem overran_of_invalid {t0 t1 : U64} (h : t0 = 0 ∨ t1 = 0) : overran t0 t1 = false := by
  rcases h with rfl | rfl <;> simp [overran]

/-- Settles O53: the two samples are those the environment gave, where they are valid. -/
theorem overrunOnlyWarns : Obligations.OverrunOnlyWarns := by
  intro d s r rest started hr hd h
  obtain ⟨t, e, done, diag⟩ := readBody_delivered .acqRead hr hd h
  have ends : exec (.acqRead true) s = .next (t.complete ⟨.ok, .frame (r.frameFrom s)⟩) := by
    rw [exec_eq_finish, commandBody, acqReadBody_of_started started, e, finish_okWith]
  have completed := Completed.of_history done.frame.history ⟨.ok, .frame (r.frameFrom s)⟩
  refine ⟨fun valid bounded ordered => ?_, fun invalid => ?_⟩
  · have first : r.firstSample s = r.before.time := clockSample_of_le bounded
    have second : r.secondSample s = r.after.time := by
      rw [ReadTurns.secondSample, first, if_neg valid, clockSample_of_le ordered]
    refine ⟨_, _, ends, completed, first, ?_⟩
    rw [State.complete_diag, diag, ReadTurns.diagFrom, first, second, overran_of_valid valid ordered]
    simp only [decide_eq_true_eq]
  · have none : r.firstSample s = 0 ∨ r.secondSample s = 0 :=
      invalid.imp (fun h0 => by rw [ReadTurns.firstSample, h0, clockSample_zero])
        (fun h1 => by rw [ReadTurns.secondSample, h1, clockSample_zero])
    refine ⟨_, _, ends, completed, ?_, fun h0 => ?_⟩
    · rw [State.complete_diag, diag, ReadTurns.diagFrom, overran_of_invalid none]
      rfl
    · rw [ReadTurns.frameFrom, ReadTurns.firstSample, h0, clockSample_zero]

end Sys2Proof.Machine
end

section
/-! SUPPORT. ACQ.START when the script says how its calls are answered (43_acquisition.md R165 to R169): the pulse, then
the settle reads that deliver, then the end: all reads done, a read that blocks, or a read that fails. A start that was
blocked goes on in the same way from the wait of its read. -/

namespace Sys2Proof.Machine

/-! ### How a sequence goes on -/

theorem Ran.andThen_ok (s : State) (f : State → Ran) : (Ran.ok s).andThen f = f s := rfl
theorem Ran.andThen_okWith (o : Output) (s : State) (f : State → Ran) : (Ran.okWith o s).andThen f = f s := rfl
theorem Ran.andThen_blocked (w : Inflight) (s : State) (f : State → Ran) :
    (Ran.blocked w s).andThen f = .blocked w s := rfl
theorem Ran.onError_ok (s : State) (f : State → State) : (Ran.ok s).onError f = .ok s := rfl
theorem Ran.onError_blocked (w : Inflight) (s : State) (f : State → State) :
    (Ran.blocked w s).onError f = .blocked w s := rfl

theorem Ran.andThen_error {c : ResultCode} (hc : c ≠ .ok) (s : State) (f : State → Ran) :
    (Ran.error c s).andThen f = .error c s := by
  cases c with
  | ok => exact absurd rfl hc
  | _ => rfl

theorem Ran.onError_error {c : ResultCode} (hc : c ≠ .ok) (s : State) (f : State → State) :
    (Ran.error c s).onError f = .error c (f s) := by
  cases c with
  | ok => exact absurd rfl hc
  | _ => rfl

theorem FailingRead.code_ne_ok {l : LineId} {ts : List Turn} {c : ResultCode} (h : FailingRead l ts c) : c ≠ .ok := by
  cases h <;> exact nofun

theorem FailingFromWait.code_ne_ok {l : LineId} {ts : List Turn} {c : ResultCode} (h : FailingFromWait l ts c) :
    c ≠ .ok := by
  cases h <;> exact nofun

theorem FailingWrite.code_ne_ok {t : Turn} {c : ResultCode} (h : FailingWrite t c) : c ≠ .ok := by
  cases h <;> exact nofun

/-! ### What a start keeps -/

theorem StartFrame.drives {s t : State} (h : StartFrame s t) (l : LineId) : t.drives l = s.drives l := by
  have drdyLine : t.drdy.line = s.drdy.line := h.drdy.line
  have drdyDir : t.drdy.dir = s.drdy.dir := h.drdy.dir
  have syncLine : t.sync.line = s.sync.line := h.sync.line
  have syncDir : t.sync.dir = s.sync.dir := h.sync.dir
  simp only [State.drives, drdyLine, drdyDir, syncLine, syncDir]

theorem State.ReadyToRead.startFrame {s t : State} {d : LineId} (h : s.ReadyToRead d) (f : StartFrame s t) :
    t.ReadyToRead d :=
  ⟨f.drdy.line.trans h.line, fun e => h.handle (f.drdy.handle.symm.trans e),
    (LineSlot.SameButLatch.detectsFalling f.drdy).trans h.falling, (f.drives d).trans h.undriven,
    (congrArg SpiState.isOpen f.spi).trans h.spi⟩

/-- The flag `started`, which a start sets and a failing one clears, is no part of what it keeps. -/
theorem StartFrame.keeps {s t : State} {b : Bool} (f : StartFrame { s with started := b } t) : StartKeeps s t :=
  ⟨f.cfg, f.spi, f.drdy, f.sync, f.history.refused, f.history.pending⟩

theorem StartKeeps.complete {s t : State} (h : StartKeeps s t) (r : Response) : StartKeeps s (t.complete r) :=
  ⟨h.cfg, h.spi, h.drdy, h.sync, h.refused, h.pending⟩

theorem StartKeeps.blocked {s t : State} (h : StartKeeps s t) (w : Option Inflight) :
    StartKeeps s { t with inflight := w } :=
  ⟨h.cfg, h.spi, h.drdy, h.sync, h.refused, h.pending⟩

/-- A failing start clears `started` and keeps the rest (43_acquisition.md R169). -/
theorem StartFrame.reverted {s t : State} {b : Bool} (f : StartFrame { s with started := b } t)
    (isOpen : s.isOpen = true) (r : Response) : StartReverted s ((revertStart t).complete r) :=
  ⟨⟨f.cfg, f.spi, f.drdy, f.sync, f.history.refused, f.history.pending⟩,
    State.driverState_of_opened (f.isOpen.trans isOpen) rfl⟩

theorem StartFrame.completed {s t : State} {b : Bool} (f : StartFrame { s with started := b } t) (r : Response) :
    Completed s (t.complete r) r := .of_history f.history.of_setStarted r

theorem StartFrame.blockedAs {s t : State} {b : Bool} (f : StartFrame { s with started := b } t) (w : Inflight) :
    BlockedAs w s { t with inflight := some w } := ⟨rfl, f.history.cp, f.history.out⟩

/-! ### Delivered reads, one after the other -/

theorem shadowAfter_append {s t : State} {xs : List ReadTurns} (h : t.raw = shadowAfter s xs) (ys : List ReadTurns) :
    shadowAfter t ys = shadowAfter s (xs ++ ys) := by
  unfold shadowAfter
  rw [List.getLast?_append]
  cases ys.getLast? with
  | none => exact h
  | some y => rfl

theorem ReadsDone.nil {s : State} {rest : List Turn} (h : s.env.script = rest) : ReadsDone s [] [] rest s :=
  ⟨.refl s, .refl s, (BitVec.add_zero _).symm, rfl, h, (List.append_nil _).symm⟩

theorem ReadsDone.trans {s t u : State} {xs ys : List ReadTurns} {cs cs' : List Call} {r r' : List Turn}
    (h : ReadsDone s xs cs r t) (h' : ReadsDone t ys cs' r' u) : ReadsDone s (xs ++ ys) (cs ++ cs') r' u where
  frame := h.frame.trans h'.frame
  driven l hl := (h'.driven l ((h.frame.startFrame.drives l).trans hl)).trans (h.driven l hl)
  seq := by rw [List.length_append, BitVec.ofNat_add, ← BitVec.add_assoc, ← h.seq, h'.seq]
  raw := h'.raw.trans (shadowAfter_append h.raw ys)
  script := h'.script
  calls := by rw [h'.calls, h.calls, List.append_assoc]

/-- Calls after the reads that commit nothing: those of a read that blocks or fails. -/
theorem ReadsDone.turned {s t u : State} {xs : List ReadTurns} {cs cs' : List Call} {r r' : List Turn}
    (h : ReadsDone s xs cs r t) (hu : Turned t cs' r' u) (driven : KeepsDriven t u) :
    ReadsDone s xs (cs ++ cs') r' u := by
  have c := hu.byEnv.block.controller
  have uncommitted : ReadsDone t [] cs' r' u :=
    ⟨hu.byEnv.readFrame hu.keepsOwn, driven, c.seq.trans (BitVec.add_zero _).symm, c.raw, hu.script, hu.calls⟩
  simpa only [List.append_nil] using h.trans uncommitted

theorem settleReads_succ (n : Nat) (s : State) :
    settleReads (n + 1) s = (readBody (.acqStart n) s).andThen (settleReads n) := rfl

/-- The calls of `n` frame reads (43_acquisition.md R168, R171). -/
def settleCalls (n : Nat) (d : LineId) (ms : U32) : List Call := (List.replicate n (readCalls d ms)).flatten

theorem settleCalls_succ (n : Nat) (d : LineId) (ms : U32) :
    settleCalls (n + 1) d ms = readCalls d ms ++ settleCalls n d ms := rfl

/-- As many settle reads as deliver are done, and the others are left (43_acquisition.md R168). -/
theorem settleReads_delivered {d : LineId} {ms : U32} (n : Nat) {reads : List ReadTurns} {s : State} {rest : List Turn}
    (hr : s.ReadyToRead d) (hms : s.cfg.timeoutMs = ms) (hd : ∀ r ∈ reads, r.Delivers d)
    (h : s.env.script = reads.flatMap ReadTurns.list ++ rest) :
    ∃ t, settleReads (reads.length + n) s = settleReads n t ∧
      ReadsDone s reads (settleCalls reads.length d ms) rest t := by
  induction reads generalizing s with
  | nil => exact ⟨s, by rw [List.length_nil, Nat.zero_add], .nil h⟩
  | cons r reads ih =>
    rw [List.flatMap_cons, List.append_assoc] at h
    obtain ⟨t, e, done, _⟩ := readBody_delivered (.acqStart (reads.length + n)) hr (hd r (by simp)) h
    obtain ⟨u, eu, all⟩ := ih (hr.startFrame done.frame.startFrame)
      ((congrArg DeviceConfig.timeoutMs done.frame.cfg).trans hms) (fun x hx => hd x (List.mem_cons_of_mem r hx))
      done.script
    refine ⟨u, ?_, ?_⟩
    · rw [List.length_cons, Nat.add_right_comm, settleReads_succ, e, Ran.andThen_okWith, eu]
    · rw [List.length_cons, settleCalls_succ, ← hms]
      rw [← hms] at all
      exact done.trans all

section
variable {d : LineId} {ms : U32} {s : State} {rest : List Turn} (n : Nat) (hr : s.ReadyToRead d)
  (hms : s.cfg.timeoutMs = ms)
include hr hms

/-- A settle read that is not answered blocks the start, the others still due (90_conflicts.md C7). -/
theorem settleReads_blocks {a b : Turn} (hu : UnansweredRead d a b) (h : s.env.script = a :: b :: rest) :
    ∃ t, settleReads (n + 1) s = .blocked (.acqStart n) t ∧ Turned s ((readCalls d ms).take 2) rest t ∧
      KeepsDriven s t ∧ t.drdy.latch = false := by
  obtain ⟨t, e, ht, latch⟩ := readBody_blocks (.acqStart n) hr hu h
  have driven := readBody_keepsDriven (.acqStart n) s
  rw [e] at driven
  rw [settleReads_succ, e, Ran.andThen_blocked, ← hms]
  exact ⟨t, rfl, ht, driven, latch⟩

/-- A settle read that fails ends them with its code (60_exceptions.md R210). -/
theorem settleReads_fails {ts : List Turn} {c : ResultCode} (hf : FailingRead d ts c)
    (h : s.env.script = ts ++ rest) :
    ∃ t, settleReads (n + 1) s = .error c t ∧ Turned s ((readCalls d ms).take ts.length) rest t ∧
      KeepsDriven s t := by
  obtain ⟨t, e, ht⟩ := readBody_fails (.acqStart n) hr hf h
  have driven := readBody_keepsDriven (.acqStart n) s
  rw [e] at driven
  rw [settleReads_succ, e, Ran.andThen_error hf.code_ne_ok, ← hms]
  exact ⟨t, rfl, ht, driven⟩

end

/-! ### The pulse -/

theorem lineSetBody_startFrame (v : Level) (s : State) :
    (lineSetBody .sync v s).Holds (fun _ t => StartFrame s t) (fun _ _ => False) :=
  (lineSetBody_holds .sync v s).mono (fun _ _ ⟨on, owns, same, _⟩ => on.startFrame owns same) (fun _ _ h => h)

section
variable {s : State} {m : LineId} {t1 t2 : Turn} {rest : List Turn} (hl : s.sync.line = some m)
  (hh : s.sync.handle = some .output)
include hl hh

/-- The first write is granted: the pulse goes on to its second (43_acquisition.md R167). -/
theorem syncPulse_lowered (h : s.env.script = t1 :: t2 :: rest) (h1 : t1.verdict = .ok) :
    ∃ u, syncPulse s = lineSetBody .sync true u ∧ SlotTurned .sync s [.writeValue m false, .delay 10] rest u ∧
      u.sync.line = some m ∧ u.sync.handle = some .output := by
  obtain ⟨t, e, ht, _⟩ := lineSetBody_granted (k := .sync) h hl hh false h1
  have frame := lineSetBody_startFrame false s
  rw [e] at frame
  obtain ⟨delayed, _⟩ := envDelay_turned ht.script params.syncPulseUs
  refine ⟨envDelay t params.syncPulseUs, by rw [syncPulse, e, Ran.andThen_ok], ht.trans (delayed.slotTurned .sync), ?_,
    ?_⟩
  · exact ((delayed.byEnv.line .sync).trans frame.sync.line).trans hl
  · exact ((delayed.byEnv.handle .sync).trans frame.sync.handle).trans hh

theorem syncPulse_granted {t3 : Turn} (h : s.env.script = t1 :: t2 :: t3 :: rest) (h1 : t1.verdict = .ok)
    (h3 : t3.verdict = .ok) :
    ∃ u, syncPulse s = .ok u ∧ SlotTurned .sync s [.writeValue m false, .delay 10, .writeValue m true] rest u ∧
      (u.lineEnv m).pin = true ∧ u.sync.level = true := by
  obtain ⟨t, e, ht, line, handle⟩ := syncPulse_lowered hl hh h h1
  obtain ⟨u, eu, hu, pin, level, _⟩ := lineSetBody_granted (k := .sync) ht.script line handle true h3
  exact ⟨u, e.trans eu, ht.trans hu, pin, level⟩

/-- The first write fails, and the pulse with it. -/
theorem syncPulse_first_fails {c : ResultCode} (h : s.env.script = t1 :: rest) (h1 : FailingWrite t1 c) :
    ∃ u, syncPulse s = .error c u ∧ SlotTurned .sync s [.writeValue m false] rest u := by
  obtain ⟨t, e, ht⟩ := lineSetBody_fails (k := .sync) h hl hh false h1
  exact ⟨t, by rw [syncPulse, e, Ran.andThen_error h1.code_ne_ok], ht⟩

/-- The second write fails, after the first was granted. -/
theorem syncPulse_second_fails {t3 : Turn} {c : ResultCode} (h : s.env.script = t1 :: t2 :: t3 :: rest)
    (h1 : t1.verdict = .ok) (h3 : FailingWrite t3 c) :
    ∃ u, syncPulse s = .error c u ∧
      SlotTurned .sync s [.writeValue m false, .delay 10, .writeValue m true] rest u := by
  obtain ⟨t, e, ht, line, handle⟩ := syncPulse_lowered hl hh h h1
  obtain ⟨u, eu, hu⟩ := lineSetBody_fails (k := .sync) ht.script line handle true h3
  exact ⟨u, e.trans eu, ht.trans hu⟩

end

/-! ### A start from its first call -/

/-- The state in which ACQ.START makes its first call: `started` is set before it (43_acquisition.md R166). -/
def State.begun (s : State) : State := { s with started := true }

theorem State.ReadyToRead.begun {s : State} {d : LineId} (h : s.ReadyToRead d) : s.begun.ReadyToRead d :=
  ⟨h.line, h.handle, h.falling, h.undriven, h.spi⟩

theorem acqStartBody_of_ready {s : State} {m : LineId} (h : s.ReadyToPulse m) :
    acqStartBody s =
      ((syncPulse s.begun).andThen (settleReads s.cfg.settleFrames.toNat)).onError revertStart :=
  acqStartBody_of_enabled h.isOpen h.started h.syncEnable

/-- After the granted pulse of an ACQ.START from `s` on SYNC line `m` (43_acquisition.md R167). -/
structure Pulsed (s : State) (m : LineId) (rest : List Turn) (u : State) : Prop where
  frame : StartFrame s.begun u
  level : u.sync.level = true
  pin : (u.lineEnv m).pin = true
  seq : u.seq = s.seq
  raw : u.raw = s.raw
  script : u.env.script = rest
  calls : u.calls = s.calls ++ [.writeValue m false, .delay 10, .writeValue m true]

theorem acqStartBody_pulsed {s : State} {m : LineId} {t1 t2 t3 : Turn} {rest : List Turn} (hp : s.ReadyToPulse m)
    (h : s.env.script = t1 :: t2 :: t3 :: rest) (g : AllGranted [t1, t2, t3]) :
    ∃ u, acqStartBody s = (settleReads s.cfg.settleFrames.toNat u).onError revertStart ∧ Pulsed s m rest u := by
  obtain ⟨u, e, hu, pin, level⟩ :=
    syncPulse_granted (s := s.begun) hp.line hp.handle h (g t1 (by simp)) (g t3 (by simp))
  have frame := syncPulse_holds s.begun
  rw [e] at frame
  obtain ⟨frame, seq, raw, _⟩ := frame
  exact ⟨u, by rw [acqStartBody_of_ready hp, e, Ran.andThen_ok], frame, level, pin, seq, raw, hu.script, hu.calls⟩

/-- After the granted pulse and the reads `reads`, all delivered, with the calls `cs` since the pulse. -/
structure Settled (s : State) (m : LineId) (reads : List ReadTurns) (cs : List Call) (rest : List Turn) (t : State) :
    Prop where
  frame : StartFrame s.begun t
  level : t.sync.level = true
  pin : s.sync.line = some m → s.sync.dir = some .output → (t.lineEnv m).pin = true
  seq : t.seq = s.seq + BitVec.ofNat 64 reads.length
  raw : t.raw = shadowAfter s reads
  script : t.env.script = rest
  calls : t.calls = s.calls ++ [.writeValue m false, .delay 10, .writeValue m true] ++ cs

theorem Pulsed.settled {s u t : State} {m : LineId} {reads : List ReadTurns} {cs : List Call} {r rest : List Turn}
    (h : Pulsed s m r u) (done : ReadsDone u reads cs rest t) : Settled s m reads cs rest t where
  frame := h.frame.trans done.frame.startFrame
  level := done.frame.sync.level.trans h.level
  pin hl hd := by
    have drives : u.drives m = true := (h.frame.drives m).trans (State.drives_of_slot (s := s.begun) (k := .sync) hl hd)
    exact (done.driven m drives).trans h.pin
  seq := by rw [done.seq, h.seq]
  raw := done.raw.trans (shadowAfter_append (xs := []) h.raw reads)
  script := done.script
  calls := by rw [done.calls, h.calls]

/-- The pulse is granted and the reads `reads` deliver: `n` more are due (43_acquisition.md R165 to R168). -/
theorem acqStartBody_settling {s : State} {d m : LineId} {t1 t2 t3 : Turn} {reads : List ReadTurns}
    {rest : List Turn} {n : Nat} (hp : s.ReadyToPulse m) (hr : s.ReadyToRead d) (g : AllGranted [t1, t2, t3])
    (hn : s.cfg.settleFrames.toNat = reads.length + n) (hd : ∀ r ∈ reads, r.Delivers d)
    (h : s.env.script = t1 :: t2 :: t3 :: (reads.flatMap ReadTurns.list ++ rest)) :
    ∃ u t r, acqStartBody s = (settleReads n t).onError revertStart ∧ Pulsed s m r u ∧
      ReadsDone u reads (settleCalls reads.length d s.cfg.timeoutMs) rest t ∧ t.ReadyToRead d ∧
      t.cfg.timeoutMs = s.cfg.timeoutMs := by
  obtain ⟨u, e, pulsed⟩ := acqStartBody_pulsed hp h g
  have hru := hr.begun.startFrame pulsed.frame
  have cfg : u.cfg = s.cfg := pulsed.frame.cfg
  obtain ⟨t, et, done⟩ := settleReads_delivered n hru (congrArg DeviceConfig.timeoutMs cfg) hd pulsed.script
  exact ⟨u, t, _, by rw [e, hn, et], pulsed, done, hru.startFrame done.frame.startFrame,
    congrArg DeviceConfig.timeoutMs (done.frame.cfg.trans cfg)⟩

/-! ### A start that was blocked -/

theorem acqStartResume_of_delivered {n : Nat} {s t : State} {o : Output}
    (e : readResume (.acqStart n) s = .okWith o t) : acqStartResume n s = (settleReads n t).onError revertStart := by
  rw [acqStartResume, e, Ran.andThen_okWith]

/-- The read it was blocked in delivers, and then the reads `reads`: `n` more are due (90_conflicts.md C7). -/
theorem acqStartResume_settling {s : State} {d : LineId} {r : ReadTurns} {reads : List ReadTurns} {rest : List Turn}
    (n : Nat) (hr : s.ReadyToRead d) (hd : ∀ x ∈ r :: reads, x.Delivers d)
    (h : s.env.script =
      r.wait :: r.again :: r.before :: r.exchange :: r.after :: (reads.flatMap ReadTurns.list ++ rest)) :
    ∃ t, acqStartResume (reads.length + n) s = (settleReads n t).onError revertStart ∧
      ReadsDone s (r :: reads) ((settleCalls (reads.length + 1) d s.cfg.timeoutMs).drop 2) rest t ∧
      t.ReadyToRead d ∧ t.cfg.timeoutMs = s.cfg.timeoutMs := by
  obtain ⟨u, e, done, _⟩ := readResume_delivered (.acqStart (reads.length + n)) hr (hd r (by simp)) s.cfg.timeoutMs h
  have hru := hr.startFrame done.frame.startFrame
  obtain ⟨t, et, more⟩ := settleReads_delivered n hru (congrArg DeviceConfig.timeoutMs done.frame.cfg)
    (fun x hx => hd x (List.mem_cons_of_mem r hx)) done.script
  exact ⟨t, by rw [acqStartResume_of_delivered e, et], done.trans more, hru.startFrame more.frame.startFrame,
    congrArg DeviceConfig.timeoutMs (more.frame.cfg.trans done.frame.cfg)⟩

/-- The turns of reads that begin with a delivered one. -/
theorem ReadTurns.flatMap_cons (r : ReadTurns) (reads : List ReadTurns) (ts : List Turn) :
    (r :: reads).flatMap ReadTurns.list ++ ts =
      r.clear :: ([r.wait, r.again, r.before, r.exchange, r.after] ++ (reads.flatMap ReadTurns.list ++ ts)) := by
  rw [List.flatMap_cons, List.append_assoc]
  rfl

/-! ### The statements -/

/-- Settles O49: all reads deliver, or the one after those that deliver is not answered; from the first call and from the
wait of a blocked read. -/
theorem startPulsesAndSettles : Obligations.StartPulsesAndSettles := by
  refine ⟨fun d m s t1 t2 t3 reads rest hp dir hr g hn hd h => ?_,
    fun d m s t1 t2 t3 a b reads rest hp dir hr g hn hd hu h => ?_,
    fun d s r reads rest isOpen started hw hr hd h => ?_,
    fun d s n reads a b x more rest isOpen started hw hr latch hn hd hu hts h => ?_⟩
  · obtain ⟨u, t, _, e, pulsed, done, _⟩ := acqStartBody_settling (n := 0) hp hr g hn.symm hd h
    have all := pulsed.settled done
    have f := all.frame
    rw [exec_eq_finish, commandBody, e, settleReads, Ran.onError_ok, finish_ok]
    exact ⟨_, rfl, f.completed _, State.driverState_of_started (f.isOpen.trans hp.isOpen) f.started, f.keeps.complete _,
      all.level, all.pin hp.line dir, all.seq, all.raw, all.script, all.calls⟩
  · obtain ⟨n, hn⟩ := Nat.exists_eq_add_of_lt hn
    have due : s.cfg.settleFrames.toNat - (reads.length + 1) = n := by omega
    obtain ⟨u, t, _, e, pulsed, done, hrt, hms⟩ := acqStartBody_settling (n := n + 1) hp hr g hn hd h
    obtain ⟨v, ev, hv, driven, clear⟩ := settleReads_blocks n hrt hms hu done.script
    have all := pulsed.settled (done.turned hv driven)
    have f := all.frame
    rw [exec_eq_finish, commandBody, e, ev, Ran.onError_blocked, finish_blocked, due]
    refine ⟨_, rfl, f.blockedAs _, State.driverState_of_started (f.isOpen.trans hp.isOpen) f.started,
      f.keeps.blocked _, all.level, all.pin hp.line dir, clear, all.seq, all.raw, all.script, ?_⟩
    rw [List.append_assoc]
    exact all.calls
  · obtain ⟨t, e, done, _⟩ := acqStartResume_settling 0 hr hd h
    have f := done.frame.startFrame
    rw [step_of_inflight hw, resumeBody, ← Nat.add_zero reads.length, e, settleReads, Ran.onError_ok, finish_ok]
    refine ⟨_, rfl, f.completed (b := s.started) _,
      State.driverState_of_started (f.isOpen.trans isOpen) (f.started.trans started),
      (f.keeps (b := s.started)).complete _, done.frame.sync.level, done.driven, done.seq, done.raw, done.script, ?_⟩
    rw [List.append_assoc]
    exact done.calls
  · rw [step_of_inflight hw, resumeBody]
    cases reads with
    | nil =>
      obtain ⟨rfl, rfl⟩ := List.cons.inj hts
      obtain ⟨t, e, ht, clear⟩ := readResume_blocks (.acqStart n) hr latch hu.quiet hu.silent h
      have driven := readResume_keepsDriven (.acqStart n) s
      rw [e] at driven
      have done := (ReadsDone.nil h).turned ht driven
      have f := done.frame.startFrame
      rw [acqStartResume, e, Ran.andThen_blocked, Ran.onError_blocked, finish_blocked]
      exact ⟨_, rfl, f.blockedAs (b := s.started) _,
        State.driverState_of_started (f.isOpen.trans isOpen) (f.started.trans started),
        (f.keeps (b := s.started)).blocked _, done.frame.sync.level, clear, done.driven, done.seq, done.raw,
        done.script, done.calls⟩
    | cons r reads =>
      rw [ReadTurns.flatMap_cons] at hts
      obtain ⟨rfl, rfl⟩ := List.cons.inj hts
      rw [List.append_assoc, List.append_assoc] at h
      obtain ⟨k, rfl⟩ := Nat.exists_eq_add_of_lt hn
      have due : reads.length + k + 1 - (r :: reads).length = k := by rw [List.length_cons]; omega
      obtain ⟨t, e, done, hrt, hms⟩ := acqStartResume_settling (k + 1) hr hd h
      obtain ⟨v, ev, hv, driven, clear⟩ := settleReads_blocks k hrt hms hu done.script
      have all := done.turned hv driven
      have f := all.frame.startFrame
      rw [Nat.add_assoc reads.length k 1, e, ev, Ran.onError_blocked, finish_blocked, ← Nat.add_assoc, due]
      exact ⟨_, rfl, f.blockedAs (b := s.started) _,
        State.driverState_of_started (f.isOpen.trans isOpen) (f.started.trans started),
        (f.keeps (b := s.started)).blocked _, all.frame.sync.level, clear, all.driven, all.seq, all.raw, all.script,
        all.calls⟩

end Sys2Proof.Machine
end

section
/-! SUPPORT. A failing ACQ.START (43_acquisition.md R169): whatever the environment answers it clears `started` and keeps
one increment of the counter for each settle read that completed, which is one for every two clock samples (R171); and
with the answers known it ends with the failing step's code. -/

namespace Sys2Proof.Machine

/-! ### The counter by the clock samples -/

/-- The counter has advanced by one for every two clock samples, and by no more than `n`. -/
def Counted (n : Nat) (s t : State) : Prop :=
  ∃ k, Sampled k s t ∧ k / 2 ≤ n ∧ t.seq = s.seq + BitVec.ofNat 64 (k / 2)

theorem Counted.of_error {n k : Nat} {s t : State} (h : Sampled k s t) (hk : k ≤ 1) (seq : t.seq = s.seq) :
    Counted n s t := by
  have none : k / 2 = 0 := Nat.div_eq_of_lt (Nat.lt_succ_of_le hk)
  exact ⟨k, h, none ▸ Nat.zero_le n, by rw [none, seq, BitVec.add_zero]⟩

theorem Counted.of_read {n : Nat} {s t u : State} (h : Sampled 2 s t) (seq : t.seq = s.seq + 1) (more : Counted n t u) :
    Counted (n + 1) s u := by
  obtain ⟨k, hk, bound, count⟩ := more
  have one : (2 + k) / 2 = 1 + k / 2 := by omega
  refine ⟨2 + k, h.trans hk, by omega, ?_⟩
  rw [count, seq, one, BitVec.ofNat_add, ← BitVec.add_assoc]
  rfl

theorem Counted.of_uncounted {n : Nat} {s t u : State} (h : Sampled 0 s t) (seq : t.seq = s.seq)
    (more : Counted n t u) : Counted n s u := by
  obtain ⟨k, hk, bound, count⟩ := more
  exact ⟨k, by simpa using h.trans hk, bound, by rw [count, seq]⟩

theorem ReadEnds.seq_of_ok {s t : State} {p : Response} (h : ReadEnds s p t) (hp : p.code = .ok) :
    t.seq = s.seq + 1 := by
  rcases h with ⟨_, _, _, seq, _⟩ | ⟨_, _, _, _, code⟩
  · exact seq
  · rw [hp] at code
    rcases code with code | ⟨_, code⟩ | ⟨code, _⟩ <;> cases code

theorem ReadEnds.seq_of_error {s t : State} {p : Response} (h : ReadEnds s p t) (hp : p.code ≠ .ok) :
    t.seq = s.seq := by
  rcases h with ⟨_, code, _⟩ | ⟨_, seq, _⟩
  · exact absurd (congrArg Response.code code) hp
  · exact seq

/-- A read, and the settle reads after it. -/
theorem readThenSettle_counted {n : Nat} {s : State} {read : Ran}
    (h : read.Holds (fun p t => ReadSamples s p t ∧ ReadFrame s t ∧ ReadEnds s p t) (fun _ _ => True))
    (more : ∀ t, (settleReads n t).Holds (fun _ u => StartFrame t u ∧ Counted n t u) (fun _ _ => True)) :
    (read.andThen (settleReads n)).Holds (fun _ t => StartFrame s t ∧ Counted (n + 1) s t) (fun _ _ => True) := by
  refine h.andThen (fun o t h => ?_) (fun p t hp h => ?_) (fun _ _ _ => trivial)
  · obtain ⟨⟨k, sampled, two, _⟩, frame, ends⟩ := h
    rw [two rfl] at sampled
    exact (more t).mono
      (fun _ _ h => ⟨frame.startFrame.trans h.1, .of_read sampled (ends.seq_of_ok rfl) h.2⟩) (fun _ _ _ => trivial)
  · obtain ⟨⟨k, sampled, _, one⟩, frame, ends⟩ := h
    exact ⟨frame.startFrame, .of_error sampled (one hp) (ends.seq_of_error hp)⟩

theorem settleReads_counted (n : Nat) (s : State) :
    (settleReads n s).Holds (fun _ t => StartFrame s t ∧ Counted n s t) (fun _ _ => True) := by
  induction n generalizing s with
  | zero => exact ⟨(ReadFrame.refl s).startFrame, .of_error (.refl s) (Nat.zero_le 1) rfl⟩
  | succ n ih =>
    rw [settleReads_succ]
    exact readThenSettle_counted (((readBody_samples (.acqStart n) s).and (readBody_holds (.acqStart n) s)).mono
      (fun _ _ h => h) (fun _ _ _ => trivial)) ih

/-- The pulse and the settle reads of ACQ.START (43_acquisition.md R167, R168). -/
theorem pulseThenSettle_counted (n : Nat) (s : State) :
    ((syncPulse s).andThen (settleReads n)).Holds (fun _ t => StartFrame s t ∧ Counted n s t) (fun _ _ => True) := by
  refine ((syncPulse_holds s).and (syncPulse_sampled s)).andThen (fun o t h => ?_) (fun p t _ h => ?_)
    (fun _ _ _ => trivial)
  · obtain ⟨⟨frame, seq, _⟩, sampled⟩ := h
    exact (settleReads_counted n t).mono (fun _ _ h => ⟨frame.trans h.1, .of_uncounted sampled seq h.2⟩)
      (fun _ _ _ => trivial)
  · obtain ⟨⟨frame, seq, _⟩, sampled⟩ := h
    exact ⟨frame, .of_error sampled (Nat.zero_le 1) seq⟩

/-- The read that a start was blocked in, and the settle reads after it. -/
theorem resumeThenSettle_counted (n : Nat) (s : State) :
    ((readResume (.acqStart n) s).andThen (settleReads n)).Holds
      (fun _ t => StartFrame s t ∧ Counted (n + 1) s t) (fun _ _ => True) :=
  readThenSettle_counted (((readResume_samples (.acqStart n) s).and (readResume_holds (.acqStart n) s)).mono
    (fun _ _ h => h) (fun _ _ _ => trivial)) (settleReads_counted n)

/-! ### A failing end, whatever the environment answers -/

/-- A command that completes with an error code ended in the state that the clean-up of its body's error left. -/
theorem finish_onError_failed {s t : State} {run : Ran} {f : State → State} {P : State → Prop} {r : Response}
    (h : run.Holds (fun _ u => P u) (fun _ _ => True)) (ht : t = finish s (run.onError f)) (idle : t.inflight = none)
    (out : t.out = some r) (hr : r.code ≠ .ok) : ∃ u, P u ∧ t = (f u).complete r := by
  have ends := h.onError (f := f) (R := fun p v => p.code ≠ .ok → ∃ u, P u ∧ v = f u) (S := fun _ _ => True)
    (fun p v hp _ hn => absurd hp hn) (fun p v _ hu _ => ⟨v, hu, rfl⟩) (fun _ _ _ => trivial)
  rcases finish_of_holds (s := s) ends with ⟨p, v, e, hv⟩ | e | ⟨w, v, e, _⟩ <;> rw [ht, e] at out idle ⊢
  · cases out
    obtain ⟨u, hu, rfl⟩ := hv hr
    exact ⟨u, hu, rfl⟩
  · cases out
  · cases idle

/-- What a failing start leaves and what its calls say of the counter (43_acquisition.md R169, R182). -/
theorem StartFrame.reverted_counted {s t : State} {b : Bool} {n : Nat} (f : StartFrame { s with started := b } t)
    (hc : Counted n { s with started := b } t) (isOpen : s.isOpen = true) (r : Response) :
    StartReverted s ((revertStart t).complete r) ∧
      ∃ cs, ((revertStart t).complete r).calls = s.calls ++ cs ∧ cs.count .clock / 2 ≤ n ∧
        ((revertStart t).complete r).seq = s.seq + BitVec.ofNat 64 (cs.count .clock / 2) := by
  obtain ⟨_, ⟨cs, calls, rfl⟩, bound, seq⟩ := hc
  exact ⟨f.reverted isOpen r, cs, calls, bound, seq⟩

/-- Only an ACQ.START that pulses can fail with the controller open (43_acquisition.md R165, R169). -/
theorem acqStart_failed {s t : State} {r : Response} (isOpen : s.isOpen = true) (idle : t.inflight = none)
    (out : t.out = some r) (hr : r.code ≠ .ok) (h : exec .acqStart s = .next t) :
    ∃ u, (StartFrame s.begun u ∧ Counted s.cfg.settleFrames.toNat s.begun u) ∧ t = (revertStart u).complete r := by
  have ht := exec_next h
  cases started : s.started with
  | true =>
    rw [commandBody, acqStartBody_of_started isOpen started, finish_ok] at ht
    rw [ht] at out
    cases out
    exact absurd rfl hr
  | false =>
    cases enabled : s.cfg.syncEnable with
    | false =>
      rw [commandBody, acqStartBody_of_disabled isOpen started enabled, finish_ok] at ht
      rw [ht] at out
      cases out
      exact absurd rfl hr
    | true =>
      rw [commandBody, acqStartBody_of_enabled isOpen started enabled] at ht
      exact finish_onError_failed (pulseThenSettle_counted _ s.begun) ht idle out hr

theorem acqStartResume_failed {s t : State} {r : Response} {n : Nat} (idle : t.inflight = none)
    (out : t.out = some r) (hr : r.code ≠ .ok) (hw : s.inflight = some (.acqStart n)) (h : step s = .next t) :
    ∃ u, (StartFrame s u ∧ Counted (n + 1) s u) ∧ t = (revertStart u).complete r := by
  rw [step_of_inflight hw] at h
  exact finish_onError_failed (resumeThenSettle_counted n s) (Host.Outcome.next.inj h).symm idle out hr

/-! ### A failing end, the answers known -/

theorem StartFrame.completed_reverted {s t : State} {b : Bool} (f : StartFrame { s with started := b } t)
    (r : Response) : Completed s ((revertStart t).complete r) r := ⟨rfl, rfl, congrArg (· + 1) f.history.cp⟩

/-- The pulse fails: nothing was read (43_acquisition.md R167, R169). -/
theorem acqStart_of_failed_pulse {s u : State} {m : LineId} {c : ResultCode} {cs : List Call} {rest : List Turn}
    (hp : s.ReadyToPulse m) (hc : c ≠ .ok) (e : syncPulse s.begun = .error c u)
    (hu : SlotTurned .sync s.begun cs rest u) :
    ∃ t, exec .acqStart s = .next t ∧ Completed s t ⟨c, .nothing⟩ ∧ StartReverted s t ∧ t.seq = s.seq ∧
      t.raw = s.raw ∧ t.calls = s.calls ++ cs := by
  have frame := syncPulse_holds s.begun
  rw [e] at frame
  obtain ⟨f, seq, raw, _⟩ := frame
  rw [exec_eq_finish, commandBody, acqStartBody_of_ready hp, e, Ran.andThen_error hc, Ran.onError_error hc,
    finish_error]
  exact ⟨_, rfl, f.completed_reverted _, f.reverted hp.isOpen _, seq, raw, hu.calls⟩

/-- Settles O50: any failing end, then a failing pulse, a failing settle read, and a failing read after a block. -/
theorem failingStartRevertsOnlyStarted : Obligations.FailingStartRevertsOnlyStarted := by
  refine ⟨fun s t r isOpen idle out hr => ⟨fun h => ?_, fun n hw h => ?_⟩,
    fun m s t1 rest c hp h => ⟨fun h1 => ?_, fun t2 t3 rest' hrest h1 h3 => ?_⟩,
    fun d m s t1 t2 t3 reads ts rest c hp hr g hn hd hf h => ?_,
    fun d s n reads ts a more rest c isOpen hw hr latch hn hd hf hts hne h => ?_⟩
  · obtain ⟨u, ⟨f, counted⟩, rfl⟩ := acqStart_failed isOpen idle out hr h
    exact f.reverted_counted counted isOpen r
  · obtain ⟨u, ⟨f, counted⟩, rfl⟩ := acqStartResume_failed idle out hr hw h
    exact f.reverted_counted (b := s.started) counted isOpen r
  · obtain ⟨u, e, hu⟩ := syncPulse_first_fails (s := s.begun) hp.line hp.handle h h1
    exact acqStart_of_failed_pulse hp h1.code_ne_ok e hu
  · subst hrest
    obtain ⟨u, e, hu⟩ := syncPulse_second_fails (s := s.begun) hp.line hp.handle h h1 h3
    exact acqStart_of_failed_pulse hp h3.code_ne_ok e hu
  · obtain ⟨n, hn⟩ := Nat.exists_eq_add_of_lt hn
    obtain ⟨u, t, _, e, pulsed, done, hrt, hms⟩ := acqStartBody_settling (n := n + 1) hp hr g hn hd h
    obtain ⟨v, ev, hv, driven⟩ := settleReads_fails n hrt hms hf done.script
    have all := pulsed.settled (done.turned hv driven)
    rw [exec_eq_finish, commandBody, e, ev, Ran.onError_error hf.code_ne_ok, finish_error]
    refine ⟨_, rfl, all.frame.completed_reverted _, all.frame.reverted hp.isOpen _, all.seq, all.raw, all.script, ?_⟩
    rw [List.append_assoc]
    exact all.calls
  · rw [step_of_inflight hw, resumeBody]
    cases reads with
    | nil =>
      subst hts
      rcases hf.split with ⟨hnil, _⟩ | ⟨_, hf⟩
      · exact absurd hnil hne
      obtain ⟨t, e, ht⟩ := readResume_fails (.acqStart n) s.cfg.timeoutMs hr latch hf h
      have driven := readResume_keepsDriven (.acqStart n) s
      rw [e] at driven
      have done := (ReadsDone.nil h).turned ht driven
      have f := done.frame.startFrame
      rw [acqStartResume, e, Ran.andThen_error hf.code_ne_ok, Ran.onError_error hf.code_ne_ok, finish_error]
      exact ⟨_, rfl, f.completed_reverted (b := s.started) _, f.reverted (b := s.started) isOpen _, done.seq, done.raw,
        done.script, done.calls⟩
    | cons r reads =>
      rw [ReadTurns.flatMap_cons] at hts
      obtain ⟨rfl, rfl⟩ := List.cons.inj hts
      rw [List.append_assoc, List.append_assoc] at h
      obtain ⟨k, rfl⟩ := Nat.exists_eq_add_of_lt hn
      obtain ⟨t, e, done, hrt, hms⟩ := acqStartResume_settling (k + 1) hr hd h
      obtain ⟨v, ev, hv, driven⟩ := settleReads_fails k hrt hms hf done.script
      have all := done.turned hv driven
      have f := all.frame.startFrame
      rw [Nat.add_assoc reads.length k 1, e, ev, Ran.onError_error hf.code_ne_ok, finish_error]
      exact ⟨_, rfl, f.completed_reverted (b := s.started) _, f.reverted (b := s.started) isOpen _, all.seq, all.raw,
        all.script, all.calls⟩

end Sys2Proof.Machine
end

section
/-! SUPPORT. LINE.ACQUIRE while the environment takes no step of its own: whatever its calls are answered, the other
slot keeps its latch too, no other line's reservation changes, and the line's own changes only if the slot claims it. -/

namespace Sys2Proof.Machine

/-- `t` comes from `s` by a call whose turn held no step of the environment: it left slots and reservations alone. -/
structure QuietTurn (s : State) (rest : List Turn) (t : State) : Prop where
  slot : ∀ k, t.slot k = s.slot k
  reserved : ∀ m, (t.lineEnv m).reserved = (s.lineEnv m).reserved
  script : t.env.script = rest

/-- No slot but `k` and no reservation differs between `s` and `t`. -/
structure Apart (k : Slot) (s t : State) : Prop where
  other : t.slot (otherSlot k) = s.slot (otherSlot k)
  reserved : ∀ m, (t.lineEnv m).reserved = (s.lineEnv m).reserved

theorem Apart.trans {k : Slot} {s t u : State} (h : Apart k s t) (h' : Apart k t u) : Apart k s u :=
  ⟨h'.other.trans h.other, fun m => (h'.reserved m).trans (h.reserved m)⟩

theorem QuietTurn.apart {s t : State} {rest : List Turn} (h : QuietTurn s rest t) (k : Slot) : Apart k s t :=
  ⟨h.slot _, h.reserved⟩

theorem State.setSlot_apart (s : State) (k : Slot) (x : LineSlot) : Apart k s (s.setSlot k x) :=
  ⟨s.slot_setSlot_other k x, fun m => by rw [State.lineEnv_setSlot]⟩

theorem QuietTurn.setSlot {s t : State} {rest : List Turn} (h : QuietTurn s rest t) (k : Slot) (x : LineSlot) :
    Apart k s (t.setSlot k x) := (h.apart k).trans (t.setSlot_apart k x)

/-! ### The calls -/

/-- A change of a line's kept settings. -/
theorem QuietTurn.setLineEnv {s t : State} {rest : List Turn} (h : QuietTurn s rest t) {l : LineId} {e : LineEnv}
    (he : e.reserved = (t.lineEnv l).reserved) : QuietTurn s rest (t.setLineEnv l e) := by
  refine ⟨fun k => ?_, fun m => ?_, h.script⟩
  · rw [← h.slot k]
    cases k <;> rfl
  · rw [← h.reserved m]
    by_cases hm : m = l
    · rw [hm, State.lineEnv_setLineEnv_self, he]
    · rw [State.lineEnv_setLineEnv_other _ _ hm]

/-- A drive to level 1 is no falling edge. -/
theorem QuietTurn.driveHigh {s t : State} {rest : List Turn} (h : QuietTurn s rest t) (l : LineId) :
    QuietTurn s rest (t.drivePin l true) := by
  have undetected : ∀ (x : LineSlot) (b : Bool), x.onDrive l false b = x := fun x b => by
    simp only [LineSlot.onDrive, Bool.false_and, Bool.and_false, Bool.or_false]
  refine ⟨fun k => ?_, fun m => by rw [State.lineEnv_drivePin_reserved, h.reserved m], h.script⟩
  rw [← h.slot k]
  cases k with
  | drdy => exact undetected t.drdy _
  | sync => exact undetected t.sync _

section
variable {s : State} {a : Turn} {rest : List Turn} (h : s.env.script = a :: rest) (q : a.events = [])
include h q

theorem State.ask_quietTurn (c : Call) : QuietTurn s rest (s.ask c).2 := by
  rw [State.ask_quiet c h q]
  exact ⟨fun k => by cases k <;> rfl, fun _ => rfl, rfl⟩

theorem envSetDirection_quiet (l : LineId) (d : Dir) : QuietTurn s rest (envSetDirection s l d).2 := by
  have asked := State.ask_quietTurn h q (.setDirection l d)
  simp only [envSetDirection]
  split
  · exact asked
  · exact asked.setLineEnv rfl

theorem envSetEdge_quiet (l : LineId) (e : EdgeMode) : QuietTurn s rest (envSetEdge s l e).2 := by
  have asked := State.ask_quietTurn h q (.setEdge l e)
  simp only [envSetEdge]
  split
  · exact asked
  · exact asked.setLineEnv rfl

theorem envSetInitialLevel_quiet (l : LineId) : QuietTurn s rest (envSetInitialLevel s l true).2 := by
  have asked := State.ask_quietTurn h q (.setInitialLevel l true)
  simp only [envSetInitialLevel]
  split
  · exact asked
  · exact asked.driveHigh l

/-! ### The steps -/

theorem acquireHandle_quiet (k : Slot) (l : LineId) (d : Dir) :
    (acquireHandle k l d s).Holds (fun _ t => Apart k s t) (fun _ _ => False) := by
  have asked : QuietTurn s rest (envOpenValue s l (accessOf d)).2 := State.ask_quietTurn h q _
  unfold acquireHandle
  generalize envOpenValue s l (accessOf d) = r at *
  obtain ⟨x, u⟩ := r
  cases x with
  | fail c => exact asked.apart k
  | ok => exact asked.setSlot k _

end

section
variable {s : State} {a b c : Turn} {rest : List Turn} (k : Slot) (l : LineId) {d : Dir} {v : Bool}
  (high : d = .output → v = true)
include high

theorem acquireSetting_quiet (h : s.env.script = a :: b :: rest) (qa : a.events = []) (qb : b.events = []) :
    (acquireSetting k l d v s).Holds (fun _ t => Apart k s t) (fun _ _ => False) := by
  have later : ∀ (u : State) (x : LineSlot) (d : Dir), QuietTurn s (b :: rest) u →
      (acquireHandle k l d (u.setSlot k x)).Holds (fun _ t => Apart k s t) (fun _ _ => False) := fun u x d hu =>
    (acquireHandle_quiet (by rw [State.setSlot_env]; exact hu.script) qb k l d).mono
      (fun _ _ ht => (hu.setSlot k x).trans ht) (fun _ _ f => f)
  cases d with
  | input =>
    have asked := envSetEdge_quiet h qa l .falling
    simp only [acquireSetting]
    generalize envSetEdge s l .falling = r at *
    obtain ⟨x, u⟩ := r
    cases x with
    | fail c => exact asked.apart k
    | ok => exact later u _ .input asked
  | output =>
    obtain rfl := high rfl
    have asked := envSetInitialLevel_quiet h qa l
    simp only [acquireSetting]
    generalize envSetInitialLevel s l true = r at *
    obtain ⟨x, u⟩ := r
    cases x with
    | fail c => exact asked.apart k
    | ok => exact later u _ .output asked

theorem acquireDirection_quiet (h : s.env.script = a :: b :: c :: rest) (qa : a.events = []) (qb : b.events = [])
    (qc : c.events = []) :
    (acquireDirection k l d v s).Holds (fun _ t => Apart k s t) (fun _ _ => False) := by
  have asked := envSetDirection_quiet h qa l d
  unfold acquireDirection
  generalize envSetDirection s l d = r at *
  obtain ⟨x, u⟩ := r
  cases x with
  | fail c => exact asked.apart k
  | ok =>
    exact (acquireSetting_quiet k l high (by rw [State.setSlot_env]; exact asked.script) qb qc).mono
      (fun _ _ ht => (asked.setSlot k _).trans ht) (fun _ _ f => f)

end

/-! ### The command -/

/-- What LINE.ACQUIRE of line `l` by slot `k` leaves alone: the other slot, the reservations of other lines, and that of
`l` unless the slot claims it (41_gpio_line.md R112). -/
structure AcquiredQuietly (k : Slot) (l : LineId) (s t : State) : Prop where
  other : t.slot (otherSlot k) = s.slot (otherSlot k)
  otherLines : ∀ m, m ≠ l → (t.lineEnv m).reserved = (s.lineEnv m).reserved
  unclaimed : (t.slot k).exportedByUs = false → (t.lineEnv l).reserved = (s.lineEnv l).reserved

theorem Apart.acquiredQuietly {k : Slot} {s t : State} (h : Apart k s t) (l : LineId) : AcquiredQuietly k l s t :=
  ⟨h.other, fun m _ => h.reserved m, fun _ => h.reserved l⟩

section
variable {s : State} {a b c e : Turn} {rest : List Turn} (k : Slot) (l : LineId) {d : Dir} {v : Bool}
  (high : d = .output → v = true) (h : s.env.script = a :: b :: c :: e :: rest)
  (quiet : ∀ x ∈ [a, b, c, e], x.events = [])
include high h quiet

theorem acquireReserve_quiet :
    (acquireReserve k l d v s).Holds (fun _ t => AcquiredQuietly k l s t) (fun _ _ => False) := by
  have asked := State.ask_quietTurn h (quiet a (by simp)) (.reserve l)
  have later : ∀ (u : State) (x : LineSlot), u.env.script = b :: c :: e :: rest →
      (acquireDirection k l d v (u.setSlot k x)).Holds
        (fun _ t => Apart k u t ∧ (t.slot k).exportedByUs = x.exportedByUs) (fun _ _ => False) := by
    intro u x hu
    refine ((acquireDirection_quiet k l high (by rw [State.setSlot_env]; exact hu) (quiet b (by simp))
      (quiet c (by simp)) (quiet e (by simp))).and (acquireDirection_holds k l d v (u.setSlot k x))).mono
      (fun p t ht => ⟨(u.setSlot_apart k x).trans ht.1, ?_⟩) (fun _ _ f => f.1)
    rw [ht.2.1.exported, State.slot_setSlot_self]
  obtain ⟨_, _, ⟨⟨x, answer⟩, state⟩ | ⟨answer, state, _⟩ | ⟨answer, state, _⟩⟩ := envReserve_cases s l
  · have failed : envReserve s l = (.fail x, (s.ask (.reserve l)).2) := Prod.ext answer state
    rw [acquireReserve, failed]
    exact (asked.apart k).acquiredQuietly l
  · have shared : envReserve s l = (.busy, (s.ask (.reserve l)).2) := Prod.ext answer state
    rw [acquireReserve, shared]
    exact (later _ _ asked.script).mono (fun _ _ ht => ((asked.apart k).trans ht.1).acquiredQuietly l) (fun _ _ f => f)
  · have granted : envReserve s l = (.ok, (s.ask (.reserve l)).2.setReserved l true) := Prod.ext answer state
    rw [acquireReserve, granted]
    refine (later ((s.ask (.reserve l)).2.setReserved l true) _ asked.script).mono (fun p t ht => ?_) (fun _ _ f => f)
    obtain ⟨apart, claimed⟩ := ht
    refine ⟨?_, fun m hm => ?_, fun unclaimed => absurd (claimed.symm.trans unclaimed) (by simp)⟩
    · rw [apart.other, State.setReserved_slot, asked.slot]
    · rw [apart.reserved, State.lineEnv_setReserved_other _ _ hm, asked.reserved]

theorem lineAcquireBody_quiet :
    (lineAcquireBody k l d v s).Holds (fun _ t => AcquiredQuietly k l s t) (fun _ _ => False) := by
  unfold lineAcquireBody
  split
  · trivial
  split
  · trivial
  · refine (acquireReserve_quiet k l high (by rw [State.setSlot_env]; exact h) quiet).mono (fun p t ht => ?_)
      (fun _ _ f => f)
    exact ⟨ht.other.trans (s.slot_setSlot_other k _), fun m hm => by rw [ht.otherLines m hm, State.lineEnv_setSlot],
      fun unclaimed => by rw [ht.unclaimed unclaimed, State.lineEnv_setSlot]⟩

end

end Sys2Proof.Machine
end

section
/-! SUPPORT. A failing ACQ.OPEN (43_acquisition.md R163): either a check ended it in the state it began in, or a resource
step failed and what it left is what ACQ.CLOSE leaves. -/

namespace Sys2Proof.Machine

/-- The controller closed with nothing in use, counter and raw shadow zero; the diagnostics and what the host is still
due are as they were in `s`. -/
structure TornDown (s t : State) : Prop where
  isOpen : t.isOpen = false
  started : t.started = false
  seq : t.seq = 0
  raw : t.raw = FrameBuf.zero
  spi : t.spi.isOpen = false
  drdy : t.drdy.Empty
  sync : t.sync.Empty
  diag : t.diag = s.diag
  refused : t.refused = s.refused
  pending : t.pending = s.pending

theorem TornDown.complete {s t : State} (h : TornDown s t) (r : Response) : TornDown s (t.complete r) :=
  ⟨h.isOpen, h.started, h.seq, h.raw, h.spi, h.drdy, h.sync, h.diag, h.refused, h.pending⟩

theorem TornDown.owns {s t : State} (h : TornDown s t) (l : LineId) : t.owns l = false := by
  simp [State.owns, h.drdy.exportedByUs, h.sync.exportedByUs]

/-- A state of the invariant with nothing in use needs no teardown. -/
theorem State.Unused.tornDown {s : State} (h : s.Unused) (inv : s.Inv) : TornDown s s := by
  obtain ⟨seq, raw⟩ := inv.closed h.isOpen
  have stopped : s.started = false :=
    Bool.eq_false_iff.2 fun started => Bool.false_ne_true (h.isOpen.symm.trans (inv.startedOpen started))
  exact ⟨h.isOpen, stopped, seq, raw, h.spi, inv.drdy.empty h.drdy, inv.sync.empty h.sync, rfl, rfl, rfl⟩

/-- What ACQ.CLOSE makes of a state that the resource steps of ACQ.OPEN left. -/
theorem acqCloseBody_tornDown {s t : State} (controller : SameController s t) : TornDown s (acqCloseBody t) := by
  have closed := acqCloseBody_closedFrom t
  exact ⟨closed.isOpen, closed.started, closed.seq, closed.raw, congrArg SpiState.isOpen closed.spi, closed.drdy,
    closed.sync, closed.diag.trans controller.diag, closed.history.refused.trans controller.refused,
    closed.history.pending.trans controller.pending⟩

/-- Every failing end of ACQ.OPEN's body. -/
theorem acqOpenBody_tornDown {s : State} (inv : s.Inv) (closed : s.isOpen = false) (c : DeviceConfig) :
    (acqOpenBody (some c) s).Holds (fun p t => p.code ≠ .ok → TornDown s t) (fun _ _ => False) := by
  by_cases unused : s.Unused
  case neg =>
    rw [acqOpenBody_of_used closed unused]
    trivial
  cases found : checkLines (applyDefaults c) with
  | missing =>
    rw [acqOpenBody_of_missing unused c found]
    exact fun _ => unused.tornDown inv
  | clash =>
    rw [acqOpenBody_of_clash unused c found]
    trivial
  | lines d m =>
    rw [acqOpenBody_of_lines unused c found]
    have torn := (acquireAll_controller (applyDefaults c) d m s).onError (f := acqCloseBody)
      (R := fun p t => p.code ≠ .ok → TornDown s t) (S := fun _ _ => False)
      (fun p t hp _ failed => absurd hp failed) (fun p t _ h _ => acqCloseBody_tornDown h.1) (fun _ _ h => h)
    exact torn.andThen (fun _ t _ failed => absurd rfl failed) (fun _ _ _ h => h) (fun _ _ h => h)

/-- Settles O46: a refused command has no response, and none is blocked. -/
theorem failingOpenTearsDown : Obligations.FailingOpenTearsDown := by
  intro c s t r inv closed h out failed
  rw [exec_next h, commandBody] at out ⊢
  rcases finish_of_holds (s := s) (acqOpenBody_tornDown inv closed c) with ⟨p, u, e, ends⟩ | e | ⟨_, _, _, no⟩
  · rw [e] at out ⊢
    obtain rfl : p = r := Option.some.inj out
    have torn := (ends failed).complete p
    exact ⟨State.driverState_of_closed torn.isOpen, torn.isOpen, torn.started, torn.spi, torn.drdy, torn.sync, torn.seq,
      torn.raw, torn.diag, torn.refused, torn.pending, torn.owns⟩
  · rw [e] at out
    cases out
  · exact no.elim

end Sys2Proof.Machine
end

section
/-! SUPPORT. ACQ.OPEN when the script says how its calls are answered (43_acquisition.md R160): its three resource steps
granted, one after the other, while the environment takes no step of its own, and the commit. -/

namespace Sys2Proof.Machine

/-! ### Granted turns without an event -/

/-- Every call is granted, and the environment takes no step of its own. -/
def QuietGrants (ts : List Turn) : Prop := ∀ x ∈ ts, x.verdict = .ok ∧ x.events = []

theorem QuietGrants.granted {ts : List Turn} (h : QuietGrants ts) : AllGranted ts := fun x hx => (h x hx).1

theorem QuietGrants.quiet {ts : List Turn} (h : QuietGrants ts) : ∀ x ∈ ts, x.events = [] := fun x hx => (h x hx).2

theorem QuietGrants.sub {ts us : List Turn} (h : QuietGrants ts) (sub : us ⊆ ts) : QuietGrants us :=
  fun x hx => h x (sub hx)

theorem exists_first_four {ts : List Turn} (h : 4 ≤ ts.length) : ∃ a b c e more, ts = a :: b :: c :: e :: more := by
  match ts, h with
  | a :: b :: c :: e :: more, _ => exact ⟨a, b, c, e, more, rfl⟩

/-- The turns of one resource step stand at the head. -/
theorem QuietGrants.four {ts : List Turn} {n : Nat} (h : QuietGrants ts) (len : ts.length = n + 4) :
    ∃ a b c e more, ts = a :: b :: c :: e :: more ∧ QuietGrants [a, b, c, e] ∧ QuietGrants more ∧ more.length = n := by
  obtain ⟨a, b, c, e, more, rfl⟩ := exists_first_four (len ▸ Nat.le_add_left 4 n)
  exact ⟨a, b, c, e, more, rfl, h.sub (by simp), h.sub fun x hx => by simp [hx], Nat.add_right_cancel (m := 4) len⟩

/-! ### The first step: SPI.OPEN -/

/-- Four granted turns configure the master as asked and change no line. -/
theorem spiOpenBody_granted {s : State} {a b c e : Turn} {rest : List Turn} (closed : s.spi.isOpen = false)
    (h : s.env.script = a :: b :: c :: e :: rest) (g : QuietGrants [a, b, c, e]) (path : BusPath) (hz : U32) (mode : U8)
    (noCs : Bool) :
    ∃ t, spiOpenBody path hz mode noCs s = .ok t ∧ OnSpi s t ∧ t.spi = .configured path hz mode noCs ∧
      t.env.script = rest ∧ t.calls = s.calls ++ spiOpenCalls path hz mode noCs ∧ ∀ l, t.lineEnv l = s.lineEnv l := by
  simp only [QuietGrants, List.forall_mem_cons] at g
  obtain ⟨⟨ha, qa⟩, ⟨hb, qb⟩, ⟨hc, qc⟩, ⟨he, qe⟩, _⟩ := g
  obtain ⟨s1, e1, h1, l1⟩ := envSpiOpen_granted h ha path
  obtain ⟨s2, e2, h2, l2⟩ := envSpiSetMode_granted h1.script hb mode noCs
  obtain ⟨s3, e3, h3, l3⟩ := envSpiSetBits_granted h2.script hc params.bitsPerWord
  obtain ⟨s4, e4, h4, l4⟩ := envSpiSetSpeed_granted h3.script he hz
  have all := ((h1.trans h2).trans h3).trans h4
  have step : spiModeStep mode noCs s1 = (.ok, noCs, s2) := by rw [spiModeStep, e2]
  refine ⟨{ s4 with spi := .configured path hz mode noCs }, ?_,
    (all.byEnv.onSpi all.keepsOwn).trans (s4.setSpi_onSpi _), rfl, all.script, all.calls, fun l => ((l4 qe l).trans (l3 qc l)).trans ((l2 qb l).trans (l1 qa l))⟩
  rw [spiOpenBody_of_mode_ok closed e1 step, spiConfigure, e3]
  simp only [e4]
  rfl

/-! ### The first two steps: SPI.OPEN and the acquisition of DRDY -/

theorem defaultedPath_applyDefaults (c : DeviceConfig) :
    defaultedPath (applyDefaults c).busPath = defaultedPath c.busPath := by
  cases given : c.busPath with
  | none => simp [applyDefaults, defaultedPath, given]
  | some p => by_cases empty : p = "" <;> simp [applyDefaults, defaultedPath, given, empty]

/-- A granted acquisition sees of the slot only what no call changes. -/
theorem LineSlot.acquiredAs_of_cleared {x y : LineSlot} (h : y.cleared = x.cleared) (l : LineId) (d : Dir) (v : Level)
    (free : Bool) : y.acquiredAs l d v free = x.acquiredAs l d v free := by
  simp only [LineSlot.acquiredAs, h]

/-- What the first two resource steps of ACQ.OPEN with the configuration `c` make of `s` when their calls are granted,
`rest` of the script left. -/
structure InputHeld (c : DeviceConfig) (d : LineId) (s : State) (rest : List Turn) (t : State) : Prop where
  controller : SameController s t
  history : History s t
  spi : t.spi = .configured (defaultedPath c.busPath) c.clockHz c.mode c.noCs
  drdy : t.drdy = s.drdy.acquiredAs d .input false (!(s.lineEnv d).reserved)
  sync : SameSlot .sync s t
  script : t.env.script = rest
  calls : t.calls =
    s.calls ++ spiOpenCalls (defaultedPath c.busPath) c.clockHz c.mode c.noCs ++ acquireCalls d .input false
  others : ∀ l, l ≠ d → t.lineEnv l = s.lineEnv l

/-- Eight granted turns take ACQ.OPEN to its last resource step. -/
theorem acquireAll_of_input {s : State} {ts rest : List Turn} (unused : s.Unused) (h : s.env.script = ts ++ rest)
    (len : ts.length = 8) (g : QuietGrants ts) (c : DeviceConfig) (d : LineId) :
    ∃ t, InputHeld c d s rest t ∧ ∀ m, acquireAll c d m s = acquireSyncLine m t := by
  obtain ⟨a1, a2, a3, a4, more, rfl, ga, gm, len⟩ := g.four len
  obtain ⟨b1, b2, b3, b4, last, rfl, gb, _, zero⟩ := gm.four len
  obtain rfl := List.length_eq_zero_iff.1 zero
  obtain ⟨u, eu, onSpi, spi, turns, opened, lines⟩ :=
    spiOpenBody_granted unused.spi h ga (defaultedPath c.busPath) c.clockHz c.mode c.noCs
  obtain ⟨t, et, on, script, calls, slot, _, quiet⟩ :=
    lineAcquireBody_granted (k := .drdy) (d := .input) (l := d) (onSpi.drdy.line.trans unused.drdy) (fun _ => rfl)
      turns gb.granted (gb b1 (by simp)).2
  have others := (quiet ⟨(gb b2 (by simp)).2, (gb b3 (by simp)).2, (gb b4 (by simp)).2⟩).2
  refine ⟨t, ⟨onSpi.controller.trans on.controller, onSpi.history.trans on.history, on.spi.trans spi, ?_,
    LineSlot.SameButLatch.trans onSpi.sync on.other, script, by rw [calls, opened],
    fun l hl => (others l hl).trans (lines l)⟩, fun m => ?_⟩
  · rw [← lines d]
    exact slot.trans (LineSlot.acquiredAs_of_cleared onSpi.drdy.cleared ..)
  · rw [acquireAll, eu, Ran.andThen_ok, et, Ran.andThen_ok]

/-! ### The last step and the commit -/

section
variable {s : State} (unused : s.Unused) {c : DeviceConfig} {d : LineId} {m : Option LineId}
  (lines : checkLines (applyDefaults c) = .lines d m)
include unused lines

theorem exec_acqOpen_of_granted {t : State} (h : acquireAll (applyDefaults c) d m s = .ok t) :
    exec (.acqOpen (some c)) s = .next ((commitOpen (applyDefaults c) t).complete ⟨.ok, .nothing⟩) := by
  rw [exec_eq_finish, commandBody, acqOpenBody_of_lines unused c lines, h, Ran.onError_ok, Ran.andThen_ok, finish_ok]

theorem exec_acqOpen_of_failed {t : State} {e : Cause} (h : acquireAll (applyDefaults c) d m s = .ioFailure e t) :
    exec (.acqOpen (some c)) s = .next ((acqCloseBody t).complete ⟨.ioFailure e, .nothing⟩) := by
  have failed : ResultCode.ioFailure e ≠ .ok := nofun
  rw [exec_eq_finish, commandBody, acqOpenBody_of_lines unused c lines, h, Ran.ioFailure, Ran.onError_error failed,
    Ran.andThen_error failed, finish_error]

end

/-- Settles O41: eight granted turns, and no line for SYNC. -/
theorem acquisitionOpensWithoutSync : Obligations.AcquisitionOpensWithoutSync := by
  intro c d s ts rest unused hd he h len granted quiet
  obtain ⟨t, held, all⟩ := acquireAll_of_input unused h len (fun x hx => ⟨granted x hx, quiet x hx⟩) (applyDefaults c) d
  have path := defaultedPath_applyDefaults c
  refine ⟨_, exec_acqOpen_of_granted unused (checkLines_of_disabled hd he) (all none),
    .of_history (held.history.trans (commitOpen_history _ t)) _, State.driverState_of_opened rfl rfl, rfl, rfl, ?_,
    held.drdy, held.sync, held.controller.raw, held.controller.diag, held.controller.refused, held.controller.pending,
    held.script, ?_, held.others⟩
  · rw [← path]
    exact held.spi
  · rw [← path]
    exact held.calls

/-- Settles O42: four more granted turns, whose acquisition of SYNC leaves DRDY alone. -/
theorem acquisitionOpensWithSync : Obligations.AcquisitionOpensWithSync := by
  intro c d m s ts rest unused hd he hs hne h len granted quiet
  have all : QuietGrants ts := fun x hx => ⟨granted x hx, quiet x hx⟩
  rw [← List.take_append_drop 8 ts] at all
  obtain ⟨first, last⟩ := List.forall_mem_append.1 all
  obtain ⟨a1, a2, a3, a4, more, split, g, _, zero⟩ := QuietGrants.four (n := 0) last (by rw [List.length_drop, len])
  obtain rfl := List.length_eq_zero_iff.1 zero
  have h' : s.env.script = ts.take 8 ++ (a1 :: a2 :: a3 :: a4 :: rest) := by
    rw [h]
    calc ts ++ rest = ts.take 8 ++ ts.drop 8 ++ rest := by rw [List.take_append_drop]
      _ = _ := by rw [split, List.append_assoc]; rfl
  obtain ⟨t, held, steps⟩ :=
    acquireAll_of_input unused h' (by rw [List.length_take, len]; rfl) first (applyDefaults c) d
  have free : t.sync.line = none := held.sync.line.trans unused.sync
  obtain ⟨u, eu, on, script, calls, slot, pin, quiets⟩ :=
    lineAcquireBody_granted (k := .sync) (d := .output) (v := true) (l := m) free nofun held.script g.granted
      (g a1 (by simp)).2
  have apart := lineAcquireBody_quiet .sync m (fun _ : Dir.output = .output => rfl) held.script g.quiet
  rw [eu] at apart
  have drdy : u.drdy = t.drdy := apart.other
  have others := (quiets ⟨(g a2 (by simp)).2, (g a3 (by simp)).2, (g a4 (by simp)).2⟩).2
  have path := defaultedPath_applyDefaults c
  have controller := held.controller.trans on.controller
  refine ⟨_, exec_acqOpen_of_granted unused (checkLines_of_enabled hd he hs hne) ((steps (some m)).trans eu),
    .of_history ((held.history.trans on.history).trans (commitOpen_history _ u)) _, State.driverState_of_opened rfl rfl,
    rfl, rfl, ?_, drdy.trans held.drdy, ?_, pin rfl, controller.raw, controller.diag, controller.refused,
    controller.pending, script, ?_, fun l hd hm => (others l hm).trans (held.others l hd)⟩
  · rw [← path]
    exact on.spi.trans held.spi
  · rw [← held.others m hne]
    exact slot.trans (LineSlot.acquiredAs_of_cleared held.sync.cleared ..)
  · rw [← path]
    exact calls.trans (congrArg (· ++ _) held.calls)

end Sys2Proof.Machine
end

section
/-! SUPPORT. An ACQ.OPEN that fails at SYNC (43_acquisition.md R163, R179): what its teardown calls, and the reservations
it gives back when the environment grants the releases. -/

namespace Sys2Proof.Machine

/-! ### The releases, granted -/

/-- `t` comes from `s` by calls without an event that left `rest` of the script, gave line `l` back and kept every other
reservation. -/
structure GaveBack (l : LineId) (s : State) (rest : List Turn) (t : State) : Prop where
  script : t.env.script = rest
  free : (t.lineEnv l).reserved = false
  others : ∀ m, m ≠ l → (t.lineEnv m).reserved = (s.lineEnv m).reserved

theorem envUnreserve_gaveBack {s : State} {a : Turn} {rest : List Turn} (h : s.env.script = a :: rest)
    (ha : a.verdict = .ok) (q : a.events = []) (l : LineId) : GaveBack l s rest (envUnreserve s l).2 := by
  refine ⟨envUnreserve_script h l, envUnreserve_granted_reserved h l ha, fun m hm => ?_⟩
  have asked := (State.ask_quietTurn h q (.unreserve l)).reserved m
  rcases (envUnreserve_cases s l).2 with ⟨_, state⟩ | ⟨_, state⟩ <;> rw [state]
  · exact asked
  · rw [State.unexport_reserved_other _ hm, asked]

/-- The release of a claimed line whose handle is open. -/
theorem lineReleaseBody_gaveBack {s : State} {k : Slot} {l : LineId} {a b : Turn} {rest : List Turn}
    (h : s.env.script = a :: b :: rest) (g : QuietGrants [a, b]) (hl : (s.slot k).line = some l)
    (hh : (s.slot k).handle ≠ none) (hx : (s.slot k).exportedByUs = true) :
    GaveBack l s rest (lineReleaseBody k s) := by
  have closed := State.ask_quietTurn h (g a (by simp)).2 (.closeValue l)
  have back := envUnreserve_gaveBack closed.script (g b (by simp)).1 (g b (by simp)).2 l
  have calls : releaseCalls (s.slot k) s = (envUnreserve (s.ask (.closeValue l)).2 l).2 :=
    releaseCalls_of_own hl hh hx s
  refine ⟨?_, ?_, fun m hm => ?_⟩
  · rw [lineReleaseBody_env, calls, back.script]
  · rw [lineReleaseBody_lineEnv, calls, back.free]
  · rw [lineReleaseBody_lineEnv, calls, back.others m hm, closed.reserved]

/-- The release of a slot without a handle, its line claimed or free: the line is free after it, the others as they
were. -/
theorem lineReleaseBody_of_no_handle {s : State} {k : Slot} {l : LineId} {a : Turn} {rest : List Turn}
    (h : s.env.script = a :: rest) (g : QuietGrants [a]) (hl : (s.slot k).line = some l)
    (hh : (s.slot k).handle = none) (free : (s.slot k).exportedByUs = false → (s.lineEnv l).reserved = false) :
    ((lineReleaseBody k s).lineEnv l).reserved = false ∧
      ∀ m, m ≠ l → ((lineReleaseBody k s).lineEnv m).reserved = (s.lineEnv m).reserved := by
  simp only [lineReleaseBody_lineEnv, releaseCalls_of_line hl, hh, Option.isSome_none, Bool.false_eq_true, if_false]
  cases claimed : (s.slot k).exportedByUs with
  | false => exact ⟨free claimed, fun _ _ => rfl⟩
  | true =>
    have back := envUnreserve_gaveBack h (g a (by simp)).1 (g a (by simp)).2 l
    exact ⟨back.free, back.others⟩

theorem spiCloseBody_quietTurn {s : State} {a : Turn} {rest : List Turn} (h : s.env.script = a :: rest)
    (q : a.events = []) (opened : s.spi.isOpen = true) : QuietTurn s rest (spiCloseBody s) := by
  have closed := State.ask_quietTurn h q .spiClose
  rw [spiCloseBody, if_pos opened]
  exact ⟨fun k => by rw [← closed.slot k]; cases k <;> rfl, closed.reserved, closed.script⟩

/-! ### The teardown -/

theorem forgetLevel_lineEnv (k : Slot) (before s : State) (l : LineId) :
    (forgetLevel k before s).lineEnv l = s.lineEnv l := by
  unfold forgetLevel
  split
  · rw [drawLevel, State.lineEnv_setSlot, State.lineEnv_drawBit]
  · rfl

theorem forgetConfig_lineEnv (before s : State) (l : LineId) : (forgetConfig before s).lineEnv l = s.lineEnv l := by
  unfold forgetConfig
  split <;> rfl

/-- What ACQ.CLOSE leaves of the lines is what its releases leave of them. -/
theorem acqCloseBody_lineEnv (s : State) (l : LineId) :
    (acqCloseBody s).lineEnv l = (lineReleaseBody .sync (lineReleaseBody .drdy (spiCloseBody s))).lineEnv l := by
  simp only [acqCloseBody, forgetConfig_lineEnv, forgetLevel_lineEnv, State.zeroRaw_eq]
  rfl

/-- What a failed acquisition of SYNC leaves in use: the SPI handle, the claimed DRDY line and its handle, and the SYNC
line without a handle. -/
structure FailedSync (d m : LineId) (s : State) : Prop where
  spi : s.spi.isOpen = true
  drdyLine : s.drdy.line = some d
  drdyHandle : s.drdy.handle = some .input
  drdyClaimed : s.drdy.exportedByUs = true
  syncLine : s.sync.line = some m
  syncHandle : s.sync.handle = none

theorem FailedSync.calls {d m : LineId} {s : State} (h : FailedSync d m s) :
    (acqCloseBody s).calls =
      s.calls ++ [.spiClose, .closeValue d, .unreserve d] ++ (if s.sync.exportedByUs then [.unreserve m] else []) := by
  rw [acqCloseBody_calls]
  simp [releaseCallList, h.spi, h.drdyLine, h.drdyHandle, h.drdyClaimed, h.syncLine, h.syncHandle]

/-- Both lines are free after the granted teardown, if a SYNC line that is not claimed was free. -/
theorem FailedSync.gaveBack {d m : LineId} {s : State} {a b c e : Turn} {rest : List Turn} (h : FailedSync d m s)
    (turns : s.env.script = a :: b :: c :: e :: rest) (g : QuietGrants [a, b, c, e]) (hne : m ≠ d)
    (free : s.sync.exportedByUs = false → (s.lineEnv m).reserved = false) :
    ((acqCloseBody s).lineEnv d).reserved = false ∧ ((acqCloseBody s).lineEnv m).reserved = false := by
  have spi := spiCloseBody_quietTurn turns (g a (by simp)).2 h.spi
  have drdySlot := spi.slot .drdy
  have drdy : GaveBack d (spiCloseBody s) (e :: rest) (lineReleaseBody .drdy (spiCloseBody s)) :=
    lineReleaseBody_gaveBack spi.script (g.sub (by simp)) (by rw [drdySlot]; exact h.drdyLine)
      (by rw [drdySlot]; exact ne_of_eq_of_ne h.drdyHandle nofun) (by rw [drdySlot]; exact h.drdyClaimed)
  have same : s.sync.SameButLatch (lineReleaseBody .drdy (spiCloseBody s)).sync := by
    have kept := (lineReleaseBody_onSlot .drdy (spiCloseBody s)).1.other
    rwa [SameSlot, otherSlot, spi.slot] at kept
  obtain ⟨freed, others⟩ := lineReleaseBody_of_no_handle (k := .sync) drdy.script (g.sub (by simp))
    (same.line.trans h.syncLine) (same.handle.trans h.syncHandle) fun unclaimed => by
      rw [drdy.others m hne, spi.reserved, free (same.exportedByUs.symm.trans unclaimed)]
  rw [acqCloseBody_lineEnv, acqCloseBody_lineEnv]
  exact ⟨(others d hne.symm).trans drdy.free, freed⟩

/-! ### The failing acquisition -/

/-- LINE.ACQUIRE by an empty slot that fails at step `done.length + 1`: its calls, and the slot it leaves
(41_gpio_line.md R117). -/
theorem lineAcquireBody_fails {s : State} {k : Slot} {d : Dir} {v : Bool} {l : LineId} {done : List Turn} {bad : Turn}
    {rest : List Turn} {c : EnvCause} (empty : (s.slot k).Empty) (hv : d = .input → v = false)
    (h : s.env.script = done ++ bad :: rest) (hn : done.length ≤ 3) (g : QuietGrants done)
    (hb : bad.verdict = .fail c) :
    ∃ u, lineAcquireBody k l d v s = .ioFailure (.env c) u ∧ OnSlot k s u ∧ u.env.script = rest ∧
      u.calls = s.calls ++ (acquireCalls l d v).take (done.length + 1) ∧ (u.slot k).line = some l ∧
      (u.slot k).handle = none ∧ (u.slot k).exportedByUs = (decide (1 ≤ done.length) && !(s.lineEnv l).reserved) := by
  obtain ⟨u, e, hu, hs⟩ := acquireReserve_fails hb k l d v (by rw [State.holding_env]; exact h) hn g.granted g.quiet
    (congrArg LineSlot.line (s.holding_slot k l))
  rw [State.holding_slot, State.holding_lineEnv] at hs
  have slot := hs.trans (foldl_acquireSteps empty l d v _ hn)
  exact ⟨u, (lineAcquireBody_of_free empty.line hv l).trans e, (s.holding_onSlot k l).trans hu.onSlot, hu.script,
    by simpa only [State.holding_calls] using hu.calls, congrArg LineSlot.line slot, congrArg LineSlot.handle slot,
    congrArg LineSlot.exportedByUs slot⟩

/-- After a failed acquisition of SYNC all three resources are in use, as far as they were acquired. -/
theorem InputHeld.failedSync {c : DeviceConfig} {d m : LineId} {s t u : State} {rest : List Turn}
    (h : InputHeld c d s rest t) (free : (s.lineEnv d).reserved = false) (on : OnSlot .sync t u)
    (line : u.sync.line = some m) (handle : u.sync.handle = none) : FailedSync d m u := by
  have drdy : t.drdy.SameButLatch u.drdy := on.other
  refine ⟨congrArg SpiState.isOpen (on.spi.trans h.spi), drdy.line.trans ?_, drdy.handle.trans ?_,
    drdy.exportedByUs.trans ?_, line, handle⟩ <;> rw [h.drdy]
  · rfl
  · rfl
  · rw [free]
    rfl

/-- Settles O47: the failing acquisition of SYNC after eight granted turns, and the close of what was acquired. Nothing
but the failed reservation touched a SYNC line that is not claimed. -/
theorem failedSyncAcquisitionReleasesAll : Obligations.FailedSyncAcquisitionReleasesAll := by
  intro c d m s ts done bad rest e unused _ syncEmpty hd he hs hne h len hn gts gdone qts qdone qbad hb freeD freeM
  rw [List.append_assoc] at h
  obtain ⟨t, held, steps⟩ := acquireAll_of_input unused h len (fun x hx => ⟨gts x hx, qts x hx⟩) (applyDefaults c) d
  obtain ⟨u, eu, on, script, calls, line, handle, claimed⟩ :=
    lineAcquireBody_fails (k := .sync) (l := m) (d := .output) (v := true) (held.sync.empty syncEmpty) nofun held.script
      hn (fun x hx => ⟨gdone x hx, qdone x hx⟩) hb
  have lineM : t.lineEnv m = s.lineEnv m := held.others m hne
  rw [lineM, freeM, Bool.not_false, Bool.and_true] at claimed
  have failed := held.failedSync freeD on line handle
  have torn := (acqCloseBody_tornDown (held.controller.trans on.controller)).complete ⟨.ioFailure (.env e), .nothing⟩
  have history := (held.history.trans on.history).trans (acqCloseBody_closedFrom u).history
  refine ⟨_, exec_acqOpen_of_failed unused (checkLines_of_enabled hd he hs hne) ((steps (some m)).trans eu),
    .of_history history _, State.driverState_of_closed torn.isOpen, torn.spi, torn.drdy, torn.sync, ?_,
    fun quiet four => ?_⟩
  · rw [State.complete_calls, failed.calls, calls, held.calls, defaultedPath_applyDefaults]
    simp only [State.slot] at claimed
    simp only [claimed, decide_eq_true_eq]
    rfl
  · obtain ⟨a, b, c, f, more, rfl⟩ := exists_first_four four
    have g : QuietGrants [a, b, c, f] := quiet
    refine failed.gaveBack script g hne fun unclaimed => ?_
    have first : done = [] := by
      have few : ¬ 1 ≤ done.length := of_decide_eq_false (claimed.symm.trans unclaimed)
      exact List.length_eq_zero_iff.1 (by omega)
    have kept := lineAcquireBody_quiet (a := bad) (b := a) (c := b) (e := c) .sync m
      (fun _ : Dir.output = .output => rfl) (by rw [held.script, first]; rfl) (List.forall_mem_cons.2 ⟨qbad, (g.sub (by simp)).quiet⟩)
    rw [eu] at kept
    rw [AcquiredQuietly.unclaimed kept unclaimed, lineM, freeM]

end Sys2Proof.Machine
end

section
/-! SUPPORT. The environment's steps and the underlying calls leave the block's state, but for the latches
(10_state.md R31, R44, 60_exceptions.md R214, R218). -/

namespace Sys2Proof.Machine

/-- Recording a call, whatever its arguments, is no change of the block. -/
theorem State.logCall_sameBlock (s : State) (c : Call) : SameBlock s (s.logCall c) :=
  ⟨⟨rfl, rfl, rfl, rfl, rfl, rfl, rfl, rfl⟩, rfl, .refl _, .refl _⟩

theorem State.ask_sameBlock (s : State) (c : Call) : SameBlock s (s.ask c).2 :=
  (s.logCall_sameBlock c).trans (s.logCall c).nextTurn_byEnv.block

/-- The exchange, whatever it transmits. -/
theorem envSpiTransfer_sameBlock (s : State) (tx : FrameBuf) : SameBlock s (envSpiTransfer s tx).2 := by
  rw [envSpiTransfer_state]
  exact s.ask_sameBlock _

/-- Settles O19: each step and each call is `ByEnv`, or is the recording of a call and a turn. -/
theorem environmentReachesOnlyLatches : Obligations.EnvironmentReachesOnlyLatches := by
  refine ⟨fun s e => (s.envStep_byEnv e).block, fun s c => s.ask_sameBlock c, fun s l d e v acc => ?line,
    fun s k => (envWaitTurn_byEnv s k).1.block, fun s path mode bits noCs hz tx us => ?spi⟩
  case line =>
    exact ⟨(envReserve_cases s l).1.block, (envUnreserve_cases s l).1.block, (envSetDirection_byEnv s l d).1.block,
      (envSetEdge_byEnv s l e).1.block, (envSetInitialLevel_byEnv s l v).1.block, (envOpenValue_byEnv s l acc).1.block,
      (envCloseValue_byEnv s l).1.block, (envReadValue_byEnv s l).1.block, (envWriteValue_byEnv s l v).1.block⟩
  case spi =>
    exact ⟨(envSpiOpen_byEnv s path).1.block, (envSpiSetMode_byEnv s mode noCs).1.block,
      (envSpiSetBits_byEnv s bits).1.block, (envSpiSetSpeed_byEnv s hz).1.block, envSpiTransfer_sameBlock s tx,
      (envSpiClose_byEnv s).1.block, (envClock_cases s).1.block, (envDelay_byEnv s us).1.block⟩

end Sys2Proof.Machine
end

section
/-! SUPPORT. The codes of 60_exceptions.md R201 and the output records of 30_encoding.md R91: what each body may
answer, from any state, and what a blocked command may answer when it is taken up again. -/

namespace Sys2Proof.Machine

/-! ### Responses a command may give -/

theorem Answers.ok {i : Instr} {o : Output} (h : outputFits i o) : Answers i ⟨.ok, o⟩ :=
  ⟨rfl, fun _ => h, absurd rfl⟩

theorem Answers.error {i : Instr} {c : ResultCode} (hc : c ≠ .ok) (h : (codeRow i).allows c = true) :
    Answers i ⟨c, .nothing⟩ :=
  ⟨h, fun e => absurd e hc, fun _ => rfl⟩

theorem Answers.ioFailure {i : Instr} (h : (codeRow i).ioFailure = true) (c : Cause) :
    Answers i ⟨.ioFailure c, .nothing⟩ := .error nofun h

theorem Answers.notPermitted {i : Instr} (h : (codeRow i).notPermitted = true) :
    Answers i ⟨.notPermitted, .nothing⟩ := .error nofun h

/-- A response without an output, from a command that has none. -/
theorem Answers.of_nothing {i : Instr} {p : Response} (fits : outputFits i .nothing) (out : p.output = .nothing)
    (h : (codeRow i).allows p.code = true) : Answers i p :=
  ⟨h, fun _ => out ▸ fits, fun _ => out⟩

/-- OK, or an I/O failure, without an output: all that a resource step may answer. -/
structure Response.OfResource (p : Response) : Prop where
  output : p.output = .nothing
  code : p.code = .ok ∨ ∃ c, p.code = .ioFailure c

theorem Response.OfResource.answers {i : Instr} {p : Response} (h : p.OfResource) (fits : outputFits i .nothing)
    (io : (codeRow i).ioFailure = true) : Answers i p := by
  refine .of_nothing fits h.output ?_
  rcases h.code with code | ⟨c, code⟩ <;> rw [code]
  · rfl
  · exact io

/-- The rows of the commands that wait allow every code of a wait, and NOT_PERMITTED. -/
theorem CodeRow.allows_of_ofStart {r : CodeRow} {c : ResultCode} (h : c.ofStart) (notPermitted : r.notPermitted = true)
    (timedOut : r.timedOut = true) (io : r.ioFailure = true) : r.allows c = true := by
  rcases h with rfl | rfl | rfl | ⟨e, rfl⟩
  · rfl
  · exact notPermitted
  · exact timedOut
  · exact io

theorem ResultCode.ofWait.ofStart {c : ResultCode} (h : c.ofWait) : c.ofStart := h.imp id .inr

/-! ### The bodies of the line unit and of the SPI master -/

theorem acquireReserve_ofResource (k : Slot) (l : LineId) (d : Dir) (v : Bool) (s : State) :
    (acquireReserve k l d v s).Holds (fun p _ => p.OfResource) (fun _ _ => False) := by
  have later : ∀ u, (acquireDirection k l d v u).Holds (fun p _ => p.OfResource) (fun _ _ => False) := fun u =>
    (acquireDirection_holds k l d v u).mono (fun _ _ h => ⟨h.1.output, h.1.code⟩) (fun _ _ h => h)
  unfold acquireReserve
  generalize envReserve s l = r
  obtain ⟨a, u⟩ := r
  cases a with
  | fail c => exact ⟨rfl, .inr ⟨c, rfl⟩⟩
  | ok => exact later _
  | busy => exact later _

theorem lineAcquireBody_ofResource (k : Slot) (l : LineId) (d : Dir) (v : Bool) (s : State) :
    (lineAcquireBody k l d v s).Holds (fun p _ => p.OfResource) (fun _ _ => False) := by
  unfold lineAcquireBody
  split
  · trivial
  split
  · trivial
  · exact acquireReserve_ofResource k l d v _

theorem lineWaitBody_answers (k : Slot) (ms : U32) (s : State) :
    (lineWaitBody k ms s).Holds (fun p _ => Answers (.lineWait k ms) p) (fun w _ => w.belongsTo (.lineWait k ms)) := by
  refine (lineWaitBody_holds k ms s).mono ?_ ?_
  · rintro p t ⟨_, _, out, code, _⟩
    have start : p.code.ofStart := code.elim ResultCode.ofWait.ofStart fun h => .inr (.inl h.1)
    exact .of_nothing rfl out (CodeRow.allows_of_ofStart start rfl rfl rfl)
  · rintro w t ⟨_, _, rfl, _⟩
    exact ⟨ms, rfl⟩

theorem lineWaitResume_answers (k : Slot) (ms : U32) (s : State) :
    (lineWaitResume k s).Holds (fun p _ => Answers (.lineWait k ms) p) (fun w _ => w.belongsTo (.lineWait k ms)) := by
  refine (lineWaitResume_holds k s).mono ?_ ?_
  · rintro p t ⟨_, _, out, code, _⟩
    exact .of_nothing rfl out (CodeRow.allows_of_ofStart code.ofStart rfl rfl rfl)
  · rintro w t ⟨_, _, rfl, _⟩
    exact ⟨ms, rfl⟩

theorem lineGetBody_answers (k : Slot) (s : State) :
    (lineGetBody k s).Holds (fun p _ => Answers (.lineGet k) p) (fun w _ => w.belongsTo (.lineGet k)) := by
  refine (lineGetBody_holds k s).mono ?_ (fun _ _ h => h.elim)
  rintro p t ⟨_, _, ⟨l, _, rfl⟩ | ⟨c, rfl⟩ | ⟨rfl, _⟩⟩
  · exact .ok ⟨_, rfl⟩
  · exact .ioFailure rfl c
  · exact .notPermitted rfl

theorem lineSetBody_answers (k : Slot) (v : Level) (s : State) :
    (lineSetBody k v s).Holds (fun p _ => Answers (.lineSet k v) p) (fun w _ => w.belongsTo (.lineSet k v)) := by
  refine (lineSetBody_holds k v s).mono ?_ (fun _ _ h => h.elim)
  rintro p t ⟨_, _, _, out, code⟩
  refine .of_nothing rfl out ?_
  rcases code with ⟨_, _, code, _⟩ | ⟨_, code⟩ | ⟨code, _⟩ <;> rw [code] <;> rfl

theorem spiOpenBody_ofResource (path : BusPath) (hz : U32) (mode : U8) (noCs : Bool) (s : State) :
    (spiOpenBody path hz mode noCs s).Holds (fun p _ => p.OfResource) (fun _ _ => False) :=
  (spiOpenBody_holds path hz mode noCs s).mono (fun _ _ h => ⟨h.output, h.code⟩) (fun _ _ h => h)

theorem spiXferBody_answers (len : U32) (s : State) :
    (spiXferBody len s).Holds (fun p _ => Answers (.spiXfer len) p) (fun w _ => w.belongsTo (.spiXfer len)) := by
  refine (spiXferBody_holds len s).mono ?_ (fun _ _ h => h.elim)
  rintro p t ⟨_, _, ⟨rx, rfl⟩ | ⟨c, rfl⟩ | ⟨rfl, _⟩⟩
  · exact .ok ⟨rx, rfl⟩
  · exact .ioFailure rfl c
  · exact .notPermitted rfl

/-! ### ACQ.OPEN -/

theorem acquireAll_ofResource (c : DeviceConfig) (d : LineId) (m : Option LineId) (s : State) :
    (acquireAll c d m s).Holds (fun p _ => p.OfResource) (fun _ _ => False) := by
  have master := (spiOpenBody_ofResource (defaultedPath c.busPath) c.clockHz c.mode c.noCs s).andThen
    (fun _ u _ => lineAcquireBody_ofResource .drdy d .input false u) (fun _ _ _ h => h) (fun _ _ h => h)
  refine master.andThen (fun _ u _ => ?_) (fun _ _ _ h => h) (fun _ _ h => h)
  cases m with
  | none => exact ⟨rfl, .inl rfl⟩
  | some l => exact lineAcquireBody_ofResource .sync l .output true u

/-- Past its checks ACQ.OPEN answers as its resource steps do; the clean-up of a failure keeps the code
(60_exceptions.md R210). -/
theorem acqOpenBody_answers (cfg : Option DeviceConfig) (s : State) :
    (acqOpenBody cfg s).Holds (fun p _ => Answers (.acqOpen cfg) p) (fun w _ => w.belongsTo (.acqOpen cfg)) := by
  cases cfg with
  | none =>
    rw [acqOpenBody_of_absent]
    exact .error nofun rfl
  | some c =>
    cases opened : s.isOpen with
    | true =>
      rw [acqOpenBody_of_open opened]
      exact .error nofun rfl
    | false =>
      by_cases unused : s.Unused
      case neg =>
        rw [acqOpenBody_of_used opened unused]
        trivial
      cases found : checkLines (applyDefaults c) with
      | missing =>
        rw [acqOpenBody_of_missing unused c found]
        exact .error nofun rfl
      | clash =>
        rw [acqOpenBody_of_clash unused c found]
        trivial
      | lines d m =>
        rw [acqOpenBody_of_lines unused c found]
        have ends := (acquireAll_ofResource (applyDefaults c) d m s).onError (f := acqCloseBody)
          (fun _ _ _ h => h) (fun _ _ _ h => h) (fun _ _ h => h)
        exact ends.andThen (fun _ _ _ => .ok rfl) (fun _ _ _ h => h.answers rfl rfl) (fun _ _ h => h.elim)

/-! ### ACQ.READ and ACQ.START -/

/-- A read ends with a Frame, or without an output and with one of the codes of a start. -/
theorem ReadEnds.frame_or_failed {s t : State} {p : Response} (h : ReadEnds s p t) :
    (∃ f, p = ⟨.ok, .frame f⟩) ∨ p.output = .nothing ∧ p.code ≠ .ok ∧ p.code.ofStart := by
  rcases h with ⟨f, hp, _⟩ | ⟨out, _, _, _, code⟩
  · exact .inl ⟨f, hp⟩
  · refine .inr ⟨out, ?_⟩
    rcases code with code | ⟨c, code⟩ | ⟨code, _⟩ <;> rw [code]
    · exact ⟨nofun, .inr (.inr (.inl rfl))⟩
    · exact ⟨nofun, .inr (.inr (.inr ⟨c, rfl⟩))⟩
    · exact ⟨nofun, .inr (.inl rfl)⟩

theorem ReadEnds.answers_acqRead {s t : State} {p : Response} (h : ReadEnds s p t) : Answers (.acqRead true) p := by
  rcases h.frame_or_failed with ⟨f, rfl⟩ | ⟨out, failed, code⟩
  · exact .ok ⟨f, rfl⟩
  · exact ⟨CodeRow.allows_of_ofStart code rfl rfl rfl, fun e => absurd e failed, fun _ => out⟩

theorem acqReadBody_answers (present : Bool) (s : State) :
    (acqReadBody present s).Holds (fun p _ => Answers (.acqRead present) p)
      (fun w _ => w.belongsTo (.acqRead present)) := by
  cases present with
  | false =>
    rw [acqReadBody_of_absent]
    exact .error nofun rfl
  | true =>
    cases started : s.started with
    | false =>
      rw [acqReadBody_of_not_started started]
      exact .notPermitted rfl
    | true =>
      rw [acqReadBody_of_started started]
      refine (readBody_holds .acqRead s).mono (fun _ _ h => h.2.answers_acqRead) ?_
      rintro w t ⟨rfl, _⟩
      rfl

theorem acqRawBody_answers (present : Bool) (s : State) :
    (acqRawBody present s).Holds (fun p _ => Answers (.acqRaw present) p)
      (fun w _ => w.belongsTo (.acqRaw present)) := by
  cases present with
  | false =>
    rw [acqRawBody_of_absent]
    exact .error nofun rfl
  | true => exact .ok ⟨_, rfl⟩

/-- A start's response: no output, and one of its codes (60_exceptions.md R201). -/
theorem answers_acqStart {p : Response} (out : p.output = .nothing) (code : p.code.ofStart) : Answers .acqStart p :=
  .of_nothing rfl out (CodeRow.allows_of_ofStart code rfl rfl rfl)

/-- Settle reads after `r`, whose own failures a start may answer: a Frame is not passed on, and neither the reads nor
the reversal of a failure adds another code (43_acquisition.md R168, R169). -/
theorem settled_answers {r : Ran} (n : Nat)
    (h : r.Holds (fun p _ => p.code = .ok ∨ Answers .acqStart p) (fun w _ => w.belongsTo .acqStart)) :
    ((r.andThen (settleReads n)).onError revertStart).Holds (fun p _ => Answers .acqStart p)
      (fun w _ => w.belongsTo .acqStart) := by
  have run : (r.andThen (settleReads n)).Holds (fun p _ => Answers .acqStart p) (fun w _ => w.belongsTo .acqStart) := by
    refine h.andThen (fun _ t _ => ?_) (fun _ _ failed h => h.resolve_left failed) (fun _ _ h => h)
    refine (settleReads_holds n t).mono (fun _ _ h => answers_acqStart h.2.1 h.2.2.1) ?_
    rintro w u ⟨_, _, _, rfl, _⟩
    rfl
  exact run.onError (fun _ _ _ h => h) (fun _ _ _ h => h) (fun _ _ h => h)

theorem acqStartBody_answers (s : State) :
    (acqStartBody s).Holds (fun p _ => Answers .acqStart p) (fun w _ => w.belongsTo .acqStart) := by
  cases opened : s.isOpen with
  | false =>
    rw [acqStartBody_of_closed opened]
    exact .notPermitted rfl
  | true =>
    cases started : s.started with
    | true =>
      rw [acqStartBody_of_started opened started]
      exact .ok rfl
    | false =>
      cases enabled : s.cfg.syncEnable with
      | false =>
        rw [acqStartBody_of_disabled opened started enabled]
        exact .ok rfl
      | true =>
        rw [acqStartBody_of_enabled opened started enabled]
        refine settled_answers _ ((syncPulse_holds _).mono ?_ (fun _ _ h => h.elim))
        rintro p t ⟨_, _, _, out, code⟩
        exact .inr (answers_acqStart out code)

theorem acqStartResume_answers (n : Nat) (s : State) :
    (acqStartResume n s).Holds (fun p _ => Answers .acqStart p) (fun w _ => w.belongsTo .acqStart) := by
  refine settled_answers n ((readResume_holds (.acqStart n) s).mono ?_ ?_)
  · rintro p t ⟨_, ends⟩
    rcases ends.frame_or_failed with ⟨f, rfl⟩ | ⟨out, _, code⟩
    · exact .inl rfl
    · exact .inr (answers_acqStart out code)
  · rintro w t ⟨rfl, _⟩
    rfl

/-! ### Every command, and every blocked command taken up again -/

theorem commandBody_answers (i : Instr) (s : State) :
    (commandBody i s).Holds (fun p _ => Answers i p) (fun w _ => w.belongsTo i) := by
  cases i with
  | lineAcquire k d v l =>
    exact .hostOnly fun _ => (lineAcquireBody_ofResource k l d v s).mono (fun _ _ h => h.answers rfl rfl)
      (fun _ _ h => h.elim)
  | lineWait k ms => exact .hostOnly fun _ => lineWaitBody_answers k ms s
  | lineGet k => exact .hostOnly fun _ => lineGetBody_answers k s
  | lineSet k v => exact .hostOnly fun _ => lineSetBody_answers k v s
  | lineRelease k => exact .hostOnly fun _ => Answers.ok rfl
  | spiOpen path hz mode noCs =>
    exact .hostOnly fun _ => (spiOpenBody_ofResource path hz mode noCs s).mono (fun _ _ h => h.answers rfl rfl)
      (fun _ _ h => h.elim)
  | spiXfer len => exact .hostOnly fun _ => spiXferBody_answers len s
  | spiClose => exact .hostOnly fun _ => Answers.ok rfl
  | acqOpen cfg => exact acqOpenBody_answers cfg s
  | acqStart => exact acqStartBody_answers s
  | acqRead present => exact acqReadBody_answers present s
  | acqRaw present => exact acqRawBody_answers present s
  | acqStop => exact Answers.ok rfl
  | acqClose => exact Answers.ok rfl

theorem resumeBody_answers {w : Inflight} {i : Instr} (own : w.belongsTo i) (s : State) :
    (resumeBody w s).Holds (fun p _ => Answers i p) (fun v _ => v.belongsTo i) := by
  cases w with
  | lineWait k =>
    obtain ⟨ms, rfl⟩ := own
    exact lineWaitResume_answers k ms s
  | acqRead =>
    obtain rfl : i = .acqRead true := own
    refine (readResume_holds .acqRead s).mono (fun _ _ h => h.2.answers_acqRead) ?_
    rintro v t ⟨rfl, _⟩
    rfl
  | acqStart n =>
    obtain rfl : i = .acqStart := own
    exact acqStartResume_answers n s

/-- A body that answers as its command may, and keeps the history, ends its command in one of the three outcomes
(00_scope.md R15). -/
theorem outcomes_finish {i : Instr} {s : State} {r : Ran}
    (answers : r.Holds (fun p _ => Answers i p) (fun w _ => w.belongsTo i))
    (history : r.Holds (fun _ t => History s t) (fun _ t => History s t)) : Outcomes i s (finish s r) := by
  rcases finish_of_holds (s := s) (answers.and history) with ⟨p, t, e, ans, hist⟩ | e | ⟨w, t, e, own, hist⟩ <;> rw [e]
  · exact .inr (.inr ⟨p, .of_history hist p, ans, hist.refused⟩)
  · exact .inl rfl
  · exact .inr (.inl ⟨w, rfl, own, hist.cp, hist.out, hist.refused⟩)

/-- Settles O9: every body answers within its row and keeps the history. -/
theorem commandsReturnTheirCodes : Obligations.CommandsReturnTheirCodes := by
  refine ⟨fun i s t _ h => ?_, fun i w s t hw own h => ?_, rfl, fun _ => rfl⟩
  · rw [exec_next h]
    exact outcomes_finish (commandBody_answers i s)
      ((commandBody_effect i s).mono (fun _ _ h => h.1.history) (fun _ _ h => h.history))
  · rw [step_of_inflight hw] at h
    rw [← Host.Outcome.next.inj h]
    exact outcomes_finish (resumeBody_answers own s)
      ((resumeBody_resumed w s).mono (fun _ _ h => h.1.history) (fun _ _ h => h.history))

end Sys2Proof.Machine
end

section
/-! SUPPORT. What reset leaves (70_reset_and_hazards.md R230, 10_state.md R50). -/

namespace Sys2Proof.Machine

/-- Settles O6: reset meets the invariant (O7) with the block closed and no line in a slot, so the counter and the
shadow are zero and the slots are empty. -/
theorem resetLeavesTheBlockClosed : Obligations.ResetLeavesTheBlockClosed := by
  have inv : State.reset.Inv := resetMeetsTheInvariant
  have closed : State.reset.isOpen = false := rfl
  obtain ⟨seq, raw⟩ := inv.closed closed
  have drdy : State.reset.drdy.Empty := inv.drdy.empty rfl
  have sync : State.reset.sync.Empty := inv.sync.empty rfl
  exact ⟨State.driverState_of_closed closed, closed, rfl, seq, raw, rfl, drdy, sync, rfl, rfl⟩

end Sys2Proof.Machine
end
